-- ==== Sys2Proof/Word.lean ====
section
/-! DEFINITION. The word types of the tone modem block (R9, R10). -/

namespace Sys2Proof

/-- A register of the block: 32 bits (R9). -/
abbrev Word := BitVec 32

/-- A byte of host memory, of a payload, of a frame (R80). -/
abbrev Byte := BitVec 8

/-- An internal sample: a 16-bit two's complement value (R9). -/
abbrev Sample := BitVec 16

/-- A symbol accumulator: 64 bits unsigned (R53). -/
abbrev Acc := BitVec 64

end Sys2Proof
end

