-- ==== Sys2Proof/Syntax.lean ====
section
/-! DEFINITION. The twelve commands of the block (R102), one constructor per row of the opcode table. The operands are the
unsigned numbers their fields spell (R101), so they are naturals; WellFormed bounds them by the fields' widths. -/

namespace Sys2Proof

/-- A command of the block. `proto` is the PROTO field, `volume` the VOLUME field, `stop` the STOP bit (R101). -/
inductive Instr where
  /-- NOP (R300). -/
  | nop
  /-- CONFIG, the source's `createInstance` (R301). -/
  | config
  /-- DECONFIG, the source's `destroyInstance` (R305). -/
  | deconfig
  /-- PROFILE_QUERY, the source's `profileFor` (R136). -/
  | profileQuery (proto : Nat)
  /-- FRAME_BUILD, the source's `buildFrame` (R170). -/
  | frameBuild (proto : Nat)
  /-- FRAME_RECOVER, the source's `recoverFrame` (R171). -/
  | frameRecover (proto : Nat)
  /-- SYMBOL_MAP (R209). -/
  | symbolMap (proto : Nat)
  /-- RENDER (R210). -/
  | render (proto volume : Nat)
  /-- ENCODE, the source's `encode` (R211). -/
  | encode (proto volume : Nat)
  /-- SPECTRUM (R244). -/
  | spectrum
  /-- FEED, the source's `decode` step (R258); `stop` is FEED.STOP. -/
  | feed (stop : Bool)
  /-- DECODER_RESET (R259). -/
  | decoderReset
  deriving DecidableEq, Repr

end Sys2Proof
end

