-- ==== Sys2Proof/WellFormed.lean ====
section
/-! DEFINITION. Which terms of Instr a command word can spell: each operand fits its field (R101, R104, R105). A PROTO of 12 or more
and a VOLUME above 100 are well formed: they decode, and the command then finishes with an error (R104, R105). -/

namespace Sys2Proof

/-- A PROTO operand fits bits [15:8] (R101). -/
def protoFits (p : Nat) : Bool := p < 256

/-- A VOLUME operand fits bits [22:16] (R101). -/
def volumeFits (v : Nat) : Bool := v < 128

/-- Every operand fits the field that holds it. -/
def Instr.wellFormed : Instr → Bool
  | .nop | .config | .deconfig | .spectrum | .feed _ | .decoderReset => true
  | .profileQuery p | .frameBuild p | .frameRecover p | .symbolMap p => protoFits p
  | .render p v | .encode p v => protoFits p && volumeFits v

end Sys2Proof
end

