-- ==== Sys2Proof/Decode.lean ====
section
/-! DEFINITION. Decoding and encoding of command words (R100 to R111). A command is exactly one 32-bit word (R100). -/

namespace Sys2Proof

/-- Why a word is illegal (R107, R108). Every one of them completes with `IllegalCommand` (R322 step 1). -/
inductive Illegal where
  /-- A bit of RSV, [31:24], is set (R107). -/
  | reservedBits
  /-- OP is not in the table of R102 (R108). -/
  | unassignedOpcode
  /-- A field the opcode does not use is not 0 (R103, R108). -/
  | unusedFieldSet
  deriving DecidableEq, Repr

/-- The OP field, bits [7:0] (R101). -/
def opField (w : Word) : Nat := (w &&& 0xFF#32).toNat
/-- The PROTO field, bits [15:8] (R101). -/
def protoField (w : Word) : Nat := ((w >>> 8) &&& 0xFF#32).toNat
/-- The VOLUME field, bits [22:16] (R101). -/
def volumeField (w : Word) : Nat := ((w >>> 16) &&& 0x7F#32).toNat
/-- The STOP bit, [23] (R101). -/
def stopField (w : Word) : Bool := w.getLsbD 23
/-- The RSV field, bits [31:24] (R101). -/
def rsvField (w : Word) : Nat := (w >>> 24).toNat

/-- A row of the table of R103: a word selects the row when its bits under `mask` are `pattern`; the fields then
give the command. -/
structure OpcodeRow where
  pattern : Word
  mask : Word
  build : Word → Instr

/-- The exact match and mask of every opcode (R103). -/
def opcodeRows : List OpcodeRow :=
  [ ⟨0x00000000#32, 0xFFFFFFFF#32, fun _ => .nop⟩
  , ⟨0x00000001#32, 0xFFFFFFFF#32, fun _ => .config⟩
  , ⟨0x00000002#32, 0xFFFFFFFF#32, fun _ => .deconfig⟩
  , ⟨0x00000003#32, 0xFFFF00FF#32, fun w => .profileQuery (protoField w)⟩
  , ⟨0x00000010#32, 0xFFFF00FF#32, fun w => .frameBuild (protoField w)⟩
  , ⟨0x00000011#32, 0xFFFF00FF#32, fun w => .frameRecover (protoField w)⟩
  , ⟨0x00000020#32, 0xFFFF00FF#32, fun w => .symbolMap (protoField w)⟩
  , ⟨0x00000021#32, 0xFF8000FF#32, fun w => .render (protoField w) (volumeField w)⟩
  , ⟨0x00000022#32, 0xFF8000FF#32, fun w => .encode (protoField w) (volumeField w)⟩
  , ⟨0x00000030#32, 0xFFFFFFFF#32, fun _ => .spectrum⟩
  , ⟨0x00000031#32, 0xFF7FFFFF#32, fun w => .feed (stopField w)⟩
  , ⟨0x00000032#32, 0xFFFFFFFF#32, fun _ => .decoderReset⟩ ]

/-- The row a word selects (R103, R110). -/
def OpcodeRow.selects (r : OpcodeRow) (w : Word) : Bool := w &&& r.mask == r.pattern

/-- The name of what makes a word that no row selects illegal. -/
def illegalReason (w : Word) : Illegal :=
  if rsvField w ≠ 0 then .reservedBits
  else if opcodeRows.any (fun r => opField r.pattern == opField w) then .unusedFieldSet
  else .unassignedOpcode

/-- The decode function, total on every word (R110). -/
def decode (w : Word) : Except Illegal Instr :=
  match opcodeRows.find? (fun r => r.selects w) with
  | some r => .ok (r.build w)
  | none => .error (illegalReason w)

/-- The opcode of a command (R102). -/
def Instr.op : Instr → Nat
  | .nop => 0x00
  | .config => 0x01
  | .deconfig => 0x02
  | .profileQuery _ => 0x03
  | .frameBuild _ => 0x10
  | .frameRecover _ => 0x11
  | .symbolMap _ => 0x20
  | .render _ _ => 0x21
  | .encode _ _ => 0x22
  | .spectrum => 0x30
  | .feed _ => 0x31
  | .decoderReset => 0x32

/-- The PROTO operand, 0 for a command that takes none (R103). -/
def Instr.proto : Instr → Nat
  | .profileQuery p | .frameBuild p | .frameRecover p | .symbolMap p | .render p _ | .encode p _ => p
  | .nop | .config | .deconfig | .spectrum | .feed _ | .decoderReset => 0

/-- The VOLUME operand, 0 for a command that takes none (R103). -/
def Instr.volume : Instr → Nat
  | .render _ v | .encode _ v => v
  | .nop | .config | .deconfig | .profileQuery _ | .frameBuild _ | .frameRecover _ | .symbolMap _ | .spectrum
  | .feed _ | .decoderReset => 0

/-- The STOP operand, clear for a command that takes none (R103). -/
def Instr.stop : Instr → Bool
  | .feed b => b
  | .nop | .config | .deconfig | .profileQuery _ | .frameBuild _ | .frameRecover _ | .symbolMap _ | .render _ _
  | .encode _ _ | .spectrum | .decoderReset => false

/-- The encoder: `OP | p << 8 | vol << 16 | stop << 23` (R111). -/
def encode (i : Instr) : Word :=
  BitVec.ofNat 32 i.op ||| BitVec.ofNat 32 i.proto <<< 8 ||| BitVec.ofNat 32 i.volume <<< 16
    ||| (if i.stop then 1#32 else 0#32) <<< 23

/-- The mnemonic of a command as an assembler writes it (R102, R111): FEED with STOP = 1 is `FEED.STOP`. -/
def Instr.mnemonic : Instr → String
  | .nop => "NOP"
  | .config => "CONFIG"
  | .deconfig => "DECONFIG"
  | .profileQuery _ => "PROFILE_QUERY"
  | .frameBuild _ => "FRAME_BUILD"
  | .frameRecover _ => "FRAME_RECOVER"
  | .symbolMap _ => "SYMBOL_MAP"
  | .render _ _ => "RENDER"
  | .encode _ _ => "ENCODE"
  | .spectrum => "SPECTRUM"
  | .feed false => "FEED"
  | .feed true => "FEED.STOP"
  | .decoderReset => "DECODER_RESET"

/-- A command's line of assembler text, its operands in decimal (R111). -/
def Instr.text (i : Instr) : String :=
  match i with
  | .profileQuery p | .frameBuild p | .frameRecover p | .symbolMap p => i.mnemonic ++ " " ++ toString p
  | .render p v | .encode p v => i.mnemonic ++ " " ++ toString p ++ ", " ++ toString v
  | .nop | .config | .deconfig | .spectrum | .feed _ | .decoderReset => i.mnemonic

/-- The instruction the decoder reads from a table word: `nbits` bits `w`, every bit above them 0. -/
def decodeTableWord (nbits w : Nat) : Option Instr :=
  match decode (BitVec.ofNat 32 (w % 2 ^ nbits)) with
  | .ok i => some i
  | .error _ => none

end Sys2Proof
end

