-- ==== Sys2Proof/Config.lean ====
section
/-! DEFINITION. The numeric parameters of R8, and the free values: constants the spec leaves open, with no body. -/

namespace Sys2Proof.Config

/-- `HALF`: the highest DFT bin computed (R8). -/
abbrev half : Nat := 512
/-- `MARKER_WINDOWS`: windows of the start marker, and of the end marker (R8). -/
abbrev markerWindows : Nat := 16
/-- `MARKER_RATIO` (R8, R243). -/
abbrev markerRatio : Nat := 3
/-- `MARKER_MIN_POWER` = 2^24 (R8, R243). -/
abbrev markerMinPower : Nat := 16777216
/-- `SPREAD`: copies of each frame byte under DSS (R8, R162). -/
abbrev spread : Nat := 3
/-- `PN_SEED` (R8, R161). -/
abbrev pnSeed : BitVec 16 := 0xACE1#16
/-- `PROFILE_COUNT`: protocol ids 0..11 (R8). -/
abbrev profileCount : Nat := 12
/-- `MAX_FIXED`: the largest fixed payload length (R8, R302). -/
abbrev maxFixed : Nat := 64
/-- `MAX_FRAME_CHIPS` (R8, R166). -/
abbrev maxFrameChips : Nat := 603
/-- `RATE_MIN` in hertz (R8, R302). -/
abbrev rateMin : Nat := 8000
/-- `RATE_MAX` in hertz (R8, R302). -/
abbrev rateMax : Nat := 96000
/-- `TIMEOUT_RESET`: reset value of RX_TIMEOUT_WINDOWS (R8, R34). -/
abbrev timeoutReset : Word := 16384#32
/-- The size of host memory: `2^ADDR_BITS` bytes (R8, R70). -/
abbrev addrSpace : Nat := 4294967296
/-- The size of the register window in bytes (R24). -/
abbrev windowBytes : Nat := 512
/-- The ID register's constant, ASCII "GGWV" (R2, R26). -/
abbrev idValue : Word := 0x47475756#32
/-- The VERSION register's constant, interface version 1.0 (R2, R26). -/
abbrev versionValue : Word := 0x00010000#32

/-- FREE VALUE: a byte the spec calls unspecified, for the draw number and the address it stands at. Used for the
output bytes of a command that a reset abandons (R360, I15) and for what a host load returns where the host's caches
may be stale (R89). It has no body: nothing can be proved of its value (log entries 10, 11 and 17). -/
opaque freeByte : Nat → Nat → Byte

end Sys2Proof.Config
end

