-- ==== Sys2Proof/Machine/State.lean ====
section
/-! DEFINITION. The state of the block and of its environment as plain data (R20 to R58, R70, R332), the state after reset (R360), and the
reasons a step can stop (R340). -/

namespace Sys2Proof.Machine

/-- The decoder phase (R17, R50). -/
inductive Phase where
  | listening
  | synchronizing
  | recording
  | demodulating
  deriving DecidableEq, Repr

/-- The completion codes (R320). -/
inductive Code where
  | ok
  | invalidParameters
  | unsupportedProtocol
  | payloadTooLarge
  | decodeSyncTimeout
  | decodeFECFailure
  | bufferUnderrun
  | illegalCommand
  | notConfigured
  | outputOverflow
  | addressError
  | busError
  deriving DecidableEq, Repr

/-- RX_RESULT.STATUS (R44). The value 3 is reserved and never produced. -/
inductive RxStatus where
  | none
  | success
  | failure
  deriving DecidableEq, Repr

/-- Five parameter words: the PARAM registers (R30 to R33), their latched copies (R49), or the CFG registers (R38). -/
structure Params where
  rateIn : Word
  rateOut : Word
  format : Word
  payloadLen : Word
  mode : Word
  deriving DecidableEq, Repr

/-- The operand registers SRC_ADDR, SRC_LEN, DST_ADDR, DST_CAP and RX_TIMEOUT_WINDOWS (R34 to R36), or their latched
copies (R49). -/
structure Operands where
  srcAddr : Word
  srcLen : Word
  dstAddr : Word
  dstCap : Word
  timeout : Word
  deriving DecidableEq, Repr

/-- The command latch of R49, without `busy`. -/
structure Latch where
  cmd : Word
  ops : Operands
  par : Params
  deriving DecidableEq, Repr

/-- The profile query result registers, each at its field's width (R39). -/
structure ProfRegs where
  id : BitVec 8
  band : BitVec 1
  baseBin : BitVec 10
  spacing : BitVec 10
  tones : BitVec 2
  windowsPerSymbol : BitVec 8
  markerStartBin : BitVec 10
  markerEndBin : BitVec 10
  maxPayload : BitVec 8
  deriving DecidableEq, Repr

/-- The decoder state (R50 to R55). -/
structure Decoder where
  phase : Phase
  /-- The window buffer (R51). -/
  win : Vector Sample 1024
  /-- Samples held in the partial window, RX_FILL (R47, R51). -/
  fill : Fin 1024
  /-- The profile locked on, RX_PROTOCOL (R41, R52). -/
  rxProto : Fin 12
  markerCount : Nat
  windowsSince : Word
  /-- `acc[g][v]` (R53). -/
  acc : Vector (Vector Acc 16) 2
  /-- Windows of the current symbol accumulated so far (R53). -/
  wis : Nat
  chips : List Byte
  pend : Option (BitVec 4)
  hdrDone : Bool
  symExpected : Word
  symRemaining : Word
  deriving DecidableEq, Repr

/-- The published result and RX_CONSUMED (R56). -/
structure Published where
  status : RxStatus
  code : Code
  len : BitVec 8
  data : Vector Byte 144
  seq : Word
  consumed : Word
  deriving DecidableEq, Repr

/-- The addresses `base .. base + len - 1` of host memory. -/
structure Range where
  base : Nat
  len : Nat
  deriving DecidableEq, Repr

/-- The platform parameters R8 leaves OPEN, as the model's argument: `MMIO_BASE`, `HostMemPopulated` and `HostCacheCoherent` as
lists of ranges, `GTM_COUNT`, and `GTM_IRQ_ROUTE` as the host's interrupt lines that the `irq` output drives (log entry 2). -/
structure Platform where
  mmioBase : Nat
  populated : List Range
  coherent : List Range
  gtmCount : Nat
  irqRoute : List Nat
  deriving DecidableEq, Repr

/-- A command of another block that holds its buffers (R90, R96): the block's number, 1 to GTM_COUNT - 1 (this block is
number 0), the command's ranges, and whether it still runs; one that ended holds them until the host reads that block's
STATUS with BUSY = 0. -/
structure PeerRun where
  block : Nat
  input : Range
  output : Range
  running : Bool
  deriving DecidableEq, Repr

/-- A step of the environment, or the sequencer's turn (R332). -/
inductive HostAction where
  /-- A host read at a bus address, `width` bytes wide (R71, R72). -/
  | mmioRead (addr width : Nat)
  /-- A host write at a bus address, `width` bytes wide (R71, R72). -/
  | mmioWrite (addr width : Nat) (value : Word)
  /-- The host loads `len` bytes of host memory. -/
  | memLoad (addr len : Nat)
  /-- The host stores bytes in host memory (the `MEM` of R112). -/
  | memStore (addr : Nat) (bytes : List Byte)
  /-- The `WAIT` of R113: poll STATUS until BUSY reads 0. -/
  | wait
  /-- The sequencer's turn (R331); nothing happens when no command is latched. -/
  | sequencer
  /-- The platform asserts the block's reset (R360). -/
  | reset
  /-- The host writes another block's CMD, for a command with these ranges (R96). -/
  | peerIssue (block : Nat) (input output : Range)
  /-- Another block's running command ends, having stored `bytes` at the start of its output range (R96). -/
  | peerFinish (block : Nat) (bytes : List Byte)
  /-- The host reads another block's STATUS (R90). -/
  | peerStatus (block : Nat)
  deriving DecidableEq, Repr

/-- What a read of the host's returned: a register word or host-memory bytes. -/
inductive Observation where
  | word (w : Word)
  | bytes (bs : List Byte)
  deriving DecidableEq, Repr

/-- Host memory: address and byte pairs, addresses strictly rising, no byte equal to what an unlisted address reads as
(`Memory.wf` in Machine/Memory.lean). -/
abbrev Memory := List Host.Cell

/-- Why the machine stops. -/
inductive Fault where
  /-- Raised by the host's MMIO actions: an access that is not an aligned 32-bit access in the window (R71, R340). Safe: the
  spec's model stops there too. -/
  | mmioWidth
  /-- Raised by a command's DMA to an address where `HostMemPopulated` is false (R86, R340). Safe: the chip finishes the command with
  unspecified output, the model stops, as R340 says it must. -/
  | busError
  /-- Raised by the host's own load or store of host memory that is not there (log entry 16). Safe: the run stops. -/
  | hostMemoryAbsent
  deriving DecidableEq, Repr

/-- Why a run has no meaning. -/
inductive Refusal where
  /-- An instruction with no meaning yet, raised by an arm of `exec`. Safe. -/
  | notModelled (mnemonic : String)
  /-- The host touches the buffers of a command of this block or of another (R90, R340); raised by the host's loads and
  stores. Safe. -/
  | bufferRace
  /-- A command's input and output ranges overlap (R91, R340); raised by the six commands that have both, and by `peerIssue` for
  another block's command. Safe. -/
  | bufferOverlap
  /-- Two blocks' running commands have overlapping ranges (R96, R340); raised by a CMD write and by `peerIssue`. Safe. -/
  | blockRace
  /-- The agenda speaks of another block that is not there (GTM_COUNT, R8), or ends a command where that block runs none; raised
  by the peer actions. Safe. -/
  | noSuchBlock
  deriving DecidableEq, Repr

/-- The whole state. The first group is the block's registers, then its internal state, then host memory, then the model's
own account of the environment. -/
structure State where
  /-- STATUS.BUSY (R27, R49). -/
  busy : Bool
  /-- STATUS.CONFIGURED (R27). -/
  configured : Bool
  /-- STATUS.ERR (R27, R320). -/
  err : Code
  /-- INT_STATUS[4:0] (R28). -/
  intStatus : BitVec 5
  /-- INT_ENABLE[4:0] (R29). -/
  intEnable : BitVec 5
  /-- The PARAM registers (R30 to R33). -/
  param : Params
  /-- SRC_ADDR, SRC_LEN, DST_ADDR, DST_CAP, RX_TIMEOUT_WINDOWS (R34 to R36). -/
  ops : Operands
  /-- RESULT_LEN (R37). -/
  resultLen : Word
  /-- The CFG registers (R38). -/
  cfg : Params
  /-- The PROF registers (R39). -/
  prof : ProfRegs
  /-- The command latch (R49). -/
  latch : Latch
  /-- The decoder (R50 to R55). -/
  dec : Decoder
  /-- The published result (R56). -/
  rx : Published
  /-- Host memory (R70). -/
  mem : Memory
  /-- The OPEN platform parameters (R8). -/
  plat : Platform
  /-- The environment's pending steps, first first (R332). -/
  agenda : List HostAction
  /-- What the host's reads of this block and of host memory returned, the latest first (log entry 20). -/
  observed : List Observation
  /-- Input ranges issued and not yet given back by a STATUS read with BUSY = 0 (R90). -/
  heldIn : List Range
  /-- Output ranges issued and not yet given back by a STATUS read with BUSY = 0 (R90). -/
  heldOut : List Range
  /-- The other blocks' commands that hold their buffers (R90, R96). -/
  peers : List PeerRun
  /-- How many draws of free values were made. -/
  freeCount : Nat
  deriving DecidableEq, Repr

/-- Parameter words that are all 0. -/
def Params.zero : Params := ⟨0, 0, 0, 0, 0⟩

/-- Operand words that are all 0. -/
def Operands.zero : Operands := ⟨0, 0, 0, 0, 0⟩

/-- The PARAM registers at reset (R25, R360). -/
def Params.reset : Params := ⟨48000, 48000, 0, 0, 0⟩

/-- The operand registers at reset (R25, R360). -/
def Operands.reset : Operands := ⟨0, 0, 0, 0, Config.timeoutReset⟩

/-- The PROF registers at reset: no profile (R39, R360). -/
def ProfRegs.zero : ProfRegs := ⟨0, 0, 0, 0, 0, 0, 0, 0, 0⟩

/-- Accumulators that are all 0. -/
def accZero : Vector (Vector Acc 16) 2 := Vector.replicate 2 (Vector.replicate 16 0)

/-- The decoder at reset (R50 to R55, R360). The spec leaves `win` unspecified: 0 is a DESIGN CHOICE (log entry 9). -/
def Decoder.reset : Decoder :=
  { phase := .listening, win := Vector.replicate 1024 0, fill := 0, rxProto := 0, markerCount := 0, windowsSince := 0,
    acc := accZero, wis := 0, chips := [], pend := none, hdrDone := false, symExpected := 0, symRemaining := 0 }

/-- The published result at reset (R56, R360). -/
def Published.reset : Published :=
  { status := .none, code := .ok, len := 0, data := Vector.replicate 144 0, seq := 0, consumed := 0 }

/-- The platform of State.reset: a DESIGN CHOICE (log entry 2), since R8 leaves it OPEN. No claim may rest on it. -/
def Platform.default : Platform :=
  { mmioBase := 0, populated := [⟨0, Config.addrSpace⟩], coherent := [⟨0, Config.addrSpace⟩], gtmCount := 1,
    irqRoute := [] }

/-- The block's registers and internal state at reset, the rest of `s` as it is: host memory is not changed by reset
(R360). -/
def State.resetBlock (s : State) : State :=
  { s with
    busy := false, configured := false, err := .ok, intStatus := 0, intEnable := 0, param := Params.reset,
    ops := Operands.reset, resultLen := 0, cfg := Params.zero, prof := ProfRegs.zero,
    latch := ⟨0, Operands.zero, Params.zero⟩, dec := Decoder.reset, rx := Published.reset }

/-- The machine right after reset (R360): memory with nothing listed, an empty agenda. -/
def State.reset : State :=
  { busy := false, configured := false, err := .ok, intStatus := 0, intEnable := 0, param := Params.reset,
    ops := Operands.reset, resultLen := 0, cfg := Params.zero, prof := ProfRegs.zero,
    latch := ⟨0, Operands.zero, Params.zero⟩, dec := Decoder.reset, rx := Published.reset,
    mem := [], plat := Platform.default, agenda := [], observed := [], heldIn := [], heldOut := [], peers := [],
    freeCount := 0 }

/-- The outcome of a step of this machine. -/
abbrev Out := Host.Outcome State Fault Refusal

end Sys2Proof.Machine
end

