-- ==== Sys2Proof/Machine/Memory.lean ====
section
/-! DEFINITION. Host memory (R70, R74, R75): reading and writing bytes in the canonical form, and little-endian numbers. -/

namespace Sys2Proof.Machine

/-- What a byte of host memory that nothing has written reads as: DESIGN CHOICE, log entry 1 (unsafe). -/
def unwrittenByte : Byte := 0

/-- The canonical form: addresses strictly rising and inside host memory, no byte equal to the unwritten one. -/
def Memory.wf (m : Memory) : Bool :=
  decide (m.Pairwise fun a b => a.1 < b.1) && m.all fun c => decide (c.1 < Config.addrSpace) && c.2 != unwrittenByte

/-- The byte at an address. -/
def Memory.read (m : Memory) (a : Nat) : Byte := (m.lookup a).getD unwrittenByte

/-- The cells that hold `bs` from address `a` on: a byte equal to the unwritten one is not listed. -/
def cellsFrom (a : Nat) (bs : List Byte) : List Host.Cell :=
  (bs.zipIdx a).filterMap fun c => if c.1 = unwrittenByte then none else some (c.2, c.1)

/-- Store bytes at `a, a + 1, …` (the `MemWrite` of R13, one byte each). -/
def Memory.store (m : Memory) (a : Nat) (bs : List Byte) : Memory :=
  m.filter (fun c => c.1 < a) ++ cellsFrom a bs ++ m.filter (fun c => a + bs.length ≤ c.1)

/-- The `n` bytes from address `a` on, first first. -/
def Memory.load (m : Memory) (a n : Nat) : List Byte := (List.range n).map fun i => m.read (a + i)

/-- `n` items of `k` bytes each, laid out one after another from address `a` on. -/
def Memory.loadItems (m : Memory) (a k n : Nat) : List (List Byte) := (List.range n).map fun i => m.load (a + i * k) k

/-- `MemRead`'s number: the bytes as an unsigned little-endian number (R13, R75). -/
def leNat : List Byte → Nat
  | [] => 0
  | b :: bs => b.toNat + 256 * leNat bs

/-- `MemWrite`'s bytes: the `n` low bytes of `v`, least significant first (R13, R75). -/
def leBytes : Nat → Nat → List Byte
  | 0, _ => []
  | n + 1, v => BitVec.ofNat 8 v :: leBytes n (v / 256)

/-- `a` is an address of the range. -/
def Range.contains (r : Range) (a : Nat) : Bool := r.base ≤ a && a < r.base + r.len

/-- The ranges share an address; an empty range shares none. -/
def Range.overlaps (r q : Range) : Bool :=
  0 < r.len && 0 < q.len && r.base < q.base + q.len && q.base < r.base + r.len

/-- `HostMemPopulated` (R8, R84). -/
def Platform.isPopulated (p : Platform) (a : Nat) : Bool := p.populated.any (·.contains a)

/-- `HostCacheCoherent` (R8, R89). -/
def Platform.isCoherent (p : Platform) (a : Nat) : Bool := p.coherent.any (·.contains a)

/-- Every byte of the range is an address of host memory that responds. -/
def Platform.allPopulated (p : Platform) (r : Range) : Bool :=
  (List.range r.len).all fun i => p.isPopulated (r.base + i) && decide (r.base + i < Config.addrSpace)

/-! A faster `load` for compiled code: one walk over a memory whose addresses rise, and `load` itself otherwise. -/

/-- The walk of `loadFast`. -/
def loadWalk : Nat → Nat → Memory → List Byte → List Byte
  | 0, _, _, out => out.reverse
  | n + 1, a, m, out =>
    let rest := m.dropWhile fun c => c.1 < a
    let b := match rest with
      | [] => unwrittenByte
      | c :: _ => if c.1 = a then c.2 else unwrittenByte
    loadWalk n (a + 1) rest (b :: out)

/-- The addresses rise strictly. -/
def risesFrom : Memory → Bool
  | c :: d :: m => c.1 < d.1 && risesFrom (d :: m)
  | _ => true

/-- `load` by one walk where the memory is in order. -/
def Memory.loadFast (m : Memory) (a n : Nat) : List Byte :=
  if risesFrom m then loadWalk n a m [] else (List.range n).map fun i => m.read (a + i)

/-- In a memory whose addresses rise from above `b` on, an address below is not listed. -/
theorem lookup_none_of_rises {b : Nat} {v : Byte} {m : Memory} (h : risesFrom ((b, v) :: m) = true) {a : Nat} (hab : a ≤ b) :
    m.lookup a = none := by
  induction m generalizing b v with
  | nil => rfl
  | cons c m ih =>
    obtain ⟨d, w⟩ := c
    simp only [risesFrom, Bool.and_eq_true, decide_eq_true_eq] at h
    have hne : (a == d) = false := by simp; omega
    simp only [List.lookup, hne]
    exact ih h.2 (by omega)

theorem risesFrom_tail {c : Host.Cell} {m : Memory} (h : risesFrom (c :: m) = true) : risesFrom m = true := by
  cases m with
  | nil => rfl
  | cons d m => simp only [risesFrom, Bool.and_eq_true] at h; exact h.2

theorem risesFrom_dropWhile {m : Memory} (h : risesFrom m = true) (p : Host.Cell → Bool) :
    risesFrom (m.dropWhile p) = true := by
  induction m with
  | nil => rfl
  | cons c m ih =>
    simp only [List.dropWhile]
    split
    · exact ih (risesFrom_tail h)
    · exact h

theorem lookup_dropWhile_below (m : Memory) {a b : Nat} (hab : a ≤ b) :
    (m.dropWhile fun c => c.1 < a).lookup b = m.lookup b := by
  induction m with
  | nil => rfl
  | cons c m ih =>
    obtain ⟨d, w⟩ := c
    simp only [List.dropWhile, List.lookup]
    by_cases hd : d < a
    · have hne : (b == d) = false := by simp; omega
      simp [hd, hne, ih]
    · simp [hd, List.lookup]

theorem loadWalk_eq_map_read (n : Nat) : ∀ (a : Nat) (m : Memory) (out : List Byte), risesFrom m = true →
    loadWalk n a m out = out.reverse ++ (List.range n).map fun i => m.read (a + i) := by
  induction n with
  | zero => simp [loadWalk]
  | succ n ih =>
    intro a m out h
    have hr := risesFrom_dropWhile h (fun c => decide (c.1 < a))
    have hb : (match m.dropWhile fun c => decide (c.1 < a) with
        | [] => unwrittenByte
        | c :: _ => if c.1 = a then c.2 else unwrittenByte) = m.read a := by
      rw [Memory.read, ← lookup_dropWhile_below m (Nat.le_refl a)]
      generalize hd : (m.dropWhile fun c => decide (c.1 < a)) = rest at hr
      cases rest with
      | nil => rfl
      | cons c rest =>
        obtain ⟨d, w⟩ := c
        have hge : a ≤ d := by
          have := List.head_dropWhile_not (fun c : Host.Cell => decide (c.1 < a)) (l := m) (by simp [hd])
          simp only [hd, List.head_cons, decide_eq_false_iff_not] at this
          omega
        by_cases hda : d = a
        · subst hda; simp [List.lookup]
        · have hne : (a == d) = false := by simp; omega
          simp [hda, List.lookup, hne, lookup_none_of_rises hr hge]
    rw [loadWalk, ih _ _ _ hr, hb, List.range_succ_eq_map]
    simp only [List.reverse_cons, List.append_assoc, List.singleton_append, List.map_cons, Nat.add_zero, List.map_map]
    congr 2
    apply List.map_congr_left
    intro i _
    simp only [Function.comp, Memory.read]
    rw [lookup_dropWhile_below m (by omega)]
    congr 2; omega

/-- Compiled code loads by one walk. -/
@[csimp] theorem load_eq_loadFast : @Memory.load = @Memory.loadFast := by
  funext m a n
  unfold Memory.load Memory.loadFast
  split
  · next h => simp [loadWalk_eq_map_read n a m [] h]
  · rfl

/-- `loadItems` by one load of all the items' bytes. -/
def Memory.loadItemsFast (m : Memory) (a k n : Nat) : List (List Byte) :=
  let bytes := (m.load a (n * k)).toArray
  (List.range n).map fun i => (List.range k).map fun j => bytes.getD (i * k + j) unwrittenByte

/-- Compiled code loads items by one load. -/
@[csimp] theorem loadItems_eq_loadItemsFast : @Memory.loadItems = @Memory.loadItemsFast := by
  funext m a k n
  unfold Memory.loadItems Memory.loadItemsFast Memory.load
  apply List.map_congr_left
  intro i hi
  apply List.map_congr_left
  intro j hj
  simp only [List.mem_range] at hi hj
  have hlt : i * k + j < n * k := by nlinarith
  simp [hlt, Nat.add_assoc]

end Sys2Proof.Machine
end

