-- ==== Sys2Proof/Machine/Flags.lean ====
section
/-! DEFINITION. The status bits: STATUS, INT_STATUS, RX_RESULT as words, the interrupt output, and what each event sets (R27 to R29, R44,
R320, R331, R335). -/

namespace Sys2Proof.Machine

/-- The 8-bit value of a completion code (R320). -/
def Code.value : Code → BitVec 8
  | .ok => 0x00
  | .invalidParameters => 0x01
  | .unsupportedProtocol => 0x02
  | .payloadTooLarge => 0x03
  | .decodeSyncTimeout => 0x04
  | .decodeFECFailure => 0x05
  | .bufferUnderrun => 0x06
  | .illegalCommand => 0x10
  | .notConfigured => 0x11
  | .outputOverflow => 0x12
  | .addressError => 0x13
  | .busError => 0x14

/-- Every completion code. -/
def allCodes : List Code :=
  [ .ok, .invalidParameters, .unsupportedProtocol, .payloadTooLarge, .decodeSyncTimeout, .decodeFECFailure, .bufferUnderrun
  , .illegalCommand, .notConfigured, .outputOverflow, .addressError, .busError ]

/-- The completion code an 8-bit value names; none for a value that is never produced (R320). -/
def codeNamed (v : BitVec 8) : Option Code := allCodes.find? fun c => c.value == v

/-- The 2-bit value of a phase (R50). -/
def Phase.value : Phase → BitVec 2
  | .listening => 0
  | .synchronizing => 1
  | .recording => 2
  | .demodulating => 3

/-- The 2-bit value of RX_RESULT.STATUS (R44). -/
def RxStatus.value : RxStatus → BitVec 2
  | .none => 0
  | .success => 1
  | .failure => 2

/-- INT_STATUS.DONE (R28). -/
def intDone : BitVec 5 := 0b00001
/-- INT_STATUS.ERROR (R28). -/
def intError : BitVec 5 := 0b00010
/-- INT_STATUS.RX_SUCCESS (R28). -/
def intRxSuccess : BitVec 5 := 0b00100
/-- INT_STATUS.RX_FAILURE (R28). -/
def intRxFailure : BitVec 5 := 0b01000
/-- INT_STATUS.CMD_DROPPED (R28). -/
def intCmdDropped : BitVec 5 := 0b10000

/-- The bits a completion sets: DONE, and ERROR with a code other than OK (R331). -/
def completionBits (c : Code) : BitVec 5 := if c = .ok then intDone else intDone ||| intError

/-- The bits a publication sets (R262). -/
def publicationBits : RxStatus → BitVec 5
  | .none => 0
  | .success => intRxSuccess
  | .failure => intRxFailure

/-- A host write of `v` to INT_STATUS clears the bits that are 1 in `v` (R28). -/
def clearInt (i : BitVec 5) (v : Word) : BitVec 5 := i &&& ~~~(v.truncate 5)

/-- A 1-bit field as a word. -/
def boolWord (b : Bool) : Word := if b then 1 else 0

/-- STATUS as the host reads it (R27). -/
def statusWord (s : State) : Word :=
  boolWord s.busy ||| boolWord s.configured <<< 1 ||| (s.err.value.zeroExtend 32) <<< 8

/-- RX_RESULT as the host reads it (R44, R58). -/
def rxResultWord (r : Published) : Word := (r.status.value.zeroExtend 32) ||| (r.code.value.zeroExtend 32) <<< 8

/-- The interrupt output (R29, R335). -/
def irq (s : State) : Bool := (s.intStatus &&& s.intEnable) != 0

/-- The block drives the host's interrupt line `k` high: GTM_IRQ_ROUTE connects it to `irq`, and `irq` is high (R8, R335). -/
def irqLine (s : State) (k : Nat) : Bool := s.plat.irqRoute.contains k && irq s

end Sys2Proof.Machine
end

