-- ==== Sys2Proof/Machine/ProfileRom.lean ====
section
/-! DEFINITION. The protocol registry: the profile ROM (R130) and the tone bins (R132). -/

namespace Sys2Proof.Machine

/-- A row of the profile ROM (R130), without its id, which is its index. -/
structure Profile where
  name : String
  /-- 0 audible, 1 ultrasonic. -/
  band : Nat
  /-- `B`, the lowest tone bin. -/
  baseBin : Nat
  /-- `S`, the tone spacing in bins. -/
  spacing : Nat
  /-- `T`, the tones of a symbol: 1 or 2. -/
  tones : Nat
  /-- `F`, the windows of a symbol. -/
  windows : Nat
  /-- `M0`, the start-marker bin. -/
  markerStart : Nat
  /-- `M1`, the end-marker bin. -/
  markerEnd : Nat
  maxPayload : Nat
  deriving DecidableEq, Repr

/-- The twelve rows of R130. -/
def profileRom : Vector Profile 12 :=
  #v[ ⟨"AUDIBLE_NORMAL", 0, 48, 1, 1, 9, 24, 26, 140⟩
    , ⟨"AUDIBLE_FAST", 0, 48, 1, 1, 6, 28, 30, 140⟩
    , ⟨"AUDIBLE_FASTEST", 0, 48, 1, 1, 3, 32, 34, 140⟩
    , ⟨"ULTRASOUND_NORMAL", 1, 352, 1, 1, 9, 328, 330, 140⟩
    , ⟨"ULTRASOUND_FAST", 1, 352, 1, 1, 6, 332, 334, 140⟩
    , ⟨"ULTRASOUND_FASTEST", 1, 352, 1, 1, 3, 336, 338, 140⟩
    , ⟨"DT_NORMAL", 0, 48, 1, 2, 9, 36, 38, 140⟩
    , ⟨"DT_FAST", 0, 48, 1, 2, 6, 40, 42, 140⟩
    , ⟨"DT_FASTEST", 0, 48, 1, 2, 3, 44, 46, 140⟩
    , ⟨"ULTRASOUND_DT_NORMAL", 1, 352, 1, 2, 9, 340, 342, 140⟩
    , ⟨"ULTRASOUND_DT_FAST", 1, 352, 1, 2, 6, 344, 346, 140⟩
    , ⟨"ULTRASOUND_DT_FASTEST", 1, 352, 1, 2, 3, 348, 350, 140⟩ ]

/-- The profile with id `p` (R130). -/
def profile (p : Fin 12) : Profile := profileRom[p]

/-- The profile a PROTO operand names; none for 12 and above (R135). -/
def profile? (p : Nat) : Option Profile := if h : p < 12 then some (profile ⟨p, h⟩) else none

/-- The bin of the tone of group `g` carrying value `v` (R132). -/
def toneBin (q : Profile) (g v : Nat) : Nat := q.baseBin + q.spacing * (16 * g + v)

/-- The id a profile name stands for in assembler text (R111). -/
def profileId? (name : String) : Option (Fin 12) := (List.finRange 12).find? fun p => (profile p).name == name

end Sys2Proof.Machine
end

