-- ==== Sys2Proof/Machine/Operands.lean ====
section
/-! DEFINITION. What a command reads as operands: the latched registers, the configuration, the alignment and range checks (R81, R82), and the
two sample formats (R76 to R78). -/

namespace Sys2Proof.Machine

/-- `cfg.fixedLen` (R38). -/
def Params.fixedLen (c : Params) : Nat := c.payloadLen.toNat

/-- `cfg.dss`: CFG_MODE[0] (R38). -/
def Params.dss (c : Params) : Bool := c.mode.getLsbD 0

/-- `cfg.ss`, the sample size in bytes: 2 for format 0, 4 for format 1 (R38). No other format is ever configured (R302; log entry 13). -/
def Params.sampleBytes (c : Params) : Nat := if c.format = 0 then 2 else 4

/-- Validation of parameters (R302). -/
def Params.valid (c : Params) : Bool :=
  Config.rateMin ≤ c.rateIn.toNat && c.rateIn.toNat ≤ Config.rateMax
    && Config.rateMin ≤ c.rateOut.toNat && c.rateOut.toNat ≤ Config.rateMax
    && (c.format == 0 || c.format == 1)
    && c.payloadLen.toNat ≤ Config.maxFixed
    && c.mode &&& 0xFFFFFFFE#32 == 0

/-- The latched `srcAddr` (R49). -/
def State.src (s : State) : Nat := s.latch.ops.srcAddr.toNat
/-- The latched `srcLen` (R49). -/
def State.srcLen (s : State) : Nat := s.latch.ops.srcLen.toNat
/-- The latched `dstAddr` (R49). -/
def State.dst (s : State) : Nat := s.latch.ops.dstAddr.toNat
/-- The latched `dstCap` (R49). -/
def State.dstCap (s : State) : Nat := s.latch.ops.dstCap.toNat

/-- The latched command's input range (R82, R90). -/
def State.inputRange (s : State) : Range := ⟨s.src, s.srcLen⟩
/-- The latched command's output range (R36, R82, R90). -/
def State.outputRange (s : State) : Range := ⟨s.dst, s.dstCap⟩

/-- The range check of R82: an empty range passes; another must end at or below `2^32`. -/
def Range.inSpace (r : Range) : Bool := r.len == 0 || decide (r.base + r.len ≤ Config.addrSpace)

/-- The address is a multiple of its buffer kind's alignment (R81). -/
def aligned (a n : Nat) : Bool := a % n == 0

/-- A command that reads an input buffer (R170, R171, R209 to R211, R244, R258). -/
def usesInput : Instr → Bool
  | .frameBuild _ | .frameRecover _ | .symbolMap _ | .render _ _ | .encode _ _ | .spectrum | .feed _ => true
  | .nop | .config | .deconfig | .profileQuery _ | .decoderReset => false

/-- A command that writes an output buffer (R170, R171, R209 to R211, R244). -/
def usesOutput : Instr → Bool
  | .frameBuild _ | .frameRecover _ | .symbolMap _ | .render _ _ | .encode _ _ | .spectrum => true
  | .nop | .config | .deconfig | .profileQuery _ | .feed _ | .decoderReset => false

/-- The nearest integer to `num / den`, ties to even (R78). -/
def roundHalfEven (num den : Nat) : Nat :=
  let q := num / den
  let r := num % den
  if 2 * r < den then q else if den < 2 * r then q + 1 else if q % 2 = 0 then q else q + 1

/-- The conversion of a float32 input sample (R78). The finite value of an encoding is
`± m * 2^(e - 150)`, so `|y| = |x| * 32768 = num / den` exactly. -/
def fromF32 (x : Word) : Sample :=
  let e := ((x >>> 23) &&& 0xFF#32).toNat
  let f := (x &&& 0x7FFFFF#32).toNat
  let m := if e = 0 then f else f + 2 ^ 23
  let e' := if e = 0 then 1 else e
  let num := m * 2 ^ (e' - 135)
  let den := 2 ^ (135 - e')
  if e = 255 ∧ f ≠ 0 then 0
  else if x.msb then
    if e = 255 ∨ 32768 * den ≤ num then BitVec.ofInt 16 (-32768) else BitVec.ofInt 16 (-(roundHalfEven num den : Int))
  else if e = 255 ∨ 32767 * den ≤ num then 32767 else BitVec.ofNat 16 (roundHalfEven num den)

/-- The binary32 encoding of `x / 32768` (R77), exact: with `h` the place of the highest bit of `|x|`, the exponent
field is `h - 15 + 127` and the fraction is what stands below that bit. -/
def toF32 (x : Sample) : Word :=
  let a := x.toInt.natAbs
  if a = 0 then 0
  else
    (if x.msb then 0x80000000#32 else 0#32) ||| BitVec.ofNat 32 (112 + a.log2) <<< 23
      ||| BitVec.ofNat 32 ((a - 2 ^ a.log2) * 2 ^ (23 - a.log2))

/-- The sample the bytes of a buffer item encode (R76, R77, R78). -/
def Params.decodeSample (c : Params) (bs : List Byte) : Sample :=
  if c.format = 0 then BitVec.ofNat 16 (leNat bs) else fromF32 (BitVec.ofNat 32 (leNat bs))

/-- The bytes of a sample in the configured format (R76, R77, R207). -/
def Params.encodeSample (c : Params) (x : Sample) : List Byte :=
  if c.format = 0 then leBytes 2 x.toNat else leBytes 4 (toF32 x).toNat

end Sys2Proof.Machine
end

