-- ==== Sys2Proof/Machine/Ops.lean ====
section
/-! DEFINITION. The operations the commands share: completion (R331), the error checks (R322), DMA (R74, R83, R86, R91), the resets of the
decoder (R256, R257), publication (R262), clearing (R304) and the issue of a command (R330). -/

namespace Sys2Proof.Machine

/-- `finish(code)` (R331), the block's counterpart of taking an exception (R325): nothing is saved, nothing transfers control. -/
def finish (c : Code) (s : State) : State :=
  { s with
    err := c
    resultLen := if c = .ok then s.resultLen else 0
    intStatus := s.intStatus ||| completionBits c
    busy := false }

/-- A step that ends the command with code `c` (R331). -/
def complete (c : Code) (s : State) : Out := .next (finish c s)

/-- The code of the first check that applies (R322). -/
def firstError : List (Bool × Code) → Option Code
  | [] => none
  | (applies, c) :: rest => if applies then some c else firstError rest

/-- The `n` bytes of host memory from `a` on by DMA (R74); none if one of them does not respond (R86). -/
def dmaRead (s : State) (a n : Nat) : Option (List Byte) :=
  if s.plat.allPopulated ⟨a, n⟩ then some (s.mem.load a n) else none

/-- Write a command's whole output at `dstAddr`, set RESULT_LEN to its length and finish with OK (R83). -/
def writeOutput (out : List Byte) (s : State) : Out :=
  if s.plat.allPopulated ⟨s.dst, out.length⟩ then
    complete .ok { s with mem := s.mem.store s.dst out, resultLen := BitVec.ofNat 32 out.length }
  else .fault .busError

/-- The execution of a command that reads `n` input bytes at `srcAddr` and writes the output `f` makes of them, or finishes
with the code `f` gives instead: all reads come before the first write (R92), overlapping ranges are refused (R91). -/
def transfer (n : Nat) (f : List Byte → Except Code (List Byte)) (s : State) : Out :=
  if s.inputRange.overlaps s.outputRange then .refused .bufferOverlap
  else match dmaRead s s.src n with
    | none => .fault .busError
    | some input =>
      match f input with
      | .error c => complete c s
      | .ok out => writeOutput out s

/-- The range checks of a command with an input and an output (R82). -/
def rangesBad (s : State) : Bool := !(s.inputRange.inSpace && s.outputRange.inSpace)

/-- `MachineReset()` on the decoder (R256): the window grid, `rxProto` and the published result stay. -/
def Decoder.machineReset (d : Decoder) : Decoder :=
  { d with
    phase := .listening, markerCount := 0, windowsSince := 0, acc := accZero, wis := 0, chips := [], pend := none,
    hdrDone := false, symExpected := 0, symRemaining := 0 }

/-- `DecoderReset()` (R257). -/
def Decoder.decoderReset (d : Decoder) : Decoder := { d.machineReset with fill := 0 }

/-- `ClearResults()` (R304); `rxProto` lies in the decoder. -/
def clearResults (s : State) : State := { s with rx := Published.reset, dec := { s.dec with rxProto := 0 } }

/-- What CONFIG and DECONFIG share: `DecoderReset(); ClearResults()` (R301, R305). -/
def freshInstance (s : State) : State := clearResults { s with dec := s.dec.decoderReset }

/-- `rxData` after a publication: the payload, then zeros (R262). -/
def publishedData (payload : List Byte) : Vector Byte 144 := Vector.ofFn fun i => payload.getD i 0

/-- `Publish(status, code, payload)` (R262). -/
def publish (status : RxStatus) (c : Code) (payload : List Byte) (s : State) : State :=
  { s with
    rx := { s.rx with
      status := status, code := c, len := BitVec.ofNat 8 payload.length, data := publishedData payload,
      seq := s.rx.seq + 1 }
    intStatus := s.intStatus ||| publicationBits status
    dec := s.dec.machineReset }

/-- The input range the command word uses, with operands `o`; none for a word that is no command or uses no input. -/
def inputOf (v : Word) (o : Operands) : List Range :=
  match decode v with
  | .ok i => if usesInput i then [⟨o.srcAddr.toNat, o.srcLen.toNat⟩] else []
  | .error _ => []

/-- The output range the command word uses, with operands `o`. -/
def outputOf (v : Word) (o : Operands) : List Range :=
  match decode v with
  | .ok i => if usesOutput i then [⟨o.dstAddr.toNat, o.dstCap.toNat⟩] else []
  | .error _ => []

/-- The issue of command word `v` while `busy = 0` (R330): latch it with the operands, the timeout and the parameters, and
note its buffers as the block's own (R90). -/
def issue (v : Word) (s : State) : State :=
  { s with
    busy := true
    latch := { cmd := v, ops := s.ops, par := s.param }
    heldIn := s.heldIn ++ inputOf v s.ops
    heldOut := s.heldOut ++ outputOf v s.ops }

end Sys2Proof.Machine
end

