-- ==== Sys2Proof/Machine/Control.lean ====
section
/-! DEFINITION. Instance control and the registry's query: NOP, CONFIG, DECONFIG, PROFILE_QUERY (R136, R300 to R305). -/

namespace Sys2Proof.Machine

/-- NOP (R300). -/
def execNop (s : State) : Out := complete .ok { s with resultLen := 0 }

/-- CONFIG (R301), on the PARAM copies latched when it was issued (R49). -/
def execConfig (s : State) : Out :=
  if s.latch.par.valid then
    complete .ok (freshInstance { s with cfg := s.latch.par, configured := true, resultLen := 0 })
  else complete .invalidParameters s

/-- DECONFIG (R305). -/
def execDeconfig (s : State) : Out :=
  complete .ok (freshInstance { s with cfg := Params.zero, configured := false, resultLen := 0 })

/-- The PROF registers for profile `q` with id `p` (R39, R136). -/
def profRegsOf (p : Nat) (q : Profile) : ProfRegs :=
  { id := BitVec.ofNat 8 p, band := BitVec.ofNat 1 q.band, baseBin := BitVec.ofNat 10 q.baseBin,
    spacing := BitVec.ofNat 10 q.spacing, tones := BitVec.ofNat 2 q.tones,
    windowsPerSymbol := BitVec.ofNat 8 q.windows, markerStartBin := BitVec.ofNat 10 q.markerStart,
    markerEndBin := BitVec.ofNat 10 q.markerEnd, maxPayload := BitVec.ofNat 8 q.maxPayload }

/-- PROFILE_QUERY (R136); it needs no configuration. -/
def execProfileQuery (p : Nat) (s : State) : Out :=
  match profile? p with
  | none => complete .unsupportedProtocol s
  | some q => complete .ok { s with prof := profRegsOf p q, resultLen := 0 }

end Sys2Proof.Machine
end

