-- ==== Sys2Proof/Machine/Spectrum.lean ====
section
/-! DEFINITION. The power-spectrum engine (R241), the marker test (R243) and the command SPECTRUM (R244). -/

namespace Sys2Proof.Machine

/-- The sum over a window of sample times `wave (b * n)`, exact (R241). -/
def correlate (wave : Nat → Int) (b : Nat) (w : List Sample) : Int :=
  (w.zipIdx.map fun x => x.1.toInt * wave (b * x.2)).sum

/-- `asr(a, 15)`: floor division by 2^15 (R11). -/
def asr15 (a : Int) : Int := a / 32768

/-- `Power(w, b)` (R241). -/
def power (w : List Sample) (b : Nat) : Nat :=
  let re := asr15 (correlate cosineAt b w)
  let im := asr15 (-correlate sineAt b w)
  (re * re + im * im).toNat

/-- `MarkerOn(w, q)` (R243). -/
def markerOn (w : List Sample) (q : Profile) : Bool :=
  let m0 := power w q.markerStart
  decide (Config.markerRatio * power w q.markerEnd < m0) && decide (Config.markerMinPower ≤ m0)

/-- The 513 powers of a window as the bytes SPECTRUM writes, u64 little-endian each (R79, R244). -/
def spectrumBytes (w : List Sample) : List Byte :=
  (List.range (Config.half + 1)).flatMap fun b => leBytes 8 (power w b)

/-- The first `n` samples of an input buffer's bytes (R76, R77, R78). -/
def samplesOf (c : Params) (n : Nat) (bytes : List Byte) : List Sample :=
  let a := bytes.toArray
  (List.range n).map fun i =>
    c.decodeSample ((List.range c.sampleBytes).map fun j => a.getD (i * c.sampleBytes + j) 0)

/-- SPECTRUM (R244): samples after the first 1024 are not read. -/
def execSpectrum (s : State) : Out :=
  if !s.configured then complete .notConfigured s
  else
    let ss := s.cfg.sampleBytes
    match firstError
        [ (!(aligned s.src ss && aligned s.srcLen ss && aligned s.dst 8), .addressError), (rangesBad s, .addressError),
          (decide (s.srcLen < 1024 * ss), .bufferUnderrun), (decide (s.dstCap < 513 * 8), .outputOverflow) ] with
    | some c => complete c s
    | none => transfer (1024 * ss) (fun bytes => .ok (spectrumBytes (samplesOf s.cfg 1024 bytes))) s

end Sys2Proof.Machine
end

