-- ==== Sys2Proof/Machine/Fec.lean ====
section
/-! DEFINITION. The FEC framer's functions: the checksum (R150), the Reed-Solomon code (R151 to R157), the frame layout (R158 to R160), the
spread-spectrum transform (R161 to R163) and the frame functions (R164 to R168). -/

namespace Sys2Proof.Machine

/-! ## Checksum (R150) -/

/-- One shift of the CRC register (R150). -/
def crcShift (c : BitVec 16) : BitVec 16 := if c.msb then (c <<< 1) ^^^ 0x1021#16 else c <<< 1

/-- `k` shifts of the CRC register. -/
def crcShifts : Nat → BitVec 16 → BitVec 16
  | 0, c => c
  | k + 1, c => crcShifts k (crcShift c)

/-- One byte into the CRC register: most significant bit first (R150). -/
def crcByte (c : BitVec 16) (x : Byte) : BitVec 16 := crcShifts 8 (c ^^^ (x.zeroExtend 16 <<< 8))

/-- `CRC16(d)` (R150). -/
def crc16 (d : List Byte) : BitVec 16 := d.foldl crcByte 0xFFFF#16

/-- The checksum's two bytes, high byte first (R159). -/
def crcBytes (c : BitVec 16) : List Byte := [(c >>> 8).truncate 8, c.truncate 8]

/-! ## The field GF(2^8) (R151) -/

/-- Multiplication by `alpha` = 0x02 modulo 0x11D (R151). -/
def gfDouble (a : Byte) : Byte := if a.msb then (a <<< 1) ^^^ 0x1D#8 else a <<< 1

/-- Add `a * x^i` for the bits `i = n - 1, …, 0` of `b`, highest first. -/
def gfMulBits : Nat → Byte → Byte → Byte
  | 0, _, _ => 0
  | n + 1, a, b => (if b.getLsbD 0 then a else 0) ^^^ gfMulBits n (gfDouble a) (b >>> 1)

/-- The product in GF(2^8) (R151). -/
def gfMul (a b : Byte) : Byte := gfMulBits 8 a b

/-- The power `a^k` in GF(2^8). -/
def gfPow (a : Byte) : Nat → Byte
  | 0 => 1
  | k + 1 => gfMul a (gfPow a k)

/-- `EXP[i] = alpha^i` (R151). -/
def gfExp : Nat → Byte
  | 0 => 1
  | i + 1 => gfDouble (gfExp i)

/-- `LOG[a]`: the `i` below 255 with `EXP[i] = a`; none for 0 (R151). -/
def gfLog (a : Byte) : Option Nat := (List.range 255).find? fun i => gfExp i == a

/-- The inverse of a nonzero element: `a^254`, since the nonzero elements have order 255. -/
def gfInv (a : Byte) : Byte := gfPow a 254

/-- A quotient in GF(2^8); the divisor is nonzero wherever it is used. -/
def gfDiv (a b : Byte) : Byte := gfMul a (gfInv b)

/-- A polynomial's value, coefficients highest degree first (Horner). -/
def polyEval (p : List Byte) (x : Byte) : Byte := p.foldl (fun v c => gfMul v x ^^^ c) 0

/-- The sum of products of two lists, up to the shorter. -/
def gfDot (xs ys : List Byte) : Byte := (List.zipWith gfMul xs ys).foldl (· ^^^ ·) 0

/-- A polynomial times `(x - r)`, coefficients highest degree first; in GF(2^8) minus is plus. -/
def polyTimesRoot (p : List Byte) (r : Byte) : List Byte :=
  List.zipWith (· ^^^ ·) (p ++ [0]) (0 :: p.map (gfMul r))

/-! ## The Reed-Solomon code (R152 to R157) -/

/-- `Ecc(k)`: parity bytes of a block of `k` data bytes (R152). -/
def ecc (k : Nat) : Nat := if k < 4 then 2 else max 4 (2 * (k / 5))

/-- The generator `g_E`, coefficients highest degree first (R153). -/
def rsGenerator : Nat → List Byte
  | 0 => [1]
  | e + 1 => polyTimesRoot (rsGenerator e) (gfExp e)

/-- One data byte into the remainder register: the register holds the remainder of the data so far times `x^E`. -/
def rsShift (g : List Byte) (rem : List Byte) (d : Byte) : List Byte :=
  let k := d ^^^ rem.headD 0
  List.zipWith (fun r c => r ^^^ gfMul k c) (rem.drop 1 ++ [0]) (g.drop 1)

/-- The parity `R(x) = (D(x) * x^E) mod g_E(x)` (R154). -/
def rsParity (d : List Byte) (e : Nat) : List Byte := d.foldl (rsShift (rsGenerator e)) (List.replicate e 0)

/-- Systematic encoding: the data, then the parity (R154). -/
def rsEncode (d : List Byte) (e : Nat) : List Byte := d ++ rsParity d e

/-- The syndromes `S_i = w(alpha^i)`, `i < E` (R157). -/
def syndromes (w : List Byte) (e : Nat) : List Byte := (List.range e).map fun i => polyEval w (gfExp i)

/-- `C(x) mod g_E(x) = 0`: the roots of `g_E` are `alpha^0 .. alpha^(E-1)`, all distinct for `E <= 255`, so a list is a codeword when
its syndromes are all 0 (R153, R155). -/
def isCodeword (c : List Byte) (e : Nat) : Bool := (syndromes c e).all (· == 0)

/-- `dist`: the positions where two lists of one length differ (R156). -/
def hamming (a b : List Byte) : Nat := (List.zipWith (fun x y => if x = y then 0 else 1) a b).sum

/-- Keep, of a list of vectors that span a space, vectors that span its subspace orthogonal to `row`: the first vector not
orthogonal to `row` is added to the later ones so that each becomes orthogonal, and is dropped. -/
def cutBy (row : List Byte) : List (List Byte) → List (List Byte)
  | [] => []
  | v :: vs =>
    let p := gfDot row v
    if p = 0 then v :: cutBy row vs
    else vs.map fun u => List.zipWith (fun x y => x ^^^ gfMul (gfDiv (gfDot row u) p) y) u v

/-- The unit vectors of length `n`. -/
def unitVectors (n : Nat) : List (List Byte) :=
  (List.range n).map fun i => (List.range n).map fun j => if i = j then 1 else 0

/-- A nonzero solution `sigma_0 .. sigma_t` of `sum_j sigma_j * S_(i+j) = 0` for `i < E - t`, with `t = E div 2`. With
at most `t` errors every solution, read as `sigma(x) = sum_j sigma_j x^j`, vanishes at every error's `X`. -/
def locatorSolution (s : List Byte) (e : Nat) : Option (List Byte) :=
  let t := e / 2
  ((List.range (e - t)).foldl (fun vs i => cutBy ((s.drop i).take (t + 1)) vs) (unitVectors (t + 1))).head?

/-- `X_j = alpha^(n-1-j)`, the locator of position `j` of a list of length `n` (R154, R157). -/
def locatorOf (n j : Nat) : Byte := gfExp (n - 1 - j)

/-- The positions where a locator polynomial vanishes (R157's search). -/
def errorPositions (sigma : List Byte) (n : Nat) : List Nat :=
  (List.range n).filter fun j => polyEval sigma.reverse (locatorOf n j) == 0

/-- The error's value at position `j` of the positions `ps`: with `L(x)` the product of `x - X_l` over the other positions,
`sum_i L_i S_i = e_j L(X_j)`. -/
def errorValue (s : List Byte) (n : Nat) (ps : List Nat) (j : Nat) : Byte :=
  let l := (ps.filter (· != j)).foldl (fun p k => polyTimesRoot p (locatorOf n k)) [1]
  gfDiv (gfDot l.reverse s) (polyEval l (locatorOf n j))

/-- The word with the errors at positions `ps` taken off. -/
def correctAt (w : List Byte) (s : List Byte) (ps : List Nat) : List Byte :=
  w.zipIdx.map fun c => if ps.contains c.2 then c.1 ^^^ errorValue s w.length ps c.2 else c.1

/-- The candidate a received word's syndromes point to. -/
def rsCandidate (w : List Byte) (e : Nat) : Option (List Byte) :=
  let s := syndromes w e
  (locatorSolution s e).map fun sigma => correctAt w s (errorPositions sigma w.length)

/-- `RSDecode(w, k, E)`: the codeword within distance `E div 2` of `w` if there is one (R156). Any method giving R156's function
conforms (R157); this one solves the locator equations, and answers only a codeword within the distance (log entry 12). -/
def rsDecode (w : List Byte) (k e : Nat) : Option (List Byte) :=
  if w.length = k + e then
    match rsCandidate w e with
    | some c => if isCodeword c e && decide (hamming w c ≤ e / 2) then some c else none
    | none => none
  else none

/-! ## Spread spectrum (R161 to R163) -/

/-- One bit of the PN register: the bit and the next register (R161). -/
def pnBit (s : BitVec 16) : Bool × BitVec 16 :=
  let bit := (s ^^^ (s >>> 2) ^^^ (s >>> 3) ^^^ (s >>> 5)).getLsbD 0
  (bit, (s >>> 1) ||| (if bit then 0x8000#16 else 0#16))

/-- The bits `i .. i + n - 1` of a PN byte, first bit lowest, and the next register (R161). -/
def pnByteFrom : Nat → Nat → BitVec 16 → Byte × BitVec 16
  | 0, _, s => (0, s)
  | n + 1, i, s =>
    let (bit, s') := pnBit s
    let (rest, s'') := pnByteFrom n (i + 1) s'
    ((if bit then 1#8 <<< i else 0) ||| rest, s'')

/-- `n` bytes of the PN sequence from register `s` on. -/
def pnFrom : Nat → BitVec 16 → List Byte
  | 0, _ => []
  | n + 1, s =>
    let (b, s') := pnByteFrom 8 0 s
    b :: pnFrom n s'

/-- `PN[0..n)` (R161). -/
def pn (n : Nat) : List Byte := pnFrom n Config.pnSeed

/-- Each byte three times (R162). -/
def triple (f : List Byte) : List Byte := f.flatMap fun b => List.replicate Config.spread b

/-- A chip list combined with the PN sequence from its start (R162, R163). -/
def whiten (c : List Byte) : List Byte := List.zipWith (· ^^^ ·) c (pn c.length)

/-- `Spread(f)`: `chip[3i + r] = f[i] ^ PN[3i + r]` (R162). -/
def spread (f : List Byte) : List Byte := whiten (triple f)

/-- The bitwise majority (R11). -/
def maj (a b c : Byte) : Byte := (a &&& b) ||| (a &&& c) ||| (b &&& c)

/-- The majority of each three bytes (R163). -/
def majorities : List Byte → List Byte
  | a :: b :: c :: rest => maj a b c :: majorities rest
  | _ => []

/-- `Despread(c)` (R163). -/
def despread (c : List Byte) : List Byte := majorities (whiten c)

/-! ## Frames (R158 to R168) -/

/-- `H`: the frame bytes before the body, the header of variable-length mode (R158, R165). -/
def headerBytes (c : Params) : Nat := if c.fixedLen = 0 then 3 else 0

/-- `X`: the chips of a frame byte (R165). -/
def chipsPerByte (c : Params) : Nat := if c.dss then Config.spread else 1

/-- The data bytes of a frame for an `n`-byte payload: the payload or the fixed length, and the checksum (R165). -/
def bodyData (c : Params) (n : Nat) : Nat := (if c.fixedLen = 0 then n else c.fixedLen) + 2

/-- `FrameChips(n)` (R165). -/
def frameChips (c : Params) (n : Nat) : Nat :=
  (headerBytes c + bodyData c n + ecc (bodyData c n)) * chipsPerByte c

/-- The payload-length check of FRAME_BUILD and ENCODE (R164, R170, R211). -/
def payloadTooLarge (c : Params) (q : Profile) (n : Nat) : Bool :=
  if c.fixedLen = 0 then decide (q.maxPayload < n)
  else decide (q.maxPayload < c.fixedLen) || decide (c.fixedLen < n)

/-- The frame's header: the length byte under its own code in variable-length mode (R158). -/
def frameHeader (c : Params) (n : Nat) : List Byte :=
  if c.fixedLen = 0 then rsEncode [BitVec.ofNat 8 n] 2 else []

/-- The frame's body: data, checksum and parity (R159). -/
def frameBody (data : List Byte) : List Byte :=
  let d := data ++ crcBytes (crc16 data)
  rsEncode d (ecc d.length)

/-- The payload, padded with zeros to the fixed length in fixed-length mode (R159, R160). -/
def paddedPayload (c : Params) (payload : List Byte) : List Byte :=
  if c.fixedLen = 0 then payload else payload ++ List.replicate (c.fixedLen - payload.length) 0

/-- `FrameBuild(payload, p)` (R164). -/
def frameBuild (c : Params) (q : Profile) (payload : List Byte) : Except Code (List Byte) :=
  if payloadTooLarge c q payload.length then .error .payloadTooLarge
  else
    let frame := frameHeader c payload.length ++ frameBody (paddedPayload c payload)
    .ok (if c.dss then spread frame else frame)

/-- The frame bytes of received chips (R167, R168). -/
def frameBytes (c : Params) (chips : List Byte) : List Byte := if c.dss then despread chips else chips

/-- `HeaderDecode(c)` (R167). -/
def headerDecode (c : Params) (chips : List Byte) : Option Nat :=
  (rsDecode (frameBytes c chips) 1 2).map fun h => (h.headD 0).toNat

/-- The body of a received frame, its payload length `l` known: the last part of `RecoverFrame` (R168). -/
def recoverBody (b : List Byte) (l off : Nat) : Option (List Byte) :=
  let k := l + 2
  let e := ecc k
  if b.length ≠ off + k + e then none
  else match rsDecode (b.drop off) k e with
    | none => none
    | some w => if crcBytes (crc16 (w.take l)) = (w.drop l).take 2 then some (w.take l) else none

/-- The payload length of a received frame and where its body starts (R168). -/
def recoverLength (c : Params) (q : Profile) (b : List Byte) : Option (Nat × Nat) :=
  if c.fixedLen = 0 then
    if b.length < 3 then none
    else match rsDecode (b.take 3) 1 2 with
      | none => none
      | some h => if q.maxPayload < (h.headD 0).toNat then none else some ((h.headD 0).toNat, 3)
  else if q.maxPayload < c.fixedLen then none else some (c.fixedLen, 0)

/-- `RecoverFrame(chips, p)` (R168). -/
def recoverFrame (c : Params) (q : Profile) (chips : List Byte) : Option (List Byte) :=
  if Config.maxFrameChips < chips.length then none
  else if c.dss && chips.length % 3 != 0 then none
  else
    let b := frameBytes c chips
    match recoverLength c q b with
    | none => none
    | some (l, off) => recoverBody b l off

end Sys2Proof.Machine
end

