-- ==== Sys2Proof/Machine/Synth.lean ====
section
/-! DEFINITION. The tone synthesizer: symbol mapping (R202), the window schedule (R203), the samples (R204, R207), and the commands
SYMBOL_MAP, RENDER and ENCODE (R209 to R211). -/

namespace Sys2Proof.Machine

/-- The symbols of one chip: two nibbles, low first, single-tone; the chip itself, dual-tone (R202). -/
def chipSymbols (q : Profile) (c : Byte) : List Byte := if q.tones = 1 then [c &&& 0x0F#8, c >>> 4] else [c]

/-- `SymbolMap(chips, p)` (R202). -/
def symbolMap (q : Profile) (chips : List Byte) : List Byte := chips.flatMap (chipSymbols q)

/-- The symbol count `nSym(m) = m * 2 / T` (R202). -/
def symbolCount (q : Profile) (m : Nat) : Nat := m * 2 / q.tones

/-- `Bins(s, p)`: the bins a symbol sounds (R203). -/
def symbolBins (q : Profile) (s : Byte) : List Nat :=
  if q.tones = 1 then [toneBin q 0 (s &&& 0x0F#8).toNat]
  else [toneBin q 0 (s &&& 0x0F#8).toNat, toneBin q 1 (s >>> 4).toNat]

/-- `Schedule(sy, p)`: the bins each window sounds (R203). -/
def schedule (q : Profile) (sy : List Byte) : List (List Nat) :=
  List.replicate Config.markerWindows [q.markerStart]
    ++ sy.flatMap (fun s => List.replicate q.windows (symbolBins q s))
    ++ List.replicate Config.markerWindows [q.markerEnd]

/-- `Sample(bl, vol, n)` as an exact integer (R204). -/
def sampleInt (bins : List Nat) (vol n : Nat) : Int :=
  Int.tdiv (vol * (bins.map fun b => sineAt (b * n)).sum) (100 * bins.length)

/-- The 1024 samples of a window (R204). -/
def windowSamples (vol : Nat) (bins : List Nat) : List Sample :=
  (List.range 1024).map fun n => BitVec.ofInt 16 (sampleInt bins vol n)

/-- `Render(sy, p, vol)` (R204). -/
def renderSamples (q : Profile) (vol : Nat) (sy : List Byte) : List Sample :=
  (schedule q sy).flatMap (windowSamples vol)

/-- The samples of a waveform of `m` symbols (R208, R210). -/
def waveSamples (q : Profile) (m : Nat) : Nat := 1024 * (2 * Config.markerWindows + m * q.windows)

/-- A waveform's bytes in the configured format (R207). -/
def sampleBuffer (c : Params) (xs : List Sample) : List Byte := xs.flatMap c.encodeSample

/-- The bytes RENDER writes for symbols `sy` (R210). -/
def renderBytes (c : Params) (q : Profile) (vol : Nat) (sy : List Byte) : List Byte :=
  sampleBuffer c (renderSamples q vol sy)

/-- The bytes ENCODE writes for a payload (R211). -/
def encodeBytes (c : Params) (q : Profile) (vol : Nat) (payload : List Byte) : Except Code (List Byte) :=
  match frameBuild c q payload with
  | .error e => .error e
  | .ok chips => .ok (renderBytes c q vol (symbolMap q chips))

/-- SYMBOL_MAP (R209). -/
def execSymbolMap (p : Nat) (s : State) : Out :=
  if !s.configured then complete .notConfigured s
  else match profile? p with
    | none => complete .unsupportedProtocol s
    | some q =>
      match firstError
          [ (rangesBad s, .addressError), (decide (Config.maxFrameChips < s.srcLen), .payloadTooLarge),
            (decide (s.dstCap < symbolCount q s.srcLen), .outputOverflow) ] with
      | some c => complete c s
      | none => transfer s.srcLen (fun chips => .ok (symbolMap q chips)) s

/-- RENDER (R210). -/
def execRender (p vol : Nat) (s : State) : Out :=
  if !s.configured then complete .notConfigured s
  else match profile? p with
    | none => complete .unsupportedProtocol s
    | some q =>
      match firstError
          [ (decide (100 < vol), .invalidParameters),
            (!aligned s.dst s.cfg.sampleBytes, .addressError), (rangesBad s, .addressError),
            (decide (2 * Config.maxFrameChips < s.srcLen), .payloadTooLarge),
            (decide (s.dstCap < waveSamples q s.srcLen * s.cfg.sampleBytes), .outputOverflow) ] with
      | some c => complete c s
      | none => transfer s.srcLen (fun sy => .ok (renderBytes s.cfg q vol sy)) s

/-- ENCODE (R211). -/
def execEncode (p vol : Nat) (s : State) : Out :=
  if !s.configured then complete .notConfigured s
  else match profile? p with
    | none => complete .unsupportedProtocol s
    | some q =>
      match firstError
          [ (decide (100 < vol), .invalidParameters),
            (!aligned s.dst s.cfg.sampleBytes, .addressError), (rangesBad s, .addressError),
            (payloadTooLarge s.cfg q s.srcLen, .payloadTooLarge),
            (decide (s.dstCap < waveSamples q (symbolCount q (frameChips s.cfg s.srcLen)) * s.cfg.sampleBytes),
              .outputOverflow) ] with
      | some c => complete c s
      | none => transfer s.srcLen (encodeBytes s.cfg q vol) s

end Sys2Proof.Machine
end

