-- ==== Sys2Proof/Machine/Detector.lean ====
section
/-! DEFINITION. The decoder state machine (R245 to R257) and the commands FEED and DECODER_RESET (R258, R259). -/

namespace Sys2Proof.Machine

/-- The profile the decoder is locked on (R52). -/
def State.lockedProfile (s : State) : Profile := profile s.dec.rxProto

/-- The best candidate so far against profile `q`: `q` takes over when its marker is on and its start-marker power is
greater (R246). -/
def betterMarker (w : List Sample) (best : Option (Fin 12)) (q : Fin 12) : Option (Fin 12) :=
  if markerOn w (profile q) then
    match best with
    | none => some q
    | some r => if power w (profile r).markerStart < power w (profile q).markerStart then some q else best
  else best

/-- The strongest start marker of a window, the lowest id among equals (R246). -/
def bestMarker (w : List Sample) : Option (Fin 12) := (List.finRange 12).foldl (betterMarker w) none

/-- `ListenStep(w)` (R246). -/
def listenStep (w : List Sample) (s : State) : State :=
  match bestMarker w with
  | none => s
  | some q => { s with dec := { s.dec with phase := .synchronizing, rxProto := q, markerCount := 1, windowsSince := 1 } }

/-- `windowsSince` one window later, saturating (R52, R247). -/
def windowsAfter (n : Word) : Word := if n.toNat + 1 < 2 ^ 32 then n + 1 else n

/-- The window count reached the timeout (R247): 0 disables it. -/
def timedOut (timeout n : Word) : Bool := timeout != 0 && decide (timeout < n)

/-- `BeginRecording()` (R249). -/
def beginRecording (s : State) : State :=
  let symbols := symbolCount s.lockedProfile
    (if 0 < s.cfg.fixedLen then frameChips s.cfg s.cfg.fixedLen else 3 * chipsPerByte s.cfg)
  { s with
    dec := { s.dec with
      phase := .recording, hdrDone := decide (0 < s.cfg.fixedLen), symExpected := BitVec.ofNat 32 symbols,
      symRemaining := BitVec.ofNat 32 symbols, acc := accZero, wis := 0, chips := [], pend := none } }

/-- One more marker window (R248). -/
def countMarker (s : State) : State := { s with dec := { s.dec with markerCount := s.dec.markerCount + 1 } }

/-- `SyncStep(w)` (R248). -/
def syncStep (w : List Sample) (s : State) : State :=
  if markerOn w s.lockedProfile then
    if s.dec.markerCount + 1 = Config.markerWindows then beginRecording (countMarker s) else countMarker s
  else { s with dec := s.dec.machineReset }

/-- The accumulators after one more window (R250): group `g < T`, value `v` gains the power at its tone bin. -/
def accumulate (w : List Sample) (q : Profile) (acc : Vector (Vector Acc 16) 2) : Vector (Vector Acc 16) 2 :=
  Vector.ofFn fun g => Vector.ofFn fun v =>
    if g.val < q.tones then acc[g][v] + BitVec.ofNat 64 (power w (toneBin q g v)) else acc[g][v]

/-- The smallest value whose accumulated power is the maximum (R251). -/
def strongest (a : Vector Acc 16) : Fin 16 :=
  ((List.finRange 16).find? fun v => (List.finRange 16).all fun u => decide (a[u] ≤ a[v])).getD 0

/-- A sliced value as a nibble. -/
def nibble (v : Fin 16) : BitVec 4 := BitVec.ofNat 4 v

/-- `AppendSymbol(val)` (R252), with `lo` and `hi` the values of tone groups 0 and 1. -/
def appendSymbol (q : Profile) (lo hi : BitVec 4) (d : Decoder) : Decoder :=
  if q.tones = 2 then { d with chips := d.chips ++ [hi ++ lo] }
  else match d.pend with
    | none => { d with pend := some lo }
    | some low => { d with chips := d.chips ++ [lo ++ low], pend := none }

/-- `SliceSymbol()` (R251). -/
def sliceSymbol (q : Profile) (d : Decoder) : Decoder :=
  appendSymbol q (nibble (strongest d.acc[0])) (nibble (strongest d.acc[1]))
    { d with acc := accZero, wis := 0, symRemaining := d.symRemaining - 1 }

/-- The frame's length is known: its body's symbols are expected next (R253). -/
def expectBody (symbols : Word) (s : State) : State :=
  { s with
    dec := { s.dec with hdrDone := true, symExpected := s.dec.symExpected + symbols, symRemaining := symbols } }

/-- `HeaderComplete()` (R253). -/
def headerComplete (s : State) : State :=
  match headerDecode s.cfg (s.dec.chips.take (3 * chipsPerByte s.cfg)) with
  | none => publish .failure .decodeFECFailure [] s
  | some l =>
    if s.lockedProfile.maxPayload < l then publish .failure .decodeFECFailure [] s
    else
      expectBody (BitVec.ofNat 32 (symbolCount s.lockedProfile (frameChips s.cfg l - 3 * chipsPerByte s.cfg))) s

/-- `Demodulate()` (R254). -/
def demodulate (s : State) : State :=
  match recoverFrame s.cfg s.lockedProfile s.dec.chips with
  | none => publish .failure .decodeFECFailure [] { s with dec := { s.dec with phase := .demodulating } }
  | some payload => publish .success .ok payload { s with dec := { s.dec with phase := .demodulating } }

/-- The window's powers are added to the symbol (R250). -/
def accumulateWindow (w : List Sample) (s : State) : State :=
  { s with dec := { s.dec with acc := accumulate w s.lockedProfile s.dec.acc, wis := s.dec.wis + 1 } }

/-- The symbol is sliced (R250, R251). -/
def sliceStep (s : State) : State := { s with dec := sliceSymbol s.lockedProfile s.dec }

/-- What follows a symbol: the next one, the header's end, or the frame's (R250). -/
def afterSymbol (s : State) : State :=
  if 0 < s.dec.symRemaining then s else if s.dec.hdrDone then demodulate s else headerComplete s

/-- `RecordStep(w)` (R250). -/
def recordStep (w : List Sample) (s : State) : State :=
  if s.dec.wis + 1 < s.lockedProfile.windows then accumulateWindow w s else afterSymbol (sliceStep (accumulateWindow w s))

/-- One more window since leaving `Listening` (R247). -/
def countWindow (s : State) : State :=
  { s with dec := { s.dec with windowsSince := windowsAfter s.dec.windowsSince } }

/-- A window outside `Listening`, counted: `TimeoutStep()` (R247), then the phase's step (R245). -/
def countedStep (w : List Sample) (s : State) : State :=
  if timedOut s.latch.ops.timeout s.dec.windowsSince then publish .failure .decodeSyncTimeout [] s
  else if s.dec.phase = .synchronizing then syncStep w s
  else recordStep w s

/-- `WindowStep(w)` (R245). -/
def windowStep (w : List Sample) (s : State) : State :=
  if s.dec.phase = .listening then listenStep w s else countedStep w (countWindow s)

/-- The sample goes into the window buffer; `fill` wraps to 0 with the 1024th (R245). -/
def storeSample (x : Sample) (s : State) : State :=
  { s with dec := { s.dec with win := s.dec.win.set s.dec.fill x, fill := s.dec.fill + 1 } }

/-- `TakeSample(x)` (R245). -/
def takeSample (x : Sample) (s : State) : State :=
  if s.dec.fill = 1023 then windowStep (storeSample x s).dec.win.toList (storeSample x s) else storeSample x s

/-- Taking this sample published a success: what FEED with STOP = 1 stops at (R258). -/
def publishedSuccess (before after : State) : Bool := after.rx.seq != before.rx.seq && after.rx.status == .success

/-- FEED's loop over its input (R258): the samples taken and the state after them; none when a sample's bytes do not
respond (R86). -/
def feedLoop (stop : Bool) : List (Option Sample) → Nat → State → Option (Nat × State)
  | [], n, s => some (n, s)
  | none :: _, _, _ => none
  | some x :: rest, n, s =>
    let t := takeSample x s
    if stop && publishedSuccess s t then some (n + 1, t) else feedLoop stop rest (n + 1) t

/-- The input samples of FEED; none for one whose bytes do not all respond to DMA (R76 to R78, R86). -/
def inputSamples (s : State) : List (Option Sample) :=
  let ss := s.cfg.sampleBytes
  (s.mem.loadItems s.src ss (s.srcLen / ss)).zipIdx.map fun item =>
    if s.plat.allPopulated ⟨s.src + item.2 * ss, ss⟩ then some (s.cfg.decodeSample item.1) else none

/-- FEED's completion code: the input ended inside a transmission, or it did not (R258). -/
def feedCode (p : Phase) : Code := if p = .synchronizing ∨ p = .recording then .bufferUnderrun else .ok

/-- FEED (R258). -/
def execFeed (stop : Bool) (s : State) : Out :=
  if !s.configured then complete .notConfigured s
  else
    let ss := s.cfg.sampleBytes
    match firstError
        [ (!(aligned s.src ss && aligned s.srcLen ss), .addressError), (!s.inputRange.inSpace, .addressError) ] with
    | some c => complete c s
    | none =>
      match feedLoop stop (inputSamples s) 0 s with
      | none => .fault .busError
      | some (n, t) =>
        complete (feedCode t.dec.phase) { t with rx := { t.rx with consumed := BitVec.ofNat 32 n }, resultLen := 0 }

/-- DECODER_RESET (R259). -/
def execDecoderReset (s : State) : Out :=
  if !s.configured then complete .notConfigured s
  else complete .ok { s with dec := s.dec.decoderReset, resultLen := 0 }

end Sys2Proof.Machine
end

