-- ==== Sys2Proof/Machine/Framer.lean ====
section
/-! DEFINITION. The framer's commands: FRAME_BUILD and FRAME_RECOVER (R170, R171). -/

namespace Sys2Proof.Machine

/-- FRAME_BUILD (R170). -/
def execFrameBuild (p : Nat) (s : State) : Out :=
  if !s.configured then complete .notConfigured s
  else match profile? p with
    | none => complete .unsupportedProtocol s
    | some q =>
      match firstError
          [ (rangesBad s, .addressError), (payloadTooLarge s.cfg q s.srcLen, .payloadTooLarge),
            (decide (s.dstCap < frameChips s.cfg s.srcLen), .outputOverflow) ] with
      | some c => complete c s
      | none => transfer s.srcLen (frameBuild s.cfg q) s

/-- What FRAME_RECOVER makes of its chips: the payload, if it decodes and fits the output (R171). -/
def recoverInto (c : Params) (q : Profile) (cap : Nat) (chips : List Byte) : Except Code (List Byte) :=
  match recoverFrame c q chips with
  | none => .error .decodeFECFailure
  | some payload => if cap < payload.length then .error .outputOverflow else .ok payload

/-- FRAME_RECOVER (R171): the output size is checked after decoding. -/
def execFrameRecover (p : Nat) (s : State) : Out :=
  if !s.configured then complete .notConfigured s
  else match profile? p with
    | none => complete .unsupportedProtocol s
    | some q =>
      match firstError
          [ (rangesBad s, .addressError), (decide (Config.maxFrameChips < s.srcLen), .decodeFECFailure) ] with
      | some c => complete c s
      | none => transfer s.srcLen (recoverInto s.cfg q s.dstCap) s

end Sys2Proof.Machine
end

