-- ==== Sys2Proof/Machine/Dispatch.lean ====
section
/-! DEFINITION. One arm per command (R102). -/

namespace Sys2Proof.Machine

def exec (i : Instr) (s : State) : Host.Outcome State Fault Refusal :=
  match i with
  | .nop => Sys2Proof.Machine.execNop s
  | .config => Sys2Proof.Machine.execConfig s
  | .deconfig => Sys2Proof.Machine.execDeconfig s
  | .profileQuery p => Sys2Proof.Machine.execProfileQuery p s
  | .frameBuild p => Sys2Proof.Machine.execFrameBuild p s
  | .frameRecover p => Sys2Proof.Machine.execFrameRecover p s
  | .symbolMap p => Sys2Proof.Machine.execSymbolMap p s
  | .render p vol => Sys2Proof.Machine.execRender p vol s
  | .encode p vol => Sys2Proof.Machine.execEncode p vol s
  | .spectrum => Sys2Proof.Machine.execSpectrum s
  | .feed stop => Sys2Proof.Machine.execFeed stop s
  | .decoderReset => Sys2Proof.Machine.execDecoderReset s

end Sys2Proof.Machine
end

