-- ==== Sys2Proof/Machine/HostBus.lean ====
section
/-! DEFINITION. The host's side: the register window (R24 to R48, R71, R72, R330), the host's own accesses to host memory (R90), WAIT (R113),
the reset line (R360) and the other blocks (R96). -/

namespace Sys2Proof.Machine

/-- The registers of R25. -/
inductive Reg where
  | id | version | cmd | status | intStatus | intEnable
  | paramRateIn | paramRateOut | paramFormat | paramPayloadLen | paramMode | rxTimeoutWindows
  | srcAddr | srcLen | dstAddr | dstCap | resultLen
  | cfgRateIn | cfgRateOut | cfgFormat | cfgPayloadLen | cfgMode
  | profId | profBand | profBaseBin | profSpacing | profTones | profWindowsPerSymbol
  | profMarkerStartBin | profMarkerEndBin | profMaxPayload
  | rxPhase | rxProtocol | rxSymbolsExpected | rxSymbolsRemaining | rxConsumed | rxResult | rxLen | rxSeq | rxFill
  | rxData (k : Fin 36)
  deriving DecidableEq, Repr

/-- The offset of a register in the window (R25). -/
def Reg.offset : Reg → Nat
  | .id => 0x000
  | .version => 0x004
  | .cmd => 0x008
  | .status => 0x00C
  | .intStatus => 0x010
  | .intEnable => 0x014
  | .paramRateIn => 0x020
  | .paramRateOut => 0x024
  | .paramFormat => 0x028
  | .paramPayloadLen => 0x02C
  | .paramMode => 0x030
  | .rxTimeoutWindows => 0x034
  | .srcAddr => 0x040
  | .srcLen => 0x044
  | .dstAddr => 0x048
  | .dstCap => 0x04C
  | .resultLen => 0x050
  | .cfgRateIn => 0x060
  | .cfgRateOut => 0x064
  | .cfgFormat => 0x068
  | .cfgPayloadLen => 0x06C
  | .cfgMode => 0x070
  | .profId => 0x080
  | .profBand => 0x084
  | .profBaseBin => 0x088
  | .profSpacing => 0x08C
  | .profTones => 0x090
  | .profWindowsPerSymbol => 0x094
  | .profMarkerStartBin => 0x098
  | .profMarkerEndBin => 0x09C
  | .profMaxPayload => 0x0A0
  | .rxPhase => 0x0C0
  | .rxProtocol => 0x0C4
  | .rxSymbolsExpected => 0x0C8
  | .rxSymbolsRemaining => 0x0CC
  | .rxConsumed => 0x0D0
  | .rxResult => 0x0D4
  | .rxLen => 0x0D8
  | .rxSeq => 0x0DC
  | .rxFill => 0x0E0
  | .rxData k => 0x100 + 4 * k

/-- Every register of the window (R25). -/
def allRegs : List Reg :=
  [.id, .version, .cmd, .status, .intStatus, .intEnable, .paramRateIn, .paramRateOut, .paramFormat, .paramPayloadLen,
    .paramMode, .rxTimeoutWindows, .srcAddr, .srcLen, .dstAddr, .dstCap, .resultLen, .cfgRateIn, .cfgRateOut,
    .cfgFormat, .cfgPayloadLen, .cfgMode, .profId, .profBand, .profBaseBin, .profSpacing, .profTones,
    .profWindowsPerSymbol, .profMarkerStartBin, .profMarkerEndBin, .profMaxPayload, .rxPhase, .rxProtocol,
    .rxSymbolsExpected, .rxSymbolsRemaining, .rxConsumed, .rxResult, .rxLen, .rxSeq, .rxFill]
    ++ (List.finRange 36).map .rxData

/-- The register at an offset of the window; none at a reserved offset (R24). -/
def regAt (off : Nat) : Option Reg := allRegs.find? fun r => r.offset == off

/-- RX_DATA`k`: four bytes of `rxData`, the first in the low bits (R48). -/
def rxDataWord (r : Published) (k : Fin 36) : Word :=
  BitVec.ofNat 32 (leNat [r.data[4 * k.val], r.data[4 * k.val + 1], r.data[4 * k.val + 2], r.data[4 * k.val + 3]])

/-- What a host read of a register returns (R26 to R48, R58); it has no side effect (R72). -/
def regRead (s : State) : Reg → Word
  | .id => Config.idValue
  | .version => Config.versionValue
  | .cmd => 0
  | .status => statusWord s
  | .intStatus => s.intStatus.zeroExtend 32
  | .intEnable => s.intEnable.zeroExtend 32
  | .paramRateIn => s.param.rateIn
  | .paramRateOut => s.param.rateOut
  | .paramFormat => s.param.format
  | .paramPayloadLen => s.param.payloadLen
  | .paramMode => s.param.mode
  | .rxTimeoutWindows => s.ops.timeout
  | .srcAddr => s.ops.srcAddr
  | .srcLen => s.ops.srcLen
  | .dstAddr => s.ops.dstAddr
  | .dstCap => s.ops.dstCap
  | .resultLen => s.resultLen
  | .cfgRateIn => s.cfg.rateIn
  | .cfgRateOut => s.cfg.rateOut
  | .cfgFormat => s.cfg.format
  | .cfgPayloadLen => s.cfg.payloadLen
  | .cfgMode => s.cfg.mode
  | .profId => s.prof.id.zeroExtend 32
  | .profBand => s.prof.band.zeroExtend 32
  | .profBaseBin => s.prof.baseBin.zeroExtend 32
  | .profSpacing => s.prof.spacing.zeroExtend 32
  | .profTones => s.prof.tones.zeroExtend 32
  | .profWindowsPerSymbol => s.prof.windowsPerSymbol.zeroExtend 32
  | .profMarkerStartBin => s.prof.markerStartBin.zeroExtend 32
  | .profMarkerEndBin => s.prof.markerEndBin.zeroExtend 32
  | .profMaxPayload => s.prof.maxPayload.zeroExtend 32
  | .rxPhase => s.dec.phase.value.zeroExtend 32
  | .rxProtocol => BitVec.ofNat 32 s.dec.rxProto
  | .rxSymbolsExpected => s.dec.symExpected
  | .rxSymbolsRemaining => s.dec.symRemaining
  | .rxConsumed => s.rx.consumed
  | .rxResult => rxResultWord s.rx
  | .rxLen => s.rx.len.zeroExtend 32
  | .rxSeq => s.rx.seq
  | .rxFill => BitVec.ofNat 32 s.dec.fill
  | .rxData k => rxDataWord s.rx k

/-- The buffers of this block's running command; none when no command runs. -/
def runningRanges (s : State) : List Range :=
  if s.busy then inputOf s.latch.cmd s.latch.ops ++ outputOf s.latch.cmd s.latch.ops else []

/-- A range of one list overlaps a range of the other. -/
def anyOverlap (xs ys : List Range) : Bool := xs.any fun x => ys.any fun y => x.overlaps y

/-- The buffers of another block's command. -/
def PeerRun.ranges (p : PeerRun) : List Range := [p.input, p.output]

/-- The buffers of the other blocks' running commands (R96). -/
def peerRanges (s : State) : List Range := (s.peers.filter (·.running)).flatMap PeerRun.ranges

/-- What the host may not load from: the outputs of commands of this block and of others, until it reads the block's STATUS
with BUSY = 0 (R90). -/
def loadBarred (s : State) : List Range := s.heldOut ++ s.peers.map (·.output)

/-- What the host may not store to: their inputs and outputs (R90). -/
def storeBarred (s : State) : List Range := s.heldIn ++ s.heldOut ++ s.peers.flatMap PeerRun.ranges

/-- `HostWriteCMD(v)` (R330): dropped and flagged while a command runs. A command whose buffers meet another block's is
refused (R96). -/
def writeCmd (v : Word) (s : State) : Out :=
  if s.busy then .next { s with intStatus := s.intStatus ||| intCmdDropped }
  else if anyOverlap (inputOf v s.ops ++ outputOf v s.ops) (peerRanges s) then .refused .blockRace
  else .next (issue v s)

/-- A host write to a register (R72): CMD issues, INT_STATUS clears, the RW registers store, an RO register ignores it. -/
def regWrite (v : Word) (s : State) : Reg → Out
  | .cmd => writeCmd v s
  | .intStatus => .next { s with intStatus := clearInt s.intStatus v }
  | .intEnable => .next { s with intEnable := v.truncate 5 }
  | .paramRateIn => .next { s with param := { s.param with rateIn := v } }
  | .paramRateOut => .next { s with param := { s.param with rateOut := v } }
  | .paramFormat => .next { s with param := { s.param with format := v } }
  | .paramPayloadLen => .next { s with param := { s.param with payloadLen := v } }
  | .paramMode => .next { s with param := { s.param with mode := v } }
  | .rxTimeoutWindows => .next { s with ops := { s.ops with timeout := v } }
  | .srcAddr => .next { s with ops := { s.ops with srcAddr := v } }
  | .srcLen => .next { s with ops := { s.ops with srcLen := v } }
  | .dstAddr => .next { s with ops := { s.ops with dstAddr := v } }
  | .dstCap => .next { s with ops := { s.ops with dstCap := v } }
  | .id | .version | .status | .resultLen | .cfgRateIn | .cfgRateOut | .cfgFormat | .cfgPayloadLen | .cfgMode
  | .profId | .profBand | .profBaseBin | .profSpacing | .profTones | .profWindowsPerSymbol | .profMarkerStartBin
  | .profMarkerEndBin | .profMaxPayload | .rxPhase | .rxProtocol | .rxSymbolsExpected | .rxSymbolsRemaining
  | .rxConsumed | .rxResult | .rxLen | .rxSeq | .rxFill | .rxData _ => .next s

/-- The window offset an MMIO access names; none unless it is an aligned 32-bit access in the window at MMIO_BASE (R24, R71). -/
def windowOffset? (s : State) (addr width : Nat) : Option Nat :=
  if width = 4 ∧ s.plat.mmioBase ≤ addr ∧ addr < s.plat.mmioBase + Config.windowBytes
      ∧ (addr - s.plat.mmioBase) % 4 = 0 then some (addr - s.plat.mmioBase) else none

/-- The value a read at a window offset returns; a reserved offset reads 0 (R24). -/
def windowRead (s : State) (off : Nat) : Word :=
  match regAt off with
  | some r => regRead s r
  | none => 0

/-- A write at a window offset; a reserved offset ignores it (R24). -/
def windowWrite (off : Nat) (v : Word) (s : State) : Out :=
  match regAt off with
  | some r => regWrite v s r
  | none => .next s

/-- The host's side of a register read: it gets the value, and a STATUS read that returns BUSY = 0 gives it its buffers back
(R87, R89, R90). The block's state does not change (R72). With several host agents (R345) any agent's read gives all the
buffers back: DESIGN CHOICE, since R90 does not say whose read it is (log entry 25). -/
def hostReads (off : Nat) (s : State) : State :=
  if regAt off = some .status ∧ s.busy = false then
    { s with observed := .word (windowRead s off) :: s.observed, heldIn := [], heldOut := [] }
  else { s with observed := .word (windowRead s off) :: s.observed }

/-- A host MMIO read (R71, R72). -/
def mmioRead (addr width : Nat) (s : State) : Out :=
  match windowOffset? s addr width with
  | some off => .next (hostReads off s)
  | none => .fault .mmioWidth

/-- A host MMIO write (R71, R72). -/
def mmioWrite (addr width : Nat) (v : Word) (s : State) : Out :=
  match windowOffset? s addr width with
  | some off => windowWrite off v s
  | none => .fault .mmioWidth

/-- The byte the host sees at an address: memory's where its caches see DMA writes, a free value elsewhere (R89; log entry 17). -/
def hostByte (s : State) (a : Nat) : Byte :=
  if s.plat.isCoherent a then s.mem.read a else Config.freeByte s.freeCount a

/-- The host loads bytes of host memory: not a command's output (R90). -/
def memLoad (addr len : Nat) (s : State) : Out :=
  if anyOverlap [⟨addr, len⟩] (loadBarred s) then .refused .bufferRace
  else if s.plat.allPopulated ⟨addr, len⟩ then
    .next { s with
      observed := .bytes ((List.range len).map fun i => hostByte s (addr + i)) :: s.observed
      freeCount := s.freeCount + 1 }
  else .fault .hostMemoryAbsent

/-- The host stores bytes in host memory: neither a command's input nor its output (R90). The bytes are in memory from this
step on, whatever `HostCacheCoherent` is: DESIGN CHOICE, since R88 leaves OPEN how the host makes its stores reach memory
(log entry 23). -/
def memStore (addr : Nat) (bs : List Byte) (s : State) : Out :=
  if anyOverlap [⟨addr, bs.length⟩] (storeBarred s) then .refused .bufferRace
  else if s.plat.allPopulated ⟨addr, bs.length⟩ then .next { s with mem := s.mem.store addr bs }
  else .fault .hostMemoryAbsent

/-- Bytes the spec calls unspecified over a range: free values where host memory is, drawn with number `n`. -/
def scrambled (p : Platform) (n : Nat) (m : Memory) (r : Range) : List Byte :=
  (List.range r.len).map fun i =>
    if p.isPopulated (r.base + i) && decide (r.base + i < Config.addrSpace) then Config.freeByte n (r.base + i)
    else m.read (r.base + i)

/-- The part of a range inside host memory. -/
def Range.clip (r : Range) : Range := ⟨r.base, min r.len (Config.addrSpace - r.base)⟩

/-- Host memory after a reset abandoned the running command: the bytes of its output range are unspecified (R360, I15). -/
def abandonOutput (s : State) : State :=
  (if s.busy then outputOf s.latch.cmd s.latch.ops else []).foldl
    (fun t r => { t with
      mem := t.mem.store r.clip.base (scrambled t.plat t.freeCount t.mem r.clip), freeCount := t.freeCount + 1 }) s

/-- The platform asserts reset (R360): a running command is abandoned, the block takes its reset values, and the host's
claims on buffers end with the command (log entry 10). -/
def platformReset (s : State) : State := { (abandonOutput s).resetBlock with heldIn := [], heldOut := [] }

/-- `b` is the number of another block (R8). -/
def isPeer (s : State) (b : Nat) : Bool := 1 ≤ b && b < s.plat.gtmCount

/-- This command is block `b`'s running one. -/
def PeerRun.runsOn (b : Nat) (p : PeerRun) : Bool := p.running && p.block == b

/-- The host writes another block's CMD (R330 there): dropped while that block runs a command, refused where the buffers meet
those of another block's running command (R96), and where the command's own input and output overlap (R91). -/
def peerIssue (b : Nat) (input output : Range) (s : State) : Out :=
  if !isPeer s b then .refused .noSuchBlock
  else if s.peers.any (PeerRun.runsOn b) then .next s
  else if anyOverlap [input, output] (runningRanges s ++ peerRanges s) then .refused .blockRace
  else if input.overlaps output then .refused .bufferOverlap
  else .next { s with peers := s.peers ++ [⟨b, input, output, true⟩] }

/-- Another block's running command ends with `bs` stored at the start of its output range, which bounds what it stores (R83, R96).
The host does not have the buffers back yet (R90). -/
def peerFinish (b : Nat) (bs : List Byte) (s : State) : Out :=
  match s.peers.find? (PeerRun.runsOn b) with
  | none => .refused .noSuchBlock
  | some run =>
    let out := bs.take run.output.len
    if s.plat.allPopulated ⟨run.output.base, out.length⟩ then
      .next { s with
        mem := s.mem.store run.output.base out
        peers := s.peers.map fun p => if p.runsOn b then { p with running := false } else p }
    else .fault .busError

/-- The host reads another block's STATUS: with BUSY = 0 it gets that block's buffers back (R90). The rest of what the read
returns is not in this model (log entry 15). -/
def peerStatus (b : Nat) (s : State) : Out :=
  if !isPeer s b then .refused .noSuchBlock
  else if s.peers.any (PeerRun.runsOn b) then .next s
  else .next { s with peers := s.peers.filter fun p => p.block != b }

/-- One poll of WAIT (R113): the host reads STATUS; while BUSY is 1 it polls again, after the sequencer's turn, which weak
fairness promises (R332; log entry 4). -/
def waitPoll (s : State) : State :=
  let t := hostReads (Reg.offset .status) s
  if s.busy then { t with agenda := .sequencer :: .wait :: t.agenda } else t

end Sys2Proof.Machine
end

