-- ==== Sys2Proof/Machine/Sequencer.lean ====
section
/-! DEFINITION. The sequencer's step (R331), and one step of the environment (R332). -/

namespace Sys2Proof.Machine

/-- `SequencerStep` (R331): an illegal word finishes with `IllegalCommand` (R108, R322 step 1); a command runs to its end. -/
def sequencerStep (s : State) : Out :=
  match decode s.latch.cmd with
  | .ok i => exec i s
  | .error _ => complete .illegalCommand s

/-- The sequencer's turn: its step is enabled only while a command is latched (R331, R332). -/
def sequencerTurn (s : State) : Out := if s.busy then sequencerStep s else .next s

/-- One action of the agenda (R332). -/
def actionStep (a : HostAction) (s : State) : Out :=
  match a with
  | .mmioRead addr width => mmioRead addr width s
  | .mmioWrite addr width v => mmioWrite addr width v s
  | .memLoad addr len => memLoad addr len s
  | .memStore addr bs => memStore addr bs s
  | .wait => .next (waitPoll s)
  | .sequencer => sequencerTurn s
  | .reset => .next (platformReset s)
  | .peerIssue b input output => peerIssue b input output s
  | .peerFinish b bs => peerFinish b bs s
  | .peerStatus b => peerStatus b s

/-- The next step of the system: the first action of the agenda, and the sequencer's turn when the agenda is empty (R332;
log entry 3). -/
def nextStep (s : State) : Out :=
  match s.agenda with
  | [] => sequencerTurn s
  | a :: rest => actionStep a { s with agenda := rest }

/-- `s` with command word `v` latched as a CMD write latches it (R330), and the sequencer's turn next. -/
def readyToRun (v : Word) (s : State) : State := { issue v s with agenda := .sequencer :: s.agenda }

end Sys2Proof.Machine
end

