-- ==== Sys2Proof/Machine/Step.lean ====
section
/-! DEFINITION. One step of the machine, and how a command word comes to be the next one it runs (log entry 19). -/

namespace Sys2Proof.Machine

/-- One step of the system (R332). -/
def step (s : State) : Host.Outcome State Fault Refusal := nextStep s

/-- The block fetches no instructions (R22): a command word reaches the sequencer through a host write to CMD. So `s` after
that write, with the sequencer's turn next. -/
def State.withFetchWord (s : State) (nbits w : Nat) : State := readyToRun (BitVec.ofNat 32 (w % 2 ^ nbits)) s

end Sys2Proof.Machine
end

