-- ==== Sys2Proof/Machine/HostSeq.lean ====
section
/-! DEFINITION. The source's API as host sequences (R113 to R119): pieces of an agenda for the block at `base` (MMIO_BASE), and what each
call gives, read off what the host's reads returned (`State.observed`, the latest first) in the state after the sequence. -/

namespace Sys2Proof.Machine

/-- `W NAME, value` (R112). -/
def hostWrite (base : Nat) (r : Reg) (v : Word) : HostAction := .mmioWrite (base + r.offset) 4 v

/-- `R NAME` (R112). -/
def hostRead (base : Nat) (r : Reg) : HostAction := .mmioRead (base + r.offset) 4

/-- `CMD text` (R112), the command given by its term. -/
def hostCommand (base : Nat) (i : Instr) : HostAction := hostWrite base .cmd (encode i)

/-- `createInstance(parameters)` (R115). -/
def createInstance (base : Nat) (p : Params) : List HostAction :=
  [ hostWrite base .paramRateIn p.rateIn, hostWrite base .paramRateOut p.rateOut, hostWrite base .paramFormat p.format,
    hostWrite base .paramPayloadLen p.payloadLen, hostWrite base .paramMode p.mode, hostCommand base .config, .wait,
    hostRead base .status ]

/-- The completion code a STATUS word shows (R27, R320). -/
def statusCode (w : Word) : Option Code := codeNamed ((w >>> 8).truncate 8)

/-- What `createInstance` gives: the instance, or the error STATUS.ERR names (R115); none where the sequence was not run. -/
def createInstanceResult (s : State) : Option (Except Code Unit) :=
  match s.observed with
  | .word status :: _ => (statusCode status).map fun c => if c = .ok then .ok () else .error c
  | _ => none

/-- `destroyInstance` (R115). -/
def destroyInstance (base : Nat) : List HostAction := [hostCommand base .deconfig, .wait]

/-- A command from a buffer at `a` to a buffer at `b` of capacity `cap`, its input bytes stored first (R116, R119). -/
def bufferCall (base : Nat) (i : Instr) (input : List Byte) (a b cap : Nat) : List HostAction :=
  [ .memStore a input, hostWrite base .srcAddr (BitVec.ofNat 32 a), hostWrite base .srcLen (BitVec.ofNat 32 input.length),
    hostWrite base .dstAddr (BitVec.ofNat 32 b), hostWrite base .dstCap (BitVec.ofNat 32 cap), hostCommand base i, .wait,
    hostRead base .status, hostRead base .resultLen ]

/-- What such a call gives: the RESULT_LEN bytes at `b`, as the host loads them, when STATUS.ERR = 0, and otherwise the error
STATUS.ERR names (R116, R119); none where the sequence was not run. -/
def bufferResult (b : Nat) (s : State) : Option (Except Code (List Byte)) :=
  match s.observed with
  | .word len :: .word status :: _ =>
    (statusCode status).map fun c =>
      if c = .ok then .ok ((List.range len.toNat).map fun i => hostByte s (b + i)) else .error c
  | _ => none

/-- `encode(handle, payload, protocolId, volume)` (R116). -/
def encodeCall (base p vol : Nat) (payload : List Byte) (a b cap : Nat) : List HostAction :=
  bufferCall base (.encode p vol) payload a b cap

/-- What `encode` gives: the `RESULT_LEN / cfg.ss` samples at `b`, or the error (R116). -/
def encodeResult (b : Nat) (s : State) : Option (Except Code (List Sample)) :=
  (bufferResult b s).map fun r => r.map fun bytes => samplesOf s.cfg (bytes.length / s.cfg.sampleBytes) bytes

/-- `buildFrame(payload, profile)` (R119); it gives `bufferResult`. -/
def buildFrameCall (base p : Nat) (payload : List Byte) (a b cap : Nat) : List HostAction :=
  bufferCall base (.frameBuild p) payload a b cap

/-- `recoverFrame(bits, profile)` (R119); it gives `bufferResult`. -/
def recoverFrameCall (base p : Nat) (chips : List Byte) (a b cap : Nat) : List HostAction :=
  bufferCall base (.frameRecover p) chips a b cap

/-- `decode(handle, samples)` (R117), the samples given by their bytes in the configured format. -/
def decodeCall (base : Nat) (bytes : List Byte) (a : Nat) : List HostAction :=
  [ hostRead base .rxSeq, .memStore a bytes, hostWrite base .srcAddr (BitVec.ofNat 32 a),
    hostWrite base .srcLen (BitVec.ofNat 32 bytes.length), hostCommand base (.feed true), .wait, hostRead base .rxSeq,
    hostRead base .rxResult ]

/-- Byte `i` of RX_DATA as the host reads it (R48). -/
def rxDataByte (s : State) (i : Nat) : Byte :=
  (windowRead s (Reg.offset (.rxData 0) + 4 * (i / 4)) >>> (8 * (i % 4))).truncate 8

/-- What `decode` gives, the host having made `n` reads before the call (R117): the RX_LEN bytes of RX_DATA when RX_SEQ, the call's
first read, differs from RX_SEQ, its last but one, and RX_RESULT, its last, shows a success; empty otherwise. RX_LEN and
RX_DATA are what reads of them return after the call. None where the sequence was not run. -/
def decodeResult (n : Nat) (s : State) : Option (List Byte) :=
  match s.observed.reverse[n]?, s.observed with
  | some (.word q0), .word result :: .word q1 :: _ =>
    some (if q1 ≠ q0 ∧ result &&& 3 = 1 then (List.range (regRead s .rxLen).toNat).map (rxDataByte s) else [])
  | _, _ => none

/-- `decoderStatus(handle)` (R118). -/
def decoderStatusCall (base : Nat) : List HostAction :=
  [hostRead base .rxPhase, hostRead base .rxSymbolsExpected, hostRead base .rxSymbolsRemaining]

/-- What `decoderStatus` gives: phase, symbols expected, symbols remaining (R118). -/
def decoderStatusResult (s : State) : Option (Word × Word × Word) :=
  match s.observed with
  | .word remaining :: .word expected :: .word phase :: _ => some (phase, expected, remaining)
  | _ => none

/-- `profileFor(protocolId)` (R118). -/
def profileForCall (base p : Nat) : List HostAction :=
  [ hostCommand base (.profileQuery p), .wait, hostRead base .profId, hostRead base .profBand, hostRead base .profBaseBin,
    hostRead base .profSpacing, hostRead base .profTones, hostRead base .profWindowsPerSymbol,
    hostRead base .profMarkerStartBin, hostRead base .profMarkerEndBin, hostRead base .profMaxPayload ]

/-- "Explicitly resetting its DecoderState to Listening" (R118). -/
def resetDecoderCall (base : Nat) : List HostAction := [hostCommand base .decoderReset, .wait]

end Sys2Proof.Machine
end

