-- ==== Sys2Proof/Safety.lean ====
section
/-! DEFINITION. What the claims speak of: the conditions under which a command runs to its completion, the checks of R322 as one list,
the invariants of the machine, and the frames. -/

namespace Sys2Proof.Machine

/-! ## Outcomes -/

/-- Apply `f` to the next state of an outcome. -/
def mapNext (f : State → State) : Out → Out
  | .next s => .next (f s)
  | .fault r => .fault r
  | .refused r => .refused r

/-- The step neither faults nor is refused. -/
def Completes (o : Out) : Prop := ∃ t, o = .next t

/-- `n` steps of the machine, ending early at a fault or a refusal. -/
def steps : Nat → State → Out
  | 0, s => .next s
  | n + 1, s =>
    match step s with
    | .next t => steps n t
    | .fault r => .fault r
    | .refused r => .refused r

/-! ## The register map (R25) -/

/-- The access types of R24. -/
inductive Access where
  | ro
  | wo
  | rw
  | rw1c
  deriving DecidableEq, Repr

/-- A row of R25. -/
structure MapRow where
  offset : Nat
  access : Access
  reset : Word
  deriving DecidableEq, Repr

/-- The rows of R25 from ID to DST_CAP that are not plain read-only registers at 0. -/
def hostRegisterRows : List MapRow :=
  [ ⟨0x000, .ro, 0x47475756⟩, ⟨0x004, .ro, 0x00010000⟩, ⟨0x008, .wo, 0⟩, ⟨0x010, .rw1c, 0⟩, ⟨0x014, .rw, 0⟩
  , ⟨0x020, .rw, 0x0000BB80⟩, ⟨0x024, .rw, 0x0000BB80⟩, ⟨0x028, .rw, 0⟩, ⟨0x02C, .rw, 0⟩, ⟨0x030, .rw, 0⟩
  , ⟨0x034, .rw, 0x00004000⟩, ⟨0x040, .rw, 0⟩, ⟨0x044, .rw, 0⟩, ⟨0x048, .rw, 0⟩, ⟨0x04C, .rw, 0⟩ ]

/-- The offsets of the read-only registers whose reset value is 0: STATUS, RESULT_LEN, CFG, PROF, RX (R25). -/
def resultOffsets : List Nat :=
  [ 0x00C, 0x050, 0x060, 0x064, 0x068, 0x06C, 0x070, 0x080, 0x084, 0x088, 0x08C, 0x090, 0x094, 0x098, 0x09C, 0x0A0
  , 0x0C0, 0x0C4, 0x0C8, 0x0CC, 0x0D0, 0x0D4, 0x0D8, 0x0DC, 0x0E0 ] ++ (List.range 36).map fun k => 0x100 + 4 * k

/-- The register map of R25. -/
def registerMap : List MapRow := hostRegisterRows ++ resultOffsets.map fun off => ⟨off, .ro, 0⟩

/-- An offset of the register map and what the register there shows, as a number. -/
structure FieldRow where
  offset : Nat
  value : State → Nat

/-- The state behind each register from ID to RESULT_LEN (R26 to R37). -/
def hostFieldRows : List FieldRow :=
  [ ⟨0x000, fun _ => 0x47475756⟩, ⟨0x004, fun _ => 0x00010000⟩, ⟨0x008, fun _ => 0⟩
  , ⟨0x00C, fun s => s.busy.toNat + 2 * s.configured.toNat + 2 ^ 8 * s.err.value.toNat⟩
  , ⟨0x010, fun s => s.intStatus.toNat⟩, ⟨0x014, fun s => s.intEnable.toNat⟩
  , ⟨0x020, fun s => s.param.rateIn.toNat⟩, ⟨0x024, fun s => s.param.rateOut.toNat⟩
  , ⟨0x028, fun s => s.param.format.toNat⟩, ⟨0x02C, fun s => s.param.payloadLen.toNat⟩
  , ⟨0x030, fun s => s.param.mode.toNat⟩, ⟨0x034, fun s => s.ops.timeout.toNat⟩
  , ⟨0x040, fun s => s.ops.srcAddr.toNat⟩, ⟨0x044, fun s => s.ops.srcLen.toNat⟩
  , ⟨0x048, fun s => s.ops.dstAddr.toNat⟩, ⟨0x04C, fun s => s.ops.dstCap.toNat⟩, ⟨0x050, fun s => s.resultLen.toNat⟩ ]

/-- The state behind each CFG and PROF register (R38, R39). -/
def instanceFieldRows : List FieldRow :=
  [ ⟨0x060, fun s => s.cfg.rateIn.toNat⟩, ⟨0x064, fun s => s.cfg.rateOut.toNat⟩, ⟨0x068, fun s => s.cfg.format.toNat⟩
  , ⟨0x06C, fun s => s.cfg.payloadLen.toNat⟩, ⟨0x070, fun s => s.cfg.mode.toNat⟩
  , ⟨0x080, fun s => s.prof.id.toNat⟩, ⟨0x084, fun s => s.prof.band.toNat⟩, ⟨0x088, fun s => s.prof.baseBin.toNat⟩
  , ⟨0x08C, fun s => s.prof.spacing.toNat⟩, ⟨0x090, fun s => s.prof.tones.toNat⟩
  , ⟨0x094, fun s => s.prof.windowsPerSymbol.toNat⟩, ⟨0x098, fun s => s.prof.markerStartBin.toNat⟩
  , ⟨0x09C, fun s => s.prof.markerEndBin.toNat⟩, ⟨0x0A0, fun s => s.prof.maxPayload.toNat⟩ ]

/-- The state behind each RX register (R40 to R48, R58). -/
def rxFieldRows : List FieldRow :=
  [ ⟨0x0C0, fun s => s.dec.phase.value.toNat⟩, ⟨0x0C4, fun s => s.dec.rxProto⟩
  , ⟨0x0C8, fun s => s.dec.symExpected.toNat⟩, ⟨0x0CC, fun s => s.dec.symRemaining.toNat⟩
  , ⟨0x0D0, fun s => s.rx.consumed.toNat⟩
  , ⟨0x0D4, fun s => s.rx.status.value.toNat + 2 ^ 8 * s.rx.code.value.toNat⟩, ⟨0x0D8, fun s => s.rx.len.toNat⟩
  , ⟨0x0DC, fun s => s.rx.seq.toNat⟩, ⟨0x0E0, fun s => s.dec.fill⟩ ]
  ++ (List.finRange 36).map fun k => ⟨0x100 + 4 * k, fun s =>
    s.rx.data[4 * k.val].toNat + 2 ^ 8 * s.rx.data[4 * k.val + 1].toNat + 2 ^ 16 * s.rx.data[4 * k.val + 2].toNat
      + 2 ^ 24 * s.rx.data[4 * k.val + 3].toNat⟩

/-- An offset of a read-write register and the state after a write to it. -/
structure WriteRow where
  offset : Nat
  write : Word → State → State

/-- What a write to each read-write register stores (R29 to R36). -/
def writeRows : List WriteRow :=
  [ ⟨0x014, fun v s => { s with intEnable := v.truncate 5 }⟩
  , ⟨0x020, fun v s => { s with param := { s.param with rateIn := v } }⟩
  , ⟨0x024, fun v s => { s with param := { s.param with rateOut := v } }⟩
  , ⟨0x028, fun v s => { s with param := { s.param with format := v } }⟩
  , ⟨0x02C, fun v s => { s with param := { s.param with payloadLen := v } }⟩
  , ⟨0x030, fun v s => { s with param := { s.param with mode := v } }⟩
  , ⟨0x034, fun v s => { s with ops := { s.ops with timeout := v } }⟩
  , ⟨0x040, fun v s => { s with ops := { s.ops with srcAddr := v } }⟩
  , ⟨0x044, fun v s => { s with ops := { s.ops with srcLen := v } }⟩
  , ⟨0x048, fun v s => { s with ops := { s.ops with dstAddr := v } }⟩
  , ⟨0x04C, fun v s => { s with ops := { s.ops with dstCap := v } }⟩ ]

/-- What a read-write register keeps of a written value: INT_ENABLE has bits [4:0] only (R29). -/
def writtenValue (off : Nat) (v : Word) : Word := if off = 0x014 then v &&& 0x1F#32 else v

/-! ## The checks of R322 -/

/-- The parameters R302 accepts. -/
def Accepted (p : Params) : Prop :=
  8000 ≤ p.rateIn.toNat ∧ p.rateIn.toNat ≤ 96000 ∧ 8000 ≤ p.rateOut.toNat ∧ p.rateOut.toNat ≤ 96000
    ∧ (p.format.toNat = 0 ∨ p.format.toNat = 1) ∧ p.payloadLen.toNat ≤ 64 ∧ p.mode.toNat ≤ 1

/-- The commands that take a PROTO field (R103). -/
def usesProto : Instr → Bool
  | .profileQuery _ | .frameBuild _ | .frameRecover _ | .symbolMap _ | .render _ _ | .encode _ _ => true
  | .nop | .config | .deconfig | .spectrum | .feed _ | .decoderReset => false

/-- The commands that take a VOLUME field (R103). -/
def usesVolume : Instr → Bool
  | .render _ _ | .encode _ _ => true
  | .nop | .config | .deconfig | .profileQuery _ | .frameBuild _ | .frameRecover _ | .symbolMap _ | .spectrum
  | .feed _ | .decoderReset => false

/-- A buffer address or a sample length of the command is misaligned (R81). -/
def misaligned (i : Instr) (s : State) : Bool :=
  match i with
  | .render _ _ | .encode _ _ => s.dst % s.cfg.sampleBytes != 0
  | .spectrum => s.src % s.cfg.sampleBytes != 0 || s.srcLen % s.cfg.sampleBytes != 0 || s.dst % 8 != 0
  | .feed _ => s.src % s.cfg.sampleBytes != 0 || s.srcLen % s.cfg.sampleBytes != 0
  | .nop | .config | .deconfig | .profileQuery _ | .frameBuild _ | .frameRecover _ | .symbolMap _ | .decoderReset => false

/-- A range the command uses does not end at or below `2^32` (R82). -/
def outOfSpace (i : Instr) (s : State) : Bool :=
  (usesInput i && decide (0 < s.srcLen) && decide (2 ^ 32 < s.src + s.srcLen))
    || (usesOutput i && decide (0 < s.dstCap) && decide (2 ^ 32 < s.dst + s.dstCap))

/-- The payload is over the configuration's limit, every profile's maximum being 140 (R164, R170, R211). -/
def overPayload (c : Params) (n : Nat) : Bool :=
  if c.payloadLen.toNat = 0 then decide (140 < n) else decide (140 < c.payloadLen.toNat) || decide (c.payloadLen.toNat < n)

/-- The input-size check of R322 step 6, with the code it gives. -/
def inputSizeError (i : Instr) (s : State) : Option Code :=
  match i with
  | .frameBuild _ | .encode _ _ => if overPayload s.cfg s.srcLen then some .payloadTooLarge else none
  | .symbolMap _ => if 603 < s.srcLen then some .payloadTooLarge else none
  | .render _ _ => if 1206 < s.srcLen then some .payloadTooLarge else none
  | .spectrum => if s.srcLen < 1024 * s.cfg.sampleBytes then some .bufferUnderrun else none
  | .frameRecover _ => if 603 < s.srcLen then some .decodeFECFailure else none
  | .nop | .config | .deconfig | .profileQuery _ | .feed _ | .decoderReset => none

/-- The output size a command computes from its operands (R83); FRAME_RECOVER's is known only after decoding, and the others
write nothing. -/
def outputSize (i : Instr) (s : State) : Nat :=
  match i with
  | .frameBuild _ => frameChips s.cfg s.srcLen
  | .symbolMap p => (profile? p).elim 0 fun q => s.srcLen * 2 / q.tones
  | .render p _ => (profile? p).elim 0 fun q => 1024 * (32 + s.srcLen * q.windows) * s.cfg.sampleBytes
  | .encode p _ =>
    (profile? p).elim 0 fun q => 1024 * (32 + frameChips s.cfg s.srcLen * 2 / q.tones * q.windows) * s.cfg.sampleBytes
  | .spectrum => 4104
  | .nop | .config | .deconfig | .profileQuery _ | .frameRecover _ | .feed _ | .decoderReset => 0

/-- The first of the conditions 2 to 7 of R322 that applies, in R322's order. -/
def firstFailure (i : Instr) (s : State) : Option Code :=
  if 0x10 ≤ i.op ∧ s.configured = false then some .notConfigured
  else if usesProto i = true ∧ 12 ≤ i.proto then some .unsupportedProtocol
  else if usesVolume i = true ∧ 100 < i.volume then some .invalidParameters
  else if i = .config ∧ s.latch.par.valid = false then some .invalidParameters
  else if misaligned i s = true then some .addressError
  else if outOfSpace i s = true then some .addressError
  else match inputSizeError i s with
    | some c => some c
    | none => if s.dstCap < outputSize i s then some .outputOverflow else none

/-! ## When a command's DMA goes through (R86, R91, R340) -/

/-- The bytes of its input a command reads (SPECTRUM reads the first 1024 samples only, R244). -/
def inputBytesRead (i : Instr) (s : State) : Nat :=
  match i with
  | .spectrum => 1024 * s.cfg.sampleBytes
  | _ => s.srcLen

/-- A command with both buffers runs: its ranges do not overlap (R91), and the bytes it reads, and the `out` bytes it
writes, respond to DMA (R86). -/
structure DmaReady (i : Instr) (out : Nat) (s : State) : Prop where
  apart : s.inputRange.overlaps s.outputRange = false
  readable : s.plat.allPopulated ⟨s.src, inputBytesRead i s⟩ = true
  writable : s.plat.allPopulated ⟨s.dst, out⟩ = true

/-- The input bytes a command reads, as host memory holds them. -/
def inputBytes (s : State) (n : Nat) : List Byte := s.mem.load s.src n

/-- The state after a command stored `out` at its output and finished with OK. -/
def storedOutput (out : List Byte) (s : State) : State :=
  finish .ok { s with mem := s.mem.store s.dst out, resultLen := BitVec.ofNat 32 out.length }

/-- `s` with the operands `o` latched in place of its own. -/
def State.relatch (o : Operands) (s : State) : State := { s with latch := { s.latch with ops := o } }

/-- `s` with the input buffer `a, n` latched in place of its own. -/
def State.withSource (a n : Word) (s : State) : State :=
  s.relatch { s.latch.ops with srcAddr := a, srcLen := n }

/-- The samples of the latched input buffer, in order (R76, R77, R78). -/
def fedSamples (s : State) : List Sample :=
  (List.range (s.srcLen / s.cfg.sampleBytes)).map fun i =>
    s.cfg.decodeSample (s.mem.load (s.src + i * s.cfg.sampleBytes) s.cfg.sampleBytes)

/-- The decoder takes samples one after another (R245). -/
def takeSamples (xs : List Sample) (s : State) : State := xs.foldl (fun u x => takeSample x u) s

/-- Taking sample `j` of the input published a success: where FEED with STOP = 1 stops (R258). -/
def SucceedsAt (s : State) (j : Nat) : Prop :=
  (takeSamples ((fedSamples s).take (j + 1)) s).rx.seq ≠ (takeSamples ((fedSamples s).take j) s).rx.seq
    ∧ (takeSamples ((fedSamples s).take (j + 1)) s).rx.status = .success

/-- The real number a binary32 encoding stands for, where its exponent field is not 255 (R77). -/
def f32Value (x : Word) : ℚ :=
  let e : Nat := ((x >>> 23) &&& 0xFF#32).toNat
  let f : ℚ := ((x &&& 0x7FFFFF#32).toNat : ℚ) / 2 ^ 23
  (if x.getLsbD 31 then -1 else 1) * (if e = 0 then f * 2 ^ (-126 : ℤ) else (1 + f) * 2 ^ ((e : ℤ) - 127))

/-! ## Buffers the host may not touch (R90) -/

/-- Address `a` lies in the output of a command, of this block or another, that the host does not have back yet. -/
def State.OutputOwned (s : State) (a : Nat) : Prop :=
  (∃ r ∈ s.heldOut, r.contains a = true) ∨ ∃ p ∈ s.peers, p.output.contains a = true

/-- Address `a` lies in the input or output of such a command. -/
def State.Owned (s : State) (a : Nat) : Prop :=
  s.OutputOwned a ∨ (∃ r ∈ s.heldIn, r.contains a = true) ∨ ∃ p ∈ s.peers, p.input.contains a = true

/-! ## Frames -/

/-- `s` with the host's side of `e`: everything no command reads or writes, the latch and the platform apart. -/
def State.withHostSide (s e : State) : State :=
  { s with
    intEnable := e.intEnable, param := e.param, ops := e.ops, agenda := e.agenda, observed := e.observed,
    heldIn := e.heldIn, heldOut := e.heldOut, peers := e.peers, freeCount := e.freeCount }

/-- The environment, the host's registers, the latch and the platform are as before: what no command touches. -/
structure SameHostSide (s t : State) : Prop where
  intEnable : t.intEnable = s.intEnable
  param : t.param = s.param
  ops : t.ops = s.ops
  latch : t.latch = s.latch
  plat : t.plat = s.plat
  agenda : t.agenda = s.agenda
  observed : t.observed = s.observed
  heldIn : t.heldIn = s.heldIn
  heldOut : t.heldOut = s.heldOut
  peers : t.peers = s.peers
  freeCount : t.freeCount = s.freeCount

/-- The instance is as before: configuration, decoder, published result. -/
structure SameInstance (s t : State) : Prop where
  configured : t.configured = s.configured
  cfg : t.cfg = s.cfg
  dec : t.dec = s.dec
  rx : t.rx = s.rx

/-- The bits of INT_STATUS other than DONE and ERROR, and those two where set, are as before (R331). -/
def SameIntOtherThanCompletion (s t : State) : Prop :=
  ∀ k < 5, 2 ≤ k ∨ s.intStatus.getLsbD k = true → t.intStatus.getLsbD k = s.intStatus.getLsbD k

/-- Every byte of host memory is as before. -/
def SameMemory (s t : State) : Prop := ∀ a, t.mem.read a = s.mem.read a

/-- Every byte of host memory outside `base .. base + len - 1` is as before. -/
def SameMemoryOutside (base len : Nat) (s t : State) : Prop :=
  ∀ a, a < base ∨ base + len ≤ a → t.mem.read a = s.mem.read a

/-! ## Invariants -/

/-- Host memory keeps its canonical form. -/
def MemoryInv (s : State) : Prop := s.mem.wf = true

/-- A held configuration is one R302 accepts; without one CFG is 0 and the decoder idles (R38, R301, R305). -/
def ConfigInv (s : State) : Prop :=
  (s.configured = true → s.cfg.valid = true)
    ∧ (s.configured = false → s.cfg = Params.zero ∧ s.dec.phase = .listening ∧ s.dec.fill = 0)

/-- The symbols received in a recording (R260). -/
def symbolsReceived (d : Decoder) : Nat := d.symExpected.toNat - d.symRemaining.toNat

/-- The nibbles the received chips and the pending one hold (R54, R252). -/
def nibblesHeld (d : Decoder) : Nat := 2 * d.chips.length + (if d.pend.isSome then 1 else 0)

/-- In `Recording`: a symbol is incomplete, symbols remain, the nibbles held are those of the symbols received, and the
symbols expected are those of a header (R249) or of one frame (R249, R253). -/
structure RecordingInv (c : Params) (d : Decoder) : Prop where
  marker : d.markerCount = 16
  incomplete : d.wis < (profile d.rxProto).windows
  remaining : 0 < d.symRemaining.toNat ∧ d.symRemaining.toNat ≤ d.symExpected.toNat
  nibbles : nibblesHeld d = symbolsReceived d * (profile d.rxProto).tones
  header : d.hdrDone = false → c.fixedLen = 0 ∧ d.symExpected.toNat = symbolCount (profile d.rxProto) (3 * chipsPerByte c)
  frame : d.hdrDone = true →
    ∃ n ≤ 140, d.symExpected.toNat = symbolCount (profile d.rxProto) (frameChips c n)
  /-- Each window adds less than `2^51` (R53, R242). -/
  sums : ∀ (g : Fin 2) (v : Fin 16), d.acc[g][v].toNat ≤ d.wis * 2 ^ 51

/-- The decoder between commands (R42, R50, R52): never `Demodulating`; in `Listening` all that MachineReset clears is clear; in
`Synchronizing` all of it but the phase, the marker count (1 to 15) and the window count is. -/
structure DecoderInv (s : State) : Prop where
  settled : s.dec.phase ≠ .demodulating
  listening : s.dec.phase = .listening → s.dec = s.dec.machineReset
  synchronizing : s.dec.phase = .synchronizing → 1 ≤ s.dec.markerCount ∧ s.dec.markerCount ≤ 15
    ∧ s.dec = { s.dec.machineReset with
        phase := .synchronizing, markerCount := s.dec.markerCount, windowsSince := s.dec.windowsSince }
  recording : s.dec.phase = .recording → RecordingInv s.cfg s.dec

/-- The published result (R44, R45, R48, R262): nothing published means all 0; a success has code 0, at most 140 bytes, zeros after
them; a failure has a decode error's code, no bytes. -/
structure PublishedInv (s : State) : Prop where
  unpublished : s.rx.status = .none → s.rx = { Published.reset with consumed := s.rx.consumed }
  success : s.rx.status = .success → s.rx.code = .ok ∧ s.rx.len.toNat ≤ 140
  failure : s.rx.status = .failure → (s.rx.code = .decodeSyncTimeout ∨ s.rx.code = .decodeFECFailure) ∧ s.rx.len = 0
  zeros : ∀ k : Fin 144, s.rx.len.toNat ≤ k → s.rx.data[k] = 0

/-- The completion codes a command can leave in STATUS.ERR: `DecodeSyncTimeout` never is one (R320), and the model faults in
place of `BusError` (R340). -/
def CodesInv (s : State) : Prop := s.err ≠ .decodeSyncTimeout ∧ s.err ≠ .busError

end Sys2Proof.Machine
end

