-- ==== Sys2Proof/Certificates/Slice0/Obligations.lean ====
section
/-! DEFINITION. The statements for the provers. Each docstring names the rules of the spec it formalises, and what in it is the
model's own. -/

open Sys2Proof Sys2Proof.Machine

/-! ## Encoding -/

/-- R101, R103, R110, R111: decoding and encoding agree, both ways: an encoded well-formed command decodes to itself with every
operand, and a word that decodes is the encoding of what it decodes to, which is well formed. -/
def Obligations.DecodeAndEncodeAgree : Prop :=
  (∀ i : Instr, i.wellFormed = true → decode (encode i) = .ok i) ∧
  ∀ (w : Word) (i : Instr), decode w = .ok i → i.wellFormed = true ∧ encode i = w

/-- R110: the decode function. At most one row matches; a matching row is what is decoded, with OP, PROTO, VOLUME and STOP
the numbers their bits spell; a word no row matches is illegal. -/
def Obligations.DecodeReadsOneTableRow : Prop :=
  (opcodeRows.Pairwise fun r q => ∀ w : Word, ¬(w &&& r.mask = r.pattern ∧ w &&& q.mask = q.pattern)) ∧
  ∀ w : Word,
    (∀ r ∈ opcodeRows, w &&& r.mask = r.pattern → decode w = .ok (r.build w)) ∧
    (∀ i, decode w = .ok i → i.op = w.toNat % 2 ^ 8 ∧ i.proto = w.toNat / 2 ^ 8 % 2 ^ 8
      ∧ i.volume = w.toNat / 2 ^ 16 % 2 ^ 7 ∧ i.stop = w.getLsbD 23) ∧
    ((∀ r ∈ opcodeRows, w &&& r.mask ≠ r.pattern) → ∃ e, decode w = .error e)

/-- R103's match and mask of every opcode, and words the spec's examples write out (R111, R136, R170, R210, R258, R259, R301). -/
def Obligations.SpecWordsDecode : Prop :=
  (opcodeRows.map fun r => (r.pattern.toNat, r.mask.toNat)) =
    [ (0x00000000, 0xFFFFFFFF), (0x00000001, 0xFFFFFFFF), (0x00000002, 0xFFFFFFFF), (0x00000003, 0xFFFF00FF)
    , (0x00000010, 0xFFFF00FF), (0x00000011, 0xFFFF00FF), (0x00000020, 0xFFFF00FF), (0x00000021, 0xFF8000FF)
    , (0x00000022, 0xFF8000FF), (0x00000030, 0xFFFFFFFF), (0x00000031, 0xFF7FFFFF), (0x00000032, 0xFFFFFFFF) ] ∧
  decode 0x000A0122#32 = .ok (.encode 1 10) ∧ decode 0x00000703#32 = .ok (.profileQuery 7) ∧
  decode 0x00000110#32 = .ok (.frameBuild 1) ∧ decode 0x00640721#32 = .ok (.render 7 100) ∧
  decode 0x00800031#32 = .ok (.feed true) ∧ decode 0x00000032#32 = .ok .decoderReset ∧
  decode 0x00000001#32 = .ok .config

/-- R107: a word with any RSV bit set selects no opcode. -/
def Obligations.ReservedBitsSelectNothing : Prop :=
  ∀ (w : Word) (k : Nat), 24 ≤ k → w.getLsbD k = true →
    (∀ r ∈ opcodeRows, w &&& r.mask ≠ r.pattern) ∧ ∃ e, decode w = .error e

/-- R108: a word whose OP is not in the table, or whose bits outside its opcode's fields differ from the pattern, is illegal:
writing it to CMD issues a command that finishes with `IllegalCommand` and has no other effect. -/
def Obligations.IllegalWordsChangeNothing : Prop :=
  ∀ w : Word,
    (w.toNat % 2 ^ 8 ∉ [0x00, 0x01, 0x02, 0x03, 0x10, 0x11, 0x20, 0x21, 0x22, 0x30, 0x31, 0x32] ∨
      ∃ r ∈ opcodeRows, r.pattern.toNat % 2 ^ 8 = w.toNat % 2 ^ 8 ∧ w &&& r.mask ≠ r.pattern) →
    (∃ e, decode w = .error e) ∧
    ∀ s : State, s.busy = false → s.agenda = [] →
      writeCmd w s = .next (issue w s) ∧
      step (issue w s) = .next { issue w s with
        err := .illegalCommand, resultLen := 0, intStatus := s.intStatus ||| 0b00011#5, busy := false }

/-! ## The step -/

/-- R331, R332: the sequencer's step is the latched command's whole execution, whether the agenda names it or is empty; a
command word placed by `withFetchWord` is the one the next step runs (log entries 3 and 19). -/
def Obligations.StepRunsTheLatchedCommand : Prop :=
  (∀ (s : State) (i : Instr), s.busy = true → decode s.latch.cmd = .ok i →
    (s.agenda = [] → step s = exec i s) ∧
    ∀ rest, s.agenda = .sequencer :: rest → step s = exec i { s with agenda := rest }) ∧
  ∀ (s : State) (nbits w : Nat) (i : Instr), decode (BitVec.ofNat 32 (w % 2 ^ nbits)) = .ok i →
    step (s.withFetchWord nbits w) = exec i (issue (BitVec.ofNat 32 (w % 2 ^ nbits)) s)

/-- R49, R87: a command reads the latched copies only: what it does is the same whatever the host's side holds (the operand
and parameter registers, INT_ENABLE and the model's account of the environment), and it leaves all of that as it is. -/
def Obligations.CommandsIgnoreTheHostSide : Prop :=
  ∀ (i : Instr) (e s : State), exec i (s.withHostSide e) = mapNext (fun t => t.withHostSide e) (exec i s)

/-- R303: the rates are recorded by CONFIG and readable in CFG_RATE_IN and CFG_RATE_OUT, and no command's result depends on
them. -/
def Obligations.RatesAreOnlyRecorded : Prop :=
  (∀ s t, exec .config s = .next t → t.err = .ok →
    regRead t .cfgRateIn = s.latch.par.rateIn ∧ regRead t .cfgRateOut = s.latch.par.rateOut) ∧
  ∀ (i : Instr) (a b : Word) (s : State), i ≠ .config → i ≠ .deconfig →
    exec i { s with cfg := { s.cfg with rateIn := a, rateOut := b } } =
      mapNext (fun t => { t with cfg := { t.cfg with rateIn := a, rateOut := b } }) (exec i s)

/-- R306, R38, R136: only CONFIG and DECONFIG change the configuration; only they, FEED and DECODER_RESET change the decoder,
the last not the published result; only PROFILE_QUERY changes the PROF registers. The reset line apart. -/
def Obligations.OnlyTheirCommandsWriteTheInstance : Prop :=
  ∀ s t : State, step s = .next t → s.agenda.head? ≠ some .reset →
    ((t.cfg ≠ s.cfg ∨ t.configured ≠ s.configured) →
      s.busy = true ∧ (decode s.latch.cmd = .ok .config ∨ decode s.latch.cmd = .ok .deconfig)) ∧
    (t.dec ≠ s.dec → s.busy = true ∧ (decode s.latch.cmd = .ok .config ∨ decode s.latch.cmd = .ok .deconfig
      ∨ decode s.latch.cmd = .ok .decoderReset ∨ ∃ stop, decode s.latch.cmd = .ok (.feed stop))) ∧
    (t.rx ≠ s.rx → s.busy = true ∧ (decode s.latch.cmd = .ok .config ∨ decode s.latch.cmd = .ok .deconfig
      ∨ ∃ stop, decode s.latch.cmd = .ok (.feed stop))) ∧
    (t.prof ≠ s.prof → s.busy = true ∧ ∃ p, decode s.latch.cmd = .ok (.profileQuery p))

/-! ## The host's side -/

/-- R25 (with R24, R26 to R48): every register's offset, access, reset value, and the state it reads and, read-write, writes; the
reserved offsets. -/
def Obligations.RegisterMapAccess : Prop :=
  (∀ row ∈ registerMap, windowRead State.reset row.offset = row.reset ∧
    match row.access with
    | .ro => ∀ (v : Word) (s : State), windowWrite row.offset v s = .next s
    | .wo => ∀ s, windowRead s row.offset = 0
    | .rw => ∀ (v : Word) (s : State), ∃ t, windowWrite row.offset v s = .next t ∧
        windowRead t row.offset = writtenValue row.offset v ∧
        ∀ off, off ≠ row.offset → windowRead t off = windowRead s off
    | .rw1c => ∀ (v : Word) (s : State), ∃ t, windowWrite row.offset v s = .next t ∧
        windowRead t row.offset = windowRead s row.offset &&& ~~~v ∧
        ∀ off, off ≠ row.offset → windowRead t off = windowRead s off) ∧
  ((hostFieldRows ++ instanceFieldRows ++ rxFieldRows).map FieldRow.offset).Perm (registerMap.map MapRow.offset) ∧
  (∀ row ∈ hostFieldRows ++ instanceFieldRows ++ rxFieldRows, ∀ s, (windowRead s row.offset).toNat = row.value s) ∧
  writeRows.map WriteRow.offset = (registerMap.filter fun row => row.access = .rw).map MapRow.offset ∧
  (∀ row ∈ writeRows, ∀ (v : Word) (s : State), windowWrite row.offset v s = .next (row.write v s)) ∧
  ∀ off ∉ registerMap.map MapRow.offset, ∀ (v : Word) (s : State), windowRead s off = 0 ∧ windowWrite off v s = .next s

/-- R71, R340: the block answers aligned 32-bit accesses at the offsets 0x000 to 0x1FC of its window, and an access that is not
aligned or not 32 bits wide is a fault; that one outside the window is a fault too is the model's reading (log entry 14). A read changes nothing of the block (R72); what it changes is the
host's: what it saw, and the buffers that STATUS with BUSY = 0 gives it back (R90; log entries 5 and 20). -/
def Obligations.MmioAccessRules : Prop :=
  ∀ (s : State) (v : Word),
    (∀ off < 512, off % 4 = 0 →
      mmioRead (s.plat.mmioBase + off) 4 s = .next { s with
        observed := .word (windowRead s off) :: s.observed
        heldIn := if off = 0x00C ∧ s.busy = false then [] else s.heldIn
        heldOut := if off = 0x00C ∧ s.busy = false then [] else s.heldOut } ∧
      mmioWrite (s.plat.mmioBase + off) 4 v s = windowWrite off v s) ∧
    ∀ addr width, ¬(width = 4 ∧ ∃ off < 512, off % 4 = 0 ∧ addr = s.plat.mmioBase + off) →
      mmioRead addr width s = .fault .mmioWidth ∧ mmioWrite addr width v s = .fault .mmioWidth

/-- R27, R44, R48, R58: the fields of STATUS, RX_RESULT and the RX_DATA registers, as numbers; their other bits read 0. -/
def Obligations.StatusAndResultFields : Prop :=
  ∀ s : State,
    (windowRead s 0x00C).toNat = s.busy.toNat + 2 * s.configured.toNat + 2 ^ 8 * s.err.value.toNat ∧
    (windowRead s 0x0D4).toNat = s.rx.status.value.toNat + 2 ^ 8 * s.rx.code.value.toNat ∧
    (windowRead s 0x010).toNat = s.intStatus.toNat ∧ (windowRead s 0x0C0).toNat = s.dec.phase.value.toNat ∧
    ∀ k : Fin 36, (windowRead s (0x100 + 4 * k)).toNat =
      s.rx.data[4 * k.val].toNat + 2 ^ 8 * s.rx.data[4 * k.val + 1].toNat + 2 ^ 16 * s.rx.data[4 * k.val + 2].toNat
        + 2 ^ 24 * s.rx.data[4 * k.val + 3].toNat

/-- R330: a write to CMD while a command runs is dropped and flagged; otherwise it latches the word, the operands, the timeout
and the parameters, and STATUS.BUSY reads 1 from then on. What the model adds (the claims on buffers, R90; the refusal where
another block runs on the same memory, R96) is log entries 5 and 15. -/
def Obligations.CmdWriteIssuesOrDrops : Prop :=
  ∀ (v : Word) (s : State),
    (s.busy = true → mmioWrite (s.plat.mmioBase + 0x008) 4 v s = .next { s with intStatus := s.intStatus ||| 0b10000#5 }) ∧
    (s.busy = false → anyOverlap (inputOf v s.ops ++ outputOf v s.ops) (peerRanges s) = false →
      ∃ t, mmioWrite (s.plat.mmioBase + 0x008) 4 v s = .next t ∧
        t = { s with busy := true, latch := ⟨v, s.ops, s.param⟩, heldIn := t.heldIn, heldOut := t.heldOut } ∧
        (windowRead t 0x00C).getLsbD 0 = true)

/-- R28, R29, R335, R336: an INT_STATUS bit is cleared only by the host writing 1 to it (or the reset line); DONE and ERROR are set
only by a command that finishes, RX_SUCCESS and RX_FAILURE only by a FEED, CMD_DROPPED only by a write to CMD while a command
runs; the interrupt output is high when an enabled bit is set, and so are the lines GTM_IRQ_ROUTE names. -/
def Obligations.InterruptBitsFollowTheirEvents : Prop :=
  (∀ (s t : State) (k : Nat), k < 5 → step s = .next t → s.agenda.head? ≠ some .reset →
    (s.intStatus.getLsbD k = true → t.intStatus.getLsbD k = false →
      ∃ v, s.agenda.head? = some (.mmioWrite (s.plat.mmioBase + 0x010) 4 v) ∧ v.getLsbD k = true) ∧
    (s.intStatus.getLsbD k = false → t.intStatus.getLsbD k = true →
      if k < 2 then s.busy = true ∧ t.busy = false
      else if k < 4 then s.busy = true ∧ ∃ stop, decode s.latch.cmd = .ok (.feed stop)
      else s.busy = true ∧ ∃ v, s.agenda.head? = some (.mmioWrite (s.plat.mmioBase + 0x008) 4 v))) ∧
  ∀ s : State, (irq s = true ↔ ∃ k < 5, s.intStatus.getLsbD k = true ∧ s.intEnable.getLsbD k = true) ∧
    ∀ line, irqLine s line = true ↔ line ∈ s.plat.irqRoute ∧ irq s = true

/-- R90: a write to CMD claims the command's ranges; while a range is claimed, by a command of this block or of another, the host
may not store in it, nor load from it where it is an output; elsewhere a store stores and a load returns what memory holds
(free bytes where HostCacheCoherent is false: log entry 17; at the store's own step: log entry 23). A claim ends when the host
reads that block's STATUS with BUSY = 0 (by a read or WAIT; log entries 5, 15 and 25), after which a load of the output gives the
bytes the command left there (R89); it ends otherwise only by the block's reset (log entry 10). -/
def Obligations.BuffersBelongToTheBlock : Prop :=
  (∀ (s t : State) (v : Word) (i : Instr), decode v = .ok i → s.busy = false →
    mmioWrite (s.plat.mmioBase + 0x008) 4 v s = .next t →
    t.heldIn = s.heldIn ++ (if usesInput i = true then [⟨s.ops.srcAddr.toNat, s.ops.srcLen.toNat⟩] else []) ∧
    t.heldOut = s.heldOut ++ (if usesOutput i = true then [⟨s.ops.dstAddr.toNat, s.ops.dstCap.toNat⟩] else [])) ∧
  (∀ (s : State) (a addr : Nat), addr ≤ a →
    (∀ bs, a < addr + bs.length → s.Owned a → memStore addr bs s = .refused .bufferRace) ∧
    ∀ n, a < addr + n → s.OutputOwned a → memLoad addr n s = .refused .bufferRace) ∧
  (∀ (s : State) (addr : Nat) (bs : List Byte), (∀ k < bs.length, ¬s.Owned (addr + k)) →
    s.plat.allPopulated ⟨addr, bs.length⟩ = true →
    ∃ t, memStore addr bs s = .next t ∧ t = { s with mem := t.mem } ∧ t.mem.load addr bs.length = bs ∧
      SameMemoryOutside addr bs.length s t) ∧
  (∀ (s : State) (addr n : Nat), (∀ k < n, ¬s.OutputOwned (addr + k)) → s.plat.allPopulated ⟨addr, n⟩ = true →
    ∃ bs, memLoad addr n s = .next { s with observed := .bytes bs :: s.observed, freeCount := s.freeCount + 1 } ∧
      bs.length = n ∧ ∀ k < n, s.plat.isCoherent (addr + k) = true → bs[k]? = some (s.mem.read (addr + k))) ∧
  (∀ s t : State, step s = .next t → ((∀ r ∈ s.heldIn, r ∈ t.heldIn) ∧ ∀ r ∈ s.heldOut, r ∈ t.heldOut) ∨
    s.agenda.head? = some .reset ∨
    (s.busy = false ∧ (s.agenda.head? = some .wait ∨ s.agenda.head? = some (.mmioRead (s.plat.mmioBase + 0x00C) 4)))) ∧
  (∀ s : State, s.busy = false → ∃ t, mmioRead (s.plat.mmioBase + 0x00C) 4 s = .next t ∧ waitPoll s = t ∧
    t.heldIn = [] ∧ t.heldOut = [] ∧
    ∀ (addr n : Nat), (∀ k < n, ∀ p ∈ s.peers, p.output.contains (addr + k) = false) →
      s.plat.allPopulated ⟨addr, n⟩ = true → (∀ k < n, s.plat.isCoherent (addr + k) = true) →
      memLoad addr n t = .next { t with
        observed := .bytes (s.mem.load addr n) :: t.observed, freeCount := t.freeCount + 1 }) ∧
  (∀ s : State, (s.busy = true → (waitPoll s).heldIn = s.heldIn ∧ (waitPoll s).heldOut = s.heldOut) ∧
    ∀ off < 512, off % 4 = 0 → off ≠ 0x00C ∨ s.busy = true →
      ∃ t, mmioRead (s.plat.mmioBase + off) 4 s = .next t ∧ t.heldIn = s.heldIn ∧ t.heldOut = s.heldOut) ∧
  (∀ (s : State) (b : Nat), 1 ≤ b → b < s.plat.gtmCount → (∀ p ∈ s.peers, p.block = b → p.running = false) →
    ∃ t, peerStatus b s = .next t ∧ t = { s with peers := t.peers } ∧
      ∀ p, p ∈ t.peers ↔ p ∈ s.peers ∧ p.block ≠ b) ∧
  ∀ (s t : State) (run : PeerRun), step s = .next t → run ∈ s.peers →
    (∃ b, { run with running := b } ∈ t.peers) ∨
    (run.running = false ∧ s.agenda.head? = some (.peerStatus run.block))

/-- R96: a command whose buffers meet another block's running command is refused, at its CMD write and at the other block's; R91:
so is another block's command whose own input and output overlap (log entry 15). -/
def Obligations.BlockRacesAreRefused : Prop :=
  (∀ (s : State) (b : Nat) (input output : Range) (a : Nat), 1 ≤ b → b < s.plat.gtmCount →
    (∀ p ∈ s.peers, p.block = b → p.running = false) → input.contains a = true → output.contains a = true →
    anyOverlap [input, output] (runningRanges s ++ peerRanges s) = false →
    peerIssue b input output s = .refused .bufferOverlap) ∧
  ∀ (s : State) (a : Nat),
    (∀ run ∈ s.peers, run.running = true → run.input.contains a = true ∨ run.output.contains a = true →
      ∀ (v : Word) (r : Range), s.busy = false → r ∈ inputOf v s.ops ++ outputOf v s.ops → r.contains a = true →
      writeCmd v s = .refused .blockRace) ∧
    ∀ (b : Nat) (input output r : Range), 1 ≤ b → b < s.plat.gtmCount →
      (∀ p ∈ s.peers, p.block = b → p.running = false) → input.contains a = true ∨ output.contains a = true →
      r ∈ runningRanges s ∨ (∃ p ∈ s.peers, p.running = true ∧ (r = p.input ∨ r = p.output)) → r.contains a = true →
      peerIssue b input output s = .refused .blockRace

/-- R360: what reset leaves, `win` apart, which it does not specify; host memory is as before but for the output range of a
command that was running. A step whose turn is the reset line's is this reset. -/
def Obligations.PlatformResetLeavesTheSpecValues : Prop :=
  (∀ (s : State) (rest : List HostAction), s.agenda = .reset :: rest →
    step s = .next (platformReset { s with agenda := rest })) ∧
  ∀ s : State,
    (let t := platformReset s
     t.busy = false ∧ t.latch = ⟨0, ⟨0, 0, 0, 0, 0⟩, ⟨0, 0, 0, 0, 0⟩⟩ ∧ t.configured = false ∧ t.err = .ok ∧
     t.cfg = ⟨0, 0, 0, 0, 0⟩ ∧ t.intStatus = 0 ∧ t.intEnable = 0 ∧ t.param = ⟨48000, 48000, 0, 0, 0⟩ ∧
     t.ops = ⟨0, 0, 0, 0, 16384⟩ ∧ t.resultLen = 0 ∧ t.prof = ⟨0, 0, 0, 0, 0, 0, 0, 0, 0⟩ ∧
     t.dec.phase = .listening ∧ t.dec.fill = 0 ∧ t.dec.rxProto = 0 ∧ t.dec.markerCount = 0 ∧ t.dec.windowsSince = 0 ∧
     (∀ (g : Fin 2) (v : Fin 16), t.dec.acc[g][v] = 0) ∧ t.dec.wis = 0 ∧ t.dec.chips = [] ∧ t.dec.pend = none ∧
     t.dec.hdrDone = false ∧ t.dec.symExpected = 0 ∧ t.dec.symRemaining = 0 ∧
     t.rx.status = .none ∧ t.rx.code = .ok ∧ t.rx.len = 0 ∧ (∀ k : Fin 144, t.rx.data[k] = 0) ∧ t.rx.seq = 0 ∧
     t.rx.consumed = 0) ∧
    ∀ a, (s.busy = true → ∀ i, decode s.latch.cmd = .ok i → usesOutput i = true → s.outputRange.contains a = false) →
      (platformReset s).mem.read a = s.mem.read a

/-- R113, R331: WAIT on a block that runs no command ends with its one poll. On a running command that finishes it takes three
steps of the model (poll, the sequencer's turn, poll). Either way the host has read STATUS with BUSY = 0, and has its buffers
back (R90). That the sequencer moves between the two polls is log entry 4. -/
def Obligations.WaitEndsWithBusyClear : Prop :=
  ∀ (s : State) (rest : List HostAction), s.agenda = .wait :: rest →
    (s.busy = false → (windowRead s 0x00C).getLsbD 0 = false ∧ step s = .next { s with
      agenda := rest, observed := .word (windowRead s 0x00C) :: s.observed, heldIn := [], heldOut := [] }) ∧
    (s.busy = true → Completes (sequencerStep s) →
      ∃ t w0 w, steps 3 s = .next t ∧ t.busy = false ∧ t.agenda = rest ∧ t.heldIn = [] ∧ t.heldOut = [] ∧
        t.observed = .word w :: .word w0 :: s.observed ∧ w0.getLsbD 0 = true ∧ w.getLsbD 0 = false)

/-- R115: `createInstance(parameters)` on an idle block returns STATUS with ERR = 0 and the instance configured as asked, or
with ERR = 0x01 and the configuration as it was. That it takes ten steps, WAIT being one poll, the sequencer's turn and one
poll, is the model's (log entry 4): R113 leaves the number of polls open. -/
def Obligations.CreateInstanceSequence : Prop :=
  ∀ (s : State) (p : Params) (rest : List HostAction), s.busy = false →
    s.agenda = createInstance s.plat.mmioBase p ++ rest →
    ∃ t, steps 10 s = .next t ∧ t.agenda = rest ∧ t.busy = false ∧
      (Accepted p → t.configured = true ∧ t.cfg = p ∧ t.observed.head? = some (.word 0x00000002) ∧
        createInstanceResult t = some (.ok ())) ∧
      (¬Accepted p → t.configured = s.configured ∧ t.cfg = s.cfg ∧ t.dec = s.dec ∧
        createInstanceResult t = some (.error .invalidParameters) ∧
        ∃ w, t.observed.head? = some (.word w) ∧ w.toNat / 2 ^ 8 = 0x01)

/-! ## Completion, errors, stops -/

/-- R331, R321: a command that finishes clears BUSY, sets DONE, sets ERROR and zeroes RESULT_LEN when its code is not OK, and
touches no other INT_STATUS bit, FEED's two apart, and nothing of the host's side. -/
def Obligations.EveryCommandFinishes : Prop :=
  ∀ (i : Instr) (s t : State), exec i s = .next t →
    t.busy = false ∧ t.intStatus.getLsbD 0 = true ∧
    (t.err ≠ .ok → t.intStatus.getLsbD 1 = true ∧ t.resultLen = 0) ∧
    (t.err = .ok → t.intStatus.getLsbD 1 = s.intStatus.getLsbD 1) ∧
    t.intStatus.getLsbD 4 = s.intStatus.getLsbD 4 ∧
    ((∀ stop, i ≠ .feed stop) → t.intStatus.getLsbD 2 = s.intStatus.getLsbD 2
      ∧ t.intStatus.getLsbD 3 = s.intStatus.getLsbD 3) ∧
    SameHostSide s t

/-- R322: an illegal word reports `IllegalCommand`; a command reports the first of the conditions 2 to 7 that applies; with none
of them it can fail only in its execution: FRAME_RECOVER after decoding, FEED at its end. -/
def Obligations.FirstFailureIsReported : Prop :=
  (∀ (s : State) (e : Illegal), decode s.latch.cmd = .error e → sequencerStep s = .next (finish .illegalCommand s)) ∧
  (∀ (i : Instr) (s : State) (c : Code), firstFailure i s = some c → exec i s = .next (finish c s)) ∧
  ∀ (i : Instr) (s t : State), firstFailure i s = none → exec i s = .next t → t.err ≠ .ok →
    (∃ p : Fin 12, i = .frameRecover p ∧
      match recoverFrame s.cfg (profile p) (inputBytes s s.srcLen) with
      | none => t.err = .decodeFECFailure
      | some r => s.dstCap < r.length ∧ t.err = .outputOverflow) ∨
    ∃ stop, i = .feed stop ∧ t.err = .bufferUnderrun

/-- R323: a command that finishes with an error changes nothing but the completion state; a FEED that finishes with
`BufferUnderrun` has its full effect, which is that of taking every sample of its input. (For `BusError` the model stops:
R340.) -/
def Obligations.NoPartialEffect : Prop :=
  ∀ (i : Instr) (s t : State), exec i s = .next t → t.err ≠ .ok →
    ((¬∃ stop, i = .feed stop ∧ t.err = .bufferUnderrun) →
      t = { s with err := t.err, resultLen := 0, intStatus := s.intStatus ||| 0b00011#5, busy := false }) ∧
    ((∃ stop, i = .feed stop ∧ t.err = .bufferUnderrun) →
      let u := takeSamples (fedSamples s) s
      t = { u with
        rx := { u.rx with consumed := BitVec.ofNat 32 (fedSamples s).length }, resultLen := 0, err := .bufferUnderrun,
        intStatus := u.intStatus ||| 0b00011#5, busy := false })

/-- R340, R86, R91: the only fault of a command is `BusError`, with a byte of its buffers unpopulated; its only refusal is that of
overlapping ranges. So a command with no buffer always completes. -/
def Obligations.CommandsStopOnlyForTheirReasons : Prop :=
  ∀ (i : Instr) (s : State),
    (∀ r, exec i s = .fault r → r = .busError ∧ ∃ a, s.plat.isPopulated a = false ∧
      ((usesInput i = true ∧ s.inputRange.contains a = true) ∨ (usesOutput i = true ∧ s.outputRange.contains a = true))) ∧
    ∀ r, exec i s = .refused r →
      r = .bufferOverlap ∧ usesInput i = true ∧ usesOutput i = true ∧ s.inputRange.overlaps s.outputRange = true

/-- R86, R91, R340: where no check of R322 applies, overlapping ranges are refused (that the refusal comes after the checks
is log entry 6); with ranges apart, a byte to be read that does not respond is a fault, and so is a byte of the output,
FRAME_RECOVER's known after decoding (R171). FEED with STOP = 1 may end before it reaches the byte, so it is not spoken of (log
entry 8). -/
def Obligations.OverlapsAndBusErrorsStop : Prop :=
  (∀ (p : Fin 12) (s : State) (r : List Byte), firstFailure (.frameRecover p) s = none →
    s.inputRange.overlaps s.outputRange = false → s.plat.allPopulated ⟨s.src, s.srcLen⟩ = true →
    recoverFrame s.cfg (profile p) (inputBytes s s.srcLen) = some r → r.length ≤ s.dstCap →
    (∃ a, s.plat.isPopulated a = false ∧ (⟨s.dst, r.length⟩ : Range).contains a = true) →
    exec (.frameRecover p) s = .fault .busError) ∧
  ∀ (i : Instr) (s : State), firstFailure i s = none → usesInput i = true →
    (usesOutput i = true → s.inputRange.overlaps s.outputRange = true → exec i s = .refused .bufferOverlap) ∧
    ((usesOutput i = true → s.inputRange.overlaps s.outputRange = false) → i ≠ .feed true →
      ((∃ a, s.plat.isPopulated a = false ∧ (⟨s.src, inputBytesRead i s⟩ : Range).contains a = true) →
        exec i s = .fault .busError) ∧
      ((∃ a, s.plat.isPopulated a = false ∧ (⟨s.dst, outputSize i s⟩ : Range).contains a = true) →
        exec i s = .fault .busError))

/-! ## Frames -/

/-- R83, R306, R321, R331: FRAME_BUILD, FRAME_RECOVER, SYMBOL_MAP, RENDER, ENCODE and SPECTRUM change nothing but the completion
state and the bytes `[dstAddr, dstAddr + RESULT_LEN)` of host memory, inside the capacity; on an error no byte. -/
def Obligations.StoringCommandFrame : Prop :=
  ∀ (i : Instr) (s t : State), usesOutput i = true → exec i s = .next t →
    SameHostSide s t ∧ SameInstance s t ∧ t.prof = s.prof ∧ SameIntOtherThanCompletion s t ∧
    t.resultLen.toNat ≤ s.dstCap ∧ SameMemoryOutside s.dst t.resultLen.toNat s t ∧
    (t.err ≠ .ok → SameMemory s t) ∧
    (t.err = .ok → (∀ p, i ≠ .frameRecover p) → t.resultLen.toNat = outputSize i s)

/-- R306, R321, R331: NOP, CONFIG, DECONFIG, PROFILE_QUERY, FEED and DECODER_RESET leave host memory, and of the registers and the
instance all but what R321 lists for them. -/
def Obligations.OtherCommandFrame : Prop :=
  ∀ (i : Instr) (s t : State), usesOutput i = false → exec i s = .next t →
    SameHostSide s t ∧ t.mem = s.mem ∧ t.resultLen = 0 ∧
    (i ≠ .config → i ≠ .deconfig → t.cfg = s.cfg ∧ t.configured = s.configured) ∧
    ((∀ p, i ≠ .profileQuery p) → t.prof = s.prof) ∧
    (i = .nop ∨ (∃ p, i = .profileQuery p) → SameInstance s t) ∧
    (i = .decoderReset → t.rx = s.rx ∧ t.dec.rxProto = s.dec.rxProto) ∧
    ((∀ stop, i ≠ .feed stop) → SameIntOtherThanCompletion s t)

/-! ## What each command does -/

/-- R301, R302 (with R257 and R304): CONFIG accepts exactly the parameters R302 describes, as latched, and then starts a fresh
decoder and clears the results; otherwise nothing else changes. -/
def Obligations.ConfigResult : Prop :=
  ∀ s : State,
    (Accepted s.latch.par → exec .config s = .next { s with
      cfg := s.latch.par, configured := true, dec := { Decoder.reset with win := s.dec.win }, rx := Published.reset,
      err := .ok, resultLen := 0, intStatus := s.intStatus ||| 0b00001#5, busy := false }) ∧
    (¬Accepted s.latch.par → exec .config s = .next { s with
      err := .invalidParameters, resultLen := 0, intStatus := s.intStatus ||| 0b00011#5, busy := false })

/-- R305 (with R257 and R304): DECONFIG, and after it every command with OP >= 0x10 finishes with `NotConfigured`. -/
def Obligations.DeconfigResult : Prop :=
  (∀ s : State, exec .deconfig s = .next { s with
    cfg := ⟨0, 0, 0, 0, 0⟩, configured := false, dec := { Decoder.reset with win := s.dec.win }, rx := Published.reset,
    err := .ok, resultLen := 0, intStatus := s.intStatus ||| 0b00001#5, busy := false }) ∧
  ∀ (i : Instr) (s : State), 0x10 ≤ i.op → s.configured = false → exec i s = .next { s with
    err := .notConfigured, resultLen := 0, intStatus := s.intStatus ||| 0b00011#5, busy := false }

/-- R136, R130: PROFILE_QUERY puts the row's fields in the PROF registers, in any state; an id of 12 or more leaves them. That
row 0's PROF_BAND is 0 is the model's reading: R130 has it so, R136's corner case does not (log entry 24). -/
def Obligations.ProfileQueryResult : Prop :=
  (∀ row ∈ ([ (0, ⟨0, 0, 48, 1, 1, 9, 24, 26, 140⟩), (1, ⟨1, 0, 48, 1, 1, 6, 28, 30, 140⟩)
            , (2, ⟨2, 0, 48, 1, 1, 3, 32, 34, 140⟩), (3, ⟨3, 1, 352, 1, 1, 9, 328, 330, 140⟩)
            , (4, ⟨4, 1, 352, 1, 1, 6, 332, 334, 140⟩), (5, ⟨5, 1, 352, 1, 1, 3, 336, 338, 140⟩)
            , (6, ⟨6, 0, 48, 1, 2, 9, 36, 38, 140⟩), (7, ⟨7, 0, 48, 1, 2, 6, 40, 42, 140⟩)
            , (8, ⟨8, 0, 48, 1, 2, 3, 44, 46, 140⟩), (9, ⟨9, 1, 352, 1, 2, 9, 340, 342, 140⟩)
            , (10, ⟨10, 1, 352, 1, 2, 6, 344, 346, 140⟩), (11, ⟨11, 1, 352, 1, 2, 3, 348, 350, 140⟩) ]
            : List (Nat × ProfRegs)),
    ∀ s : State, exec (.profileQuery row.1) s = .next { s with
      prof := row.2, err := .ok, resultLen := 0, intStatus := s.intStatus ||| 0b00001#5, busy := false }) ∧
  ∀ (p : Nat) (s : State), 12 ≤ p → exec (.profileQuery p) s = .next { s with
    err := .unsupportedProtocol, resultLen := 0, intStatus := s.intStatus ||| 0b00011#5, busy := false }

/-- R300: NOP. R259 (with R256 and R257): DECODER_RESET; the window's samples, RX_PROTOCOL and the published result stay. -/
def Obligations.NopAndDecoderResetResults : Prop :=
  (∀ s : State, exec .nop s =
    .next { s with err := .ok, resultLen := 0, intStatus := s.intStatus ||| 0b00001#5, busy := false }) ∧
  ∀ s : State,
    (s.configured = true → exec .decoderReset s = .next { s with
      dec := { Decoder.reset with win := s.dec.win, rxProto := s.dec.rxProto },
      err := .ok, resultLen := 0, intStatus := s.intStatus ||| 0b00001#5, busy := false }) ∧
    (s.configured = false → exec .decoderReset s = .next { s with
      err := .notConfigured, resultLen := 0, intStatus := s.intStatus ||| 0b00011#5, busy := false })

/-- R170, R164, R158, R159: FRAME_BUILD stores the frame: the header in variable-length mode, then data and checksum under their
parity, spread when CFG_MODE[0] is set; `FrameChips(n)` chips. -/
def Obligations.FrameBuildResult : Prop :=
  ∀ (p : Nat) (s : State), firstFailure (.frameBuild p) s = none →
    DmaReady (.frameBuild p) (frameChips s.cfg s.srcLen) s →
    let payload := inputBytes s s.srcLen
    let data := if s.cfg.payloadLen = 0 then payload
      else payload ++ List.replicate (s.cfg.payloadLen.toNat - s.srcLen) 0
    let covered := data ++ [(crc16 data >>> 8).truncate 8, (crc16 data).truncate 8]
    let frame := (if s.cfg.payloadLen = 0 then rsEncode [BitVec.ofNat 8 s.srcLen] 2 else [])
      ++ rsEncode covered (ecc covered.length)
    let out := if s.cfg.mode.getLsbD 0 then spread frame else frame
    out.length = frameChips s.cfg s.srcLen ∧ exec (.frameBuild p) s = .next (storedOutput out s)

/-- R171, R168: FRAME_RECOVER finishes with `DecodeFECFailure` where the frame does not decode, with `OutputOverflow` where the
payload does not fit, and otherwise stores the payload. -/
def Obligations.FrameRecoverResult : Prop :=
  ∀ (p : Fin 12) (s : State), firstFailure (.frameRecover p) s = none →
    s.inputRange.overlaps s.outputRange = false → s.plat.allPopulated ⟨s.src, s.srcLen⟩ = true →
    match recoverFrame s.cfg (profile p) (inputBytes s s.srcLen) with
    | none => exec (.frameRecover p) s = .next (finish .decodeFECFailure s)
    | some r =>
      if s.dstCap < r.length then exec (.frameRecover p) s = .next (finish .outputOverflow s)
      else s.plat.allPopulated ⟨s.dst, r.length⟩ = true →
        exec (.frameRecover p) s = .next (storedOutput r s)

/-- R209, R202: SYMBOL_MAP stores each chip's two nibbles, low first, single-tone, and the chips themselves dual-tone. -/
def Obligations.SymbolMapResult : Prop :=
  ∀ (p : Fin 12) (s : State), firstFailure (.symbolMap p) s = none →
    DmaReady (.symbolMap p) (s.srcLen * 2 / (profile p).tones) s →
    let chips := inputBytes s s.srcLen
    let out := if (profile p).tones = 1 then chips.flatMap fun c => [c &&& 0x0F#8, c >>> 4] else chips
    out.length = s.srcLen * 2 / (profile p).tones ∧ exec (.symbolMap p) s = .next (storedOutput out s)

/-- R210, R203, R207 (with R132): RENDER stores the samples of the schedule's windows in the configured format: 16 windows of the
start-marker bin, for each symbol its windows of one tone's bin or of two, 16 windows of the end-marker bin. -/
def Obligations.RenderResult : Prop :=
  ∀ (p : Fin 12) (vol : Nat) (s : State), firstFailure (.render p vol) s = none →
    DmaReady (.render p vol) (1024 * (32 + s.srcLen * (profile p).windows) * s.cfg.sampleBytes) s →
    let q := profile p
    let bins (x : Byte) : List Nat :=
      if q.tones = 1 then [q.baseBin + q.spacing * (x.toNat % 16)]
      else [q.baseBin + q.spacing * (x.toNat % 16), q.baseBin + q.spacing * (16 + x.toNat / 16)]
    let windows := List.replicate 16 [q.markerStart]
      ++ (inputBytes s s.srcLen).flatMap (fun x => List.replicate q.windows (bins x))
      ++ List.replicate 16 [q.markerEnd]
    let out := (windows.flatMap (windowSamples vol)).flatMap s.cfg.encodeSample
    out.length = 1024 * (32 + s.srcLen * q.windows) * s.cfg.sampleBytes ∧
      exec (.render p vol) s = .next (storedOutput out s)

/-- R211, R208: ENCODE stores the samples of the payload's frame, `WaveSamples(FrameChips(n)) * cfg.ss` bytes. -/
def Obligations.EncodeResult : Prop :=
  ∀ (p : Fin 12) (vol : Nat) (s : State), firstFailure (.encode p vol) s = none →
    let q := profile p
    let n := 1024 * (32 + frameChips s.cfg s.srcLen * 2 / q.tones * q.windows) * s.cfg.sampleBytes
    DmaReady (.encode p vol) n s →
    ∃ chips, frameBuild s.cfg q (inputBytes s s.srcLen) = .ok chips ∧
      (renderBytes s.cfg q vol (symbolMap q chips)).length = n ∧
      exec (.encode p vol) s = .next (storedOutput (renderBytes s.cfg q vol (symbolMap q chips)) s)

/-- R212: the samples ENCODE writes equal those of FRAME_BUILD, then SYMBOL_MAP on its result, then RENDER on that. -/
def Obligations.EncodeEqualsItsThreeSteps : Prop :=
  ∀ (p vol : Nat) (s u1 u2 u3 t : State) (o1 o2 o3 o : Operands),
    exec (.frameBuild p) (s.relatch o1) = .next u1 → u1.err = .ok →
    exec (.symbolMap p) (u1.relatch o2) = .next u2 → u2.err = .ok →
    exec (.render p vol) (u2.relatch o3) = .next u3 → u3.err = .ok →
    exec (.encode p vol) (s.relatch o) = .next t → t.err = .ok →
    o.srcAddr = o1.srcAddr → o.srcLen = o1.srcLen → o2.srcAddr = o1.dstAddr → o2.srcLen = u1.resultLen →
    o3.srcAddr = o2.dstAddr → o3.srcLen = u2.resultLen →
    t.resultLen = u3.resultLen ∧
      t.mem.load o.dstAddr.toNat t.resultLen.toNat = u3.mem.load o3.dstAddr.toNat u3.resultLen.toNat

/-- R244, R241, R79: SPECTRUM stores 4104 bytes, the power of bin `b` of the first 1024 samples as a 64-bit little-endian number at
`dstAddr + 8b`: the squares of the two sums against the sine ROM, each shifted right by 15. -/
def Obligations.SpectrumResult : Prop :=
  ∀ s : State, firstFailure .spectrum s = none → DmaReady .spectrum 4104 s →
    ∃ out, out.length = 4104 ∧ exec .spectrum s = .next (storedOutput out s) ∧
      ∀ b ≤ 512,
        let w (n : Nat) : Int := ((fedSamples s).getD n 0).toInt
        let c := ((List.range 1024).map fun n => w n * sineRom ((b * n + 256) % 1024)).sum
        let d := ((List.range 1024).map fun n => w n * sineRom (b * n % 1024)).sum
        let stored := leNat ((storedOutput out s).mem.load (s.dst + 8 * b) 8)
        (stored : Int) = (c / 2 ^ 15) ^ 2 + ((-d) / 2 ^ 15) ^ 2 ∧ stored = power ((fedSamples s).take 1024) b

/-- R258: FEED takes its samples in order, all of them, or with STOP = 1 up to the first that publishes a success; RX_CONSUMED is
their count, RESULT_LEN is 0, and the code says whether the input ended inside a transmission. -/
def Obligations.FeedResult : Prop :=
  ∀ (stop : Bool) (s : State), firstFailure (.feed stop) s = none →
    s.plat.allPopulated ⟨s.src, s.srcLen⟩ = true →
    ∃ k ≤ (fedSamples s).length,
      (stop = false → k = (fedSamples s).length) ∧
      (stop = true → (∀ j, j + 1 < k → ¬SucceedsAt s j) ∧
        (k < (fedSamples s).length → 0 < k ∧ SucceedsAt s (k - 1))) ∧
      let u := takeSamples ((fedSamples s).take k) s
      let inside := u.dec.phase = .synchronizing ∨ u.dec.phase = .recording
      exec (.feed stop) s = .next { u with
        rx := { u.rx with consumed := BitVec.ofNat 32 k }, resultLen := 0,
        err := if inside then .bufferUnderrun else .ok,
        intStatus := u.intStatus ||| (if inside then 0b00011#5 else 0b00001#5), busy := false }

/-- R261: with STOP = 0 the split of the samples into FEED commands does not matter, RX_CONSUMED and the completion codes of
the intermediate FEEDs apart. -/
def Obligations.FeedSplitDoesNotMatter : Prop :=
  ∀ (s t u : State) (a m n : Word), s.configured = true → a.toNat % s.cfg.sampleBytes = 0 →
    m.toNat % s.cfg.sampleBytes = 0 → n.toNat % s.cfg.sampleBytes = 0 → a.toNat + m.toNat + n.toNat ≤ 2 ^ 32 →
    m.toNat + n.toNat < 2 ^ 32 →
    exec (.feed false) (s.withSource a m) = .next t → exec (.feed false) (t.withSource (a + m) n) = .next u →
    ∃ v, exec (.feed false) (s.withSource a (m + n)) = .next v ∧ v.dec = u.dec ∧ v.err = u.err ∧
      v.rx = { u.rx with consumed := v.rx.consumed } ∧ v.mem = u.mem ∧
      v.intStatus &&& 0b11100#5 = u.intStatus &&& 0b11100#5

/-! ## The framer's functions -/

/-- R154, R155: for a code of length at most 255 the encoding is the data followed by `E` parity bytes, it is a codeword, and
no other `E` bytes after the data make one. Codewords are those whose syndromes are 0 (log entry 21). -/
def Obligations.RsEncodeGivesTheCodeword : Prop :=
  ∀ (d : List Byte) (e : Nat), d.length + e ≤ 255 →
    ∃ r, rsEncode d e = d ++ r ∧ r.length = e ∧ isCodeword (d ++ r) e = true ∧
      ∀ x : List Byte, x.length = e → isCodeword (d ++ x) e = true → x = r

/-- R156: `RSDecode` returns the codeword within distance `E div 2`, and fails when there is none. The model's method is its own
(log entry 12). -/
def Obligations.RsDecodeIsBoundedDistance : Prop :=
  ∀ (w : List Byte) (k e : Nat), w.length = k + e → k + e ≤ 255 → ∀ c : List Byte,
    rsDecode w k e = some c ↔ c.length = k + e ∧ isCodeword c e = true ∧ hamming w c ≤ e / 2

/-- R163 (and R162): the chips of a spread frame, the majority that despreading takes, and what it restores: every frame, and
every bit of which at most one copy is wrong. -/
def Obligations.DespreadRestoresTheFrame : Prop :=
  (∀ f : List Byte, (spread f).length = 3 * f.length ∧ despread (spread f) = f ∧
    ∀ i < f.length, ∀ r < 3, (spread f).getD (3 * i + r) 0 = f.getD i 0 ^^^ (pn (3 * f.length)).getD (3 * i + r) 0) ∧
  (∀ c : List Byte, c.length % 3 = 0 → (despread c).length = c.length / 3 ∧ ∀ i < c.length / 3,
    (despread c).getD i 0 = maj (c.getD (3 * i) 0 ^^^ (pn c.length).getD (3 * i) 0)
      (c.getD (3 * i + 1) 0 ^^^ (pn c.length).getD (3 * i + 1) 0)
      (c.getD (3 * i + 2) 0 ^^^ (pn c.length).getD (3 * i + 2) 0)) ∧
  ∀ (f c : List Byte) (i b r : Nat), c.length = 3 * f.length → i < f.length → r < 3 →
    (∀ q < 3, q ≠ r → (c.getD (3 * i + q) 0).getLsbD b = ((spread f).getD (3 * i + q) 0).getLsbD b) →
    ((despread c).getD i 0).getLsbD b = (f.getD i 0).getLsbD b

/-- R165, R166: the chip count of a frame is `FrameChips(n)`, and no frame is longer than 603 chips. -/
def Obligations.FrameLength : Prop :=
  ∀ (c : Params) (p : Fin 12) (payload f : List Byte), c.valid = true → frameBuild c (profile p) payload = .ok f →
    let h := if c.payloadLen.toNat = 0 then 3 else 0
    let k := (if c.payloadLen.toNat = 0 then payload.length else c.payloadLen.toNat) + 2
    let x := if c.mode.getLsbD 0 then 3 else 1
    f.length = (h + k + (if k < 4 then 2 else max 4 (2 * (k / 5)))) * x ∧ f.length ≤ 603

/-- R160, R164, R168: recovering a frame as it was built gives the payload, padded in fixed-length mode. -/
def Obligations.FrameRoundTrip : Prop :=
  ∀ (c : Params) (p : Fin 12) (payload f : List Byte), c.valid = true → frameBuild c (profile p) payload = .ok f →
    recoverFrame c (profile p) f =
      some (if c.payloadLen.toNat = 0 then payload
        else payload ++ List.replicate (c.payloadLen.toNat - payload.length) 0)

/-- R169: the payload comes back whenever, after despreading, at most 1 byte of the header and at most `Ecc(k) div 2` bytes of the
body are wrong. -/
def Obligations.FrameCorrectionBound : Prop :=
  ∀ (c : Params) (p : Fin 12) (payload f chips : List Byte), c.valid = true →
    frameBuild c (profile p) payload = .ok f → chips.length = f.length →
    let h := if c.payloadLen.toNat = 0 then 3 else 0
    let k := (if c.payloadLen.toNat = 0 then payload.length else c.payloadLen.toNat) + 2
    hamming ((frameBytes c chips).take h) ((frameBytes c f).take h) ≤ 1 →
    hamming ((frameBytes c chips).drop h) ((frameBytes c f).drop h) ≤ ecc k / 2 →
    recoverFrame c (profile p) chips =
      some (if c.payloadLen.toNat = 0 then payload
        else payload ++ List.replicate (c.payloadLen.toNat - payload.length) 0)

/-! ## Tones, samples, powers -/

/-- R133: the 24 marker bins are pairwise distinct, none is a tone bin of any profile, and all bins used are in 1 to 511. -/
def Obligations.MarkerBinsAreReserved : Prop :=
  ((List.finRange 12).flatMap fun p => [(profile p).markerStart, (profile p).markerEnd]).Nodup ∧
  ∀ p q : Fin 12, ∀ g < (profile q).tones, ∀ v < 16,
    toneBin (profile q) g v ≠ (profile p).markerStart ∧ toneBin (profile q) g v ≠ (profile p).markerEnd ∧
    (1 ≤ toneBin (profile q) g v ∧ toneBin (profile q) g v ≤ 511) ∧
    (1 ≤ (profile p).markerStart ∧ (profile p).markerStart ≤ 511) ∧
    1 ≤ (profile p).markerEnd ∧ (profile p).markerEnd ≤ 511

/-- R204 (with R203 and R206): sample `n` of window `w` of a waveform is the truncated mean of its bins' ROM entries, scaled by
the volume, and no larger than `vol * 32767 / 100`. -/
def Obligations.RenderedSampleValues : Prop :=
  ∀ (p : Fin 12) (vol : Nat) (sy : List Byte), vol ≤ 100 →
    (renderSamples (profile p) vol sy).length = 1024 * (schedule (profile p) sy).length ∧
    ∀ w n, n < 1024 → ∀ bl, (schedule (profile p) sy)[w]? = some bl →
      ∃ x, (renderSamples (profile p) vol sy)[1024 * w + n]? = some x ∧
        x.toInt = Int.tdiv (vol * (bl.map fun b => sineRom (b * n % 1024)).sum) (100 * bl.length) ∧
        |x.toInt| ≤ Int.tdiv (vol * 32767) 100

/-- R242: the power of a window of 1024 samples is below 2^51 at every bin. -/
def Obligations.PowerBound : Prop := ∀ (w : List Sample) (b : Nat), w.length ≤ 1024 → power w b < 2 ^ 51

/-- R78 (with R76, R77): the bytes of a sample, least significant first, in CFG_FORMAT 0 and 1, and the conversion of a float32
sample: NaN gives 0, the scaled value saturates, infinities included, and in between it goes to the nearest integer, ties to
even; converting `s / 32768` gives `s` back. -/
def Obligations.FloatConversion : Prop :=
  (∀ x : Word, ((x >>> 23) &&& 0xFF#32).toNat ≠ 255 →
    (32767 ≤ f32Value x * 32768 → fromF32 x = 32767) ∧
    (f32Value x * 32768 ≤ -32768 → (fromF32 x).toInt = -32768) ∧
    (-32768 < f32Value x * 32768 → f32Value x * 32768 < 32767 →
      |((fromF32 x).toInt : ℚ) - f32Value x * 32768| ≤ 1 / 2 ∧
      (|((fromF32 x).toInt : ℚ) - f32Value x * 32768| = 1 / 2 → (fromF32 x).toInt % 2 = 0))) ∧
  (∀ x : Word, ((x >>> 23) &&& 0xFF#32).toNat = 255 →
    ((x &&& 0x7FFFFF#32) ≠ 0 → fromF32 x = 0) ∧
    ((x &&& 0x7FFFFF#32) = 0 → (fromF32 x).toInt = if x.getLsbD 31 then -32768 else 32767)) ∧
  (∀ y : Sample, ((toF32 y >>> 23) &&& 0xFF#32).toNat ≠ 255 ∧ f32Value (toF32 y) = (y.toInt : ℚ) / 32768 ∧
    fromF32 (toF32 y) = y) ∧
  (∀ (c : Params) (y : Sample) (b0 b1 : Byte), c.format = 0 →
    c.encodeSample y = [BitVec.ofNat 8 y.toNat, BitVec.ofNat 8 (y.toNat / 2 ^ 8)] ∧
    (c.decodeSample [b0, b1]).toNat = b0.toNat + 2 ^ 8 * b1.toNat) ∧
  ∀ (c : Params) (y : Sample) (b0 b1 b2 b3 : Byte), c.format = 1 →
    (let w := (toF32 y).toNat
     c.encodeSample y = [BitVec.ofNat 8 w, BitVec.ofNat 8 (w / 2 ^ 8), BitVec.ofNat 8 (w / 2 ^ 16), BitVec.ofNat 8 (w / 2 ^ 24)]) ∧
    c.decodeSample [b0, b1, b2, b3] =
      fromF32 (BitVec.ofNat 32 (b0.toNat + 2 ^ 8 * b1.toNat + 2 ^ 16 * b2.toNat + 2 ^ 24 * b3.toNat))

/-! ## The decoder -/

/-- R246, R243: in `Listening` the strongest start marker that is on wins, equal powers going to the lowest id; with none on,
nothing changes. A marker is on when its start bin's power is over 3 times its end bin's and at least 2^24. -/
def Obligations.ListenPicksTheStrongestMarker : Prop :=
  (∀ (w : List Sample) (q : Profile), markerOn w q = true ↔
    3 * power w q.markerEnd < power w q.markerStart ∧ 2 ^ 24 ≤ power w q.markerStart) ∧
  ∀ (w : List Sample) (s : State), s.dec.phase = .listening →
    ((∀ q : Fin 12, markerOn w (profile q) = false) → windowStep w s = s) ∧
    ∀ q : Fin 12, markerOn w (profile q) = true →
      (∀ r : Fin 12, markerOn w (profile r) = true →
        power w (profile r).markerStart ≤ power w (profile q).markerStart ∧
        (power w (profile r).markerStart = power w (profile q).markerStart → q ≤ r)) →
      windowStep w s =
        { s with dec := { s.dec with phase := .synchronizing, rxProto := q, markerCount := 1, windowsSince := 1 } }

/-- R248, R249: in `Synchronizing` a window with the locked marker counts; the 16th begins the recording, expecting a whole frame's
symbols in fixed-length mode and the header's otherwise; any other window resets the machine and publishes nothing. -/
def Obligations.SynchronizingCountsMarkers : Prop :=
  ∀ (w : List Sample) (s : State),
    (markerOn w (profile s.dec.rxProto) = false → syncStep w s = { s with dec := s.dec.machineReset }) ∧
    (markerOn w (profile s.dec.rxProto) = true → s.dec.markerCount ≠ 15 →
      syncStep w s = { s with dec := { s.dec with markerCount := s.dec.markerCount + 1 } }) ∧
    (markerOn w (profile s.dec.rxProto) = true → s.dec.markerCount = 15 →
      let n := (if 0 < s.cfg.payloadLen.toNat then frameChips s.cfg s.cfg.payloadLen.toNat
        else if s.cfg.mode.getLsbD 0 then 9 else 3) * 2 / (profile s.dec.rxProto).tones
      syncStep w s = { s with dec := { s.dec with
        phase := .recording, markerCount := 16, hdrDone := decide (0 < s.cfg.payloadLen.toNat),
        symExpected := BitVec.ofNat 32 n, symRemaining := BitVec.ofNat 32 n, acc := accZero, wis := 0, chips := [],
        pend := none } })

/-- R247, R262: outside `Listening` each window counts first; past the latched timeout it publishes `DecodeSyncTimeout` and is
not processed further; a timeout of 0 never fires. -/
def Obligations.TimeoutPublishesAFailure : Prop :=
  ∀ (w : List Sample) (s : State), s.dec.phase ≠ .listening →
    let n := min (s.dec.windowsSince.toNat + 1) (2 ^ 32 - 1)
    let counted := { s with dec := { s.dec with windowsSince := BitVec.ofNat 32 n } }
    (s.latch.ops.timeout ≠ 0 → s.latch.ops.timeout.toNat < n → windowStep w s = { s with
      rx := { s.rx with
        status := .failure, code := .decodeSyncTimeout, len := 0, data := Vector.replicate 144 0, seq := s.rx.seq + 1 },
      intStatus := s.intStatus ||| 0b01000#5, dec := s.dec.machineReset }) ∧
    (s.latch.ops.timeout = 0 ∨ n ≤ s.latch.ops.timeout.toNat →
      windowStep w s = if s.dec.phase = .synchronizing then syncStep w counted else recordStep w counted)

/-- R250, R251, R252: in `Recording` a window adds its power at each tone bin of the locked profile; the window that completes a
symbol slices it: the value of a tone group is the lowest with the greatest accumulated power, the values make a chip or half
of one, low nibble first; then the next symbol, the header's completion or the frame's follows. -/
def Obligations.SliceTakesTheLowestStrongestTone : Prop :=
  (∀ a : Vector Acc 16, (∀ u : Fin 16, a[u].toNat ≤ a[strongest a].toNat) ∧
    ∀ v : Fin 16, (∀ u : Fin 16, a[u].toNat ≤ a[v].toNat) → strongest a ≤ v) ∧
  (∀ (w : List Sample) (s : State), let q := profile s.dec.rxProto
    let t := accumulateWindow w s
    t = { s with dec := { s.dec with acc := t.dec.acc, wis := s.dec.wis + 1 } } ∧
    ∀ (g : Fin 2) (v : Fin 16), t.dec.acc[g][v] =
      if g.val < q.tones then s.dec.acc[g][v] + BitVec.ofNat 64 (power w (q.baseBin + q.spacing * (16 * g.val + v.val)))
      else s.dec.acc[g][v]) ∧
  (∀ (s : State), let q := profile s.dec.rxProto
    let lo := (strongest s.dec.acc[0]).val
    let hi := (strongest s.dec.acc[1]).val
    let d := { s.dec with acc := accZero, wis := 0, symRemaining := s.dec.symRemaining - 1 }
    sliceStep s = { s with dec :=
      if q.tones = 2 then { d with chips := s.dec.chips ++ [BitVec.ofNat 8 (lo + 16 * hi)] }
      else match s.dec.pend with
        | none => { d with pend := some (BitVec.ofNat 4 lo) }
        | some low => { d with chips := s.dec.chips ++ [BitVec.ofNat 8 (low.toNat + 16 * lo)], pend := none } }) ∧
  ∀ (w : List Sample) (s : State),
    let t := accumulateWindow w s
    let u := sliceStep t
    recordStep w s =
      if s.dec.wis + 1 < (profile s.dec.rxProto).windows then t
      else if 0 < u.dec.symRemaining.toNat then u
      else if u.dec.hdrDone = true then demodulate u else headerComplete u

/-- R253, R254, R258, R262: the frame's end publishes what the framer recovers from the chips, the header's end publishes a failure
or expects the body's symbols; a sample whose processing publishes an outcome ends a window, and leaves the decoder in
`Listening` at a window boundary, RX_SEQ one further. -/
def Obligations.PublicationEndsAWindow : Prop :=
  (∀ s : State,
    let failed := { s with
      rx := { s.rx with
        status := .failure, code := .decodeFECFailure, len := 0, data := Vector.replicate 144 0, seq := s.rx.seq + 1 },
      intStatus := s.intStatus ||| 0b01000#5, dec := s.dec.machineReset }
    (match recoverFrame s.cfg (profile s.dec.rxProto) s.dec.chips with
      | none => demodulate s = failed
      | some r => ∃ data, demodulate s = { s with
          rx := { s.rx with status := .success, code := .ok, len := BitVec.ofNat 8 r.length, data := data, seq := s.rx.seq + 1 },
          intStatus := s.intStatus ||| 0b00100#5, dec := s.dec.machineReset } ∧
        r.length ≤ 140 ∧ ∀ k : Fin 144, data[k] = r.getD k 0) ∧
    let x := if s.cfg.mode.getLsbD 0 then 3 else 1
    let header := s.dec.chips.take (3 * x)
    match rsDecode (if s.cfg.mode.getLsbD 0 then despread header else header) 1 2 with
    | none => headerComplete s = failed
    | some h =>
      let l := (h.headD 0).toNat
      let n := BitVec.ofNat 32 ((frameChips s.cfg l - 3 * x) * 2 / (profile s.dec.rxProto).tones)
      headerComplete s = if 140 < l then failed
        else { s with dec := { s.dec with hdrDone := true, symExpected := s.dec.symExpected + n, symRemaining := n } }) ∧
  ∀ (x : Sample) (s : State), (takeSample x s).rx.seq ≠ s.rx.seq →
    s.dec.fill = 1023 ∧ (takeSample x s).dec.fill = 0 ∧ (takeSample x s).dec.phase = .listening ∧
    (takeSample x s).rx.seq = s.rx.seq + 1 ∧
    ((takeSample x s).rx.status = .success → (takeSample x s).intStatus = s.intStatus ||| 0b00100#5) ∧
    ((takeSample x s).rx.status = .failure → (takeSample x s).intStatus = s.intStatus ||| 0b01000#5)

/-- R243, R255, R263: in `Listening` at a window boundary, silence of any length publishes nothing and starts nothing. -/
def Obligations.SilencePublishesNothing : Prop :=
  ∀ (n : Nat) (s : State), s.dec.phase = .listening → s.dec.fill = 0 →
    (takeSamples (List.replicate n 0) s).dec.phase = .listening ∧ (takeSamples (List.replicate n 0) s).rx = s.rx ∧
    (takeSamples (List.replicate n 0) s).intStatus = s.intStatus

/-! ## Invariants -/

/-- R38, R50, R52 to R56, R360: State.reset satisfies every invariant below. -/
def Obligations.ResetSatisfiesTheInvariants : Prop :=
  MemoryInv State.reset ∧ ConfigInv State.reset ∧ DecoderInv State.reset ∧ PublishedInv State.reset ∧ CodesInv State.reset

/-- R70, R74, R82, R83: every step keeps host memory in its canonical form, inside the `2^32` addresses. The form is the model's. -/
def Obligations.StepKeepsTheMemoryForm : Prop :=
  ∀ s t : State, MemoryInv s → step s = .next t → MemoryInv t

/-- R38, R50 to R55, R249 to R257, R301, R302, R305: every step keeps the instance well formed: a held configuration is a valid one, the
decoder never rests in `Demodulating`, idles without a configuration, and in each phase holds what the rules give it. -/
def Obligations.StepKeepsTheInstanceWellFormed : Prop :=
  ∀ s t : State, ConfigInv s → DecoderInv s → step s = .next t → ConfigInv t ∧ DecoderInv t

/-- R44, R45, R48, R262, R320: every step keeps the published result and the completion code legal: a success has code 0 and at most
140 bytes, a failure a decode error's code and no bytes, unused bytes are 0, and STATUS.ERR is no code a command cannot
leave. -/
def Obligations.StepKeepsTheResultsLegal : Prop :=
  ∀ s t : State, PublishedInv s → CodesInv s → step s = .next t → PublishedInv t ∧ CodesInv t

/-- R54, R252, R166: the received chips never exceed `MAX_FRAME_CHIPS`, in states whose instance is well formed. -/
def Obligations.ChipBufferBound : Prop :=
  ∀ s : State, ConfigInv s → DecoderInv s → s.dec.chips.length ≤ 603
end

