-- ==== Sys2Proof/Laws/State.lean ====
section
/-! SUPPORT. What each update of the state leaves and changes: one lemma a field, true by rfl, so that no proof unfolds an update. -/

namespace Sys2Proof.Machine

/-! `finish(code)` (R331). -/

@[simp] theorem finish_busy (c : Code) (s : State) : (finish c s).busy = false := rfl
@[simp] theorem finish_configured (c : Code) (s : State) : (finish c s).configured = s.configured := rfl
@[simp] theorem finish_err (c : Code) (s : State) : (finish c s).err = c := rfl
@[simp] theorem finish_intStatus (c : Code) (s : State) : (finish c s).intStatus = s.intStatus ||| completionBits c := rfl
@[simp] theorem finish_intEnable (c : Code) (s : State) : (finish c s).intEnable = s.intEnable := rfl
@[simp] theorem finish_param (c : Code) (s : State) : (finish c s).param = s.param := rfl
@[simp] theorem finish_ops (c : Code) (s : State) : (finish c s).ops = s.ops := rfl
@[simp] theorem finish_resultLen (c : Code) (s : State) : (finish c s).resultLen = (if c = .ok then s.resultLen else 0) := rfl
@[simp] theorem finish_cfg (c : Code) (s : State) : (finish c s).cfg = s.cfg := rfl
@[simp] theorem finish_prof (c : Code) (s : State) : (finish c s).prof = s.prof := rfl
@[simp] theorem finish_latch (c : Code) (s : State) : (finish c s).latch = s.latch := rfl
@[simp] theorem finish_dec (c : Code) (s : State) : (finish c s).dec = s.dec := rfl
@[simp] theorem finish_rx (c : Code) (s : State) : (finish c s).rx = s.rx := rfl
@[simp] theorem finish_mem (c : Code) (s : State) : (finish c s).mem = s.mem := rfl
@[simp] theorem finish_plat (c : Code) (s : State) : (finish c s).plat = s.plat := rfl
@[simp] theorem finish_agenda (c : Code) (s : State) : (finish c s).agenda = s.agenda := rfl
@[simp] theorem finish_observed (c : Code) (s : State) : (finish c s).observed = s.observed := rfl
@[simp] theorem finish_heldIn (c : Code) (s : State) : (finish c s).heldIn = s.heldIn := rfl
@[simp] theorem finish_heldOut (c : Code) (s : State) : (finish c s).heldOut = s.heldOut := rfl
@[simp] theorem finish_peers (c : Code) (s : State) : (finish c s).peers = s.peers := rfl
@[simp] theorem finish_freeCount (c : Code) (s : State) : (finish c s).freeCount = s.freeCount := rfl

/-! `Publish` (R262). -/

@[simp] theorem publish_busy (r : RxStatus) (c : Code) (p : List Byte) (s : State) : (publish r c p s).busy = s.busy := rfl
@[simp] theorem publish_configured (r : RxStatus) (c : Code) (p : List Byte) (s : State) : (publish r c p s).configured = s.configured := rfl
@[simp] theorem publish_err (r : RxStatus) (c : Code) (p : List Byte) (s : State) : (publish r c p s).err = s.err := rfl
@[simp] theorem publish_intStatus (r : RxStatus) (c : Code) (p : List Byte) (s : State) : (publish r c p s).intStatus = s.intStatus ||| publicationBits r := rfl
@[simp] theorem publish_intEnable (r : RxStatus) (c : Code) (p : List Byte) (s : State) : (publish r c p s).intEnable = s.intEnable := rfl
@[simp] theorem publish_param (r : RxStatus) (c : Code) (p : List Byte) (s : State) : (publish r c p s).param = s.param := rfl
@[simp] theorem publish_ops (r : RxStatus) (c : Code) (p : List Byte) (s : State) : (publish r c p s).ops = s.ops := rfl
@[simp] theorem publish_resultLen (r : RxStatus) (c : Code) (p : List Byte) (s : State) : (publish r c p s).resultLen = s.resultLen := rfl
@[simp] theorem publish_cfg (r : RxStatus) (c : Code) (p : List Byte) (s : State) : (publish r c p s).cfg = s.cfg := rfl
@[simp] theorem publish_prof (r : RxStatus) (c : Code) (p : List Byte) (s : State) : (publish r c p s).prof = s.prof := rfl
@[simp] theorem publish_latch (r : RxStatus) (c : Code) (p : List Byte) (s : State) : (publish r c p s).latch = s.latch := rfl
@[simp] theorem publish_dec (r : RxStatus) (c : Code) (p : List Byte) (s : State) : (publish r c p s).dec = s.dec.machineReset := rfl
@[simp] theorem publish_rx (r : RxStatus) (c : Code) (p : List Byte) (s : State) : (publish r c p s).rx = { s.rx with status := r, code := c, len := BitVec.ofNat 8 p.length, data := publishedData p, seq := s.rx.seq + 1 } := rfl
@[simp] theorem publish_mem (r : RxStatus) (c : Code) (p : List Byte) (s : State) : (publish r c p s).mem = s.mem := rfl
@[simp] theorem publish_plat (r : RxStatus) (c : Code) (p : List Byte) (s : State) : (publish r c p s).plat = s.plat := rfl
@[simp] theorem publish_agenda (r : RxStatus) (c : Code) (p : List Byte) (s : State) : (publish r c p s).agenda = s.agenda := rfl
@[simp] theorem publish_observed (r : RxStatus) (c : Code) (p : List Byte) (s : State) : (publish r c p s).observed = s.observed := rfl
@[simp] theorem publish_heldIn (r : RxStatus) (c : Code) (p : List Byte) (s : State) : (publish r c p s).heldIn = s.heldIn := rfl
@[simp] theorem publish_heldOut (r : RxStatus) (c : Code) (p : List Byte) (s : State) : (publish r c p s).heldOut = s.heldOut := rfl
@[simp] theorem publish_peers (r : RxStatus) (c : Code) (p : List Byte) (s : State) : (publish r c p s).peers = s.peers := rfl
@[simp] theorem publish_freeCount (r : RxStatus) (c : Code) (p : List Byte) (s : State) : (publish r c p s).freeCount = s.freeCount := rfl

/-! What CONFIG and DECONFIG share (R301, R304, R305). -/

@[simp] theorem freshInstance_busy (s : State) : (freshInstance s).busy = s.busy := rfl
@[simp] theorem freshInstance_configured (s : State) : (freshInstance s).configured = s.configured := rfl
@[simp] theorem freshInstance_err (s : State) : (freshInstance s).err = s.err := rfl
@[simp] theorem freshInstance_intStatus (s : State) : (freshInstance s).intStatus = s.intStatus := rfl
@[simp] theorem freshInstance_intEnable (s : State) : (freshInstance s).intEnable = s.intEnable := rfl
@[simp] theorem freshInstance_param (s : State) : (freshInstance s).param = s.param := rfl
@[simp] theorem freshInstance_ops (s : State) : (freshInstance s).ops = s.ops := rfl
@[simp] theorem freshInstance_resultLen (s : State) : (freshInstance s).resultLen = s.resultLen := rfl
@[simp] theorem freshInstance_cfg (s : State) : (freshInstance s).cfg = s.cfg := rfl
@[simp] theorem freshInstance_prof (s : State) : (freshInstance s).prof = s.prof := rfl
@[simp] theorem freshInstance_latch (s : State) : (freshInstance s).latch = s.latch := rfl
@[simp] theorem freshInstance_dec (s : State) : (freshInstance s).dec = { s.dec.decoderReset with rxProto := 0 } := rfl
@[simp] theorem freshInstance_rx (s : State) : (freshInstance s).rx = Published.reset := rfl
@[simp] theorem freshInstance_mem (s : State) : (freshInstance s).mem = s.mem := rfl
@[simp] theorem freshInstance_plat (s : State) : (freshInstance s).plat = s.plat := rfl
@[simp] theorem freshInstance_agenda (s : State) : (freshInstance s).agenda = s.agenda := rfl
@[simp] theorem freshInstance_observed (s : State) : (freshInstance s).observed = s.observed := rfl
@[simp] theorem freshInstance_heldIn (s : State) : (freshInstance s).heldIn = s.heldIn := rfl
@[simp] theorem freshInstance_heldOut (s : State) : (freshInstance s).heldOut = s.heldOut := rfl
@[simp] theorem freshInstance_peers (s : State) : (freshInstance s).peers = s.peers := rfl
@[simp] theorem freshInstance_freeCount (s : State) : (freshInstance s).freeCount = s.freeCount := rfl

/-! The issue of a command (R330). -/

@[simp] theorem issue_busy (v : Word) (s : State) : (issue v s).busy = true := rfl
@[simp] theorem issue_configured (v : Word) (s : State) : (issue v s).configured = s.configured := rfl
@[simp] theorem issue_err (v : Word) (s : State) : (issue v s).err = s.err := rfl
@[simp] theorem issue_intStatus (v : Word) (s : State) : (issue v s).intStatus = s.intStatus := rfl
@[simp] theorem issue_intEnable (v : Word) (s : State) : (issue v s).intEnable = s.intEnable := rfl
@[simp] theorem issue_param (v : Word) (s : State) : (issue v s).param = s.param := rfl
@[simp] theorem issue_ops (v : Word) (s : State) : (issue v s).ops = s.ops := rfl
@[simp] theorem issue_resultLen (v : Word) (s : State) : (issue v s).resultLen = s.resultLen := rfl
@[simp] theorem issue_cfg (v : Word) (s : State) : (issue v s).cfg = s.cfg := rfl
@[simp] theorem issue_prof (v : Word) (s : State) : (issue v s).prof = s.prof := rfl
@[simp] theorem issue_latch (v : Word) (s : State) : (issue v s).latch = { cmd := v, ops := s.ops, par := s.param } := rfl
@[simp] theorem issue_dec (v : Word) (s : State) : (issue v s).dec = s.dec := rfl
@[simp] theorem issue_rx (v : Word) (s : State) : (issue v s).rx = s.rx := rfl
@[simp] theorem issue_mem (v : Word) (s : State) : (issue v s).mem = s.mem := rfl
@[simp] theorem issue_plat (v : Word) (s : State) : (issue v s).plat = s.plat := rfl
@[simp] theorem issue_agenda (v : Word) (s : State) : (issue v s).agenda = s.agenda := rfl
@[simp] theorem issue_observed (v : Word) (s : State) : (issue v s).observed = s.observed := rfl
@[simp] theorem issue_heldIn (v : Word) (s : State) : (issue v s).heldIn = s.heldIn ++ inputOf v s.ops := rfl
@[simp] theorem issue_heldOut (v : Word) (s : State) : (issue v s).heldOut = s.heldOut ++ outputOf v s.ops := rfl
@[simp] theorem issue_peers (v : Word) (s : State) : (issue v s).peers = s.peers := rfl
@[simp] theorem issue_freeCount (v : Word) (s : State) : (issue v s).freeCount = s.freeCount := rfl

/-! The reset of the block (R360). -/

@[simp] theorem resetBlock_busy (s : State) : (s.resetBlock).busy = State.reset.busy := rfl
@[simp] theorem resetBlock_configured (s : State) : (s.resetBlock).configured = State.reset.configured := rfl
@[simp] theorem resetBlock_err (s : State) : (s.resetBlock).err = State.reset.err := rfl
@[simp] theorem resetBlock_intStatus (s : State) : (s.resetBlock).intStatus = State.reset.intStatus := rfl
@[simp] theorem resetBlock_intEnable (s : State) : (s.resetBlock).intEnable = State.reset.intEnable := rfl
@[simp] theorem resetBlock_param (s : State) : (s.resetBlock).param = State.reset.param := rfl
@[simp] theorem resetBlock_ops (s : State) : (s.resetBlock).ops = State.reset.ops := rfl
@[simp] theorem resetBlock_resultLen (s : State) : (s.resetBlock).resultLen = State.reset.resultLen := rfl
@[simp] theorem resetBlock_cfg (s : State) : (s.resetBlock).cfg = State.reset.cfg := rfl
@[simp] theorem resetBlock_prof (s : State) : (s.resetBlock).prof = State.reset.prof := rfl
@[simp] theorem resetBlock_latch (s : State) : (s.resetBlock).latch = State.reset.latch := rfl
@[simp] theorem resetBlock_dec (s : State) : (s.resetBlock).dec = State.reset.dec := rfl
@[simp] theorem resetBlock_rx (s : State) : (s.resetBlock).rx = State.reset.rx := rfl
@[simp] theorem resetBlock_mem (s : State) : (s.resetBlock).mem = s.mem := rfl
@[simp] theorem resetBlock_plat (s : State) : (s.resetBlock).plat = s.plat := rfl
@[simp] theorem resetBlock_agenda (s : State) : (s.resetBlock).agenda = s.agenda := rfl
@[simp] theorem resetBlock_observed (s : State) : (s.resetBlock).observed = s.observed := rfl
@[simp] theorem resetBlock_heldIn (s : State) : (s.resetBlock).heldIn = s.heldIn := rfl
@[simp] theorem resetBlock_heldOut (s : State) : (s.resetBlock).heldOut = s.heldOut := rfl
@[simp] theorem resetBlock_peers (s : State) : (s.resetBlock).peers = s.peers := rfl
@[simp] theorem resetBlock_freeCount (s : State) : (s.resetBlock).freeCount = s.freeCount := rfl

/-! `MachineReset` and `DecoderReset` (R256, R257). -/

@[simp] theorem machineReset_phase (d : Decoder) : d.machineReset.phase = .listening := rfl
@[simp] theorem machineReset_win (d : Decoder) : d.machineReset.win = d.win := rfl
@[simp] theorem machineReset_fill (d : Decoder) : d.machineReset.fill = d.fill := rfl
@[simp] theorem machineReset_rxProto (d : Decoder) : d.machineReset.rxProto = d.rxProto := rfl
@[simp] theorem machineReset_markerCount (d : Decoder) : d.machineReset.markerCount = 0 := rfl
@[simp] theorem machineReset_windowsSince (d : Decoder) : d.machineReset.windowsSince = 0 := rfl
@[simp] theorem machineReset_acc (d : Decoder) : d.machineReset.acc = accZero := rfl
@[simp] theorem machineReset_wis (d : Decoder) : d.machineReset.wis = 0 := rfl
@[simp] theorem machineReset_chips (d : Decoder) : d.machineReset.chips = [] := rfl
@[simp] theorem machineReset_pend (d : Decoder) : d.machineReset.pend = none := rfl
@[simp] theorem machineReset_hdrDone (d : Decoder) : d.machineReset.hdrDone = false := rfl
@[simp] theorem machineReset_symExpected (d : Decoder) : d.machineReset.symExpected = 0 := rfl
@[simp] theorem machineReset_symRemaining (d : Decoder) : d.machineReset.symRemaining = 0 := rfl

@[simp] theorem decoderReset_phase (d : Decoder) : d.decoderReset.phase = .listening := rfl
@[simp] theorem decoderReset_win (d : Decoder) : d.decoderReset.win = d.win := rfl
@[simp] theorem decoderReset_fill (d : Decoder) : d.decoderReset.fill = 0 := rfl
@[simp] theorem decoderReset_rxProto (d : Decoder) : d.decoderReset.rxProto = d.rxProto := rfl
@[simp] theorem decoderReset_markerCount (d : Decoder) : d.decoderReset.markerCount = 0 := rfl
@[simp] theorem decoderReset_windowsSince (d : Decoder) : d.decoderReset.windowsSince = 0 := rfl
@[simp] theorem decoderReset_acc (d : Decoder) : d.decoderReset.acc = accZero := rfl
@[simp] theorem decoderReset_wis (d : Decoder) : d.decoderReset.wis = 0 := rfl
@[simp] theorem decoderReset_chips (d : Decoder) : d.decoderReset.chips = [] := rfl
@[simp] theorem decoderReset_pend (d : Decoder) : d.decoderReset.pend = none := rfl
@[simp] theorem decoderReset_hdrDone (d : Decoder) : d.decoderReset.hdrDone = false := rfl
@[simp] theorem decoderReset_symExpected (d : Decoder) : d.decoderReset.symExpected = 0 := rfl
@[simp] theorem decoderReset_symRemaining (d : Decoder) : d.decoderReset.symRemaining = 0 := rfl

@[simp] theorem machineReset_machineReset (d : Decoder) : d.machineReset.machineReset = d.machineReset := rfl

/-! Completions as outcomes. -/

@[simp] theorem complete_eq_next (c : Code) (s t : State) : complete c s = .next t ↔ finish c s = t := by
  simp [complete]

theorem eq_finish_of_complete {c : Code} {s t : State} (h : complete c s = .next t) : t = finish c s :=
  ((complete_eq_next c s t).1 h).symm

@[simp] theorem complete_ne_fault (c : Code) (s : State) (r : Fault) : complete c s ≠ .fault r := by simp [complete]

@[simp] theorem complete_ne_refused (c : Code) (s : State) (r : Refusal) : complete c s ≠ .refused r := by simp [complete]

theorem complete_completes (c : Code) (s : State) : Completes (complete c s) := ⟨_, rfl⟩

/-- Finishing with an error leaves RESULT_LEN at 0 (R331). -/
theorem finish_error_resultLen {c : Code} (h : c ≠ .ok) (s : State) : (finish c s).resultLen = 0 := by simp [h]

/-- DONE is set by every completion (R28, R331). -/
theorem finish_sets_done (c : Code) (s : State) : (finish c s).intStatus.getLsbD 0 = true := by
  rw [finish_intStatus, BitVec.getLsbD_or]
  cases c <;> simp [completionBits, intDone, intError]

/-- ERROR is set by every completion with a code other than OK (R28, R331). -/
theorem finish_sets_error {c : Code} (h : c ≠ .ok) (s : State) : (finish c s).intStatus.getLsbD 1 = true := by
  rw [finish_intStatus, BitVec.getLsbD_or]
  simp [completionBits, intDone, intError, h]

end Sys2Proof.Machine
end

