-- ==== Sys2Proof/Laws/Memory.lean ====
section
/-! SUPPORT. Host memory: what a store leaves and writes, that it keeps the canonical form, and little-endian numbers (R70, R75). -/

namespace Sys2Proof.Machine

/-- A cell of `cellsFrom a bs` lies at `a + i` and holds byte `i`, which is not the unwritten one. -/
theorem mem_cellsFrom {a : Nat} {bs : List Byte} {c : Host.Cell} :
    c ∈ cellsFrom a bs ↔ ∃ i, bs[i]? = some c.2 ∧ c.1 = a + i ∧ c.2 ≠ unwrittenByte := by
  obtain ⟨x, v⟩ := c
  simp only [cellsFrom, List.mem_filterMap, Prod.exists]
  constructor
  · rintro ⟨v', x', hmem, h⟩
    rw [List.mem_zipIdx_iff_le_and_getElem?_sub] at hmem
    split at h
    · cases h
    · next hne =>
      simp only [Option.some.injEq, Prod.mk.injEq] at h
      obtain ⟨rfl, rfl⟩ := h
      exact ⟨x' - a, hmem.2, by simp at hmem ⊢; omega, hne⟩
  · rintro ⟨i, hi, hx, hne⟩
    refine ⟨v, x, ?_, by simp at hne; simp [hne]⟩
    rw [List.mem_zipIdx_iff_le_and_getElem?_sub]
    simp only at hx hi ⊢
    subst hx
    exact ⟨by omega, by simpa using hi⟩

/-- The cells stand in rising order of address. -/
theorem cellsFrom_pairwise (a : Nat) (bs : List Byte) : (cellsFrom a bs).Pairwise fun x y => x.1 < y.1 := by
  induction bs generalizing a with
  | nil => simp [cellsFrom]
  | cons b bs ih =>
    have hcons : cellsFrom a (b :: bs) =
        (if b = unwrittenByte then [] else [(a, b)]) ++ cellsFrom (a + 1) bs := by
      unfold cellsFrom
      rw [List.zipIdx_cons, List.filterMap_cons]
      split <;> simp_all
    rw [hcons, List.pairwise_append]
    refine ⟨by split <;> simp, ih _, fun x hx y hy => ?_⟩
    obtain ⟨i, -, hyi, -⟩ := mem_cellsFrom.1 hy
    split at hx <;> simp at hx
    subst hx; simp only; omega

theorem lookup_append {α β : Type} [BEq α] (k : α) (xs ys : List (α × β)) :
    (xs ++ ys).lookup k = (xs.lookup k).or (ys.lookup k) := by
  induction xs with
  | nil => simp
  | cons x xs ih =>
    obtain ⟨a, b⟩ := x
    simp only [List.cons_append, List.lookup]
    split <;> simp_all

theorem lookup_eq_none_of_forall {m : Memory} {a : Nat} (h : ∀ c ∈ m, c.1 ≠ a) : m.lookup a = none := by
  induction m with
  | nil => rfl
  | cons c m ih =>
    obtain ⟨x, v⟩ := c
    have hx : (a == x) = false := by
      have := h (x, v) (by simp)
      simp only [beq_eq_false_iff_ne, ne_eq]
      exact fun hax => this hax.symm
    simp only [List.lookup, hx]
    exact ih fun c hc => h c (by simp [hc])

/-- Filtering by a test on addresses that `a` passes does not change what `a` looks up. -/
theorem lookup_filter {m : Memory} {a : Nat} (p : Nat → Bool) (h : p a = true) :
    (m.filter fun c => p c.1).lookup a = m.lookup a := by
  induction m with
  | nil => rfl
  | cons c m ih =>
    obtain ⟨x, v⟩ := c
    by_cases hx : a = x
    · subst hx; simp [List.filter, h]
    · have hbx : (a == x) = false := by simpa using hx
      simp only [List.filter]
      split
      · simp [List.lookup, hbx, ih]
      · simp [List.lookup, hbx, ih]

theorem lookup_cellsFrom {a : Nat} {bs : List Byte} {i : Nat} (h : i < bs.length) :
    ((cellsFrom a bs).lookup (a + i)).getD unwrittenByte = bs[i] := by
  induction bs generalizing a i with
  | nil => simp at h
  | cons b bs ih =>
    have hcons : cellsFrom a (b :: bs) =
        (if b = unwrittenByte then [] else [(a, b)]) ++ cellsFrom (a + 1) bs := by
      unfold cellsFrom
      rw [List.zipIdx_cons, List.filterMap_cons]
      split <;> simp_all
    rw [hcons, lookup_append]
    cases i with
    | zero =>
      have hrest : (cellsFrom (a + 1) bs).lookup a = none := by
        apply lookup_eq_none_of_forall
        intro c hc
        obtain ⟨j, -, hj, -⟩ := mem_cellsFrom.1 hc
        omega
      split
      · next hb => simp [hrest, hb]
      · simp
    | succ i =>
      have hne : (a + (i + 1) == a) = false := by simp
      have hhead : (if b = unwrittenByte then ([] : Memory) else [(a, b)]).lookup (a + (i + 1)) = none := by
        split
        · rfl
        · simp only [List.lookup, hne]
      rw [hhead]
      have := ih (a := a + 1) (i := i) (by simpa using h)
      simpa [Nat.add_assoc, Nat.add_comm 1 i] using this

/-- A store leaves every byte outside the stored bytes. -/
theorem read_store_outside (m : Memory) (a : Nat) (bs : List Byte) {x : Nat} (h : x < a ∨ a + bs.length ≤ x) :
    (m.store a bs).read x = m.read x := by
  have hcells : (cellsFrom a bs).lookup x = none := by
    apply lookup_eq_none_of_forall
    intro c hc
    obtain ⟨i, hi, hx, -⟩ := mem_cellsFrom.1 hc
    have := (List.getElem?_eq_some_iff.1 hi).1
    omega
  unfold Memory.read Memory.store
  rw [lookup_append, lookup_append, hcells]
  rcases h with h | h
  · rw [lookup_filter (fun y => decide (y < a)) (by simpa using h),
      lookup_eq_none_of_forall (m := m.filter fun c => decide (a + bs.length ≤ c.1)) (by simp; omega)]
    simp
  · rw [lookup_filter (fun y => decide (a + bs.length ≤ y)) (by simpa using h),
      lookup_eq_none_of_forall (m := m.filter fun c => decide (c.1 < a)) (by simp; omega)]
    simp

/-- A store writes its bytes. -/
theorem read_store_inside (m : Memory) (a : Nat) (bs : List Byte) {i : Nat} (h : i < bs.length) :
    (m.store a bs).read (a + i) = bs[i] := by
  unfold Memory.read Memory.store
  rw [lookup_append, lookup_append,
    lookup_eq_none_of_forall (m := m.filter fun c => decide (c.1 < a)) (by simp; omega),
    lookup_eq_none_of_forall (m := m.filter fun c => decide (a + bs.length ≤ c.1)) (by simp; omega)]
  simpa using lookup_cellsFrom (a := a) h

@[simp] theorem load_length (m : Memory) (a n : Nat) : (m.load a n).length = n := by simp [Memory.load]

theorem getElem_load (m : Memory) (a n : Nat) {i : Nat} (h : i < (m.load a n).length) : (m.load a n)[i] = m.read (a + i) := by
  simp [Memory.load]

/-- Loading where bytes were stored gives them. -/
theorem load_store (m : Memory) (a : Nat) (bs : List Byte) : (m.store a bs).load a bs.length = bs := by
  apply List.ext_getElem (by simp)
  intro i h h'
  rw [getElem_load, read_store_inside m a bs h']

/-- The canonical form, unfolded. -/
theorem Memory.wf_iff (m : Memory) : m.wf = true ↔
    m.Pairwise (fun a b => a.1 < b.1) ∧ ∀ c ∈ m, c.1 < Config.addrSpace ∧ c.2 ≠ unwrittenByte := by
  simp [Memory.wf, List.all_eq_true]

/-- A store inside host memory keeps the canonical form. -/
theorem store_wf {m : Memory} (hm : m.wf = true) {a : Nat} {bs : List Byte} (h : bs = [] ∨ a + bs.length ≤ Config.addrSpace) :
    (m.store a bs).wf = true := by
  rw [Memory.wf_iff] at hm ⊢
  obtain ⟨hp, hc⟩ := hm
  constructor
  · unfold Memory.store
    rw [List.append_assoc, List.pairwise_append, List.pairwise_append]
    refine ⟨hp.filter _, ⟨cellsFrom_pairwise a bs, hp.filter _, ?_⟩, ?_⟩
    · intro x hx y hy
      obtain ⟨i, hi, hxi, -⟩ := mem_cellsFrom.1 hx
      have := (List.getElem?_eq_some_iff.1 hi).1
      simp only [List.mem_filter, decide_eq_true_eq] at hy
      omega
    · intro x hx y hy
      simp only [List.mem_filter, decide_eq_true_eq] at hx
      simp only [List.mem_append, List.mem_filter, decide_eq_true_eq] at hy
      rcases hy with hy | hy
      · obtain ⟨i, hi, hxi, -⟩ := mem_cellsFrom.1 hy; omega
      · omega
  · intro c hcm
    simp only [Memory.store, List.mem_append, List.mem_filter, decide_eq_true_eq] at hcm
    rcases hcm with (⟨hcm, -⟩ | hcm) | ⟨hcm, -⟩
    · exact hc c hcm
    · obtain ⟨i, hi, hci, hne⟩ := mem_cellsFrom.1 hcm
      have := (List.getElem?_eq_some_iff.1 hi).1
      refine ⟨?_, hne⟩
      rcases h with h | h
      · subst h; simp at this
      · omega
    · exact hc c hcm

/-- An empty store changes nothing that can be read. -/
theorem read_store_nil (m : Memory) (a x : Nat) : (m.store a []).read x = m.read x :=
  read_store_outside m a [] (by simp; omega)

@[simp] theorem leBytes_length (n v : Nat) : (leBytes n v).length = n := by
  induction n generalizing v with
  | zero => rfl
  | succ n ih => simp [leBytes, ih]

/-- The number the bytes of a number give back (R75). -/
theorem leNat_leBytes (n v : Nat) : leNat (leBytes n v) = v % 256 ^ n := by
  induction n generalizing v with
  | zero => simp [leBytes, leNat, Nat.mod_one]
  | succ n ih =>
    rw [leBytes, leNat, ih, BitVec.toNat_ofNat, Nat.pow_succ 256 n, Nat.mul_comm (256 ^ n) 256, Nat.mod_mul]

/-- Every address of a populated range is an address of host memory. -/
theorem allPopulated_bound {p : Platform} {r : Range} (h : p.allPopulated r = true) : r.len = 0 ∨ r.base + r.len ≤ Config.addrSpace := by
  by_cases hl : r.len = 0
  · exact .inl hl
  · refine .inr ?_
    simp only [Platform.allPopulated, List.all_eq_true, List.mem_range, Bool.and_eq_true, decide_eq_true_eq] at h
    have := (h (r.len - 1) (by omega)).2
    omega

/-- A range inside a populated range of host memory is populated. -/
theorem allPopulated_of_inside {p : Platform} {q r : Range} (hq : q ∈ p.populated) (h0 : q.base ≤ r.base)
    (h1 : r.base + r.len ≤ q.base + q.len) (h2 : r.base + r.len ≤ Config.addrSpace) : p.allPopulated r = true := by
  simp only [Platform.allPopulated, List.all_eq_true, List.mem_range, Bool.and_eq_true, decide_eq_true_eq,
    Platform.isPopulated, List.any_eq_true]
  intro i hi
  refine ⟨⟨q, hq, ?_⟩, by omega⟩
  simp only [Range.contains, Bool.and_eq_true, decide_eq_true_eq]
  omega

end Sys2Proof.Machine
end

