-- ==== Sys2Proof/Laws/Ops.lean ====
section
/-! SUPPORT. The shared operations of the commands: what each can answer, said once (R74, R83, R91, R322, R331). -/

namespace Sys2Proof.Machine

theorem firstError_eq_none_iff (l : List (Bool × Code)) : firstError l = none ↔ ∀ x ∈ l, x.1 = false := by
  induction l with
  | nil => simp [firstError]
  | cons x l ih =>
    obtain ⟨b, c⟩ := x
    cases b <;> simp [firstError, ih]

/-- A check that applies is in the list. -/
theorem mem_of_firstError {l : List (Bool × Code)} {c : Code} (h : firstError l = some c) : (true, c) ∈ l := by
  induction l with
  | nil => simp [firstError] at h
  | cons x l ih =>
    obtain ⟨b, d⟩ := x
    cases b
    · simp only [firstError, Bool.false_eq_true, if_false] at h; simp [ih h]
    · simp only [firstError, if_true, Option.some.injEq] at h; simp [h]

theorem dmaRead_eq_some {s : State} {a n : Nat} {bs : List Byte} :
    dmaRead s a n = some bs ↔ s.plat.allPopulated ⟨a, n⟩ = true ∧ bs = s.mem.load a n := by
  unfold dmaRead
  split
  next h => simp only [Option.some.injEq, h, true_and]; exact eq_comm
  next h => simp [h]

/-- `writeOutput` stores and finishes with OK, or faults (R83, R86). -/
theorem writeOutput_eq (out : List Byte) (s : State) : writeOutput out s =
    if s.plat.allPopulated ⟨s.dst, out.length⟩ = true then .next (storedOutput out s) else .fault .busError := by
  simp [writeOutput, storedOutput, complete]

/-- All that `transfer` can answer with a next state: the code `f` gives, nothing else changed, or the output `f` gives stored
at `dstAddr`. -/
theorem transfer_next {n : Nat} {f : List Byte → Except Code (List Byte)} {s t : State} (h : transfer n f s = .next t) :
    s.inputRange.overlaps s.outputRange = false ∧ s.plat.allPopulated ⟨s.src, n⟩ = true ∧
      ((∃ c, f (inputBytes s n) = .error c ∧ t = finish c s) ∨
        ∃ out, f (inputBytes s n) = .ok out ∧ s.plat.allPopulated ⟨s.dst, out.length⟩ = true ∧ t = storedOutput out s) := by
  unfold transfer at h
  split at h
  · cases h
  next hov =>
  split at h
  · cases h
  next input hin =>
  obtain ⟨hpop, rfl⟩ := dmaRead_eq_some.1 hin
  refine ⟨by simpa using hov, hpop, ?_⟩
  split at h
  next c hf => exact .inl ⟨c, hf, by simpa [complete, eq_comm] using h⟩
  next out hf =>
    rw [writeOutput_eq] at h
    split at h
    next hw => exact .inr ⟨out, hf, hw, by simpa [eq_comm] using h⟩
    · cases h

/-- `transfer` runs through where the ranges are apart and the bytes respond. -/
theorem transfer_ok {n : Nat} {f : List Byte → Except Code (List Byte)} {s : State} {out : List Byte}
    (hap : s.inputRange.overlaps s.outputRange = false) (hr : s.plat.allPopulated ⟨s.src, n⟩ = true)
    (hf : f (inputBytes s n) = .ok out) (hw : s.plat.allPopulated ⟨s.dst, out.length⟩ = true) :
    transfer n f s = .next (storedOutput out s) := by
  have hd : dmaRead s s.src n = some (inputBytes s n) := dmaRead_eq_some.2 ⟨hr, rfl⟩
  simp [transfer, hap, hd, hf, writeOutput_eq, hw]

/-- `transfer` ends with the code `f` gives, having written nothing. -/
theorem transfer_error {n : Nat} {f : List Byte → Except Code (List Byte)} {s : State} {c : Code}
    (hap : s.inputRange.overlaps s.outputRange = false) (hr : s.plat.allPopulated ⟨s.src, n⟩ = true)
    (hf : f (inputBytes s n) = .error c) : transfer n f s = .next (finish c s) := by
  have hd : dmaRead s s.src n = some (inputBytes s n) := dmaRead_eq_some.2 ⟨hr, rfl⟩
  simp [transfer, hap, hd, hf, complete]

/-- Overlapping ranges are refused (R91). -/
theorem transfer_overlap {n : Nat} {f : List Byte → Except Code (List Byte)} {s : State}
    (h : s.inputRange.overlaps s.outputRange = true) : transfer n f s = .refused .bufferOverlap := by
  simp [transfer, h]

/-- The state after an output was stored differs in memory and the completion registers only. -/
theorem storedOutput_mem (out : List Byte) (s : State) : (storedOutput out s).mem = s.mem.store s.dst out := rfl

theorem storedOutput_sameHostSide (out : List Byte) (s : State) : SameHostSide s (storedOutput out s) := by
  constructor <;> rfl

theorem storedOutput_sameInstance (out : List Byte) (s : State) : SameInstance s (storedOutput out s) := by
  constructor <;> rfl

theorem finish_sameHostSide (c : Code) (s : State) : SameHostSide s (finish c s) := by constructor <;> rfl

theorem finish_sameInstance (c : Code) (s : State) : SameInstance s (finish c s) := by constructor <;> rfl

/-- A completion sets DONE or ERROR and leaves the other bits of INT_STATUS, and those two where set. -/
theorem sameInt_of_or {s t : State} {c : Code} (h : t.intStatus = s.intStatus ||| completionBits c) :
    SameIntOtherThanCompletion s t := by
  intro k hk hcase
  rw [h, BitVec.getLsbD_or]
  rcases hcase with h2 | hset
  · have : (completionBits c).getLsbD k = false := by
      have hk' : k = 2 ∨ k = 3 ∨ k = 4 := by omega
      rcases hk' with rfl | rfl | rfl <;> cases c <;> decide
    simp [this]
  · simp [hset]

theorem profile?_eq_none {p : Nat} : profile? p = none ↔ 12 ≤ p := by
  unfold profile?; split <;> simp <;> omega

theorem profile?_eq_some {p : Nat} {q : Profile} : profile? p = some q ↔ ∃ h : p < 12, q = profile ⟨p, h⟩ := by
  unfold profile?
  split
  next h => simp [h, eq_comm]
  next h => simp [h]

/-- Every profile's maximum payload is 140 bytes, its symbols have one or two tones and 3, 6 or 9 windows (R130). -/
theorem profile_bounds (p : Fin 12) :
    (profile p).maxPayload = 140 ∧ ((profile p).tones = 1 ∨ (profile p).tones = 2) ∧ 3 ≤ (profile p).windows ∧
      (profile p).windows ≤ 9 := by
  revert p; decide

end Sys2Proof.Machine
end

