-- ==== Sys2Proof/Laws/Decoder.lean ====
section
/-! SUPPORT. The decoder's frame: what taking samples can change at all (R245 to R262, R306). -/

namespace Sys2Proof.Machine

/-- `t` differs from `s` in the decoder, the published result but for RX_CONSUMED, and INT_STATUS, where only RX_SUCCESS and
RX_FAILURE were set. -/
structure DecoderMoved (s t : State) : Prop where
  others : t = { s with dec := t.dec, rx := t.rx, intStatus := t.intStatus }
  consumed : t.rx.consumed = s.rx.consumed
  bits : ∃ x : BitVec 5, t.intStatus = s.intStatus ||| x ∧ x &&& 0b10011#5 = 0

theorem DecoderMoved.refl (s : State) : DecoderMoved s s := ⟨rfl, rfl, 0, by simp, by simp⟩

theorem DecoderMoved.trans {s t u : State} (h : DecoderMoved s t) (k : DecoderMoved t u) : DecoderMoved s u := by
  obtain ⟨ho, hc, x, hx, hx0⟩ := h
  obtain ⟨ko, kc, y, hy, hy0⟩ := k
  refine ⟨?_, kc.trans hc, x ||| y, by rw [hy, hx, BitVec.or_assoc], ?_⟩
  · rw [ko, ho]
  · ext i hi
    have a := congrArg (fun v : BitVec 5 => v[i]) hx0
    have b := congrArg (fun v : BitVec 5 => v[i]) hy0
    simp only [BitVec.getElem_and, BitVec.getElem_or] at a b ⊢
    rw [Bool.and_or_distrib_right, a, b]; simp

/-- A change of the decoder alone. -/
theorem DecoderMoved.ofDec (s : State) (d : Decoder) : DecoderMoved s { s with dec := d } := ⟨rfl, rfl, 0, by simp, by simp⟩

theorem publish_moved (r : RxStatus) (c : Code) (p : List Byte) (s : State) : DecoderMoved s (publish r c p s) :=
  ⟨rfl, rfl, publicationBits r, rfl, by cases r <;> decide⟩

theorem listenStep_moved (w : List Sample) (s : State) : DecoderMoved s (listenStep w s) := by
  unfold listenStep
  split
  · exact .refl s
  · exact .ofDec s _

theorem beginRecording_moved (s : State) : DecoderMoved s (beginRecording s) := .ofDec s _

theorem syncStep_moved (w : List Sample) (s : State) : DecoderMoved s (syncStep w s) := by
  unfold syncStep
  split
  · split
    · exact (DecoderMoved.ofDec s _).trans (beginRecording_moved _)
    · exact .ofDec s _
  · exact .ofDec s _

theorem headerComplete_moved (s : State) : DecoderMoved s (headerComplete s) := by
  unfold headerComplete
  split
  · exact publish_moved ..
  · split
    · exact publish_moved ..
    · exact .ofDec s _

theorem demodulate_moved (s : State) : DecoderMoved s (demodulate s) := by
  unfold demodulate
  split
  · exact (DecoderMoved.ofDec s _).trans (publish_moved ..)
  · exact (DecoderMoved.ofDec s _).trans (publish_moved ..)

theorem afterSymbol_moved (s : State) : DecoderMoved s (afterSymbol s) := by
  unfold afterSymbol
  split
  · exact .refl s
  · split
    · exact demodulate_moved s
    · exact headerComplete_moved s

theorem recordStep_moved (w : List Sample) (s : State) : DecoderMoved s (recordStep w s) := by
  unfold recordStep
  split
  · exact .ofDec s _
  · exact (DecoderMoved.ofDec s _).trans (afterSymbol_moved _)

theorem countedStep_moved (w : List Sample) (s : State) : DecoderMoved s (countedStep w s) := by
  unfold countedStep
  split
  · exact publish_moved ..
  · split
    · exact syncStep_moved w s
    · exact recordStep_moved w s

theorem windowStep_moved (w : List Sample) (s : State) : DecoderMoved s (windowStep w s) := by
  unfold windowStep
  split
  · exact listenStep_moved w s
  · exact (DecoderMoved.ofDec s _).trans (countedStep_moved ..)

theorem takeSample_moved (x : Sample) (s : State) : DecoderMoved s (takeSample x s) := by
  unfold takeSample
  split
  · exact (DecoderMoved.ofDec s _).trans (windowStep_moved ..)
  · exact .ofDec s _

/-- FEED's loop changes the decoder's part of the state only, and takes no more samples than it is given. -/
theorem feedLoop_moved {stop : Bool} {xs : List (Option Sample)} {n k : Nat} {s t : State}
    (h : feedLoop stop xs n s = some (k, t)) : DecoderMoved s t ∧ n ≤ k ∧ k ≤ n + xs.length := by
  induction xs generalizing n s with
  | nil =>
    simp only [feedLoop, Option.some.injEq, Prod.mk.injEq] at h
    obtain ⟨rfl, rfl⟩ := h
    exact ⟨.refl s, by simp, by simp⟩
  | cons x xs ih =>
    cases x with
    | none => simp [feedLoop] at h
    | some x =>
      simp only [feedLoop] at h
      split at h
      · simp only [Option.some.injEq, Prod.mk.injEq] at h
        obtain ⟨rfl, rfl⟩ := h
        exact ⟨takeSample_moved x s, by omega, by simp⟩
      · obtain ⟨hm, h1, h2⟩ := ih h
        exact ⟨(takeSample_moved x s).trans hm, by omega, by simp; omega⟩

/-- Where every sample responds, FEED's loop ends. -/
theorem feedLoop_isSome {stop : Bool} {xs : List (Option Sample)} (hx : none ∉ xs) (n : Nat) (s : State) :
    ∃ k t, feedLoop stop xs n s = some (k, t) := by
  induction xs generalizing n s with
  | nil => exact ⟨n, s, rfl⟩
  | cons x xs ih =>
    cases x with
    | none => simp at hx
    | some x =>
      simp only [feedLoop]
      split
      · exact ⟨_, _, rfl⟩
      · exact ih (by simp at hx; exact hx) _ _

end Sys2Proof.Machine
end

