-- ==== Sys2Proof/Laws/Exec.lean ====
section
/-! SUPPORT. What each command can answer with a next state, said once: later proofs cite these and do not unfold the meanings. -/

namespace Sys2Proof.Machine

/-- A command with both buffers ends in one of two ways: finished with an error and nothing else changed, or its output
stored. -/
def StoresOrFails (s t : State) : Prop :=
  (∃ c, c ≠ .ok ∧ t = finish c s) ∨
    ∃ out, s.plat.allPopulated ⟨s.dst, out.length⟩ = true ∧ t = storedOutput out s

theorem frameBuild_error_ne_ok {c : Params} {q : Profile} {bs : List Byte} {e : Code} (h : frameBuild c q bs = .error e) :
    e ≠ .ok := by
  unfold frameBuild at h
  split at h
  · cases h; decide
  · cases h

theorem recoverInto_error_ne_ok {c : Params} {q : Profile} {n : Nat} {bs : List Byte} {e : Code}
    (h : recoverInto c q n bs = .error e) : e ≠ .ok := by
  unfold recoverInto at h
  split at h
  · cases h; decide
  · split at h <;> cases h
    decide

theorem encodeBytes_error_ne_ok {c : Params} {q : Profile} {vol : Nat} {bs : List Byte} {e : Code}
    (h : encodeBytes c q vol bs = .error e) : e ≠ .ok := by
  unfold encodeBytes at h
  split at h
  · next e' he => cases h; exact frameBuild_error_ne_ok he
  · cases h

theorem storesOrFails_of_transfer {n : Nat} {f : List Byte → Except Code (List Byte)} {s t : State}
    (hf : ∀ bs c, f bs = .error c → c ≠ .ok) (h : transfer n f s = .next t) : StoresOrFails s t := by
  obtain ⟨-, -, ⟨c, hc, rfl⟩ | ⟨out, -, hw, rfl⟩⟩ := transfer_next h
  · exact .inl ⟨c, hf _ _ hc, rfl⟩
  · exact .inr ⟨out, hw, rfl⟩

/-- The frame every command with both buffers has: after the checks of R322 comes `transfer`. -/
theorem storesOrFails_of_checks {checks : List (Bool × Code)} {n : Nat} {f : List Byte → Except Code (List Byte)} {s t : State}
    (hchecks : ∀ x ∈ checks, x.2 ≠ .ok) (hf : ∀ bs c, f bs = .error c → c ≠ .ok)
    (h : (match firstError checks with
      | some c => complete c s
      | none => transfer n f s) = .next t) : StoresOrFails s t := by
  split at h
  next c hc => exact .inl ⟨c, hchecks _ (mem_of_firstError hc), eq_finish_of_complete h⟩
  · exact storesOrFails_of_transfer hf h

theorem storesOrFails_error {c : Code} {s t : State} (hc : c ≠ .ok) (h : complete c s = .next t) : StoresOrFails s t :=
  .inl ⟨c, hc, eq_finish_of_complete h⟩

theorem execFrameBuild_next {p : Nat} {s t : State} (h : execFrameBuild p s = .next t) : StoresOrFails s t := by
  unfold execFrameBuild at h
  split at h
  · exact storesOrFails_error (by decide) h
  · split at h
    · exact storesOrFails_error (by decide) h
    · exact storesOrFails_of_checks (by simp) (fun _ _ => frameBuild_error_ne_ok) h

theorem execFrameRecover_next {p : Nat} {s t : State} (h : execFrameRecover p s = .next t) : StoresOrFails s t := by
  unfold execFrameRecover at h
  split at h
  · exact storesOrFails_error (by decide) h
  · split at h
    · exact storesOrFails_error (by decide) h
    · exact storesOrFails_of_checks (by simp) (fun _ _ => recoverInto_error_ne_ok) h

theorem execSymbolMap_next {p : Nat} {s t : State} (h : execSymbolMap p s = .next t) : StoresOrFails s t := by
  unfold execSymbolMap at h
  split at h
  · exact storesOrFails_error (by decide) h
  · split at h
    · exact storesOrFails_error (by decide) h
    · exact storesOrFails_of_checks (by simp) (by simp) h

theorem execRender_next {p vol : Nat} {s t : State} (h : execRender p vol s = .next t) : StoresOrFails s t := by
  unfold execRender at h
  split at h
  · exact storesOrFails_error (by decide) h
  · split at h
    · exact storesOrFails_error (by decide) h
    · exact storesOrFails_of_checks (by simp) (by simp) h

theorem execEncode_next {p vol : Nat} {s t : State} (h : execEncode p vol s = .next t) : StoresOrFails s t := by
  unfold execEncode at h
  split at h
  · exact storesOrFails_error (by decide) h
  · split at h
    · exact storesOrFails_error (by decide) h
    · exact storesOrFails_of_checks (by simp) (fun _ _ => encodeBytes_error_ne_ok) h

theorem execSpectrum_next {s t : State} (h : execSpectrum s = .next t) : StoresOrFails s t := by
  unfold execSpectrum at h
  split at h
  · exact storesOrFails_error (by decide) h
  · exact storesOrFails_of_checks (by simp) (by simp) h

/-- The six commands with an output buffer, at once. -/
theorem exec_output_next {i : Instr} {s t : State} (hi : usesOutput i = true) (h : exec i s = .next t) : StoresOrFails s t := by
  cases i with
  | frameBuild p => exact execFrameBuild_next h
  | frameRecover p => exact execFrameRecover_next h
  | symbolMap p => exact execSymbolMap_next h
  | render p v => exact execRender_next h
  | encode p v => exact execEncode_next h
  | spectrum => exact execSpectrum_next h
  | nop => cases hi
  | config => cases hi
  | deconfig => cases hi
  | profileQuery p => cases hi
  | feed b => cases hi
  | decoderReset => cases hi

/-- The state FEED leaves after its loop took `k` samples and left `u`. -/
def fedState (k : Nat) (u : State) : State :=
  finish (feedCode u.dec.phase) { u with rx := { u.rx with consumed := BitVec.ofNat 32 k }, resultLen := 0 }

/-- FEED ends with a check of R322 and nothing else changed, or with its loop's state and the code of the phase. -/
theorem execFeed_next {stop : Bool} {s t : State} (h : execFeed stop s = .next t) :
    (∃ c, (c = .notConfigured ∨ c = .addressError) ∧ t = finish c s) ∨
      ∃ k u, feedLoop stop (inputSamples s) 0 s = some (k, u) ∧ t = fedState k u := by
  unfold execFeed at h
  split at h
  · exact .inl ⟨_, .inl rfl, eq_finish_of_complete h⟩
  · dsimp only at h
    split at h
    next c hc =>
      have := mem_of_firstError hc
      simp only [List.mem_cons, Prod.mk.injEq, List.not_mem_nil, or_false] at this
      exact .inl ⟨c, .inr (by tauto), eq_finish_of_complete h⟩
    · split at h
      · cases h
      next k u hl => exact .inr ⟨k, u, hl, eq_finish_of_complete h⟩

theorem execNop_eq (s : State) : execNop s = .next (finish .ok { s with resultLen := 0 }) := rfl

theorem execConfig_eq (s : State) : execConfig s =
    if s.latch.par.valid = true then
      .next (finish .ok (freshInstance { s with cfg := s.latch.par, configured := true, resultLen := 0 }))
    else .next (finish .invalidParameters s) := by
  unfold execConfig complete; rfl

theorem execDeconfig_eq (s : State) : execDeconfig s =
    .next (finish .ok (freshInstance { s with cfg := Params.zero, configured := false, resultLen := 0 })) := rfl

theorem execProfileQuery_eq (p : Nat) (s : State) : execProfileQuery p s =
    if h : p < 12 then .next (finish .ok { s with prof := profRegsOf p (profile ⟨p, h⟩), resultLen := 0 })
    else .next (finish .unsupportedProtocol s) := by
  unfold execProfileQuery complete profile?
  by_cases h : p < 12 <;> simp [h]

theorem execDecoderReset_eq (s : State) : execDecoderReset s =
    if s.configured = true then .next (finish .ok { s with dec := s.dec.decoderReset, resultLen := 0 })
    else .next (finish .notConfigured s) := by
  unfold execDecoderReset complete
  cases s.configured <;> rfl

/-- A finished command is no longer busy, and the host's side of the state is as before (R87, R331). -/
theorem exec_hostSide {i : Instr} {s t : State} (h : exec i s = .next t) : SameHostSide s t ∧ t.busy = false := by
  have stores : ∀ {t}, StoresOrFails s t → SameHostSide s t ∧ t.busy = false := by
    rintro t (⟨c, -, rfl⟩ | ⟨out, -, rfl⟩)
    · exact ⟨finish_sameHostSide c s, rfl⟩
    · exact ⟨storedOutput_sameHostSide out s, rfl⟩
  by_cases hi : usesOutput i = true
  · exact stores (exec_output_next hi h)
  · cases i with
    | nop => cases (execNop_eq s).symm.trans h; exact ⟨by constructor <;> rfl, rfl⟩
    | config =>
      have h' := (execConfig_eq s).symm.trans h
      split at h' <;> cases h' <;> exact ⟨by constructor <;> rfl, rfl⟩
    | deconfig => cases (execDeconfig_eq s).symm.trans h; exact ⟨by constructor <;> rfl, rfl⟩
    | profileQuery p =>
      have h' := (execProfileQuery_eq p s).symm.trans h
      split at h' <;> cases h' <;> exact ⟨by constructor <;> rfl, rfl⟩
    | decoderReset =>
      have h' := (execDecoderReset_eq s).symm.trans h
      split at h' <;> cases h' <;> exact ⟨by constructor <;> rfl, rfl⟩
    | feed stop =>
      obtain ⟨c, -, rfl⟩ | ⟨k, u, hl, rfl⟩ := execFeed_next (show execFeed stop s = .next t from h)
      · exact ⟨finish_sameHostSide c s, rfl⟩
      · have hm := (feedLoop_moved hl).1.others
        rw [hm]
        exact ⟨by constructor <;> rfl, rfl⟩
    | frameBuild p => exact absurd rfl hi
    | frameRecover p => exact absurd rfl hi
    | symbolMap p => exact absurd rfl hi
    | render p v => exact absurd rfl hi
    | encode p v => exact absurd rfl hi
    | spectrum => exact absurd rfl hi

end Sys2Proof.Machine
end

