-- ==== Sys2Proof/Laws/Framer.lean ====
section
/-! SUPPORT. The framer's functions: lengths, and when a frame is built or recovered at all (R154, R162 to R168). -/

namespace Sys2Proof.Machine

/-! ## Parity -/

theorem polyTimesRoot_length (p : List Byte) (r : Byte) : (polyTimesRoot p r).length = p.length + 1 := by
  simp [polyTimesRoot]

@[simp] theorem rsGenerator_length (e : Nat) : (rsGenerator e).length = e + 1 := by
  induction e with
  | zero => rfl
  | succ e ih => rw [rsGenerator, polyTimesRoot_length, ih]

theorem rsShift_length {e : Nat} {r : List Byte} (h : r.length = e) (d : Byte) :
    (rsShift (rsGenerator e) r d).length = e := by
  simp [rsShift]; omega

theorem foldl_rsShift_length {e : Nat} (d r : List Byte) (h : r.length = e) :
    (d.foldl (rsShift (rsGenerator e)) r).length = e := by
  induction d generalizing r with
  | nil => exact h
  | cons x d ih => exact ih _ (rsShift_length h x)

@[simp] theorem rsParity_length (d : List Byte) (e : Nat) : (rsParity d e).length = e :=
  foldl_rsShift_length d _ (by simp)

@[simp] theorem rsEncode_length (d : List Byte) (e : Nat) : (rsEncode d e).length = d.length + e := by simp [rsEncode]

theorem rsDecode_eq_some {w c : List Byte} {k e : Nat} (h : rsDecode w k e = some c) :
    w.length = k + e ∧ isCodeword c e = true ∧ hamming w c ≤ e / 2 ∧ rsCandidate w e = some c := by
  unfold rsDecode at h
  split at h
  next hl =>
    split at h
    next d hd =>
      split at h
      next hc =>
        simp only [Option.some.injEq] at h
        subst h
        simp only [Bool.and_eq_true, decide_eq_true_eq] at hc
        exact ⟨hl, hc.1, hc.2, hd⟩
      · cases h
    · cases h
  · cases h

@[simp] theorem correctAt_length (w s : List Byte) (ps : List Nat) : (correctAt w s ps).length = w.length := by
  simp [correctAt]

/-- A decoded word is as long as the received one. -/
theorem rsDecode_length {w c : List Byte} {k e : Nat} (h : rsDecode w k e = some c) : c.length = k + e := by
  obtain ⟨hl, -, -, hc⟩ := rsDecode_eq_some h
  simp only [rsCandidate, Option.map_eq_some_iff] at hc
  obtain ⟨sigma, -, rfl⟩ := hc
  rw [correctAt_length, hl]

/-! ## Spread spectrum -/

@[simp] theorem pnFrom_length (n : Nat) (s : BitVec 16) : (pnFrom n s).length = n := by
  induction n generalizing s with
  | zero => rfl
  | succ n ih => simp [pnFrom, ih]

@[simp] theorem pn_length (n : Nat) : (pn n).length = n := pnFrom_length n _

@[simp] theorem whiten_length (c : List Byte) : (whiten c).length = c.length := by simp [whiten]

@[simp] theorem triple_length (f : List Byte) : (triple f).length = 3 * f.length := by
  simp [triple, Config.spread]; omega

@[simp] theorem spread_length (f : List Byte) : (spread f).length = 3 * f.length := by simp [spread]

/-- The majorities of a list of whole triples. -/
theorem majorities_length (c : List Byte) : (majorities c).length = c.length / 3 := by
  induction c using majorities.induct with
  | case1 a b c rest ih => simp only [majorities, List.length_cons, ih]; omega
  | case2 l h =>
    match l, h with
    | [], _ => rfl
    | [a], _ => simp [majorities]
    | [a, b], _ => simp [majorities]
    | a :: b :: c :: rest, h => exact absurd rfl (h a b c rest)

@[simp] theorem despread_length (c : List Byte) : (despread c).length = c.length / 3 := by
  simp [despread, majorities_length]

/-! ## Frames -/

@[simp] theorem crcBytes_length (c : BitVec 16) : (crcBytes c).length = 2 := rfl

theorem frameBody_length (data : List Byte) :
    (frameBody data).length = data.length + 2 + ecc (data.length + 2) := by simp [frameBody]

/-- A frame is built exactly when the payload passes the length check (R164). -/
theorem frameBuild_eq_ok {c : Params} {q : Profile} {p f : List Byte} : frameBuild c q p = .ok f ↔
    payloadTooLarge c q p.length = false ∧
      f = (if c.dss = true then spread (frameHeader c p.length ++ frameBody (paddedPayload c p))
        else frameHeader c p.length ++ frameBody (paddedPayload c p)) := by
  unfold frameBuild
  split
  next h => simp [h]
  next h => simp only [Except.ok.injEq, h, true_and]; exact eq_comm

/-- The data part of an accepted payload (R159). -/
theorem paddedPayload_length {c : Params} {q : Profile} {p : List Byte} (h : payloadTooLarge c q p.length = false) :
    (paddedPayload c p).length = if c.fixedLen = 0 then p.length else c.fixedLen := by
  unfold paddedPayload
  unfold payloadTooLarge at h
  split
  · rfl
  next h0 =>
    simp only [h0, if_false, Bool.or_eq_false_iff, decide_eq_false_iff_not] at h
    simp only [List.length_append, List.length_replicate]; omega

/-- Before spreading, a frame has `H + k + Ecc(k)` bytes (R165). -/
theorem frameUnspread_length {c : Params} {q : Profile} {p : List Byte} (h : payloadTooLarge c q p.length = false) :
    (frameHeader c p.length ++ frameBody (paddedPayload c p)).length =
      headerBytes c + bodyData c p.length + ecc (bodyData c p.length) := by
  have hh : (frameHeader c p.length).length = headerBytes c := by
    unfold frameHeader headerBytes
    split <;> simp
  have hb : (paddedPayload c p).length + 2 = bodyData c p.length := by
    rw [paddedPayload_length h]; rfl
  rw [List.length_append, frameBody_length, hh, hb]; omega

/-- A frame is `FrameChips(n)` chips long (R165). -/
theorem frameBuild_length {c : Params} {q : Profile} {p f : List Byte} (h : frameBuild c q p = .ok f) :
    f.length = frameChips c p.length := by
  obtain ⟨hp, rfl⟩ := frameBuild_eq_ok.1 h
  have := frameUnspread_length hp
  unfold frameChips chipsPerByte
  split
  · rw [spread_length, this, Config.spread]; omega
  · rw [this]; omega

/-- What a recovered frame's length says (R168). -/
theorem recoverLength_eq_some {c : Params} {q : Profile} {b : List Byte} {l off : Nat}
    (h : recoverLength c q b = some (l, off)) : l ≤ q.maxPayload ∧ off ≤ 3 ∧ (0 < c.fixedLen → l = c.fixedLen) := by
  unfold recoverLength at h
  split at h
  next h0 =>
    split at h
    · cases h
    · split at h
      · cases h
      · split at h
        · cases h
        next hle =>
          simp only [Option.some.injEq, Prod.mk.injEq] at h
          obtain ⟨rfl, rfl⟩ := h
          exact ⟨by omega, by omega, by omega⟩
  next h0 =>
    split at h
    · cases h
    next hle =>
      simp only [Option.some.injEq, Prod.mk.injEq] at h
      obtain ⟨rfl, rfl⟩ := h
      exact ⟨by omega, by omega, fun _ => rfl⟩

theorem recoverBody_length {b r : List Byte} {l off : Nat} (h : recoverBody b l off = some r) : r.length = l := by
  unfold recoverBody at h
  dsimp only at h
  split at h
  · cases h
  · split at h
    · cases h
    next w hw =>
      split at h
      · simp only [Option.some.injEq] at h
        subst h
        have := rsDecode_length hw
        simp; omega
      · cases h

/-- A recovered payload is no longer than the profile's maximum (R168). -/
theorem recoverFrame_length {c : Params} {q : Profile} {chips r : List Byte} (h : recoverFrame c q chips = some r) :
    r.length ≤ q.maxPayload := by
  unfold recoverFrame at h
  split at h
  · cases h
  · split at h
    · cases h
    · dsimp only at h
      split at h
      · cases h
      next l off hl => rw [recoverBody_length h]; exact (recoverLength_eq_some hl).1

/-- `FrameChips` is bounded for every payload a valid configuration accepts (R166). -/
theorem frameChips_le {c : Params} (hc : c.valid = true) {n : Nat} (hn : n ≤ 140) :
    7 ≤ frameChips c n + 3 * (if c.fixedLen = 0 then 0 else 1) ∧ frameChips c n ≤ 603 := by
  have hf : c.fixedLen ≤ 64 := by
    simp only [Params.valid, Bool.and_eq_true, decide_eq_true_eq] at hc
    exact hc.1.2
  have hx : chipsPerByte c ≤ 3 ∧ 1 ≤ chipsPerByte c := by
    unfold chipsPerByte; split <;> simp [Config.spread]
  have hk : 2 ≤ bodyData c n ∧ bodyData c n ≤ 142 := by unfold bodyData; split <;> omega
  have he : 2 ≤ ecc (bodyData c n) ∧ ecc (bodyData c n) ≤ 56 := by
    unfold ecc; split
    · omega
    · constructor
      · exact le_trans (by omega) (le_max_left _ _)
      · apply max_le <;> omega
  have hh : headerBytes c = if c.fixedLen = 0 then 3 else 0 := rfl
  unfold frameChips
  constructor
  · split at hh <;> simp_all <;> nlinarith [hx.2]
  · have : headerBytes c + bodyData c n + ecc (bodyData c n) ≤ 201 := by rw [hh]; split <;> omega
    calc _ ≤ 201 * 3 := Nat.mul_le_mul this hx.1
      _ = 603 := by norm_num

end Sys2Proof.Machine
end

