-- ==== Sys2Proof/Laws/Synth.lean ====
section
/-! SUPPORT. The synthesizer's lengths (R202, R203, R207, R208) and the sine ROM's bound (R200). -/

namespace Sys2Proof.Machine

theorem profile_tones (p : Fin 12) : (profile p).tones = 1 ∨ (profile p).tones = 2 := (profile_bounds p).2.1

/-- A list of pieces of one length. -/
theorem length_flatMap_const {α β : Type} {k : Nat} (xs : List α) (f : α → List β) (h : ∀ x ∈ xs, (f x).length = k) :
    (xs.flatMap f).length = xs.length * k := by
  induction xs with
  | nil => simp
  | cons x xs ih =>
    rw [List.flatMap_cons, List.length_append, h x (by simp), ih fun y hy => h y (by simp [hy]), List.length_cons]
    ring

/-- Element `k * i + j` of such a list is element `j` of piece `i`. -/
theorem getElem?_flatMap_const {α β : Type} {k : Nat} (xs : List α) (f : α → List β) (h : ∀ x ∈ xs, (f x).length = k)
    {i j : Nat} (hj : j < k) : (xs.flatMap f)[k * i + j]? = xs[i]?.bind fun x => (f x)[j]? := by
  induction xs generalizing i with
  | nil => simp
  | cons x xs ih =>
    rw [List.flatMap_cons]
    have hx := h x (by simp)
    cases i with
    | zero => rw [Nat.mul_zero, Nat.zero_add, List.getElem?_append_left (by omega)]; simp
    | succ i =>
      rw [List.getElem?_append_right (by rw [hx, Nat.mul_succ]; omega), hx, List.getElem?_cons_succ,
        ← ih fun y hy => h y (by simp [hy])]
      congr 1
      rw [Nat.mul_succ]; omega

theorem symbolMap_length (p : Fin 12) (chips : List Byte) :
    (symbolMap (profile p) chips).length = symbolCount (profile p) chips.length := by
  rcases profile_tones p with h | h
  · rw [symbolMap, length_flatMap_const (k := 2) chips _ (fun x _ => by simp [chipSymbols, h]), symbolCount, h,
      Nat.div_one]
  · rw [symbolMap, length_flatMap_const (k := 1) chips _ (fun x _ => by simp [chipSymbols, h]), symbolCount, h]
    omega

theorem schedule_length (q : Profile) (sy : List Byte) :
    (schedule q sy).length = 2 * Config.markerWindows + sy.length * q.windows := by
  simp only [schedule, List.length_append, List.length_replicate, Config.markerWindows]
  rw [length_flatMap_const (k := q.windows) sy _ (by simp)]
  omega

@[simp] theorem windowSamples_length (vol : Nat) (bins : List Nat) : (windowSamples vol bins).length = 1024 := by
  simp [windowSamples]

/-- A waveform's length (R208). -/
theorem renderSamples_length (q : Profile) (vol : Nat) (sy : List Byte) :
    (renderSamples q vol sy).length = waveSamples q sy.length := by
  rw [renderSamples, length_flatMap_const (k := 1024) _ _ (by simp), schedule_length, waveSamples]
  ring

@[simp] theorem encodeSample_length (c : Params) (x : Sample) : (c.encodeSample x).length = c.sampleBytes := by
  unfold Params.encodeSample Params.sampleBytes
  split <;> simp

theorem renderBytes_length (c : Params) (q : Profile) (vol : Nat) (sy : List Byte) :
    (renderBytes c q vol sy).length = waveSamples q sy.length * c.sampleBytes := by
  rw [renderBytes, sampleBuffer, length_flatMap_const (k := c.sampleBytes) _ _ (by simp), renderSamples_length]

/-- The bytes of an accepted payload's waveform (R211). -/
theorem encodeBytes_eq_ok {c : Params} {p : Fin 12} {vol : Nat} {payload out : List Byte}
    (h : encodeBytes c (profile p) vol payload = .ok out) : ∃ chips, frameBuild c (profile p) payload = .ok chips ∧
      out = renderBytes c (profile p) vol (symbolMap (profile p) chips) ∧
      out.length = waveSamples (profile p) (symbolCount (profile p) (frameChips c payload.length)) * c.sampleBytes := by
  unfold encodeBytes at h
  split at h
  · cases h
  next chips hb =>
    simp only [Except.ok.injEq] at h
    refine ⟨chips, hb, h.symm, ?_⟩
    rw [← h, renderBytes_length, symbolMap_length, frameBuild_length hb]

theorem sineQuarter_le : ∀ k < 257, sineQuarter.getD k 0 ≤ 32767 := by decide +kernel

/-- No entry of the sine ROM is larger than its amplitude. -/
theorem sineRom_abs_le (i : Nat) : |sineRom i| ≤ 32767 := by
  have q : ∀ k, sineQuarter.getD k 0 ≤ 32767 := fun k => by
    by_cases h : k < 257
    · exact sineQuarter_le k h
    · have : sineQuarter.size ≤ k := by
        have : sineQuarter.size = 257 := by decide +kernel
        omega
      simp [this]
  have hh : ∀ k, sineHalf k ≤ 32767 := fun k => by unfold sineHalf; split <;> exact q _
  unfold sineRom
  have h1 := hh i
  have h2 := hh (i - 512)
  split
  · rw [abs_of_nonneg (by omega)]; omega
  · rw [abs_neg, abs_of_nonneg (by omega)]; omega

end Sys2Proof.Machine
end

