-- ==== Sys2Proof/Laws/Checks.lean ====
section
/-! SUPPORT. Where none of the checks of R322 applies: what each command then does. -/

namespace Sys2Proof.Machine

theorem inSpace_iff (r : Range) : r.inSpace = false ↔ 0 < r.len ∧ 2 ^ 32 < r.base + r.len := by
  simp [Range.inSpace, Config.addrSpace]

/-- The range checks of a command with two buffers (R82). -/
theorem rangesBad_iff (s : State) : rangesBad s = true ↔
    (0 < s.srcLen ∧ 2 ^ 32 < s.src + s.srcLen) ∨ (0 < s.dstCap ∧ 2 ^ 32 < s.dst + s.dstCap) := by
  simp only [rangesBad, Bool.not_eq_true', Bool.and_eq_false_iff, inSpace_iff]
  exact Iff.rfl

theorem aligned_iff (a n : Nat) : aligned a n = (a % n == 0) := rfl

/-- The conditions of R322 that hold when none of its checks applies to a command with two buffers. -/
structure Unchecked (i : Instr) (s : State) : Prop where
  configured : s.configured = true
  input : s.srcLen = 0 ∨ s.src + s.srcLen ≤ 2 ^ 32
  output : s.dstCap = 0 ∨ s.dst + s.dstCap ≤ 2 ^ 32
  aligned : misaligned i s = false
  size : inputSizeError i s = none
  fits : outputSize i s ≤ s.dstCap

theorem unchecked_of_none {i : Instr} {s : State} (hi : usesInput i = true) (ho : usesOutput i = true)
    (h : firstFailure i s = none) : Unchecked i s := by
  have hop : 0x10 ≤ i.op := by cases i <;> simp [usesInput] at hi <;> simp [Instr.op]
  have hc : i ≠ .config := by rintro rfl; simp [usesInput] at hi
  unfold firstFailure at h
  split at h
  · cases h
  next h1 =>
    split at h
    · cases h
    · split at h
      · cases h
      · split at h
        · cases h
        · split at h
          · cases h
          next h5 =>
            split at h
            · cases h
            next h6 =>
              split at h
              · cases h
              next h7 =>
                split at h
                · cases h
                next h8 =>
                  simp only [outOfSpace, hi, ho, Bool.true_and, Bool.or_eq_true, Bool.and_eq_true, decide_eq_true_eq, not_or,
                    not_and, not_lt] at h6
                  refine ⟨?_, ?_, ?_, by simpa using h5, h7, by omega⟩
                  · by_contra hcf; exact h1 ⟨hop, by simpa using hcf⟩
                  · omega
                  · omega

theorem Unchecked.ranges {i : Instr} {s : State} (h : Unchecked i s) : rangesBad s = false := by
  rw [Bool.eq_false_iff]
  intro hb
  rcases (rangesBad_iff s).1 hb with ⟨h1, h2⟩ | ⟨h1, h2⟩
  · have := h.input; omega
  · have := h.output; omega

/-- A command with a PROTO field whose checks do not apply names a profile. -/
theorem proto_of_none {i : Instr} {s : State} (hp : usesProto i = true) (h : firstFailure i s = none) : i.proto < 12 := by
  by_contra hn
  unfold firstFailure at h
  split at h
  · cases h
  · rw [if_pos ⟨hp, by omega⟩] at h; cases h

theorem volume_of_none {i : Instr} {s : State} (hp : usesVolume i = true) (h : firstFailure i s = none) : i.volume ≤ 100 := by
  by_contra hn
  unfold firstFailure at h
  split at h
  · cases h
  · split at h
    · cases h
    · rw [if_pos ⟨hp, by omega⟩] at h; cases h

theorem payloadTooLarge_eq (c : Params) (p : Fin 12) (n : Nat) : payloadTooLarge c (profile p) n = overPayload c n := by
  unfold payloadTooLarge overPayload Params.fixedLen
  rw [(profile_bounds p).1]

theorem execFrameBuild_of_none {p : Nat} {s : State} (h : firstFailure (.frameBuild p) s = none) :
    ∃ hp : p < 12, exec (.frameBuild p) s = transfer s.srcLen (frameBuild s.cfg (profile ⟨p, hp⟩)) s ∧
      payloadTooLarge s.cfg (profile ⟨p, hp⟩) s.srcLen = false := by
  have hp : p < 12 := proto_of_none rfl h
  have u := unchecked_of_none rfl rfl h
  have hsz : payloadTooLarge s.cfg (profile ⟨p, hp⟩) s.srcLen = false := by
    rw [payloadTooLarge_eq]; have := u.size; simpa [inputSizeError] using this
  have hfit : ¬ s.dstCap < frameChips s.cfg s.srcLen := by have := u.fits; simp [outputSize] at this; omega
  refine ⟨hp, ?_, hsz⟩
  show execFrameBuild p s = _
  unfold execFrameBuild
  simp [u.configured, profile?, hp, firstError, u.ranges, hsz, hfit]

theorem execFrameRecover_of_none {p : Nat} {s : State} (h : firstFailure (.frameRecover p) s = none) :
    ∃ hp : p < 12, exec (.frameRecover p) s = transfer s.srcLen (recoverInto s.cfg (profile ⟨p, hp⟩) s.dstCap) s ∧
      s.srcLen ≤ 603 := by
  have hp : p < 12 := proto_of_none rfl h
  have u := unchecked_of_none rfl rfl h
  have hsz : s.srcLen ≤ 603 := by have := u.size; simpa [inputSizeError] using this
  refine ⟨hp, ?_, hsz⟩
  show execFrameRecover p s = _
  unfold execFrameRecover
  have : ¬ Config.maxFrameChips < s.srcLen := by simpa [Config.maxFrameChips] using hsz
  simp [u.configured, profile?, hp, firstError, u.ranges, this]

theorem execSymbolMap_of_none {p : Nat} {s : State} (h : firstFailure (.symbolMap p) s = none) :
    ∃ hp : p < 12,
      exec (.symbolMap p) s = transfer s.srcLen (fun chips => .ok (symbolMap (profile ⟨p, hp⟩) chips)) s ∧
      symbolCount (profile ⟨p, hp⟩) s.srcLen ≤ s.dstCap := by
  have hp : p < 12 := proto_of_none rfl h
  have u := unchecked_of_none rfl rfl h
  have hsz : s.srcLen ≤ 603 := by have := u.size; simpa [inputSizeError] using this
  have hfit : symbolCount (profile ⟨p, hp⟩) s.srcLen ≤ s.dstCap := by
    have := u.fits; simpa [outputSize, profile?, hp, symbolCount] using this
  refine ⟨hp, ?_, hfit⟩
  show execSymbolMap p s = _
  unfold execSymbolMap
  have h6 : ¬ Config.maxFrameChips < s.srcLen := by simpa [Config.maxFrameChips] using hsz
  have h7 : ¬ s.dstCap < symbolCount (profile ⟨p, hp⟩) s.srcLen := by omega
  simp [u.configured, profile?, hp, firstError, u.ranges, h6, h7]

theorem execRender_of_none {p vol : Nat} {s : State} (h : firstFailure (.render p vol) s = none) :
    ∃ hp : p < 12,
      exec (.render p vol) s = transfer s.srcLen (fun sy => .ok (renderBytes s.cfg (profile ⟨p, hp⟩) vol sy)) s ∧
      waveSamples (profile ⟨p, hp⟩) s.srcLen * s.cfg.sampleBytes ≤ s.dstCap ∧ vol ≤ 100 := by
  have hp : p < 12 := proto_of_none rfl h
  have hv : vol ≤ 100 := volume_of_none rfl h
  have u := unchecked_of_none rfl rfl h
  have hsz : s.srcLen ≤ 1206 := by have := u.size; simpa [inputSizeError] using this
  have hfit : waveSamples (profile ⟨p, hp⟩) s.srcLen * s.cfg.sampleBytes ≤ s.dstCap := by
    have := u.fits; simpa [outputSize, profile?, hp, waveSamples, Config.markerWindows] using this
  have hal : aligned s.dst s.cfg.sampleBytes = true := by have := u.aligned; simpa [misaligned, aligned] using this
  refine ⟨hp, ?_, hfit, hv⟩
  show execRender p vol s = _
  unfold execRender
  have h4 : ¬ 100 < vol := by omega
  have h6 : ¬ 2 * Config.maxFrameChips < s.srcLen := by simpa [Config.maxFrameChips] using hsz
  have h7 : ¬ s.dstCap < waveSamples (profile ⟨p, hp⟩) s.srcLen * s.cfg.sampleBytes := by omega
  simp [u.configured, profile?, hp, firstError, u.ranges, hal, h4, h6, h7]

theorem execEncode_of_none {p vol : Nat} {s : State} (h : firstFailure (.encode p vol) s = none) :
    ∃ hp : p < 12, exec (.encode p vol) s = transfer s.srcLen (encodeBytes s.cfg (profile ⟨p, hp⟩) vol) s ∧
      payloadTooLarge s.cfg (profile ⟨p, hp⟩) s.srcLen = false ∧
      waveSamples (profile ⟨p, hp⟩) (symbolCount (profile ⟨p, hp⟩) (frameChips s.cfg s.srcLen)) * s.cfg.sampleBytes
        ≤ s.dstCap ∧ vol ≤ 100 := by
  have hp : p < 12 := proto_of_none rfl h
  have hv : vol ≤ 100 := volume_of_none rfl h
  have u := unchecked_of_none rfl rfl h
  have hsz : payloadTooLarge s.cfg (profile ⟨p, hp⟩) s.srcLen = false := by
    rw [payloadTooLarge_eq]; have := u.size; simpa [inputSizeError] using this
  have hfit : waveSamples (profile ⟨p, hp⟩) (symbolCount (profile ⟨p, hp⟩) (frameChips s.cfg s.srcLen))
      * s.cfg.sampleBytes ≤ s.dstCap := by
    have := u.fits; simpa [outputSize, profile?, hp, waveSamples, symbolCount, Config.markerWindows] using this
  have hal : aligned s.dst s.cfg.sampleBytes = true := by have := u.aligned; simpa [misaligned, aligned] using this
  refine ⟨hp, ?_, hsz, hfit, hv⟩
  show execEncode p vol s = _
  unfold execEncode
  have h4 : ¬ 100 < vol := by omega
  have h7 : ¬ s.dstCap < waveSamples (profile ⟨p, hp⟩) (symbolCount (profile ⟨p, hp⟩) (frameChips s.cfg s.srcLen))
      * s.cfg.sampleBytes := by omega
  simp [u.configured, profile?, hp, firstError, u.ranges, hal, h4, hsz, h7]

theorem execSpectrum_of_none {s : State} (h : firstFailure .spectrum s = none) :
    exec .spectrum s =
        transfer (1024 * s.cfg.sampleBytes) (fun bytes => .ok (spectrumBytes (samplesOf s.cfg 1024 bytes))) s ∧
      1024 * s.cfg.sampleBytes ≤ s.srcLen ∧ 4104 ≤ s.dstCap := by
  have u := unchecked_of_none rfl rfl h
  have hsz : 1024 * s.cfg.sampleBytes ≤ s.srcLen := by have := u.size; simpa [inputSizeError] using this
  have hfit : 4104 ≤ s.dstCap := by have := u.fits; simpa [outputSize] using this
  have hal := u.aligned
  simp only [misaligned, Bool.or_eq_false_iff, bne_eq_false_iff_eq] at hal
  refine ⟨?_, hsz, hfit⟩
  show execSpectrum s = _
  unfold execSpectrum
  have h6 : ¬ s.srcLen < 1024 * s.cfg.sampleBytes := by omega
  have h7 : ¬ s.dstCap < 513 * 8 := by omega
  simp [u.configured, firstError, u.ranges, aligned, hal, h6, h7]

/-- FEED where no check of R322 applies. -/
theorem execFeed_of_none {stop : Bool} {s : State} (h : firstFailure (.feed stop) s = none) :
    s.configured = true ∧ s.src % s.cfg.sampleBytes = 0 ∧ s.srcLen % s.cfg.sampleBytes = 0 ∧
      (s.srcLen = 0 ∨ s.src + s.srcLen ≤ 2 ^ 32) ∧
      exec (.feed stop) s = match feedLoop stop (inputSamples s) 0 s with
        | none => .fault .busError
        | some (k, u) => .next (fedState k u) := by
  have hcf : s.configured = true := by
    by_contra hn
    have : s.configured = false := by simpa using hn
    simp [firstFailure, Instr.op, this] at h
  have hmis : misaligned (.feed stop) s = false := by
    by_contra hn
    have : misaligned (.feed stop) s = true := by simpa using hn
    simp [firstFailure, hcf, usesProto, usesVolume, this] at h
  have hout : outOfSpace (.feed stop) s = false := by
    by_contra hn
    have : outOfSpace (.feed stop) s = true := by simpa using hn
    simp [firstFailure, hcf, usesProto, usesVolume, hmis, this] at h
  simp only [misaligned, Bool.or_eq_false_iff, bne_eq_false_iff_eq] at hmis
  have hin : s.inputRange.inSpace = true := by
    rw [← Bool.not_eq_false, inSpace_iff]
    rintro ⟨h1, h2⟩
    have h1 : 0 < s.srcLen := h1
    have h2 : 2 ^ 32 < s.src + s.srcLen := h2
    simp [outOfSpace, usesInput, usesOutput] at hout
    omega
  refine ⟨hcf, hmis.1, hmis.2, ?_, ?_⟩
  · simp [outOfSpace, usesInput, usesOutput] at hout; omega
  · show execFeed stop s = _
    unfold execFeed
    simp only [hcf, Bool.not_true, Bool.false_eq_true, if_false, aligned, hmis, beq_self_eq_true, Bool.and_true, hin, firstError]
    rfl

end Sys2Proof.Machine
end

