-- ==== Sys2Proof/Laws/Host.lean ====
section
/-! SUPPORT. One step of the system taken apart (R331, R332), and what a step of the host's can change at all (R72, R330), the host's
loads and stores (R90). -/

namespace Sys2Proof.Machine

/-- What an action of the host or of another block leaves: the instance, the completion code, the result length, the PROF
registers, the platform, and the form of host memory. -/
structure HostMoved (s t : State) : Prop where
  configured : t.configured = s.configured
  cfg : t.cfg = s.cfg
  dec : t.dec = s.dec
  rx : t.rx = s.rx
  prof : t.prof = s.prof
  err : t.err = s.err
  resultLen : t.resultLen = s.resultLen
  plat : t.plat = s.plat
  mem : s.mem.wf = true → t.mem.wf = true

theorem HostMoved.refl (s : State) : HostMoved s s := ⟨rfl, rfl, rfl, rfl, rfl, rfl, rfl, rfl, id⟩

/-- The sequencer's turn: nothing, an illegal word's completion, or a command's execution. -/
theorem sequencerTurn_next {s t : State} (h : sequencerTurn s = .next t) :
    (s.busy = false ∧ t = s) ∨
      (s.busy = true ∧ ((∃ i, decode s.latch.cmd = .ok i ∧ exec i s = .next t) ∨
        ((∃ e, decode s.latch.cmd = .error e) ∧ t = finish .illegalCommand s))) := by
  unfold sequencerTurn at h
  split at h
  next hb =>
    refine .inr ⟨hb, ?_⟩
    unfold sequencerStep at h
    split at h
    next i hi => exact .inl ⟨i, hi, h⟩
    next e he => exact .inr ⟨⟨e, he⟩, eq_finish_of_complete h⟩
  next hb =>
    simp only [Host.Outcome.next.injEq] at h
    exact .inl ⟨by simpa using hb, h.symm⟩

/-- A step is the first action of the agenda, or the sequencer's turn. -/
theorem step_next {s t : State} (h : step s = .next t) :
    (s.agenda = [] ∧ sequencerTurn s = .next t) ∨
      ∃ a rest, s.agenda = a :: rest ∧ actionStep a { s with agenda := rest } = .next t := by
  unfold step nextStep at h
  split at h
  next h0 => exact .inl ⟨h0, h⟩
  next a rest h0 => exact .inr ⟨a, rest, h0, h⟩

/-- Each register is found at its offset, and nothing at an offset of none (R25). -/
theorem regAt_offset : ∀ r ∈ allRegs, regAt r.offset = some r := by decide +kernel

theorem offset_of_regAt {off : Nat} {r : Reg} (h : regAt off = some r) : r.offset = off := by
  unfold regAt at h
  simpa using List.find?_some h

theorem regAt_eq_none {off : Nat} (h : off ∉ allRegs.map Reg.offset) : regAt off = none := by
  unfold regAt
  rw [List.find?_eq_none]
  intro r hr he
  simp only [beq_iff_eq] at he
  exact h (List.mem_map.2 ⟨r, hr, he⟩)

/-- An aligned 32-bit access in the window (R71). -/
theorem windowOffset?_aligned (s : State) {off : Nat} (h : off < 512) (h4 : off % 4 = 0) :
    windowOffset? s (s.plat.mmioBase + off) 4 = some off := by
  unfold windowOffset?
  rw [if_pos]
  · simp
  · simp [Config.windowBytes, h, h4]

/-- What an aligned host read in the window does: it changes the host's side only (R71, R72, R90). -/
theorem mmioRead_aligned (s : State) {off : Nat} (h : off < 512) (h4 : off % 4 = 0) :
    mmioRead (s.plat.mmioBase + off) 4 s = .next { s with
        observed := .word (windowRead s off) :: s.observed
        heldIn := if off = 0x00C ∧ s.busy = false then [] else s.heldIn
        heldOut := if off = 0x00C ∧ s.busy = false then [] else s.heldOut } := by
  have ho : regAt off = some .status ↔ off = 0x00C := by
    constructor
    · intro h; exact (offset_of_regAt h).symm
    · rintro rfl; decide +kernel
  simp only [mmioRead, windowOffset?_aligned s h h4, hostReads, ho]
  split <;> simp_all

theorem hostReads_moved (off : Nat) (s : State) : HostMoved s (hostReads off s) := by
  unfold hostReads
  split <;> exact ⟨rfl, rfl, rfl, rfl, rfl, rfl, rfl, rfl, id⟩

/-- What a write to CMD can do (R330). -/
theorem writeCmd_next {v : Word} {s t : State} (h : writeCmd v s = .next t) :
    (s.busy = true ∧ t = { s with intStatus := s.intStatus ||| intCmdDropped }) ∨
      (s.busy = false ∧ t = issue v s) := by
  unfold writeCmd at h
  split at h
  next hb => exact .inl ⟨hb, by simpa [eq_comm] using h⟩
  next hb =>
    split at h
    · cases h
    · exact .inr ⟨by simpa using hb, by simpa [eq_comm] using h⟩

theorem regWrite_moved {v : Word} {s t : State} {r : Reg} (h : regWrite v s r = .next t) : HostMoved s t := by
  cases r with
  | cmd =>
    obtain ⟨-, rfl⟩ | ⟨-, rfl⟩ := writeCmd_next (v := v) (s := s) h
    · exact ⟨rfl, rfl, rfl, rfl, rfl, rfl, rfl, rfl, id⟩
    · exact ⟨rfl, rfl, rfl, rfl, rfl, rfl, rfl, rfl, id⟩
  | _ => cases h; exact ⟨rfl, rfl, rfl, rfl, rfl, rfl, rfl, rfl, id⟩

theorem windowWrite_moved {off : Nat} {v : Word} {s t : State} (h : windowWrite off v s = .next t) : HostMoved s t := by
  unfold windowWrite at h
  split at h
  · exact regWrite_moved h
  · cases h; exact .refl s

/-- A range that responds to DMA may be stored to in the canonical form. -/
theorem store_wf_of_populated {p : Platform} {m : Memory} (hm : m.wf = true) {a : Nat} {bs : List Byte}
    (h : p.allPopulated ⟨a, bs.length⟩ = true) : (m.store a bs).wf = true := by
  apply store_wf hm
  rcases allPopulated_bound h with h0 | h0
  · exact .inl (List.length_eq_zero_iff.1 h0)
  · exact .inr h0

/-- The addresses of a range. -/
theorem contains_iff (r : Range) (a : Nat) : r.contains a = true ↔ r.base ≤ a ∧ a < r.base + r.len := by
  simp [Range.contains]

/-- Ranges overlap when they share an address. -/
theorem overlaps_iff (r q : Range) : r.overlaps q = true ↔ ∃ a, r.contains a = true ∧ q.contains a = true := by
  simp only [Range.overlaps, contains_iff, Bool.and_eq_true, decide_eq_true_eq]
  constructor
  · rintro ⟨⟨⟨_, _⟩, _⟩, _⟩
    exact ⟨max r.base q.base, by omega, by omega⟩
  · rintro ⟨a, _, _⟩
    omega

/-- Lists of ranges overlap when two of their ranges share an address. -/
theorem anyOverlap_iff (xs ys : List Range) :
    anyOverlap xs ys = true ↔ ∃ x ∈ xs, ∃ y ∈ ys, ∃ a, x.contains a = true ∧ y.contains a = true := by
  simp only [anyOverlap, List.any_eq_true, overlaps_iff]

/-- What the host may not load from. -/
theorem loadBarred_iff (s : State) (a : Nat) : (∃ r ∈ loadBarred s, r.contains a = true) ↔ s.OutputOwned a := by
  simp only [loadBarred, State.OutputOwned, List.mem_append, List.mem_map, or_and_right, exists_or]
  simp

/-- What the host may not store to. -/
theorem storeBarred_iff (s : State) (a : Nat) : (∃ r ∈ storeBarred s, r.contains a = true) ↔ s.Owned a := by
  simp only [storeBarred, State.Owned, State.OutputOwned, PeerRun.ranges, List.mem_append, List.mem_flatMap]
  constructor
  · rintro ⟨r, (h | h) | ⟨p, hp, h⟩, ha⟩
    · exact .inr (.inl ⟨r, h, ha⟩)
    · exact .inl (.inl ⟨r, h, ha⟩)
    · simp only [List.mem_cons, List.not_mem_nil, or_false] at h
      rcases h with rfl | rfl
      · exact .inr (.inr ⟨p, hp, ha⟩)
      · exact .inl (.inr ⟨p, hp, ha⟩)
  · rintro ((⟨r, h, ha⟩ | ⟨p, hp, ha⟩) | ⟨r, h, ha⟩ | ⟨p, hp, ha⟩)
    · exact ⟨r, .inl (.inr h), ha⟩
    · exact ⟨p.output, .inr ⟨p, hp, by simp⟩, ha⟩
    · exact ⟨r, .inl (.inl h), ha⟩
    · exact ⟨p.input, .inr ⟨p, hp, by simp⟩, ha⟩

/-- A host load, all cases: refused where it touches an owned output byte, a fault where memory is absent, and otherwise the bytes
and nothing else. -/
theorem memLoad_cases (addr n : Nat) (s : State) :
    (memLoad addr n s = .refused .bufferRace ∧ ∃ k < n, s.OutputOwned (addr + k)) ∨
    ((∀ k < n, ¬s.OutputOwned (addr + k)) ∧
      ((s.plat.allPopulated ⟨addr, n⟩ = false ∧ memLoad addr n s = .fault .hostMemoryAbsent) ∨
        (s.plat.allPopulated ⟨addr, n⟩ = true ∧ memLoad addr n s = .next { s with
          observed := .bytes ((List.range n).map fun i => hostByte s (addr + i)) :: s.observed
          freeCount := s.freeCount + 1 }))) := by
  have key : anyOverlap [⟨addr, n⟩] (loadBarred s) = true ↔ ∃ k < n, s.OutputOwned (addr + k) := by
    simp only [anyOverlap_iff, List.mem_singleton, exists_eq_left, ← loadBarred_iff, contains_iff]
    constructor
    · rintro ⟨r, hr, a, ⟨h1, h2⟩, h3⟩
      exact ⟨a - addr, by omega, r, hr, by omega, by omega⟩
    · rintro ⟨k, hk, r, hr, h⟩
      exact ⟨r, hr, addr + k, ⟨by omega, by omega⟩, h⟩
  unfold memLoad
  by_cases h : ∃ k < n, s.OutputOwned (addr + k)
  · exact .inl ⟨by rw [if_pos (key.2 h)], h⟩
  · rw [if_neg (mt key.1 h)]
    simp only [not_exists, not_and] at h
    refine .inr ⟨h, ?_⟩
    cases hp : s.plat.allPopulated ⟨addr, n⟩
    · exact .inl ⟨rfl, rfl⟩
    · exact .inr ⟨rfl, rfl⟩

/-- A host store, all cases: refused where it touches an owned byte, a fault where memory is absent, and otherwise the bytes stored and
nothing else. -/
theorem memStore_cases (addr : Nat) (bs : List Byte) (s : State) :
    (memStore addr bs s = .refused .bufferRace ∧ ∃ k < bs.length, s.Owned (addr + k)) ∨
    ((∀ k < bs.length, ¬s.Owned (addr + k)) ∧
      ((s.plat.allPopulated ⟨addr, bs.length⟩ = false ∧ memStore addr bs s = .fault .hostMemoryAbsent) ∨
        (s.plat.allPopulated ⟨addr, bs.length⟩ = true ∧
          memStore addr bs s = .next { s with mem := s.mem.store addr bs }))) := by
  have key : anyOverlap [⟨addr, bs.length⟩] (storeBarred s) = true ↔ ∃ k < bs.length, s.Owned (addr + k) := by
    simp only [anyOverlap_iff, List.mem_singleton, exists_eq_left, ← storeBarred_iff, contains_iff]
    constructor
    · rintro ⟨r, hr, a, ⟨h1, h2⟩, h3⟩
      exact ⟨a - addr, by omega, r, hr, by omega, by omega⟩
    · rintro ⟨k, hk, r, hr, h⟩
      exact ⟨r, hr, addr + k, ⟨by omega, by omega⟩, h⟩
  unfold memStore
  by_cases h : ∃ k < bs.length, s.Owned (addr + k)
  · exact .inl ⟨by rw [if_pos (key.2 h)], h⟩
  · rw [if_neg (mt key.1 h)]
    simp only [not_exists, not_and] at h
    refine .inr ⟨h, ?_⟩
    cases hp : s.plat.allPopulated ⟨addr, bs.length⟩
    · exact .inl ⟨rfl, rfl⟩
    · exact .inr ⟨rfl, rfl⟩

/-- Every action but the sequencer's and the reset line's. -/
theorem actionStep_moved {a : HostAction} {s t : State} (hs : a ≠ .sequencer) (hr : a ≠ .reset)
    (h : actionStep a s = .next t) : HostMoved s t := by
  cases a with
  | mmioRead addr width =>
    simp only [actionStep, mmioRead] at h
    split at h
    · cases h; exact hostReads_moved _ s
    · cases h
  | mmioWrite addr width v =>
    simp only [actionStep, mmioWrite] at h
    split at h
    · exact windowWrite_moved h
    · cases h
  | memLoad addr len =>
    simp only [actionStep, memLoad] at h
    split at h
    · cases h
    · split at h
      · cases h; exact ⟨rfl, rfl, rfl, rfl, rfl, rfl, rfl, rfl, id⟩
      · cases h
  | memStore addr bs =>
    simp only [actionStep, memStore] at h
    split at h
    · cases h
    · split at h
      next hp =>
        cases h
        exact ⟨rfl, rfl, rfl, rfl, rfl, rfl, rfl, rfl, fun hm => store_wf_of_populated hm hp⟩
      · cases h
  | wait =>
    simp only [actionStep, Host.Outcome.next.injEq] at h
    subst h
    have := hostReads_moved (Reg.offset .status) s
    unfold waitPoll
    split
    · exact ⟨this.configured, this.cfg, this.dec, this.rx, this.prof, this.err, this.resultLen, this.plat, this.mem⟩
    · exact this
  | sequencer => exact absurd rfl hs
  | reset => exact absurd rfl hr
  | peerIssue b input output =>
    simp only [actionStep, peerIssue] at h
    split at h
    · cases h
    · split at h
      · cases h; exact .refl s
      · split at h
        · cases h
        · split at h
          · cases h
          · cases h; exact ⟨rfl, rfl, rfl, rfl, rfl, rfl, rfl, rfl, id⟩
  | peerFinish b bs =>
    simp only [actionStep, peerFinish] at h
    split at h
    · cases h
    · split at h
      next hp =>
        cases h
        exact ⟨rfl, rfl, rfl, rfl, rfl, rfl, rfl, rfl, fun hm => store_wf_of_populated hm hp⟩
      · cases h
  | peerStatus b =>
    simp only [actionStep, peerStatus] at h
    split at h
    · cases h
    · split at h
      · cases h; exact .refl s
      · cases h; exact ⟨rfl, rfl, rfl, rfl, rfl, rfl, rfl, rfl, id⟩

/-- A step of the system, all cases: the host's or another block's action; the reset line; a turn with nothing to do; an illegal word;
a command's execution in the state `s` with its agenda advanced. -/
theorem step_cases {s t : State} (h : step s = .next t) :
    ∃ rest, (HostMoved s t ∧ s.agenda.head? ≠ some .sequencer ∧ s.agenda.head? ≠ none) ∨
      (s.agenda.head? = some .reset ∧ t = platformReset { s with agenda := rest }) ∨
      ((s.agenda.head? = none ∨ s.agenda.head? = some .sequencer) ∧
        ((s.busy = false ∧ t = { s with agenda := rest }) ∨
          (s.busy = true ∧ t = finish .illegalCommand { s with agenda := rest }) ∨
          (s.busy = true ∧ ∃ i, decode s.latch.cmd = .ok i ∧ exec i { s with agenda := rest } = .next t))) := by
  have turn : ∀ {rest : List HostAction}, sequencerTurn { s with agenda := rest } = .next t →
      ((s.busy = false ∧ t = { s with agenda := rest }) ∨
          (s.busy = true ∧ t = finish .illegalCommand { s with agenda := rest }) ∨
          (s.busy = true ∧ ∃ i, decode s.latch.cmd = .ok i ∧ exec i { s with agenda := rest } = .next t)) := by
    intro rest hs
    rcases sequencerTurn_next hs with ⟨hb, rfl⟩ | ⟨hb, ⟨i, hi, he⟩ | ⟨-, rfl⟩⟩
    · exact .inl ⟨hb, rfl⟩
    · exact .inr (.inr ⟨hb, i, hi, he⟩)
    · exact .inr (.inl ⟨hb, rfl⟩)
  rcases step_next h with ⟨h0, hs⟩ | ⟨a, rest, h0, ha⟩
  · refine ⟨[], .inr (.inr ⟨.inl (by simp [h0]), turn ?_⟩)⟩
    rw [← hs, ← h0]
  · refine ⟨rest, ?_⟩
    by_cases hq : a = .sequencer
    · subst hq
      exact .inr (.inr ⟨.inr (by simp [h0]), turn ha⟩)
    · by_cases hr : a = .reset
      · subst hr
        simp only [actionStep, Host.Outcome.next.injEq] at ha
        exact .inr (.inl ⟨by simp [h0], ha.symm⟩)
      · have := actionStep_moved hq hr ha
        exact .inl ⟨⟨this.configured, this.cfg, this.dec, this.rx, this.prof, this.err, this.resultLen, this.plat, this.mem⟩,
          by simp [h0, hq], by simp [h0]⟩

end Sys2Proof.Machine
end

