-- ==== Sys2Proof/Laws/Feed.lean ====
section
/-! SUPPORT. FEED's loop as a fold over its samples (R245, R258), and what the decoder's steps depend on (R261). -/

namespace Sys2Proof.Machine

/-! ## What a sample's processing depends on -/

/-- The state `b` with the decoder, the published result and INT_STATUS of `u`. -/
def onto (u b : State) : State := { b with dec := u.dec, rx := u.rx, intStatus := u.intStatus }

/-- `b` gives the decoder's steps what `s` gives them besides the decoder: the payload length, the mode, the timeout. -/
structure SameDecoderInputs (s b : State) : Prop where
  payloadLen : b.cfg.payloadLen = s.cfg.payloadLen
  mode : b.cfg.mode = s.cfg.mode
  timeout : b.latch.ops.timeout = s.latch.ops.timeout

theorem fixedLen_congr {c d : Params} (h : d.payloadLen = c.payloadLen) : d.fixedLen = c.fixedLen := by
  unfold Params.fixedLen; rw [h]

theorem dss_congr {c d : Params} (h : d.mode = c.mode) : d.dss = c.dss := by unfold Params.dss; rw [h]

theorem chipsPerByte_congr {c d : Params} (h : d.mode = c.mode) : chipsPerByte d = chipsPerByte c := by
  unfold chipsPerByte; rw [dss_congr h]

theorem frameChips_congr {c d : Params} (h1 : d.payloadLen = c.payloadLen) (h2 : d.mode = c.mode) (n : Nat) :
    frameChips d n = frameChips c n := by
  unfold frameChips headerBytes bodyData
  rw [fixedLen_congr h1, chipsPerByte_congr h2]

theorem frameBytes_congr {c d : Params} (h : d.mode = c.mode) (chips : List Byte) :
    frameBytes d chips = frameBytes c chips := by
  unfold frameBytes; rw [dss_congr h]

theorem recoverFrame_congr {c d : Params} (h1 : d.payloadLen = c.payloadLen) (h2 : d.mode = c.mode) (q : Profile)
    (chips : List Byte) : recoverFrame d q chips = recoverFrame c q chips := by
  unfold recoverFrame recoverLength
  rw [fixedLen_congr h1, dss_congr h2, frameBytes_congr h2]

theorem headerDecode_congr {c d : Params} (h2 : d.mode = c.mode) (chips : List Byte) :
    headerDecode d chips = headerDecode c chips := by
  unfold headerDecode; rw [frameBytes_congr h2]

theorem publish_onto (r : RxStatus) (c : Code) (p : List Byte) (s b : State) :
    publish r c p (onto s b) = onto (publish r c p s) b := rfl

theorem listenStep_onto (w : List Sample) (s b : State) : listenStep w (onto s b) = onto (listenStep w s) b := by
  unfold listenStep
  cases bestMarker w <;> rfl

theorem beginRecording_onto {s b : State} (h : SameDecoderInputs s b) :
    beginRecording (onto s b) = onto (beginRecording s) b := by
  have e : ∀ n, frameChips b.cfg n = frameChips s.cfg n := frameChips_congr h.payloadLen h.mode
  have hf : (onto s b).cfg.fixedLen = s.cfg.fixedLen := fixedLen_congr h.payloadLen
  have hx : chipsPerByte (onto s b).cfg = chipsPerByte s.cfg := chipsPerByte_congr h.mode
  have hc : frameChips (onto s b).cfg s.cfg.fixedLen = frameChips s.cfg s.cfg.fixedLen := e _
  unfold beginRecording
  rw [hf, hx, hc]
  rfl

theorem syncStep_onto {s b : State} (h : SameDecoderInputs s b) (w : List Sample) :
    syncStep w (onto s b) = onto (syncStep w s) b := by
  unfold syncStep
  show (if markerOn w s.lockedProfile = true then
    if s.dec.markerCount + 1 = Config.markerWindows then beginRecording (onto (countMarker s) b) else _ else _) = _
  split
  · split
    · exact beginRecording_onto (s := countMarker s) ⟨h.payloadLen, h.mode, h.timeout⟩
    · rfl
  · rfl

theorem headerComplete_onto {s b : State} (h : SameDecoderInputs s b) :
    headerComplete (onto s b) = onto (headerComplete s) b := by
  have e : ∀ n, frameChips b.cfg n = frameChips s.cfg n := frameChips_congr h.payloadLen h.mode
  have hd : headerDecode b.cfg = headerDecode s.cfg := funext (headerDecode_congr h.mode)
  unfold headerComplete
  show (match headerDecode b.cfg (s.dec.chips.take (3 * chipsPerByte b.cfg)) with
    | none => _
    | some l => if s.lockedProfile.maxPayload < l then _
      else expectBody (BitVec.ofNat 32 (symbolCount s.lockedProfile (frameChips b.cfg l - 3 * chipsPerByte b.cfg))) _) = _
  rw [hd, chipsPerByte_congr h.mode]
  cases headerDecode s.cfg (s.dec.chips.take (3 * chipsPerByte s.cfg)) with
  | none => rfl
  | some l =>
    by_cases hl : s.lockedProfile.maxPayload < l
    · simp only [if_pos hl]; rfl
    · simp only [if_neg hl, e]; rfl

theorem demodulate_onto {s b : State} (h : SameDecoderInputs s b) : demodulate (onto s b) = onto (demodulate s) b := by
  unfold demodulate
  show (match recoverFrame b.cfg s.lockedProfile s.dec.chips with
    | none => _
    | some payload => _) = _
  rw [recoverFrame_congr h.payloadLen h.mode]
  cases recoverFrame s.cfg s.lockedProfile s.dec.chips <;> rfl

theorem afterSymbol_onto {s b : State} (h : SameDecoderInputs s b) : afterSymbol (onto s b) = onto (afterSymbol s) b := by
  unfold afterSymbol
  show (if 0 < s.dec.symRemaining then _ else if s.dec.hdrDone = true then _ else _) = _
  split
  · rfl
  · split
    · exact demodulate_onto h
    · exact headerComplete_onto h

theorem recordStep_onto {s b : State} (h : SameDecoderInputs s b) (w : List Sample) :
    recordStep w (onto s b) = onto (recordStep w s) b := by
  unfold recordStep
  show (if s.dec.wis + 1 < s.lockedProfile.windows then _ else afterSymbol (onto (sliceStep (accumulateWindow w s)) b)) = _
  split
  · rfl
  · exact afterSymbol_onto (s := sliceStep (accumulateWindow w s)) ⟨h.payloadLen, h.mode, h.timeout⟩

theorem countedStep_onto {s b : State} (h : SameDecoderInputs s b) (w : List Sample) :
    countedStep w (onto s b) = onto (countedStep w s) b := by
  unfold countedStep
  show (if timedOut b.latch.ops.timeout s.dec.windowsSince = true then _
    else if s.dec.phase = .synchronizing then _ else _) = _
  rw [h.timeout]
  split
  · rfl
  · split
    · exact syncStep_onto h w
    · exact recordStep_onto h w

theorem windowStep_onto {s b : State} (h : SameDecoderInputs s b) (w : List Sample) :
    windowStep w (onto s b) = onto (windowStep w s) b := by
  unfold windowStep
  show (if s.dec.phase = .listening then _ else countedStep w (onto (countWindow s) b)) = _
  split
  · exact listenStep_onto w s b
  · exact countedStep_onto (s := countWindow s) ⟨h.payloadLen, h.mode, h.timeout⟩ w

/-- A sample's processing depends on the decoder, the payload length, the mode and the timeout only, and changes the decoder's
part of the state only. -/
theorem takeSample_onto {s b : State} (h : SameDecoderInputs s b) (x : Sample) :
    takeSample x (onto s b) = onto (takeSample x s) b := by
  unfold takeSample
  show (if s.dec.fill = 1023 then windowStep (storeSample x s).dec.win.toList (onto (storeSample x s) b) else _) = _
  split
  · exact windowStep_onto (s := storeSample x s) ⟨h.payloadLen, h.mode, h.timeout⟩ _
  · rfl

theorem DecoderMoved.inputs {s t b : State} (h : DecoderMoved s t) (hb : SameDecoderInputs s b) : SameDecoderInputs t b := by
  have := h.others
  exact ⟨by rw [this]; exact hb.payloadLen, by rw [this]; exact hb.mode, by rw [this]; exact hb.timeout⟩

/-! ## The loop as a fold -/

@[simp] theorem takeSamples_nil (s : State) : takeSamples [] s = s := rfl

@[simp] theorem takeSamples_cons (x : Sample) (xs : List Sample) (s : State) :
    takeSamples (x :: xs) s = takeSamples xs (takeSample x s) := rfl

theorem takeSamples_append (xs ys : List Sample) (s : State) :
    takeSamples (xs ++ ys) s = takeSamples ys (takeSamples xs s) := by simp [takeSamples, List.foldl_append]

theorem takeSamples_moved (xs : List Sample) (s : State) : DecoderMoved s (takeSamples xs s) := by
  induction xs generalizing s with
  | nil => exact .refl s
  | cons x xs ih => exact (takeSample_moved x s).trans (ih _)

theorem takeSamples_onto {s b : State} (h : SameDecoderInputs s b) (xs : List Sample) :
    takeSamples xs (onto s b) = onto (takeSamples xs s) b := by
  induction xs generalizing s with
  | nil => rfl
  | cons x xs ih =>
    rw [takeSamples_cons, takeSample_onto h, takeSamples_cons]
    exact ih ((takeSample_moved x s).inputs h)

/-- With STOP = 0 the loop takes every sample. -/
theorem feedLoop_all (xs : List Sample) (n : Nat) (s : State) :
    feedLoop false (xs.map some) n s = some (n + xs.length, takeSamples xs s) := by
  induction xs generalizing n s with
  | nil => rfl
  | cons x xs ih =>
    simp only [List.map_cons, feedLoop, Bool.false_and, Bool.false_eq_true, if_false, ih, takeSamples_cons,
      List.length_cons]
    congr 2; omega

/-- With STOP = 1 the loop takes the samples up to the first that publishes a success. -/
theorem feedLoop_stop (xs : List Sample) (n : Nat) (s : State) :
    ∃ k ≤ xs.length, feedLoop true (xs.map some) n s = some (n + k, takeSamples (xs.take k) s) ∧
      (∀ j, j + 1 < k → publishedSuccess (takeSamples (xs.take j) s) (takeSamples (xs.take (j + 1)) s) = false) ∧
      (k < xs.length → 0 < k ∧
        publishedSuccess (takeSamples (xs.take (k - 1)) s) (takeSamples (xs.take k) s) = true) := by
  induction xs generalizing n s with
  | nil => exact ⟨0, by simp, by simp [feedLoop], by omega, by simp⟩
  | cons x xs ih =>
    simp only [List.map_cons, feedLoop, Bool.true_and]
    split
    next hp => exact ⟨1, by simp, by simp, by omega, fun _ => ⟨by omega, by simpa using hp⟩⟩
    next hp =>
      obtain ⟨k, hk, hl, hno, hyes⟩ := ih (n + 1) (takeSample x s)
      refine ⟨k + 1, by simpa using hk, by rw [hl]; simp; omega, ?_, ?_⟩
      · intro j hj
        cases j with
        | zero => simpa using hp
        | succ j => simpa using hno j (by omega)
      · intro hlt
        have h2 : 0 < k ∧ _ := hyes (by simpa using hlt)
        refine ⟨by omega, ?_⟩
        obtain ⟨m, rfl⟩ : ∃ m, k = m + 1 := ⟨k - 1, by omega⟩
        simpa using h2.2

/-- FEED's loop depends on what a sample's processing depends on, and changes that part of the state only. -/
theorem feedLoop_onto {s b : State} (h : SameDecoderInputs s b) (stop : Bool) (xs : List (Option Sample)) (n : Nat) :
    feedLoop stop xs n (onto s b) = (feedLoop stop xs n s).map fun r => (r.1, onto r.2 b) := by
  induction xs generalizing n s with
  | nil => rfl
  | cons x xs ih =>
    cases x with
    | none => rfl
    | some x =>
      simp only [feedLoop, takeSample_onto h]
      have e : publishedSuccess (onto s b) (onto (takeSample x s) b) = publishedSuccess s (takeSample x s) := rfl
      rw [e]
      split
      · rfl
      · exact ih ((takeSample_moved x s).inputs h) _

/-- Where every byte of the input responds, every sample is there. -/
theorem inputSamples_eq {s : State} (h : s.plat.allPopulated ⟨s.src, s.srcLen⟩ = true) :
    inputSamples s = (fedSamples s).map some := by
  have hp : ∀ i < s.srcLen / s.cfg.sampleBytes,
      s.plat.allPopulated ⟨s.src + i * s.cfg.sampleBytes, s.cfg.sampleBytes⟩ = true := by
    intro i hi
    simp only [Platform.allPopulated, List.all_eq_true, List.mem_range] at h ⊢
    intro j hj
    have hm : s.srcLen / s.cfg.sampleBytes * s.cfg.sampleBytes ≤ s.srcLen := Nat.div_mul_le_self _ _
    have hm2 : (i + 1) * s.cfg.sampleBytes ≤ s.srcLen / s.cfg.sampleBytes * s.cfg.sampleBytes := Nat.mul_le_mul_right _ hi
    have := h (i * s.cfg.sampleBytes + j) (by rw [Nat.succ_mul] at hm2; omega)
    rw [Nat.add_assoc]; exact this
  apply List.ext_getElem
  · simp [inputSamples, fedSamples, Memory.loadItems]
  · intro i h1 h2
    have hi : i < s.srcLen / s.cfg.sampleBytes := by simpa [fedSamples] using h2
    simp [inputSamples, fedSamples, Memory.loadItems, hp i hi]

theorem publishedSuccess_iff (s t : State) :
    publishedSuccess s t = true ↔ t.rx.seq ≠ s.rx.seq ∧ t.rx.status = .success := by
  simp [publishedSuccess]

end Sys2Proof.Machine
end

