-- ==== Sys2Proof/Laws/PerInstr.lean ====
section
/-! SUPPORT. Facts of every command as syntax, one lemma per constructor: the fields of an encoded command are its operands (R101, R111). -/

namespace Sys2Proof.Laws

/-- The word `OP | p << 8 | vol << 16 | stop << 23` of R111. -/
def packed (o p v : Nat) (b : Bool) : Word :=
  BitVec.ofNat 32 o ||| BitVec.ofNat 32 p <<< 8 ||| BitVec.ofNat 32 v <<< 16 ||| (if b then 1#32 else 0#32) <<< 23

/-- A number below `2^n` has no bit from `n` on. -/
theorem testBit_above {x n k : Nat} (hx : x < 2 ^ n) (hk : n ≤ k) : x.testBit k = false :=
  Nat.testBit_lt_two_pow (hx.trans_le (Nat.pow_le_pow_right (by decide) hk))

theorem stopBit (b : Bool) (k : Nat) : (if b then 1#32 else 0#32).getLsbD k = (b && decide (k = 0)) := by
  cases b
  · simp
  · simp

/-- Bit `k` of the packed word. -/
theorem packed_bit (o p v : Nat) (b : Bool) (k : Nat) (hk : k < 32) : (packed o p v b).getLsbD k =
    (o.testBit k || (decide (8 ≤ k) && p.testBit (k - 8)) || (decide (16 ≤ k) && v.testBit (k - 16))
      || (b && decide (k = 23))) := by
  have h8 : decide (k < 8) = !decide (8 ≤ k) := by by_cases h : k < 8 <;> simp [h] <;> omega
  have h16 : decide (k < 16) = !decide (16 ≤ k) := by by_cases h : k < 16 <;> simp [h] <;> omega
  have k8 : decide (k - 8 < 32) = true := by simp; omega
  have k16 : decide (k - 16 < 32) = true := by simp; omega
  have h23 : (decide (k < 32) && !decide (k < 23) && (b && decide (k - 23 = 0))) = (b && decide (k = 23)) := by
    cases b
    · simp
    · by_cases h : k = 23
      · subst h; decide
      · by_cases h' : k < 23
        · simp [h, h']
        · have : k - 23 ≠ 0 := by omega
          simp [h, this]
  unfold packed
  simp only [BitVec.getLsbD_or, BitVec.getLsbD_shiftLeft, BitVec.getLsbD_ofNat, stopBit, h23]
  simp only [hk, decide_true, Bool.true_and, h8, h16, Bool.not_not, k8, k16]

/-- The fields of a packed word whose parts fit their fields. -/
theorem packed_fields {o p v : Nat} (b : Bool) (ho : o < 256) (hp : p < 256) (hv : v < 128) :
    opField (packed o p v b) = o ∧ protoField (packed o p v b) = p ∧ volumeField (packed o p v b) = v
      ∧ stopField (packed o p v b) = b ∧ rsvField (packed o p v b) = 0 := by
  have o8 : ∀ k, 8 ≤ k → o.testBit k = false := fun k => testBit_above (n := 8) ho
  have p8 : ∀ k, 8 ≤ k → p.testBit k = false := fun k => testBit_above (n := 8) hp
  have v7 : ∀ k, 7 ≤ k → v.testBit k = false := fun k => testBit_above (n := 7) hv
  refine ⟨?_, ?_, ?_, ?_, ?_⟩
  · unfold opField
    have h : packed o p v b &&& 0xFF#32 = BitVec.ofNat 32 o := by
      apply BitVec.eq_of_getLsbD_eq
      intro k hk
      rw [BitVec.getLsbD_and, packed_bit o p v b k hk, BitVec.getLsbD_ofNat, BitVec.getLsbD_ofNat,
        show (0xFF : Nat) = 2 ^ 8 - 1 from rfl, Nat.testBit_two_pow_sub_one]
      by_cases hk8 : k < 8
      · have h1 : ¬ 8 ≤ k := by omega
        have h2 : ¬ 16 ≤ k := by omega
        have h3 : k ≠ 23 := by omega
        simp [h1, h2, h3, hk8, hk]
      · simp [hk8, o8 k (by omega)]
    rw [h, BitVec.toNat_ofNat, Nat.mod_eq_of_lt (by omega)]
  · unfold protoField
    have h : (packed o p v b >>> 8) &&& 0xFF#32 = BitVec.ofNat 32 p := by
      apply BitVec.eq_of_getLsbD_eq
      intro k hk
      rw [BitVec.getLsbD_and, BitVec.getLsbD_ushiftRight, BitVec.getLsbD_ofNat, BitVec.getLsbD_ofNat,
        show (0xFF : Nat) = 2 ^ 8 - 1 from rfl, Nat.testBit_two_pow_sub_one]
      by_cases hk8 : k < 8
      · rw [packed_bit o p v b (8 + k) (by omega), o8 (8 + k) (by omega)]
        have h2 : ¬ 16 ≤ 8 + k := by omega
        have h3 : 8 + k ≠ 23 := by omega
        simp [h2, h3, hk8, hk]
      · simp [hk8, p8 k (by omega)]
    rw [h, BitVec.toNat_ofNat, Nat.mod_eq_of_lt (by omega)]
  · unfold volumeField
    have h : (packed o p v b >>> 16) &&& 0x7F#32 = BitVec.ofNat 32 v := by
      apply BitVec.eq_of_getLsbD_eq
      intro k hk
      rw [BitVec.getLsbD_and, BitVec.getLsbD_ushiftRight, BitVec.getLsbD_ofNat, BitVec.getLsbD_ofNat,
        show (0x7F : Nat) = 2 ^ 7 - 1 from rfl, Nat.testBit_two_pow_sub_one]
      by_cases hk7 : k < 7
      · rw [packed_bit o p v b (16 + k) (by omega), o8 (16 + k) (by omega), p8 (16 + k - 8) (by omega)]
        have h3 : 16 + k ≠ 23 := by omega
        simp [h3, hk7, hk]
      · simp [hk7, v7 k (by omega)]
    rw [h, BitVec.toNat_ofNat, Nat.mod_eq_of_lt (by omega)]
  · unfold stopField
    rw [packed_bit o p v b 23 (by omega), o8 23 (by omega), p8 (23 - 8) (by omega), v7 (23 - 16) (by omega)]
    simp
  · unfold rsvField
    have h : packed o p v b >>> 24 = 0#32 := by
      apply BitVec.eq_of_getLsbD_eq
      intro k hk
      rw [BitVec.getLsbD_ushiftRight, BitVec.getLsbD_zero]
      by_cases hk8 : 24 + k < 32
      · rw [packed_bit o p v b (24 + k) hk8, o8 (24 + k) (by omega), p8 (24 + k - 8) (by omega),
          v7 (24 + k - 16) (by omega)]
        have h3 : 24 + k ≠ 23 := by omega
        simp [h3]
      · exact BitVec.getLsbD_of_ge _ _ (by omega)
    rw [h]; rfl

/-- The encoder packs the operands. -/
theorem encode_eq_packed (i : Instr) : encode i = packed i.op i.proto i.volume i.stop := rfl

/-- The fields of an encoded well-formed command are its opcode and operands, and RSV is 0. -/
def FieldsEncoded.Statement (i : Instr) : Prop :=
  i.wellFormed = true → opField (encode i) = i.op ∧ protoField (encode i) = i.proto ∧ volumeField (encode i) = i.volume
    ∧ stopField (encode i) = i.stop ∧ rsvField (encode i) = 0

theorem FieldsEncoded.nop : FieldsEncoded.Statement .nop :=
  fun _ => packed_fields (o := 0x00) (p := 0) (v := 0) false (by decide) (by decide) (by decide)

theorem FieldsEncoded.config : FieldsEncoded.Statement .config :=
  fun _ => packed_fields (o := 0x01) (p := 0) (v := 0) false (by decide) (by decide) (by decide)

theorem FieldsEncoded.deconfig : FieldsEncoded.Statement .deconfig :=
  fun _ => packed_fields (o := 0x02) (p := 0) (v := 0) false (by decide) (by decide) (by decide)

theorem FieldsEncoded.profileQuery (p : Nat) : FieldsEncoded.Statement (.profileQuery p) :=
  fun h => packed_fields (o := 0x03) (p := p) (v := 0) false (by decide) (by simpa [Instr.wellFormed, protoFits] using h) (by decide)

theorem FieldsEncoded.frameBuild (p : Nat) : FieldsEncoded.Statement (.frameBuild p) :=
  fun h => packed_fields (o := 0x10) (p := p) (v := 0) false (by decide) (by simpa [Instr.wellFormed, protoFits] using h) (by decide)

theorem FieldsEncoded.frameRecover (p : Nat) : FieldsEncoded.Statement (.frameRecover p) :=
  fun h => packed_fields (o := 0x11) (p := p) (v := 0) false (by decide) (by simpa [Instr.wellFormed, protoFits] using h) (by decide)

theorem FieldsEncoded.symbolMap (p : Nat) : FieldsEncoded.Statement (.symbolMap p) :=
  fun h => packed_fields (o := 0x20) (p := p) (v := 0) false (by decide) (by simpa [Instr.wellFormed, protoFits] using h) (by decide)

theorem FieldsEncoded.render (p v : Nat) : FieldsEncoded.Statement (.render p v) := fun h => by
  simp only [Instr.wellFormed, protoFits, volumeFits, Bool.and_eq_true, decide_eq_true_eq] at h
  exact packed_fields (o := 0x21) (p := p) (v := v) false (by decide) h.1 h.2

theorem FieldsEncoded.encode (p v : Nat) : FieldsEncoded.Statement (.encode p v) := fun h => by
  simp only [Instr.wellFormed, protoFits, volumeFits, Bool.and_eq_true, decide_eq_true_eq] at h
  exact packed_fields (o := 0x22) (p := p) (v := v) false (by decide) h.1 h.2

theorem FieldsEncoded.spectrum : FieldsEncoded.Statement .spectrum :=
  fun _ => packed_fields (o := 0x30) (p := 0) (v := 0) false (by decide) (by decide) (by decide)

theorem FieldsEncoded.feed (b : Bool) : FieldsEncoded.Statement (.feed b) :=
  fun _ => packed_fields (o := 0x31) (p := 0) (v := 0) b (by decide) (by decide) (by decide)

theorem FieldsEncoded.decoderReset : FieldsEncoded.Statement .decoderReset :=
  fun _ => packed_fields (o := 0x32) (p := 0) (v := 0) false (by decide) (by decide) (by decide)

end Sys2Proof.Laws
end

