-- ==== Sys2Proof/Tests/Slice0.lean ====
section
/-! SUPPORT. Tests of the model against values the spec writes out (95_test_vectors.md, or the rule a test names), and for every obligation
with hypotheses a witness that meets them. -/

namespace Sys2Proof.Machine.Tests

/-! Elaborated one after another: together the evaluations ask for more threads than the memory limit admits. -/

set_option Elab.async false

/-! ## WellFormed: an ill-formed term for each check -/

theorem test_wellFormed_refuses_proto : (Instr.profileQuery 256).wellFormed = false ∧ (Instr.frameBuild 256).wellFormed = false ∧
    (Instr.frameRecover 256).wellFormed = false ∧ (Instr.symbolMap 256).wellFormed = false ∧
    (Instr.render 256 0).wellFormed = false ∧ (Instr.encode 256 0).wellFormed = false := by decide

theorem test_wellFormed_refuses_volume :
    (Instr.render 0 128).wellFormed = false ∧ (Instr.encode 0 128).wellFormed = false := by decide

theorem test_wellFormed_accepts_field_limits : (Instr.profileQuery 255).wellFormed = true ∧ (Instr.encode 255 127).wellFormed = true ∧
    (Instr.feed true).wellFormed = true := by decide

/-! ## Decoding: words written out from R101 and R103, RSV, STOP, VOLUME, PROTO, OP -/

theorem test_decode_nop : decode 0b00000000_0_0000000_00000000_00000000#32 = .ok .nop := by decide
theorem test_decode_config : decode 0b00000000_0_0000000_00000000_00000001#32 = .ok .config := by decide
theorem test_decode_deconfig : decode 0b00000000_0_0000000_00000000_00000010#32 = .ok .deconfig := by decide
theorem test_decode_profileQuery :
    decode 0b00000000_0_0000000_00001100_00000011#32 = .ok (.profileQuery 12) := by decide
theorem test_decode_frameBuild : decode 0b00000000_0_0000000_00000001_00010000#32 = .ok (.frameBuild 1) := by decide
theorem test_decode_frameRecover : decode 0b00000000_0_0000000_11111111_00010001#32 = .ok (.frameRecover 255) := by decide
theorem test_decode_symbolMap : decode 0b00000000_0_0000000_00000111_00100000#32 = .ok (.symbolMap 7) := by decide
theorem test_decode_render : decode 0b00000000_0_1100100_00000111_00100001#32 = .ok (.render 7 100) := by decide
theorem test_decode_encode : decode 0b00000000_0_1111111_00000001_00100010#32 = .ok (.encode 1 127) := by decide
theorem test_decode_spectrum : decode 0b00000000_0_0000000_00000000_00110000#32 = .ok .spectrum := by decide
theorem test_decode_feed : decode 0b00000000_0_0000000_00000000_00110001#32 = .ok (.feed false) := by decide
theorem test_decode_feed_stop : decode 0b00000000_1_0000000_00000000_00110001#32 = .ok (.feed true) := by decide
theorem test_decode_decoderReset : decode 0b00000000_0_0000000_00000000_00110010#32 = .ok .decoderReset := by decide

/-- The illegal words of 95_test_vectors section 3. -/
theorem test_decode_illegal :
    decode 0x00000100#32 = .error .unusedFieldSet ∧ decode 0x00010110#32 = .error .unusedFieldSet ∧
    decode 0x00800122#32 = .error .unusedFieldSet ∧ decode 0x00000131#32 = .error .unusedFieldSet ∧
    decode 0x01000031#32 = .error .reservedBits ∧ decode 0x00000004#32 = .error .unassignedOpcode ∧
    decode 0x000000FF#32 = .error .unassignedOpcode ∧ decode 0x00000033#32 = .error .unassignedOpcode := by decide

/-- The assembler's words (R111, 95_test_vectors section 3). -/
theorem test_encode_words :
    encode (.feed true) = 0x00800031#32 ∧ encode (.render 7 100) = 0x00640721#32 ∧
    encode (.encode 11 0) = 0x00000B22#32 ∧ encode .decoderReset = 0x00000032#32 := by decide

theorem test_decodeTableWord : decodeTableWord 32 0x000A0122 = some (.encode 1 10) ∧ decodeTableWord 8 0x30 = some .spectrum ∧
    decodeTableWord 32 0x00000004 = none := by decide

/-! ## Small states -/

/-- A configured block (the configuration of 95_test_vectors: integer16, variable length, no DSS, unless `len` and `mode` say
otherwise), with operands latched and bytes at the input address. -/
def block (len mode : Word) (src n dst cap : Word) (input : List Byte) : State :=
  { State.reset with
    configured := true
    cfg := ⟨48000, 48000, 0, len, mode⟩
    latch := ⟨0, ⟨src, n, dst, cap, 16384⟩, Params.reset⟩
    mem := Memory.store [] src.toNat input }

/-- `s` with a command latched, its turn next. -/
def running (v : Word) (s : State) : State := { s with busy := true, latch := { s.latch with cmd := v } }

/-- A field of the next state, none for a fault or a refusal. -/
def after {α : Type} (o : Out) (f : State → α) : Option α :=
  match o with
  | .next t => some (f t)
  | .fault _ => none
  | .refused _ => none

/-- The refusal of a step, none for another outcome. -/
def refusalOf (o : Out) : Option Refusal :=
  match o with
  | .next _ => none
  | .fault _ => none
  | .refused r => some r

/-- "hello js" (95_test_vectors section 1.1). -/
def helloJs : List Byte := [0x68, 0x65, 0x6C, 0x6C, 0x6F, 0x20, 0x6A, 0x73]

/-- Its frame. -/
def helloFrame : List Byte :=
  [0x08, 0x18, 0x10, 0x68, 0x65, 0x6C, 0x6C, 0x6F, 0x20, 0x6A, 0x73, 0x0F, 0x02, 0x22, 0x6E, 0xE7, 0xFD]

/-! ## The framer's functions (95_test_vectors section 4) -/

theorem test_crc16 : crc16 [] = 0xFFFF#16 ∧ crc16 [0x41] = 0xB915#16 ∧ crc16 helloJs = 0x0F02#16 := by decide +kernel

theorem test_gf : gfMul 0x53 0xCA = 0x8F#8 ∧ gfMul 0xFF 0xFF = 0xE2#8 ∧ gfExp 9 = 58#8 ∧ gfLog 3 = some 25 ∧
    gfMul 0x53 (gfInv 0x53) = 1#8 := by decide +kernel

theorem test_rsGenerator : rsGenerator 4 = [0x01, 0x0F, 0x36, 0x78, 0x40] ∧
    rsGenerator 8 = [0x01, 0xFF, 0x0B, 0x51, 0x36, 0xEF, 0xAD, 0xC8, 0x18] := by decide +kernel

theorem test_ecc : [0, 3, 4, 14, 15, 25, 66, 142].map ecc = [2, 2, 4, 4, 6, 10, 26, 56] := by decide

theorem test_rsEncode : rsEncode [0x8C] 2 = [0x8C, 0x89, 0x05] ∧
    rsEncode [0x01, 0x02, 0x03, 0x04] 4 = [0x01, 0x02, 0x03, 0x04, 0x75, 0xA3, 0xB2, 0x60] := by decide +kernel

theorem test_rsDecode_two_errors :
    rsDecode [0x00, 0x34, 0x89, 0xA6, 0x8D, 0x00] 2 4 = some [0x12, 0x34, 0x89, 0xA6, 0x8D, 0x84] := by decide +kernel

theorem test_rsDecode_beyond_bound : rsDecode [0x00, 0x00, 0x89, 0xA6, 0x00, 0x84] 2 4 = none ∧
    rsDecode [0x01, 0x00, 0x00] 1 2 = some [0x00, 0x00, 0x00] := by decide +kernel

theorem test_pn : pn 10 = [0x22, 0x47, 0x37, 0xC4, 0x9D, 0xE3, 0x15, 0x88, 0x52, 0xEF] := by decide +kernel

/-- The empty payload's frame under DSS (95_test_vectors section 4.6). -/
theorem test_frame_dss : frameBuild ⟨48000, 48000, 0, 0, 1⟩ (profile 1) [] =
    .ok [0x22, 0x47, 0x37, 0xC4, 0x9D, 0xE3, 0x15, 0x88, 0x52, 0x10, 0xE9, 0xC1, 0x5E, 0xA0, 0xBF, 0x9A, 0xE9, 0xD0, 0x1A,
      0xBB, 0x34] := by decide +kernel

/-! ## Samples (95_test_vectors sections 5 and 6) -/

theorem test_sineRom : [1, 64, 255, 257, 513, 640, 768, 1023].map sineRom =
    [201, 12539, 32766, 32766, -201, -23170, -32767, -201] := by decide +kernel

theorem test_toF32 : toF32 32767#16 = 0x3F7FFE00#32 ∧ toF32 0x8000#16 = 0xBF800000#32 ∧ toF32 1#16 = 0x38000000#32 ∧
    toF32 12342#16 = 0x3EC0D800#32 ∧ toF32 0#16 = 0#32 := by decide +kernel

/-- 1.0, -1.0, 0.5, 1.5/32768, 2.5/32768, -0.5/32768, NaN, infinity, minus infinity. -/
theorem test_fromF32 : [0x3F800000#32, 0xBF800000#32, 0x3F000000#32, 0x38400000#32, 0x38A00000#32, 0xB7800000#32, 0x7FC00000#32,
      0x7F800000#32, 0xFF800000#32].map (fun x => (fromF32 x).toInt) =
    [32767, -32768, 16384, 2, 2, 0, 0, 32767, -32768] := by decide +kernel

/-- The impulse; the zeros after it add nothing to the sums of R241. -/
theorem test_power_impulse : power [32767#16] 37 = 1073610756 ∧ power [32767#16] 512 = 1073610756 := by decide +kernel

/-! ## The commands -/

/-- R300. -/
theorem test_nop : after (exec .nop { State.reset with resultLen := 9 }) (fun t => (t.resultLen, t.err, t.intStatus)) =
    some (0, .ok, 1) := by decide +kernel

/-- R301, R302: the limits are accepted, as latched. -/
theorem test_config : after (exec .config { State.reset with latch := { State.reset.latch with par := ⟨8000, 96000, 1, 64, 1⟩ } })
    (fun t => (t.configured, t.cfg, statusWord t)) = some (true, ⟨8000, 96000, 1, 64, 1⟩, 2) := by decide +kernel

/-- R302: step 3 of 95_test_vectors section 8, PARAM_FORMAT = 2. -/
theorem test_config_rejects : after
    (exec .config { State.reset with latch := { State.reset.latch with par := ⟨48000, 48000, 2, 0, 0⟩ } })
    (fun t => (statusWord t, t.intStatus, t.cfg.format)) = some (0x00000100, 3, 0) := by decide +kernel

/-- Step 12 of 95_test_vectors section 8. -/
theorem test_deconfig : after (exec .deconfig (block 5 1 0 0 0 0 [])) (fun t => (statusWord t, t.cfg)) =
    some (0, Params.zero) := by decide +kernel

/-- Step 11 of 95_test_vectors section 8. -/
theorem test_profileQuery : after (exec (.profileQuery 7) State.reset) (fun t => (t.prof, t.err)) =
    some (⟨7, 0, 48, 1, 2, 6, 40, 42, 140⟩, .ok) := by decide +kernel

theorem test_profileQuery_unsupported :
    after (exec (.profileQuery 12) (block 0 0 0 0 0 0 [])) (fun t => (statusWord t, t.prof)) =
      some (0x00000202, ProfRegs.zero) := by decide +kernel

/-- Program P3's first command. -/
theorem test_frameBuild : after (exec (.frameBuild 1) (block 0 0 0x2000 8 0x3000 64 helloJs))
    (fun t => (t.mem.load 0x3000 18, t.resultLen, statusWord t)) = some (helloFrame ++ [0], 17, 2) := by decide +kernel

/-- "hi" in a fixed length of 5 (program P6). -/
theorem test_frameBuild_fixed : after (exec (.frameBuild 7) (block 5 0 0x1000 2 0x2000 64 [0x68, 0x69]))
    (fun t => (t.mem.load 0x2000 11, t.resultLen)) =
      some ([0x68, 0x69, 0x00, 0x00, 0x00, 0xA0, 0x58, 0x93, 0xBE, 0x88, 0x5C], 11) := by decide +kernel

/-- Program P3's second command: two body bytes wrong. -/
theorem test_frameRecover :
    after (exec (.frameRecover 1) (block 0 0 0x3000 17 0x4000 8 ((helloFrame.set 5 0x93).set 16 0xFC)))
      (fun t => (t.mem.load 0x4000 9, t.resultLen)) = some (helloJs ++ [0], 8) := by decide +kernel

/-- Its third: three body bytes wrong; nothing is stored. -/
theorem test_frameRecover_fails :
    after (exec (.frameRecover 1) (block 0 0 0x3000 17 0x4000 8 (((helloFrame.set 5 0x93).set 16 0xFC).set 10 0x26)))
      (fun t => (t.mem.load 0x4000 8, statusWord t)) = some (List.replicate 8 0, 0x00000502) := by decide +kernel

/-- 95_test_vectors section 5.2. -/
theorem test_symbolMap : after (exec (.symbolMap 1) (block 0 0 0x100 3 0x200 6 [0x08, 0x18, 0x10]))
    (fun t => (t.mem.load 0x200 7, t.resultLen)) = some ([0x08, 0x00, 0x08, 0x01, 0x00, 0x01, 0x00], 6) := by decide +kernel

theorem test_symbolMap_dual : after (exec (.symbolMap 7) (block 0 0 0x100 2 0x200 2 [0x68, 0xF1]))
    (fun t => (t.mem.load 0x200 2, t.resultLen)) = some ([0x68, 0xF1], 2) := by decide +kernel

/-- RENDER `[21]`, profile 7, VOLUME 100, window 16 (95_test_vectors section 5.3). -/
theorem test_render_dual_window : (windowSamples 100 ((schedule (profile 7) [0x21]).getD 16 [])).take 5 =
    [0#16, 11307#16, 21134#16, 28211#16, 31649#16] := by decide +kernel

/-- R210: the output size is checked before anything is read. -/
theorem test_render_overflow : after (exec (.render 1 100) (block 0 0 0x1000 0 0x8000 0xFFFE []))
    (fun t => (statusWord t, t.mem)) = some (0x00001202, []) := by decide +kernel

/-- The first symbol window of 95_test_vectors section 1.1 (bin 56, VOLUME 10). -/
theorem test_encode_window :
    ((windowSamples 10 ((schedule (profile 1) (symbolMap (profile 1) helloFrame)).getD 16 [])).take 4).map BitVec.toInt =
      [0, 1103, 2078, 2810] := by decide +kernel

/-- Steps 6 and 8 of 95_test_vectors section 8: the order of the checks. -/
theorem test_encode_errors : after (exec (.encode 12 101) (block 0 0 0 141 1 0 [])) statusWord = some 0x00000202 ∧
    after (exec (.encode 1 10) (block 0 0 0 141 0x10000 0 [])) statusWord = some 0x00000302 := by decide +kernel

/-- The SPECTRUM checks of 95_test_vectors section 8. -/
theorem test_spectrum_errors : after (exec .spectrum (block 0 0 0 2046 0x1000 4104 [])) statusWord = some 0x00000602 ∧
    after (exec .spectrum (block 0 0 0 2048 0x1000 4103 [])) statusWord = some 0x00001202 ∧
    after (exec .spectrum (block 0 0 0 2048 0x1004 4104 [])) statusWord = some 0x00001302 := by decide +kernel

/-- R245, R258: the samples in the window buffer, the count in RX_CONSUMED. -/
theorem test_feed : after (exec (.feed false) (block 0 0 0x100 4 0 0 [0x30, 0x02, 0xA9, 0xFD]))
    (fun t => (t.dec.win[0].toInt, t.dec.win[1].toInt, t.dec.fill, t.rx.consumed, t.err)) =
      some (560, -599, 2, 2, .ok) := by decide +kernel

/-- R258: input that ends inside a transmission. -/
theorem test_feed_underrun :
    after (exec (.feed true) { block 0 0 0x100 0 0 0 [] with dec := { Decoder.reset with phase := .synchronizing, markerCount := 5 } })
      statusWord = some 0x00000602 := by decide +kernel

/-- R259: the end of 95_test_vectors section 7.1; RX_PROTOCOL stays. -/
theorem test_decoderReset : after (exec .decoderReset { block 0 0 0 0 0 0 [] with
      dec := { Decoder.reset with phase := .recording, rxProto := 1, fill := 5, symExpected := 6, symRemaining := 6 } })
    (fun t => (t.dec.phase, t.dec.fill, t.dec.symExpected, t.dec.rxProto)) = some (.listening, 0, 0, 1) := by decide +kernel

theorem test_decoderReset_notConfigured : after (exec .decoderReset State.reset) (fun t => (statusWord t, t.intStatus)) =
    some (0x00001100, 3) := by decide +kernel

/-! ## The machine around the commands -/

/-- Step 2 of 95_test_vectors section 8. -/
theorem test_illegal_word : after (step (State.reset.withFetchWord 32 0x01000001)) (fun t => (statusWord t, t.intStatus)) =
    some (0x00001000, 3) := by decide +kernel

/-- 95_test_vectors section 8: a second CMD write before the NOP's step is dropped. -/
theorem test_dropped_command : after (steps 5 { State.reset with agenda := [.mmioWrite 0x008 4 0, .mmioWrite 0x008 4 1, .wait] })
    (fun t => (t.intStatus, statusWord t)) = some (0x11, 0) := by decide +kernel

/-- And with the NOP's step between the writes CONFIG runs. -/
theorem test_second_command_runs :
    after (steps 6 { State.reset with agenda := [.mmioWrite 0x008 4 0, .sequencer, .mmioWrite 0x008 4 1, .wait] })
      (fun t => (t.intStatus, statusWord t)) = some (0x01, 2) := by decide +kernel

/-- R71: a 16-bit access and an unaligned one. -/
theorem test_mmioWidth : mmioRead 0x00C 2 State.reset = .fault .mmioWidth ∧
    mmioWrite 0x00D 4 0 State.reset = .fault .mmioWidth := ⟨rfl, rfl⟩

/-- R28: writing 1 clears. -/
theorem test_intStatus_clear : after (mmioWrite 0x010 4 0x3 { State.reset with intStatus := 0b10111 }) (fun t => t.intStatus) =
    some 0b10100 := by decide +kernel

/-! ## Witnesses: for every obligation with hypotheses, states and operands that meet them -/

/-- A next state with a property, by evaluation. -/
theorem next_of {o : Out} {P : State → Prop} [DecidablePred P] (h : after o (fun t => decide (P t)) = some true) :
    ∃ t, o = .next t ∧ P t := by
  cases o with
  | next t => exact ⟨t, rfl, by simpa [after] using h⟩
  | fault r => cases h
  | refused r => cases h

/-- A next state, by evaluation. -/
theorem next_of' {o : Out} (h : after o (fun _ => true) = some true) : ∃ t, o = .next t := by
  cases o with
  | next t => exact ⟨t, rfl⟩
  | fault r => cases h
  | refused r => cases h

/-- The block after reset. -/
def idle : State := State.reset

theorem witness_DecodeAndEncodeAgree :
    (Instr.encode 255 127).wellFormed = true ∧ decode 0x00800031#32 = .ok (.feed true) ∧
    decode 0xFF8000FF#32 ≠ .ok .nop ∧ decode 0x007FFF22#32 = .ok (.encode 255 127) := by decide

theorem witness_DecodeReadsOneTableRow :
    (∃ r ∈ opcodeRows, 0x00640721#32 &&& r.mask = r.pattern) ∧ decode 0x00640721#32 = .ok (.render 7 100) ∧
    ∀ r ∈ opcodeRows, 0x00000004#32 &&& r.mask ≠ r.pattern := by decide

theorem witness_ReservedBitsSelectNothing : 24 ≤ 24 ∧ (0x01000031#32).getLsbD 24 = true ∧ 24 ≤ 31 ∧
    (0x80000000#32).getLsbD 31 = true := by decide

theorem witness_IllegalWordsChangeNothing :
    (0x00000004#32).toNat % 2 ^ 8 ∉ [0x00, 0x01, 0x02, 0x03, 0x10, 0x11, 0x20, 0x21, 0x22, 0x30, 0x31, 0x32] ∧
    (∃ r ∈ opcodeRows, r.pattern.toNat % 2 ^ 8 = (0x00800122#32).toNat % 2 ^ 8 ∧ 0x00800122#32 &&& r.mask ≠ r.pattern) ∧
    State.reset.busy = false ∧ State.reset.agenda = [] := by decide

theorem witness_StepRunsTheLatchedCommand :
    (running 0x00000003#32 idle).busy = true ∧ decode (running 0x00000003#32 idle).latch.cmd = .ok (.profileQuery 0) ∧
    (running 0x00000003#32 idle).agenda = [] ∧
    { running 0x00000003#32 idle with agenda := [.sequencer, .wait] }.agenda = .sequencer :: [.wait] ∧
    decode (BitVec.ofNat 32 (0x00640721 % 2 ^ 32)) = .ok (.render 7 100) := by decide

theorem witness_RatesAreOnlyRecorded :
    (∃ t, exec .config (block 0 0 0 0 0 0 []) = .next t ∧ t.err = .ok) ∧ Instr.spectrum ≠ .config ∧ Instr.spectrum ≠ .deconfig :=
  ⟨next_of (by decide +kernel), by decide, by decide⟩

/-- A decoder in the middle of a synchronization, with one more sample to a window. -/
def syncBlock (windows timeout : Word) : State :=
  let s := block 0 0 0x100 2 0 0 [0x30, 0x02]
  { s with
    dec := { Decoder.reset with phase := .synchronizing, markerCount := 5, windowsSince := windows, fill := 1023 }
    latch := { s.latch with ops := { s.latch.ops with timeout := timeout } } }

theorem witness_OnlyTheirCommandsWriteTheInstance :
    (∃ t, step (running 0x00000001#32 { idle with latch := ⟨0, Operands.zero, Params.reset⟩ }) = .next t ∧
      t.cfg ≠ idle.cfg ∧ t.configured ≠ idle.configured) ∧
    (∃ t, step (running 0x00000032#32 (syncBlock 5 20)) = .next t ∧ t.dec.phase ≠ (syncBlock 5 20).dec.phase) ∧
    (∃ t, step (running 0x00000031#32 (block 0 0 0x100 2 0 0 [])) = .next t ∧ t.rx.consumed ≠ (block 0 0 0x100 2 0 0 []).rx.consumed) ∧
    (∃ t, step (running 0x00000703#32 idle) = .next t ∧ t.prof ≠ idle.prof) ∧
    (running 0x00000703#32 idle).agenda.head? ≠ some .reset :=
  ⟨next_of (by decide +kernel), next_of (by decide +kernel), next_of (by decide +kernel), next_of (by decide +kernel), by decide⟩

theorem witness_RegisterMapAccess :
    (⟨0x00C, .ro, 0⟩ : MapRow) ∈ registerMap ∧ (⟨0x008, .wo, 0⟩ : MapRow) ∈ registerMap ∧
    (⟨0x034, .rw, 0x4000⟩ : MapRow) ∈ registerMap ∧ (⟨0x010, .rw1c, 0⟩ : MapRow) ∈ registerMap ∧
    (⟨0x18C, .ro, 0⟩ : MapRow) ∈ registerMap ∧ 0x0E4 ∉ registerMap.map MapRow.offset ∧ 0x190 ∉ registerMap.map MapRow.offset ∧
    0x0E0 ≠ 0x034 ∧ 0x000 ∈ hostFieldRows.map FieldRow.offset ∧ 0x0A0 ∈ instanceFieldRows.map FieldRow.offset ∧
    0x18C ∈ rxFieldRows.map FieldRow.offset ∧ 0x014 ∈ writeRows.map WriteRow.offset ∧ 0x04C ∈ writeRows.map WriteRow.offset := by
  decide +kernel

theorem witness_MmioAccessRules :
    (0 < 512 ∧ 0 % 4 = 0) ∧ (508 < 512 ∧ 508 % 4 = 0) ∧
    (¬(2 = 4 ∧ ∃ off < 512, off % 4 = 0 ∧ 0x00C = idle.plat.mmioBase + off)) ∧
    ¬(4 = 4 ∧ ∃ off < 512, off % 4 = 0 ∧ 512 = idle.plat.mmioBase + off) := by
  refine ⟨by decide, by decide, by decide, ?_⟩
  rintro ⟨-, off, h, -, h'⟩
  have : idle.plat.mmioBase = 0 := rfl
  omega

theorem witness_CmdWriteIssuesOrDrops : (running 0 idle).busy = true ∧ idle.busy = false ∧
    anyOverlap (inputOf 0x00000110#32 idle.ops ++ outputOf 0x00000110#32 idle.ops) (peerRanges idle) = false := by decide

/-- Powers of no sound are 0 (R241). -/
theorem power_zeros (n b : Nat) : power (List.replicate n 0#16) b = 0 := by
  have h : ∀ wave : Nat → Int, correlate wave b (List.replicate n 0#16) = 0 := by
    intro wave
    unfold correlate
    apply List.sum_eq_zero
    intro x hx
    simp only [List.mem_map, Prod.exists] at hx
    obtain ⟨a, i, hm, rfl⟩ := hx
    have := List.mem_zipIdx hm
    simp only [List.length_replicate, List.getElem_replicate] at this
    rw [this.2.2]
    simp
  simp [power, h, asr15]

/-- One sample, window and nibble before the end of the empty payload's frame (95_test_vectors section 4.6). -/
def almostDone : State :=
  { running 0x00000031#32 (block 0 0 0x100 2 0 0 []) with
    dec := { Decoder.reset with
      phase := .recording, rxProto := 2, fill := 1023, markerCount := 16, windowsSince := 57, wis := 2,
      acc := accZero.set 0 ((Vector.replicate 16 0).set 13 1), chips := [0x00, 0x00, 0x00, 0xFF, 0xFF, 0xDB], pend := some 0xB,
      hdrDone := true, symExpected := 14, symRemaining := 1 } }

/-- A silent window adds nothing to the accumulators (R250). -/
theorem accumulateWindow_silent {w : List Sample} (hw : ∀ b, power w b = 0) (s : State) :
    accumulateWindow w s = { s with dec := { s.dec with wis := s.dec.wis + 1 } } := by
  have h : accumulate w s.lockedProfile s.dec.acc = s.dec.acc := by
    unfold accumulate
    ext g hg v hv
    simp [hw]
  simp [accumulateWindow, h]

/-- A silent window that ends a symbol. -/
theorem windowStep_silent {w : List Sample} (hw : ∀ b, power w b = 0) {s : State} (hp : s.dec.phase = .recording)
    (ht : timedOut s.latch.ops.timeout (windowsAfter s.dec.windowsSince) = false)
    (he : ¬s.dec.wis + 1 < (profile s.dec.rxProto).windows) : windowStep w s = afterSymbol (sliceStep
      { s with dec := { s.dec with windowsSince := windowsAfter s.dec.windowsSince, wis := s.dec.wis + 1 } }) := by
  have h1 : (countWindow s).dec.phase = .recording := hp
  have h2 : timedOut (countWindow s).latch.ops.timeout (countWindow s).dec.windowsSince = false := ht
  have h3 : ¬(countWindow s).dec.wis + 1 < (countWindow s).lockedProfile.windows := he
  simp only [windowStep, hp, countedStep, h1, h2, recordStep, h3, if_false, accumulateWindow_silent hw, reduceCtorEq,
    Bool.false_eq_true]
  rfl

/-- The silent window that ends the frame. -/
theorem takeSample_almostDone : takeSample 0 almostDone = afterSymbol (sliceStep
    { almostDone with dec := { almostDone.dec with fill := 0, windowsSince := windowsAfter 57, wis := 3 } }) := by
  have hs : storeSample 0 almostDone = { almostDone with dec := { almostDone.dec with fill := 0 } } := by
    simp [storeSample, almostDone, Decoder.reset, running, block]
  have hz : almostDone.dec.win.toList = List.replicate 1024 0 := by simp [almostDone, Decoder.reset]
  have hw : ∀ b, power { almostDone with dec := { almostDone.dec with fill := 0 } }.dec.win.toList b = 0 := by
    intro b
    show power almostDone.dec.win.toList b = 0
    rw [hz]
    exact power_zeros 1024 b
  rw [takeSample, if_pos (show almostDone.dec.fill = 1023 from rfl), hs,
    windowStep_silent hw rfl (by decide +kernel) (by decide +kernel)]
  rfl

theorem takeSample_almostDone_publishes :
    (takeSample 0 almostDone).rx.seq = 1 ∧ (takeSample 0 almostDone).rx.status = .success ∧
    (takeSample 0 almostDone).rx.len = 0 ∧ (takeSample 0 almostDone).intStatus = 0b00100 := by
  rw [takeSample_almostDone]
  decide +kernel

/-- FEED of that sample. -/
theorem step_almostDone : ∃ t, step almostDone = .next t ∧ t.intStatus = 0b00101 := by
  have hi : inputSamples almostDone = [some 0] := by decide +kernel
  have hd : decode almostDone.latch.cmd = .ok (.feed false) := by decide +kernel
  have hs : step almostDone = exec (.feed false) almostDone := by
    have ha : almostDone.agenda = [] := rfl
    have hb : almostDone.busy = true := rfl
    simp only [step, nextStep, ha, sequencerTurn, hb, if_true, sequencerStep, hd]
  have he := (execFeed_of_none (stop := false) (s := almostDone) (by decide +kernel)).2.2.2.2
  rw [hi] at he
  simp only [feedLoop, Bool.false_and, Bool.false_eq_true, if_false] at he
  refine ⟨fedState 1 (takeSample 0 almostDone), hs.trans he, ?_⟩
  rw [takeSample_almostDone]
  decide +kernel

theorem witness_InterruptBitsFollowTheirEvents :
    (∃ t, step { idle with intStatus := 0b00001, agenda := [.mmioWrite 0x010 4 0x1F] } = .next t ∧
      t.intStatus.getLsbD 0 = false) ∧
    (∃ t, step (running 0x00000110#32 idle) = .next t ∧ t.intStatus = 0b00011) ∧
    (∃ t, step almostDone = .next t ∧ t.intStatus = 0b00101) ∧
    (∃ t, step (running 0x00000031#32 (syncBlock 30 20)) = .next t ∧ t.intStatus = 0b01001) ∧
    (∃ t, step { running 0 idle with agenda := [.mmioWrite 0x008 4 1] } = .next t ∧ t.intStatus.getLsbD 4 = true) ∧
    let s := { idle with intStatus := 0b10000, intEnable := 0b10000, plat := { idle.plat with irqRoute := [7] } }
    irqLine s 7 = true ∧ irqLine s 6 = false ∧ irqLine { s with intEnable := 0b01111 } 7 = false :=
  ⟨next_of (by decide +kernel), next_of (by decide +kernel), step_almostDone, next_of (by decide +kernel), next_of (by decide +kernel),
    by decide⟩

/-- The host's operand registers set for a command from 0x100 to 0x200. -/
def prepared : State := { idle with ops := ⟨0x100, 4, 0x200, 8, 0⟩ }

/-- A command of block 1 from 0x100 to 0x300. -/
def otherRun : PeerRun := ⟨1, ⟨0x100, 4⟩, ⟨0x300, 4⟩, true⟩

/-- A host with a second block that runs that command. -/
def twoBlocks : State := { prepared with plat := { Platform.default with gtmCount := 2 }, peers := [otherRun] }

/-- FRAME_BUILD of the four bytes at 0x100 finished; the host has not read STATUS yet. -/
def unread : State := { prepared with heldIn := [⟨0x100, 4⟩], heldOut := [⟨0x200, 8⟩] }

/-- Each clause at the edges of its ranges: before and after the command's completion, and for another block's command. -/
theorem witness_BuffersBelongToTheBlock :
    (decode 0x00000110#32 = .ok (.frameBuild 1) ∧ prepared.busy = false ∧
      ∃ t, mmioWrite (prepared.plat.mmioBase + 0x008) 4 0x00000110#32 prepared = .next t ∧ t.heldIn = unread.heldIn ∧
        t.heldOut = unread.heldOut) ∧
    (unread.busy = false ∧ unread.Owned 0x100 ∧ unread.Owned 0x103 ∧ unread.OutputOwned 0x200 ∧ unread.OutputOwned 0x207 ∧
      twoBlocks.Owned 0x103 ∧ twoBlocks.OutputOwned 0x300 ∧ twoBlocks.OutputOwned 0x303) ∧
    ((∀ k < [1#8, 2#8].length, ¬unread.Owned (0x104 + k)) ∧ unread.plat.allPopulated ⟨0x104, [1#8, 2#8].length⟩ = true) ∧
    ((∀ k < 4, ¬unread.OutputOwned (0x100 + k)) ∧ unread.plat.allPopulated ⟨0x100, 4⟩ = true ∧
      unread.plat.isCoherent 0x103 = true) ∧
    (∃ t, step { unread with agenda := [.memStore 0x104 [1]] } = .next t) ∧
    (∃ t, step { unread with agenda := [.mmioRead 0x00C 4] } = .next t ∧ t.heldOut = []) ∧
    (∃ t, step { twoBlocks with agenda := [.peerFinish 1 [7]] } = .next t ∧ t.peers = [{ otherRun with running := false }]) ∧
    (∃ t, step { twoBlocks with peers := [{ otherRun with running := false }], agenda := [.peerStatus 1] } = .next t ∧
      t.peers = []) ∧
    ((∀ k < 8, ∀ p ∈ twoBlocks.peers, p.output.contains (0x200 + k) = false) ∧
      twoBlocks.plat.allPopulated ⟨0x200, 8⟩ = true ∧ ∀ k < 8, twoBlocks.plat.isCoherent (0x200 + k) = true) ∧
    (0x008 < 512 ∧ 0x010 % 4 = 0 ∧ 0x1FC < 512 ∧ (issue 0 prepared).busy = true) ∧
    1 < twoBlocks.plat.gtmCount ∧ ∀ p ∈ [{ otherRun with running := false }], p.block = 1 → p.running = false := by
  refine ⟨⟨by decide, by decide, next_of (by decide +kernel)⟩, ⟨by decide, ?_⟩, ⟨?_, by decide⟩, ⟨?_, by decide, by decide⟩,
    next_of' (by decide +kernel), next_of (by decide +kernel), next_of (by decide +kernel), next_of (by decide +kernel),
    by decide, by decide, by decide⟩ <;>
  · simp only [State.Owned, State.OutputOwned]
    decide

/-- A block 1 command's buffers, running and then ended: the host's store and load are refused until it reads STATUS (R90). -/
theorem test_otherBlocks_buffers :
    refusalOf (memStore 0x102 [1] twoBlocks) = some .bufferRace ∧ refusalOf (memLoad 0x303 1 twoBlocks) = some .bufferRace ∧
    refusalOf (steps 2 { twoBlocks with agenda := [.peerFinish 1 [7], .memLoad 0x300 1] }) = some .bufferRace ∧
    after (steps 3 { twoBlocks with agenda := [.peerFinish 1 [7], .peerStatus 1, .memLoad 0x300 1] }) (fun t => t.observed) =
      some [.bytes [7]] := by decide +kernel

/-- A second command to a block that runs one is dropped (R330). -/
theorem test_otherBlock_drops : after (peerIssue 1 ⟨0x400, 1⟩ ⟨0x500, 1⟩ twoBlocks) (fun t => t.peers) = some [otherRun] ∧
    refusalOf (peerIssue 2 ⟨0x400, 1⟩ ⟨0x500, 1⟩ twoBlocks) = some .noSuchBlock := by decide +kernel

/-- Another block's command whose own buffers share their last and first byte (R91); side by side they do not. -/
theorem test_otherBlock_overlap :
    refusalOf (peerIssue 1 ⟨0x400, 4⟩ ⟨0x403, 4⟩ { twoBlocks with peers := [] }) = some .bufferOverlap ∧
    after (peerIssue 1 ⟨0x400, 4⟩ ⟨0x404, 4⟩ { twoBlocks with peers := [] }) (fun t => t.peers) =
      some [⟨1, ⟨0x400, 4⟩, ⟨0x404, 4⟩, true⟩] := by decide +kernel

/-- What the calls give (R116, R119): "hello js" framed, the frame too long for its buffer, and FRAME_RECOVER. -/
theorem test_call_results :
    after (steps 11 { block 0 0 0 0 0 0 [] with agenda := buildFrameCall 0 1 helloJs 0x100 0x200 17 }) (bufferResult 0x200) =
      some (some (.ok helloFrame)) ∧
    after (steps 11 { block 0 0 0 0 0 0 [] with agenda := buildFrameCall 0 1 helloJs 0x100 0x200 16 }) (bufferResult 0x200) =
      some (some (.error .outputOverflow)) ∧
    after (steps 11 { block 0 0 0 0 0 0 [] with agenda := recoverFrameCall 0 1 helloFrame 0x100 0x200 8 }) (bufferResult 0x200) =
      some (some (.ok helloJs)) := by decide +kernel

/-- `decode` gives the published payload when the call's FEED published a success, and nothing when an older one did (R117). -/
theorem test_decodeResult :
    let s : State := { idle with
      rx := { Published.reset with status := .success, len := 2, data := (Published.reset.data.set 0 0x68).set 1 0x69, seq := 8 } }
    decodeResult 1 { s with observed := [.word 1, .word 8, .word 7, .word 0] } = some [0x68, 0x69] ∧
    decodeResult 1 { s with observed := [.word 1, .word 8, .word 8, .word 0] } = some [] ∧
    decodeResult 0 { s with observed := [.word 0x502, .word 8, .word 7] } = some [] ∧ decodeResult 0 idle = none := by
  decide +kernel

theorem witness_BlockRacesAreRefused :
    (otherRun.input.contains 0x100 = true ∧ otherRun.input.contains 0x103 = true ∧ otherRun.output.contains 0x303 = true) ∧
    (otherRun ∈ twoBlocks.peers ∧ otherRun.running = true ∧ twoBlocks.busy = false ∧
      ∃ r ∈ inputOf 0x00000110#32 twoBlocks.ops ++ outputOf 0x00000110#32 twoBlocks.ops, r.contains 0x103 = true) ∧
    (let s := { twoBlocks with peers := [] }
     1 < s.plat.gtmCount ∧ (⟨0x400, 4⟩ : Range).contains 0x403 = true ∧ (⟨0x403, 4⟩ : Range).contains 0x403 = true ∧
      anyOverlap [⟨0x400, 4⟩, ⟨0x403, 4⟩] (runningRanges s ++ peerRanges s) = false) ∧
    (let s := { issue 0x00000110#32 prepared with plat := twoBlocks.plat }
     1 ≤ 1 ∧ 1 < s.plat.gtmCount ∧ (∀ p ∈ s.peers, p.block = 1 → p.running = false) ∧
      ∃ r ∈ runningRanges s, r.contains 0x100 = true) ∧
    let s := { twoBlocks with plat := { twoBlocks.plat with gtmCount := 3 } }
    2 < s.plat.gtmCount ∧ (∀ p ∈ s.peers, p.block = 2 → p.running = false) ∧
      ∃ p ∈ s.peers, p.running = true ∧ p.output.contains 0x303 = true := by decide

theorem witness_PlatformResetLeavesTheSpecValues :
    { issue 0x00000110#32 prepared with agenda := [.reset, .wait] }.agenda = .reset :: [.wait] ∧
    idle.busy = false ∧ (issue 0x00000110#32 prepared).busy = true ∧
    decode (issue 0x00000110#32 prepared).latch.cmd = .ok (.frameBuild 1) ∧
    (issue 0x00000110#32 prepared).outputRange.contains 0x1FF = false ∧
    (issue 0x00000110#32 prepared).outputRange.contains 0x208 = false := by decide

theorem witness_WaitEndsWithBusyClear :
    { running 0 idle with agenda := [.wait] }.agenda = .wait :: [] ∧ { running 0 idle with agenda := [.wait] }.busy = true ∧
    Completes (sequencerStep { running 0 idle with agenda := [.wait] }) ∧ { idle with agenda := [.wait] }.busy = false :=
  ⟨rfl, rfl, next_of' (by decide +kernel), rfl⟩

theorem witness_CreateInstanceSequence : idle.busy = false ∧
    { idle with agenda := createInstance 0 Params.reset ++ [HostAction.wait] }.agenda =
      createInstance { idle with agenda := createInstance 0 Params.reset ++ [HostAction.wait] }.plat.mmioBase Params.reset ++ [HostAction.wait] ∧
    Accepted ⟨8000, 96000, 1, 64, 1⟩ ∧ ¬Accepted ⟨7999, 96000, 0, 0, 0⟩ :=
  ⟨rfl, rfl, by unfold Accepted; decide, by unfold Accepted; decide⟩

/-- SYMBOL_MAP from 0x100 to 0x200. -/
def mapping (n cap : Word) : State := block 0 0 0x100 n 0x200 cap [0x08, 0x18]

theorem witness_EveryCommandFinishes : (∃ t, exec (.symbolMap 1) (mapping 2 4) = .next t ∧ t.err = .ok) ∧
    (∃ t, exec (.symbolMap 1) (mapping 2 3) = .next t ∧ t.err ≠ .ok) ∧ ∀ stop, Instr.symbolMap 1 ≠ .feed stop :=
  ⟨next_of (by decide +kernel), next_of (by decide +kernel), by simp⟩

/-- Every check of R322, at the edge where it begins to apply. -/
theorem witness_FirstFailureIsReported :
    decode (running 0x00000004#32 idle).latch.cmd = .error .unassignedOpcode ∧
    firstFailure (.frameBuild 1) idle = some .notConfigured ∧ firstFailure (.profileQuery 12) idle = some .unsupportedProtocol ∧
    firstFailure (.encode 1 101) (block 0 0 0 0 0 0 []) = some .invalidParameters ∧
    firstFailure .config idle = some .invalidParameters ∧
    firstFailure .spectrum (block 0 0 0 2048 4 4104 []) = some .addressError ∧
    firstFailure (.feed true) (block 0 0 0xFFFFFFFE 4 0 0 []) = some .addressError ∧
    firstFailure (.frameBuild 1) (block 0 0 0 141 0 0 []) = some .payloadTooLarge ∧
    firstFailure (.frameBuild 1) (block 5 0 0 6 0 0 []) = some .payloadTooLarge ∧
    firstFailure (.symbolMap 1) (block 0 0 0 604 0 0 []) = some .payloadTooLarge ∧
    firstFailure (.render 1 0) (block 0 0 0 1207 0 0 []) = some .payloadTooLarge ∧
    firstFailure .spectrum (block 0 0 0 2046 0 4104 []) = some .bufferUnderrun ∧
    firstFailure (.frameRecover 1) (block 0 0 0 604 0 0 []) = some .decodeFECFailure ∧
    firstFailure (.frameBuild 1) (block 0 0 0 0 0 6 []) = some .outputOverflow ∧
    (firstFailure (.frameRecover 1) (block 0 0 0 0 0 0 []) = none ∧
      ∃ t, exec (.frameRecover 1) (block 0 0 0 0 0 0 []) = .next t ∧ t.err ≠ .ok) ∧
    (firstFailure (.frameRecover 1) (block 0 0 0x3000 17 0x4000 7 helloFrame) = none ∧
      (recoverFrame ⟨48000, 48000, 0, 0, 0⟩ (profile 1) helloFrame).map List.length = some 8) ∧
    (firstFailure (.feed true) { block 0 0 0 0 0 0 [] with dec := { Decoder.reset with phase := .recording } } = none ∧
      ∃ t, exec (.feed true) { block 0 0 0 0 0 0 [] with dec := { Decoder.reset with phase := .recording } } = .next t ∧
        t.err ≠ .ok) :=
  ⟨by decide, by decide, by decide, by decide, by decide, by decide, by decide, by decide, by decide, by decide, by decide,
    by decide, by decide, by decide, ⟨by decide, next_of (by decide +kernel)⟩, ⟨by decide, by decide +kernel⟩,
    ⟨by decide, next_of (by decide +kernel)⟩⟩

theorem witness_NoPartialEffect : (∃ t, exec (.symbolMap 1) (mapping 2 3) = .next t ∧ t.err ≠ .ok) ∧
    (¬∃ stop, Instr.symbolMap 1 = .feed stop ∧ Code.outputOverflow = .bufferUnderrun) ∧
    ∃ t, exec (.feed true) { block 0 0 0 0 0 0 [] with dec := { Decoder.reset with phase := .recording } } = .next t ∧
      t.err = .bufferUnderrun :=
  ⟨next_of (by decide +kernel), by simp, next_of (by decide +kernel)⟩

/-- A state whose host memory ends below 0x201. -/
def absent (s : State) : State := { s with plat := { s.plat with populated := [⟨0, 0x201⟩] } }

theorem witness_CommandsStopOnlyForTheirReasons :
    exec (.symbolMap 1) (absent (mapping 2 4)) = .fault .busError ∧
    exec (.symbolMap 1) (block 0 0 0x100 2 0x101 4 []) = .refused .bufferOverlap := ⟨rfl, rfl⟩

theorem witness_OverlapsAndBusErrorsStop :
    (firstFailure (.symbolMap 1) (block 0 0 0x100 2 0x101 4 []) = none ∧ usesInput (.symbolMap 1) = true ∧
      (block 0 0 0x100 2 0x101 4 []).inputRange.overlaps (block 0 0 0x100 2 0x101 4 []).outputRange = true) ∧
    (firstFailure (.symbolMap 1) (absent (mapping 2 4)) = none ∧
      (absent (mapping 2 4)).inputRange.overlaps (absent (mapping 2 4)).outputRange = false ∧
      (absent (mapping 2 4)).plat.isPopulated 0x203 = false ∧
      (⟨(mapping 2 4).dst, outputSize (.symbolMap 1) (mapping 2 4)⟩ : Range).contains 0x203 = true) ∧
    (firstFailure (.feed false) (absent (block 0 0 0x200 2 0 0 [])) = none ∧ Instr.feed false ≠ .feed true ∧
      (absent (block 0 0 0x200 2 0 0 [])).plat.isPopulated 0x201 = false ∧
      (⟨0x200, inputBytesRead (.feed false) (absent (block 0 0 0x200 2 0 0 []))⟩ : Range).contains 0x201 = true) ∧
    let s := absent (block 0 0 0x100 17 0x1FA 8 helloFrame)
    firstFailure (.frameRecover (1 : Fin 12)) s = none ∧ s.inputRange.overlaps s.outputRange = false ∧
      s.plat.allPopulated ⟨s.src, s.srcLen⟩ = true ∧ recoverFrame s.cfg (profile 1) (inputBytes s s.srcLen) = some helloJs ∧
      helloJs.length ≤ s.dstCap ∧ s.plat.isPopulated 0x201 = false ∧
      (⟨s.dst, helloJs.length⟩ : Range).contains 0x201 = true := by decide +kernel

theorem witness_StoringCommandFrame : usesOutput (.symbolMap 1) = true ∧
    (∃ t, exec (.symbolMap 1) (mapping 2 4) = .next t ∧ t.err = .ok) ∧ (∀ p, Instr.symbolMap 1 ≠ .frameRecover p) ∧
    ∃ t, exec (.symbolMap 1) (mapping 2 3) = .next t ∧ t.err ≠ .ok :=
  ⟨rfl, next_of (by decide +kernel), by simp, next_of (by decide +kernel)⟩

theorem witness_OtherCommandFrame : usesOutput .decoderReset = false ∧
    (∃ t, exec .decoderReset (syncBlock 5 20) = .next t) ∧ (∃ t, exec (.profileQuery 3) idle = .next t) ∧
    (∃ t, exec .config idle = .next t) ∧ (∃ t, exec .deconfig idle = .next t) ∧ (∃ t, exec .nop idle = .next t) ∧
    ∃ t, exec (.feed true) (block 0 0 0x100 2 0 0 [0x30, 0x02]) = .next t :=
  ⟨rfl, next_of' (by decide +kernel), next_of' (by decide +kernel), next_of' (by decide +kernel),
    next_of' (by decide +kernel), next_of' (by decide +kernel), next_of' (by decide +kernel)⟩

/-- R302's ranges, end by end. -/
theorem witness_ConfigResult : Accepted ⟨8000, 8000, 0, 0, 0⟩ ∧ Accepted ⟨96000, 96000, 1, 64, 1⟩ ∧
    ¬Accepted ⟨7999, 8000, 0, 0, 0⟩ ∧ ¬Accepted ⟨8000, 96001, 0, 0, 0⟩ ∧ ¬Accepted ⟨8000, 8000, 2, 0, 0⟩ ∧
    ¬Accepted ⟨8000, 8000, 0, 65, 0⟩ ∧ ¬Accepted ⟨8000, 8000, 0, 0, 2⟩ := by unfold Accepted; decide

theorem witness_DeconfigResult : 0x10 ≤ (Instr.frameBuild 1).op ∧ 0x10 ≤ (Instr.decoderReset).op ∧ idle.configured = false := by decide

theorem witness_ProfileQueryResult : 12 ≤ 12 ∧ 12 ≤ 255 ∧ after (exec (.profileQuery 12) idle) (fun t => t.err) =
    some .unsupportedProtocol := by decide +kernel

theorem witness_NopAndDecoderResetResults : (syncBlock 5 20).configured = true ∧ idle.configured = false := by decide

/-! The buffers of small and large commands respond to DMA. -/

theorem populated_default {s : State} (hs : s.plat = Platform.default) (a n : Nat) (h : a + n ≤ 2 ^ 32) :
    s.plat.allPopulated ⟨a, n⟩ = true := by
  rw [hs]
  exact allPopulated_of_inside (q := ⟨0, Config.addrSpace⟩) (by simp [Platform.default]) (Nat.zero_le _)
    (by simpa [Config.addrSpace] using h) (by simpa [Config.addrSpace] using h)

theorem witness_FrameBuildResult : firstFailure (.frameBuild 1) (block 0 0 0x2000 8 0x3000 17 helloJs) = none ∧
    DmaReady (.frameBuild 1) (frameChips ⟨48000, 48000, 0, 0, 0⟩ 8) (block 0 0 0x2000 8 0x3000 17 helloJs) ∧
    firstFailure (.frameBuild 1) (block 0 0 0x2000 140 0x3000 201 []) = none :=
  ⟨by decide, ⟨by decide, populated_default rfl _ _ (by decide), populated_default rfl _ _ (by decide)⟩, by decide⟩

theorem witness_FrameRecoverResult :
    let s := block 0 0 0x3000 17 0x4000 8 helloFrame
    firstFailure (.frameRecover (1 : Fin 12)) s = none ∧ s.inputRange.overlaps s.outputRange = false ∧
    s.plat.allPopulated ⟨s.src, s.srcLen⟩ = true ∧ s.plat.allPopulated ⟨s.dst, helloJs.length⟩ = true ∧
    recoverFrame s.cfg (profile 1) helloFrame = some helloJs ∧ recoverFrame s.cfg (profile 1) [] = none := by decide +kernel

theorem witness_SymbolMapResult : firstFailure (.symbolMap (1 : Fin 12)) (mapping 2 4) = none ∧
    DmaReady (.symbolMap (1 : Fin 12)) (2 * 2 / (profile 1).tones) (mapping 2 4) :=
  ⟨by decide, ⟨by decide, by decide, by decide⟩⟩

theorem witness_RenderResult : firstFailure (.render (1 : Fin 12) 100) (block 0 0 0x1000 1 0x8000 77824 [0xF3]) = none ∧
    DmaReady (.render (1 : Fin 12) 100) (1024 * (32 + 1 * (profile 1).windows) * 2) (block 0 0 0x1000 1 0x8000 77824 [0xF3]) :=
  ⟨by decide, ⟨by decide, populated_default rfl _ _ (by decide), populated_default rfl _ _ (by decide)⟩⟩

theorem witness_EncodeResult : firstFailure (.encode (1 : Fin 12) 10) (block 0 0 0x1000 8 0x10000 483328 helloJs) = none ∧
    DmaReady (.encode (1 : Fin 12) 10) 483328 (block 0 0 0x1000 8 0x10000 483328 helloJs) :=
  ⟨by decide, ⟨by decide, populated_default rfl _ _ (by decide), populated_default rfl _ _ (by decide)⟩⟩

/-- R212's three commands, each reading what the one before stored, and ENCODE. -/
def chain1 : Operands := ⟨0x100, 8, 0x1000, 17, 0⟩
def chain2 : Operands := ⟨0x1000, 17, 0x2000, 34, 0⟩
def chain3 : Operands := ⟨0x2000, 34, 0x10000, 483328, 0⟩
def whole : Operands := ⟨0x100, 8, 0x10000, 483328, 0⟩

/-- "hello js" waits at 0x100. -/
def payloadBlock : State := block 0 0 0x100 8 0 0 helloJs
def framed : State := storedOutput helloFrame (payloadBlock.relatch chain1)
def mapped : State := storedOutput (symbolMap (profile 1) helloFrame) (framed.relatch chain2)

theorem witness_EncodeEqualsItsThreeSteps :
    (exec (.frameBuild 1) (payloadBlock.relatch chain1) = .next framed ∧ framed.err = .ok) ∧
    (exec (.symbolMap 1) (framed.relatch chain2) = .next mapped ∧ mapped.err = .ok) ∧
    (∃ u3, exec (.render 1 10) (mapped.relatch chain3) = .next u3 ∧ u3.err = .ok) ∧
    (∃ t, exec (.encode 1 10) (payloadBlock.relatch whole) = .next t ∧ t.err = .ok) ∧
    whole.srcAddr = chain1.srcAddr ∧ whole.srcLen = chain1.srcLen ∧ chain2.srcAddr = chain1.dstAddr ∧
    chain2.srcLen = framed.resultLen ∧ chain3.srcAddr = chain2.dstAddr ∧ chain3.srcLen = mapped.resultLen := by
  have h1 := (execFrameBuild_of_none (p := 1) (s := payloadBlock.relatch chain1) (by decide +kernel)).2.1
  have h2 := (execSymbolMap_of_none (p := 1) (s := framed.relatch chain2) (by decide +kernel)).2.1
  have h3 := (execRender_of_none (p := 1) (vol := 10) (s := mapped.relatch chain3) (by decide +kernel)).2.1
  have h4 := (execEncode_of_none (p := 1) (vol := 10) (s := payloadBlock.relatch whole) (by decide +kernel)).2.1
  have hr : ∀ sy : List Byte, sy.length = 34 → (renderBytes payloadBlock.cfg (profile 1) 10 sy).length = 483328 := by
    intro sy h
    rw [renderBytes_length, h]
    decide
  have hb : frameBuild payloadBlock.cfg (profile 1) (inputBytes (payloadBlock.relatch whole) 8) = .ok helloFrame := by
    decide +kernel
  have he : encodeBytes payloadBlock.cfg (profile 1) 10 (inputBytes (payloadBlock.relatch whole) 8) =
      .ok (renderBytes payloadBlock.cfg (profile 1) 10 (symbolMap (profile 1) helloFrame)) := by
    unfold encodeBytes; rw [hb]
  refine ⟨⟨h1.trans (transfer_ok (by decide +kernel) (by decide +kernel) (by decide +kernel) (by decide +kernel)), rfl⟩,
    ⟨h2.trans (transfer_ok (out := symbolMap (profile 1) helloFrame) (by decide +kernel) (by decide +kernel) ?_
      (by decide +kernel)), rfl⟩,
    ⟨_, h3.trans (transfer_ok (by decide +kernel) (by decide +kernel) rfl ?_), rfl⟩,
    ⟨_, h4.trans (transfer_ok (by decide +kernel) (by decide +kernel) he ?_), rfl⟩,
    by decide, by decide, by decide, by decide +kernel, by decide, by decide +kernel⟩
  · have : inputBytes (framed.relatch chain2) 17 = helloFrame := by decide +kernel
    exact congrArg (fun x => Except.ok (symbolMap (profile 1) x)) this
  · refine populated_default rfl _ _ (le_of_eq_of_le (congrArg ((mapped.relatch chain3).dst + ·) (hr _ ?_)) ?_)
    · exact (List.length_map _).trans List.length_range
    · decide +kernel
  · refine populated_default rfl _ _ (le_of_eq_of_le (congrArg ((payloadBlock.relatch whole).dst + ·) (hr _ ?_)) ?_) <;> decide +kernel

theorem witness_SpectrumResult : firstFailure .spectrum (block 0 0 0x1000 2048 0x2000 4104 []) = none ∧
    DmaReady .spectrum 4104 (block 0 0 0x1000 2048 0x2000 4104 []) ∧ (0 ≤ 512 ∧ 512 ≤ 512) :=
  ⟨by decide +kernel, ⟨by decide +kernel, populated_default rfl _ _ (by decide +kernel), populated_default rfl _ _ (by decide +kernel)⟩,
    by decide⟩

theorem witness_FeedResult : firstFailure (.feed true) (block 0 0 0x100 4 0 0 []) = none ∧
    firstFailure (.feed false) (block 0 0 0xFFFFFFFE 2 0 0 []) = none ∧
    (block 0 0 0x100 4 0 0 []).plat.allPopulated ⟨0x100, 4⟩ = true ∧
    (block 0 0 0xFFFFFFFE 2 0 0 []).plat.allPopulated ⟨0xFFFFFFFE, 2⟩ = true := by decide +kernel

theorem witness_FeedSplitDoesNotMatter : (syncBlock 5 20).configured = true ∧ (0x100#32).toNat % (syncBlock 5 20).cfg.sampleBytes = 0 ∧
    (2#32).toNat % (syncBlock 5 20).cfg.sampleBytes = 0 ∧ (4#32).toNat % (syncBlock 5 20).cfg.sampleBytes = 0 ∧
    (0x100#32).toNat + (2#32).toNat + (4#32).toNat ≤ 2 ^ 32 ∧ (2#32).toNat + (4#32).toNat < 2 ^ 32 ∧
    ∃ t, exec (.feed false) ((syncBlock 30 20).withSource 0x100 2) = .next t ∧
      ∃ u, exec (.feed false) (t.withSource (0x100 + 2) 4) = .next u := by
  refine ⟨by decide, by decide, by decide, by decide, by decide, by decide, ?_⟩
  obtain ⟨t, ht, h⟩ := next_of (o := exec (.feed false) ((syncBlock 30 20).withSource 0x100 2))
    (P := fun t => after (exec (.feed false) (t.withSource (0x100 + 2) 4)) (fun _ => true) = some true) (by decide +kernel)
  exact ⟨t, ht, next_of' h⟩

theorem witness_RsEncodeGivesTheCodeword : (List.replicate 253 (1 : Byte)).length + 2 ≤ 255 ∧ ([0x01] : List Byte).length + 2 ≤ 255 ∧
    ([0x03, 0x02] : List Byte).length = 2 ∧ isCodeword ([0x01] ++ [0x03, 0x02]) 2 = true := by decide +kernel

theorem witness_RsDecodeIsBoundedDistance : ([0x01, 0x00, 0x02] : List Byte).length = 1 + 2 ∧ 1 + 2 ≤ 255 ∧
    (List.replicate 255 (0 : Byte)).length = 200 + 55 ∧ 200 + 55 ≤ 255 := by decide +kernel

theorem witness_DespreadRestoresTheFrame :
    (0 < ([0x41] : List Byte).length ∧ 0 < 3 ∧ 2 < 3) ∧ ([1, 2, 3] : List Byte).length % 3 = 0 ∧
    (((spread [0x41]).set 0 0xFF).length = 3 * ([0x41] : List Byte).length ∧
      ∀ q < 3, q ≠ 0 → (((spread [0x41]).set 0 0xFF).getD (3 * 0 + q) 0).getLsbD 7 =
        ((spread [0x41]).getD (3 * 0 + q) 0).getLsbD 7) := by decide +kernel

theorem witness_FrameLength : (⟨48000, 48000, 0, 0, 0⟩ : Params).valid = true ∧
    frameBuild ⟨48000, 48000, 0, 0, 0⟩ (profile 1) helloJs = .ok helloFrame := by decide +kernel

theorem witness_FrameRoundTrip : (⟨48000, 48000, 0, 5, 0⟩ : Params).valid = true ∧
    frameBuild ⟨48000, 48000, 0, 5, 0⟩ (profile 7) [0x68, 0x69] =
      .ok [0x68, 0x69, 0x00, 0x00, 0x00, 0xA0, 0x58, 0x93, 0xBE, 0x88, 0x5C] := by decide +kernel

theorem witness_FrameCorrectionBound :
    let c : Params := ⟨48000, 48000, 0, 0, 0⟩
    let chips := ((helloFrame.set 2 0x11).set 5 0x93).set 16 0xFC
    c.valid = true ∧ frameBuild c (profile 1) helloJs = .ok helloFrame ∧ chips.length = helloFrame.length ∧
    hamming ((frameBytes c chips).take 3) ((frameBytes c helloFrame).take 3) = 1 ∧
    hamming ((frameBytes c chips).drop 3) ((frameBytes c helloFrame).drop 3) = 2 ∧ ecc 10 / 2 = 2 := by decide +kernel

theorem witness_MarkerBinsAreReserved : 1 < (profile 6).tones ∧ 0 < (profile 0).tones ∧ ¬1 < (profile 0).tones ∧ 15 < 16 := by decide

theorem witness_RenderedSampleValues : 100 ≤ 100 ∧ 1023 < 1024 ∧ (schedule (profile 1) [0xF3])[16]? = some [51] ∧
    (schedule (profile 7) [0x21])[16]? = some [49, 66] ∧ (schedule (profile 0) [])[0]? = some [24] ∧
    (schedule (profile 0) [])[31]? = some [26] := by decide +kernel

theorem witness_PowerBound : ([] : List Sample).length ≤ 1024 ∧ (List.replicate 1024 (0x8000 : Sample)).length ≤ 1024 :=
  ⟨Nat.zero_le _, le_of_eq List.length_replicate⟩

/-- The value of a normal encoding from its fields (R77). -/
theorem f32Value_normal {x : Word} {e f : Nat} {b : Bool} (hb : x.getLsbD 31 = b)
    (he : ((x >>> 23) &&& 0xFF#32).toNat = e) (hf : (x &&& 0x7FFFFF#32).toNat = f)
    (h0 : e ≠ 0) : f32Value x = (if b then -1 else 1) * ((1 + (f : ℚ) / 2 ^ 23) * 2 ^ ((e : ℤ) - 127)) := by
  simp only [f32Value, hb, he, hf, h0, if_false]

/-- 1.0, -1.0, 1.5/32768 (a tie); NaN; the infinities. -/
theorem witness_FloatConversion :
    (((0x3F800000#32 >>> 23) &&& 0xFF#32).toNat ≠ 255 ∧ 32767 ≤ f32Value 0x3F800000 * 32768) ∧
    (((0xBF800000#32 >>> 23) &&& 0xFF#32).toNat ≠ 255 ∧ f32Value 0xBF800000 * 32768 ≤ -32768) ∧
    (-32768 < f32Value 0x38400000 * 32768 ∧ f32Value 0x38400000 * 32768 < 32767 ∧
      |((fromF32 0x38400000).toInt : ℚ) - f32Value 0x38400000 * 32768| = 1 / 2) ∧
    (((0x7FC00000#32 >>> 23) &&& 0xFF#32).toNat = 255 ∧ 0x7FC00000#32 &&& 0x7FFFFF#32 ≠ 0) ∧
    (((0xFF800000#32 >>> 23) &&& 0xFF#32).toNat = 255 ∧ 0xFF800000#32 &&& 0x7FFFFF#32 = 0) ∧
    (⟨48000, 48000, 0, 0, 0⟩ : Params).format = 0 ∧ (⟨48000, 48000, 1, 0, 0⟩ : Params).format = 1 := by
  have e1 : f32Value 0x3F800000 = 1 := by
    rw [f32Value_normal (e := 127) (f := 0) (b := false) (by decide) (by decide) (by decide) (by decide)]; norm_num
  have e2 : f32Value 0xBF800000 = -1 := by
    rw [f32Value_normal (e := 127) (f := 0) (b := true) (by decide) (by decide) (by decide) (by decide)]; norm_num
  have e3 : f32Value 0x38400000 = 3 / 65536 := by
    rw [f32Value_normal (e := 112) (f := 0x400000) (b := false) (by decide) (by decide) (by decide) (by decide)]; norm_num
  have e4 : (fromF32 0x38400000).toInt = 2 := by decide +kernel
  rw [e1, e2, e3, e4]
  exact ⟨⟨by decide, by norm_num⟩, ⟨by decide, by norm_num⟩, ⟨by norm_num, by norm_num, by norm_num⟩, by decide, by decide, rfl, rfl⟩

/-- Two samples a quarter period of bin 4 apart: they add up at the bins that are multiples of 4 (every start marker) and cancel at
the bins between two of them (every end marker). -/
def twoPulses : List Sample := 32767 :: (List.replicate 255 0 ++ [32767])

theorem correlate_twoPulses (wave : Nat → Int) (b : Nat) : correlate wave b twoPulses =
    32767 * wave 0 + 32767 * wave (b * 256) := by
  have hz : (((List.replicate 255 (0 : Sample)).zipIdx 1).map fun x => x.1.toInt * wave (b * x.2)).sum = 0 := by
    apply List.sum_eq_zero
    intro x hx
    simp only [List.mem_map, Prod.exists] at hx
    obtain ⟨a, i, hm, rfl⟩ := hx
    have := List.mem_zipIdx hm
    simp only [List.getElem_replicate] at this
    rw [this.2.2]
    simp
  simp only [correlate, twoPulses, List.zipIdx_cons, List.zipIdx_append, List.map_cons, List.map_append, List.sum_cons,
    List.sum_append, hz, List.length_replicate, List.zipIdx_nil, List.map_nil, List.sum_nil]
  simp

theorem power_twoPulses (b : Nat) : power twoPulses b =
    (asr15 (32767 * cosineAt 0 + 32767 * cosineAt (b * 256)) * asr15 (32767 * cosineAt 0 + 32767 * cosineAt (b * 256))
      + asr15 (-(32767 * sineAt 0 + 32767 * sineAt (b * 256))) * asr15 (-(32767 * sineAt 0 + 32767 * sineAt (b * 256)))).toNat := by
  simp only [power, correlate_twoPulses]

theorem markerOn_twoPulses : markerOn twoPulses (profile 0) = true := by
  simp only [markerOn, power_twoPulses]
  decide +kernel

/-- Every start marker is on, all equally strong: the lowest id wins. -/
theorem witness_ListenPicksTheStrongestMarker : idle.dec.phase = .listening ∧
    (∀ q : Fin 12, markerOn [] (profile q) = false) ∧ markerOn twoPulses (profile 0) = true ∧
    ∀ r : Fin 12, markerOn twoPulses (profile r) = true →
      power twoPulses (profile r).markerStart ≤ power twoPulses (profile 0).markerStart ∧
      (power twoPulses (profile r).markerStart = power twoPulses (profile 0).markerStart → 0 ≤ r) := by
  refine ⟨by decide, by decide +kernel, markerOn_twoPulses, ?_⟩
  simp only [markerOn, power_twoPulses]
  decide +kernel

theorem witness_SynchronizingCountsMarkers : markerOn [] (profile (syncBlock 5 20).dec.rxProto) = false ∧
    markerOn twoPulses (profile (syncBlock 5 20).dec.rxProto) = true ∧ (syncBlock 5 20).dec.markerCount ≠ 15 ∧
    { (syncBlock 5 20).dec with markerCount := 15 }.markerCount = 15 :=
  ⟨by decide +kernel, markerOn_twoPulses, by decide, rfl⟩

/-- The counts about the timeout, and no timeout. -/
theorem witness_TimeoutPublishesAFailure : (syncBlock 20 20).dec.phase ≠ .listening ∧
    ((syncBlock 20 20).latch.ops.timeout ≠ 0 ∧
      (syncBlock 20 20).latch.ops.timeout.toNat < min ((syncBlock 20 20).dec.windowsSince.toNat + 1) (2 ^ 32 - 1)) ∧
    min ((syncBlock 19 20).dec.windowsSince.toNat + 1) (2 ^ 32 - 1) ≤ (syncBlock 19 20).latch.ops.timeout.toNat ∧
    (syncBlock 0xFFFFFFFF 0).latch.ops.timeout = 0 := by decide +kernel

theorem witness_SliceTakesTheLowestStrongestTone :
    ∀ u : Fin 16, (Vector.replicate 16 (7 : Acc))[u].toNat ≤ (Vector.replicate 16 (7 : Acc))[(15 : Fin 16)].toNat := by decide +kernel

/-- The chip 0x68 of "h": tones 8 and 6 at once under profile 7, and 8 then 6 under profile 1 (R202, R252). -/
theorem test_slice_nibbles :
    let group (v : Fin 16) : Vector Acc 16 := (Vector.replicate 16 0).set v 5
    (sliceStep { idle with dec := { Decoder.reset with rxProto := 7, acc := #v[group 8, group 6] } }).dec.chips = [0x68] ∧
    (sliceStep { idle with dec := { Decoder.reset with rxProto := 1, acc := #v[group 8, group 0] } }).dec.pend = some 8 ∧
    (sliceStep { idle with dec := { Decoder.reset with rxProto := 1, pend := some 8, acc := #v[group 6, group 0] } }).dec.chips =
      [0x68] := by decide +kernel

theorem witness_PublicationEndsAWindow :
    ((takeSample 0 almostDone).rx.seq ≠ almostDone.rx.seq ∧ (takeSample 0 almostDone).rx.status = .success) ∧
    (takeSample 0 (syncBlock 20 20)).rx.seq ≠ (syncBlock 20 20).rx.seq ∧
    (takeSample 0 (syncBlock 20 20)).rx.status = .failure := by
  refine ⟨⟨?_, takeSample_almostDone_publishes.2.1⟩, by decide +kernel, by decide +kernel⟩
  rw [takeSample_almostDone_publishes.1]
  decide +kernel

theorem witness_SilencePublishesNothing : idle.dec.phase = .listening ∧ idle.dec.fill = 0 := by decide

theorem witness_StepKeepsTheMemoryForm : MemoryInv (running 0x00000120#32 (mapping 2 4)) ∧
    ∃ t, step (running 0x00000120#32 (mapping 2 4)) = .next t ∧ t.mem ≠ (mapping 2 4).mem :=
  ⟨by unfold MemoryInv; decide +kernel, next_of (by decide +kernel)⟩

/-- A decoder in the middle of a recording, and the step that ends it. -/
theorem witness_StepKeepsTheInstanceWellFormed : ConfigInv almostDone ∧ DecoderInv almostDone ∧ ∃ t, step almostDone = .next t := by
  refine ⟨⟨by decide +kernel, by decide +kernel⟩, ⟨by decide +kernel, by decide +kernel, by decide +kernel, fun _ => ?_⟩, ?_⟩
  · exact { marker := rfl, incomplete := by decide +kernel, remaining := by decide +kernel, nibbles := by decide +kernel,
            header := by decide +kernel, frame := fun _ => ⟨0, by decide, by decide +kernel⟩, sums := by decide +kernel }
  · obtain ⟨t, ht, -⟩ := step_almostDone
    exact ⟨t, ht⟩

theorem published_almostDone : PublishedInv almostDone ∧ CodesInv almostDone :=
  ⟨⟨by decide +kernel, by decide +kernel, by decide +kernel, by decide +kernel⟩, by unfold CodesInv; decide +kernel⟩

theorem witness_StepKeepsTheResultsLegal : PublishedInv almostDone ∧ CodesInv almostDone ∧
    ∃ t, step almostDone = .next t ∧ t.intStatus = 0b00101 :=
  ⟨published_almostDone.1, published_almostDone.2, step_almostDone⟩

theorem witness_ChipBufferBound : ConfigInv almostDone ∧ DecoderInv almostDone :=
  ⟨witness_StepKeepsTheInstanceWellFormed.1, witness_StepKeepsTheInstanceWellFormed.2.1⟩

end Sys2Proof.Machine.Tests
end

/-! # Commands: the shape they share, the codes they leave, what each can do (R322, R331) -/

namespace Sys2Proof.Machine

/-! ## The shape of the storing commands -/

/-- What every storing command ends with: the checks of R322, and the transfer where none applies. -/
def checkedTransfer (checks : List (Bool × Code)) (n : Nat) (f : List Byte → Except Code (List Byte)) (s : State) : Out :=
  match firstError checks with
  | some c => complete c s
  | none => transfer n f s

/-- What FRAME_BUILD, FRAME_RECOVER, SYMBOL_MAP, RENDER and ENCODE share, `q?` being the profile their PROTO names. -/
def protoCommand (q? : Option Profile) (checks : Profile → List (Bool × Code)) (n : Nat)
    (f : Profile → List Byte → Except Code (List Byte)) (s : State) : Out :=
  if !s.configured then complete .notConfigured s
  else match q? with
    | none => complete .unsupportedProtocol s
    | some q => checkedTransfer (checks q) n (f q) s

/-! ## Completion codes -/

/-- A code a command can leave in STATUS.ERR (R320, R340). -/
abbrev Code.Leavable (c : Code) : Prop := c ≠ .decodeSyncTimeout ∧ c ≠ .busError

theorem codesInv_of_complete {c : Code} {s t : State} (hc : c.Leavable) (h : complete c s = .next t) : CodesInv t := by
  rw [eq_finish_of_complete h]; exact hc

theorem codesInv_of_transfer {n : Nat} {f : List Byte → Except Code (List Byte)} {s t : State}
    (hf : ∀ bs c, f bs = .error c → c.Leavable) (h : transfer n f s = .next t) : CodesInv t := by
  obtain ⟨-, -, ⟨c, hc, rfl⟩ | ⟨out, -, -, rfl⟩⟩ := transfer_next h
  · exact hf _ c hc
  · exact ⟨nofun, nofun⟩

theorem codesInv_of_checkedTransfer {checks : List (Bool × Code)} {n : Nat} {f : List Byte → Except Code (List Byte)}
    {s t : State} (hchecks : ∀ x ∈ checks, x.2.Leavable) (hf : ∀ bs c, f bs = .error c → c.Leavable)
    (h : checkedTransfer checks n f s = .next t) : CodesInv t := by
  unfold checkedTransfer at h
  split at h
  next c hc => exact codesInv_of_complete (hchecks _ (mem_of_firstError hc)) h
  · exact codesInv_of_transfer hf h

theorem codesInv_of_protoCommand {q? : Option Profile} {checks : Profile → List (Bool × Code)} {n : Nat}
    {f : Profile → List Byte → Except Code (List Byte)} {s t : State} (hchecks : ∀ q, ∀ x ∈ checks q, x.2.Leavable)
    (hf : ∀ q bs c, f q bs = .error c → c.Leavable) (h : protoCommand q? checks n f s = .next t) : CodesInv t := by
  unfold protoCommand at h
  split at h
  · exact codesInv_of_complete (by decide) h
  · split at h
    · exact codesInv_of_complete (by decide) h
    · exact codesInv_of_checkedTransfer (hchecks _) (hf _) h

theorem frameBuild_error {c : Params} {q : Profile} {bs : List Byte} {e : Code} (h : frameBuild c q bs = .error e) :
    e = .payloadTooLarge := by
  unfold frameBuild at h
  split at h <;> cases h
  rfl

theorem recoverInto_error {c : Params} {q : Profile} {n : Nat} {bs : List Byte} {e : Code}
    (h : recoverInto c q n bs = .error e) : e = .decodeFECFailure ∨ e = .outputOverflow := by
  unfold recoverInto at h
  split at h
  · cases h; exact .inl rfl
  · split at h <;> cases h
    exact .inr rfl

theorem encodeBytes_error {c : Params} {q : Profile} {vol : Nat} {bs : List Byte} {e : Code}
    (h : encodeBytes c q vol bs = .error e) : e = .payloadTooLarge := by
  unfold encodeBytes at h
  split at h
  next e' he => cases h; exact frameBuild_error he
  · cases h

theorem execSpectrum_codesInv {s t : State} (h : execSpectrum s = .next t) : CodesInv t := by
  unfold execSpectrum at h
  split at h
  · exact codesInv_of_complete (by decide) h
  · exact codesInv_of_checkedTransfer (n := 1024 * s.cfg.sampleBytes) (by simp [Code.Leavable]) (by simp) h

/-- The six commands with an output leave a code of R320 that is neither DecodeSyncTimeout nor BusError. -/
theorem exec_output_codesInv {i : Instr} {s t : State} (hi : usesOutput i = true) (h : exec i s = .next t) : CodesInv t := by
  cases i with
  | frameBuild p =>
    refine codesInv_of_protoCommand (by simp [Code.Leavable]) (fun q bs c hc => ?_)
      (show protoCommand (profile? p) _ s.srcLen _ s = .next t from h)
    rw [frameBuild_error hc]; decide
  | frameRecover p =>
    refine codesInv_of_protoCommand (by simp [Code.Leavable]) (fun q bs c hc => ?_)
      (show protoCommand (profile? p) _ s.srcLen _ s = .next t from h)
    rcases recoverInto_error hc with rfl | rfl <;> decide
  | symbolMap p =>
    exact codesInv_of_protoCommand (by simp [Code.Leavable]) (by simp)
      (show protoCommand (profile? p) _ s.srcLen _ s = .next t from h)
  | render p v =>
    exact codesInv_of_protoCommand (by simp [Code.Leavable]) (by simp)
      (show protoCommand (profile? p) _ s.srcLen _ s = .next t from h)
  | encode p v =>
    refine codesInv_of_protoCommand (by simp [Code.Leavable]) (fun q bs c hc => ?_)
      (show protoCommand (profile? p) _ s.srcLen _ s = .next t from h)
    rw [encodeBytes_error hc]; decide
  | spectrum => exact execSpectrum_codesInv h
  | nop => cases hi
  | config => cases hi
  | deconfig => cases hi
  | profileQuery p => cases hi
  | feed b => cases hi
  | decoderReset => cases hi

/-! ## What a command can do -/

theorem execFeed_unconfigured {stop : Bool} {s : State} (h : s.configured = false) :
    execFeed stop s = .next (finish .notConfigured s) := by simp [execFeed, h, complete]

/-- What a command can do: finish and leave configuration, decoder and result as they were; CONFIG and DECONFIG make them
fresh, DECODER_RESET resets the decoder, and FEED runs its loop, the last two only with a configuration (R306, R331). -/
theorem exec_cases {i : Instr} {s t : State} (h : exec i s = .next t) :
    (SameInstance s t ∧ CodesInv t ∧ t.intStatus = s.intStatus ||| completionBits t.err) ∨
      (s.latch.par.valid = true ∧
        t = finish .ok (freshInstance { s with cfg := s.latch.par, configured := true, resultLen := 0 })) ∨
      t = finish .ok (freshInstance { s with cfg := Params.zero, configured := false, resultLen := 0 }) ∨
      (s.configured = true ∧ t = finish .ok { s with dec := s.dec.decoderReset, resultLen := 0 }) ∨
      (s.configured = true ∧
        ∃ stop k u, i = .feed stop ∧ feedLoop stop (inputSamples s) 0 s = some (k, u) ∧ t = fedState k u) := by
  have finished (c : Code) (hc : c.Leavable) : SameInstance s (finish c s) ∧ CodesInv (finish c s) ∧
      (finish c s).intStatus = s.intStatus ||| completionBits (finish c s).err := ⟨finish_sameInstance c s, hc, rfl⟩
  by_cases hi : usesOutput i = true
  · have hcode := exec_output_codesInv hi h
    obtain ⟨c, -, rfl⟩ | ⟨out, -, rfl⟩ := exec_output_next hi h
    · exact .inl (finished c hcode)
    · exact .inl ⟨storedOutput_sameInstance out s, hcode, rfl⟩
  · cases i with
    | nop => cases (execNop_eq s).symm.trans h; exact .inl ⟨⟨rfl, rfl, rfl, rfl⟩, ⟨nofun, nofun⟩, rfl⟩
    | config =>
      have h' := (execConfig_eq s).symm.trans h
      split at h' <;> cases h'
      next hv => exact .inr (.inl ⟨hv, rfl⟩)
      · exact .inl (finished _ (by decide))
    | deconfig => cases (execDeconfig_eq s).symm.trans h; exact .inr (.inr (.inl rfl))
    | profileQuery p =>
      have h' := (execProfileQuery_eq p s).symm.trans h
      split at h' <;> cases h'
      · exact .inl ⟨⟨rfl, rfl, rfl, rfl⟩, ⟨nofun, nofun⟩, rfl⟩
      · exact .inl (finished _ (by decide))
    | decoderReset =>
      have h' := (execDecoderReset_eq s).symm.trans h
      split at h' <;> cases h'
      next hc => exact .inr (.inr (.inr (.inl ⟨hc, rfl⟩)))
      · exact .inl (finished _ (by decide))
    | feed stop =>
      cases hc : s.configured with
      | false => cases (execFeed_unconfigured hc).symm.trans h; exact .inl (finished _ (by decide))
      | true =>
        obtain ⟨c, hcode, rfl⟩ | ⟨k, u, hl, rfl⟩ := execFeed_next (show execFeed stop s = .next t from h)
        · exact .inl (finished c (by rcases hcode with rfl | rfl <;> decide))
        · exact .inr (.inr (.inr (.inr ⟨rfl, stop, k, u, rfl, hl, rfl⟩)))
    | frameBuild p => exact absurd rfl hi
    | frameRecover p => exact absurd rfl hi
    | symbolMap p => exact absurd rfl hi
    | render p v => exact absurd rfl hi
    | encode p v => exact absurd rfl hi
    | spectrum => exact absurd rfl hi

/-! ## FEED's loop -/

theorem DecoderMoved.configured {s t : State} (h : DecoderMoved s t) : t.configured = s.configured := by rw [h.others]

theorem DecoderMoved.cfg {s t : State} (h : DecoderMoved s t) : t.cfg = s.cfg := by rw [h.others]

/-- What every sample keeps, FEED's loop keeps. -/
theorem feedLoop_keeps {P : State → Prop} (hP : ∀ x s, P s → P (takeSample x s)) {stop : Bool}
    {xs : List (Option Sample)} {n k : Nat} {s t : State} (h : feedLoop stop xs n s = some (k, t)) (hs : P s) : P t := by
  induction xs generalizing n s with
  | nil =>
    simp only [feedLoop, Option.some.injEq, Prod.mk.injEq] at h
    exact h.2 ▸ hs
  | cons x xs ih =>
    cases x with
    | none => simp [feedLoop] at h
    | some x =>
      simp only [feedLoop] at h
      split at h
      · simp only [Option.some.injEq, Prod.mk.injEq] at h
        exact h.2 ▸ hP x s hs
      · exact ih h (hP x s hs)

end Sys2Proof.Machine

/-! # The decoder's invariant, kept sample by sample (R245 to R256), and the bound on its chips (R166) -/

namespace Sys2Proof.Machine

/-! ## Powers -/

theorem sample_abs_le (x : Sample) : |x.toInt| ≤ 32768 := by
  rw [abs_le]; constructor
  · have := BitVec.le_toInt x; norm_num at this ⊢; omega
  · have := BitVec.toInt_lt (x := x); norm_num at this ⊢; omega

/-- A window's correlation with a wave of the sine ROM's amplitude (R241). -/
theorem correlate_abs_le {wave : Nat → Int} (hw : ∀ k, |wave k| ≤ 32767) (b : Nat) {w : List Sample}
    (hl : w.length ≤ 1024) : |correlate wave b w| ≤ 1024 * (32768 * 32767) := by
  have hterm : ∀ y ∈ w.zipIdx.map (fun x => x.1.toInt * wave (b * x.2)), |y| ≤ 32768 * 32767 := by
    intro y hy
    obtain ⟨x, -, rfl⟩ := List.mem_map.1 hy
    rw [abs_mul]
    exact mul_le_mul (sample_abs_le _) (hw _) (abs_nonneg _) (by norm_num)
  have hupper := List.sum_le_card_nsmul _ _ fun y hy => (abs_le.1 (hterm y hy)).2
  have hlower := List.card_nsmul_le_sum _ _ fun y hy => (abs_le.1 (hterm y hy)).1
  simp only [List.length_map, List.length_zipIdx, nsmul_eq_mul] at hupper hlower
  unfold correlate
  rw [abs_le]
  constructor <;> omega

theorem asr15_sq_le {a : Int} (h : |a| ≤ 1024 * (32768 * 32767)) : asr15 a * asr15 a ≤ (1024 * 32767) ^ 2 := by
  rw [abs_le] at h
  have h1 : -(1024 * 32767) ≤ asr15 a := by unfold asr15; omega
  have h2 : asr15 a ≤ 1024 * 32767 := by unfold asr15; omega
  nlinarith

/-- The power of a window at any bin is below `2^51` (R242). -/
theorem power_lt_two_pow_51 {w : List Sample} (hl : w.length ≤ 1024) (b : Nat) : power w b < 2 ^ 51 := by
  have hre := asr15_sq_le (correlate_abs_le (fun k => sineRom_abs_le ((k + 256) % 1024)) b hl)
  have him := asr15_sq_le (a := -correlate sineAt b w)
    (by rw [abs_neg]; exact correlate_abs_le (fun k => sineRom_abs_le (k % 1024)) b hl)
  have : power w b = (asr15 (correlate cosineAt b w) * asr15 (correlate cosineAt b w)
    + asr15 (-correlate sineAt b w) * asr15 (-correlate sineAt b w)).toNat := rfl
  change asr15 (correlate cosineAt b w) * asr15 (correlate cosineAt b w) ≤ _ at hre
  rw [this]
  omega

/-! ## Symbol counts -/

theorem symbolCount_add (p : Fin 12) (m n : Nat) :
    symbolCount (profile p) (m + n) = symbolCount (profile p) m + symbolCount (profile p) n := by
  unfold symbolCount
  rcases profile_tones p with h | h <;> rw [h] <;> omega

/-- `nSym(m)` symbols of `T` tones hold `2 m` nibbles (R202). -/
theorem symbolCount_mul_tones (p : Fin 12) (m : Nat) : symbolCount (profile p) m * (profile p).tones = 2 * m := by
  unfold symbolCount
  rcases profile_tones p with h | h <;> rw [h] <;> omega

theorem symbolCount_bounds (p : Fin 12) (m : Nat) :
    m ≤ symbolCount (profile p) m ∧ symbolCount (profile p) m ≤ 2 * m := by
  unfold symbolCount
  rcases profile_tones p with h | h <;> rw [h] <;> omega

theorem symbolCount_toNat (p : Fin 12) {m : Nat} (h : m ≤ 603) :
    (BitVec.ofNat 32 (symbolCount (profile p) m)).toNat = symbolCount (profile p) m := by
  have := (symbolCount_bounds p m).2
  rw [BitVec.toNat_ofNat, Nat.mod_eq_of_lt (by omega)]

theorem chipsPerByte_bounds (c : Params) : 1 ≤ chipsPerByte c ∧ chipsPerByte c ≤ 3 := by
  unfold chipsPerByte; split <;> decide

theorem fixedLen_le {c : Params} (hc : c.valid = true) : c.fixedLen ≤ 64 := by
  simp only [Params.valid, Bool.and_eq_true, decide_eq_true_eq] at hc
  exact hc.1.2

/-- A variable-length frame has its header and at least one chip more (R165). -/
theorem header_lt_frameChips {c : Params} (h0 : c.fixedLen = 0) (n : Nat) :
    3 * chipsPerByte c < frameChips c n := by
  have hx := (chipsPerByte_bounds c).1
  have hb : 2 ≤ bodyData c n := by unfold bodyData; omega
  unfold frameChips headerBytes
  rw [if_pos h0]
  nlinarith

/-- The chips a recording begins with: a header's or a fixed-length frame's (R249). -/
theorem beginChips_bounds {c : Params} (hc : c.valid = true) :
    0 < (if 0 < c.fixedLen then frameChips c c.fixedLen else 3 * chipsPerByte c) ∧
      (if 0 < c.fixedLen then frameChips c c.fixedLen else 3 * chipsPerByte c) ≤ 603 := by
  have hx := chipsPerByte_bounds c
  have hf := fixedLen_le hc
  split
  · have := frameChips_le hc (n := c.fixedLen) (by omega)
    split at this <;> omega
  · omega

/-! ## The decoder's invariant -/

theorem ConfigInv.congr {s t : State} (h : ConfigInv s) (hcf : t.configured = s.configured) (hc : t.cfg = s.cfg)
    (hd : t.dec = s.dec) : ConfigInv t := by unfold ConfigInv; rw [hcf, hc, hd]; exact h

theorem DecoderInv.congr {s t : State} (h : DecoderInv s) (hc : t.cfg = s.cfg) (hd : t.dec = s.dec) : DecoderInv t := by
  obtain ⟨h1, h2, h3, h4⟩ := h
  constructor <;> simpa only [hc, hd]

/-- A decoder that was reset is well formed. -/
theorem decoderInv_of_reset {s : State} (h : s.dec = s.dec.machineReset) : DecoderInv s := by
  have hp : s.dec.phase = .listening := by rw [h]; rfl
  exact ⟨by simp [hp], fun _ => h, by simp [hp], by simp [hp]⟩

theorem decoderInv_of_recording {s : State} (hp : s.dec.phase = .recording) (h : RecordingInv s.cfg s.dec) : DecoderInv s :=
  ⟨by simp [hp], by simp [hp], by simp [hp], fun _ => h⟩

theorem decoderInv_publish (r : RxStatus) (c : Code) (p : List Byte) (s : State) : DecoderInv (publish r c p s) :=
  decoderInv_of_reset rfl

theorem storeSample_decoderInv {s : State} (h : DecoderInv s) (x : Sample) : DecoderInv (storeSample x s) where
  settled := h.settled
  listening hp :=
    congrArg (fun d : Decoder => { d with win := s.dec.win.set s.dec.fill x, fill := s.dec.fill + 1 }) (h.listening hp)
  synchronizing hp := by
    obtain ⟨h1, h2, h3⟩ := h.synchronizing hp
    refine ⟨h1, h2, ?_⟩
    exact congrArg (fun d : Decoder => { d with win := s.dec.win.set s.dec.fill x, fill := s.dec.fill + 1 }) h3
  recording hp :=
    let k := h.recording hp
    ⟨k.marker, k.incomplete, k.remaining, k.nibbles, k.header, k.frame, k.sums⟩

theorem listenStep_decoderInv {s : State} (h : DecoderInv s) (hp : s.dec.phase = .listening) (w : List Sample) :
    DecoderInv (listenStep w s) := by
  unfold listenStep
  split
  · exact h
  next q _ =>
    refine ⟨by simp, by simp, fun _ => ⟨le_rfl, by show 1 ≤ 15; omega, ?_⟩, by simp⟩
    exact congrArg (fun d : Decoder => { d with phase := .synchronizing, rxProto := q, markerCount := 1, windowsSince := 1 })
      (h.listening hp)

theorem countWindow_decoderInv {s : State} (h : DecoderInv s) (hp : s.dec.phase ≠ .listening) :
    DecoderInv (countWindow s) where
  settled := h.settled
  listening hl := absurd hl hp
  synchronizing hs := by
    obtain ⟨h1, h2, h3⟩ := h.synchronizing hs
    exact ⟨h1, h2, congrArg (fun d : Decoder => { d with windowsSince := windowsAfter s.dec.windowsSince }) h3⟩
  recording hr :=
    let k := h.recording hr
    ⟨k.marker, k.incomplete, k.remaining, k.nibbles, k.header, k.frame, k.sums⟩

theorem accZero_toNat (g : Fin 2) (v : Fin 16) : accZero[g][v].toNat = 0 := by simp [accZero]

/-- A recording begins well formed (R249). -/
theorem beginRecording_decoderInv {s : State} (hc : s.cfg.valid = true) (hm : s.dec.markerCount = 16) :
    DecoderInv (beginRecording s) := by
  obtain ⟨hpos, hle⟩ := beginChips_bounds hc
  refine decoderInv_of_recording rfl ?_
  have hsym := symbolCount_toNat s.dec.rxProto hle
  have hge := (symbolCount_bounds s.dec.rxProto
    (if 0 < s.cfg.fixedLen then frameChips s.cfg s.cfg.fixedLen else 3 * chipsPerByte s.cfg)).1
  exact {
    marker := hm
    incomplete := by have := (profile_bounds s.dec.rxProto).2.2.1; exact lt_of_lt_of_le (show 0 < 3 by omega) this
    remaining := ⟨by show 0 < BitVec.toNat (BitVec.ofNat 32 (symbolCount (profile s.dec.rxProto) _)); omega, le_rfl⟩
    nibbles := by simp [beginRecording, nibblesHeld, symbolsReceived]
    header := fun hd => by
      have h0 : ¬ 0 < s.cfg.fixedLen := by simpa [beginRecording] using hd
      rw [if_neg h0] at hsym
      exact ⟨by show s.cfg.fixedLen = 0; omega, by simpa [beginRecording, h0, State.lockedProfile] using hsym⟩
    frame := fun hd => by
      have h0 : 0 < s.cfg.fixedLen := by simpa [beginRecording] using hd
      rw [if_pos h0] at hsym
      exact ⟨s.cfg.fixedLen, by have := fixedLen_le hc; omega,
        by simpa [beginRecording, h0, State.lockedProfile] using hsym⟩
    sums := fun g v => by show accZero[g][v].toNat ≤ _; rw [accZero_toNat]; exact Nat.zero_le _ }

theorem syncStep_decoderInv {s : State} (hc : s.cfg.valid = true) (h : DecoderInv s) (hp : s.dec.phase = .synchronizing)
    (w : List Sample) : DecoderInv (syncStep w s) := by
  obtain ⟨h1, h2, h3⟩ := h.synchronizing hp
  unfold syncStep
  split
  · split
    next hm => exact beginRecording_decoderInv hc hm
    next hm =>
      have hm : s.dec.markerCount + 1 ≠ 16 := hm
      refine ⟨h.settled, by simp [countMarker, hp], fun _ => ?_, by simp [countMarker, hp]⟩
      refine ⟨Nat.le_add_left .., by show s.dec.markerCount + 1 ≤ 15; omega, ?_⟩
      exact congrArg (fun d : Decoder => { d with markerCount := s.dec.markerCount + 1 }) h3
  · exact decoderInv_of_reset rfl

/-- An accumulator's bound grows by one window's power (R53). -/
theorem acc_add_toNat_le {a : Acc} {n x : Nat} (ha : a.toNat ≤ n * 2 ^ 51) (hx : x < 2 ^ 51) :
    (a + BitVec.ofNat 64 x).toNat ≤ (n + 1) * 2 ^ 51 := by
  rw [BitVec.toNat_add, BitVec.toNat_ofNat]
  omega

/-- Accumulating a window keeps each sum below its bound (R53, R250). -/
theorem accumulate_toNat_le {w : List Sample} (hw : w.length ≤ 1024) (q : Profile)
    {acc : Vector (Vector Acc 16) 2} {n : Nat} (h : ∀ (g : Fin 2) (v : Fin 16), acc[g][v].toNat ≤ n * 2 ^ 51)
    (g : Fin 2) (v : Fin 16) :
    (accumulate w q acc)[g][v].toNat ≤ (n + 1) * 2 ^ 51 := by
  have hval : (accumulate w q acc)[g][v] =
      if g.val < q.tones then acc[g][v] + BitVec.ofNat 64 (power w (toneBin q g v)) else acc[g][v] := by
    simp [accumulate]
  rw [hval]
  split
  · exact acc_add_toNat_le (h g v) (power_lt_two_pow_51 hw _)
  · exact (h g v).trans (Nat.mul_le_mul_right _ (Nat.le_succ n))

/-- A window inside a symbol keeps the recording well formed. -/
theorem accumulateWindow_recordingInv {s : State} (k : RecordingInv s.cfg s.dec) {w : List Sample} (hw : w.length ≤ 1024)
    (hwis : s.dec.wis + 1 < (profile s.dec.rxProto).windows) :
    RecordingInv s.cfg (accumulateWindow w s).dec :=
  ⟨k.marker, hwis, k.remaining, k.nibbles, k.header, k.frame, accumulate_toNat_le hw _ k.sums⟩

/-- What a recording holds of its symbols, whether or not one remains: the marker count, the nibbles, the counts. -/
structure SymbolsInv (c : Params) (d : Decoder) : Prop where
  marker : d.markerCount = 16
  remaining : d.symRemaining.toNat ≤ d.symExpected.toNat
  nibbles : nibblesHeld d = symbolsReceived d * (profile d.rxProto).tones
  header : d.hdrDone = false → c.fixedLen = 0 ∧ d.symExpected.toNat = symbolCount (profile d.rxProto) (3 * chipsPerByte c)
  frame : d.hdrDone = true → ∃ n ≤ 140, d.symExpected.toNat = symbolCount (profile d.rxProto) (frameChips c n)

theorem RecordingInv.symbols {c : Params} {d : Decoder} (h : RecordingInv c d) : SymbolsInv c d :=
  ⟨h.marker, h.remaining.2, h.nibbles, h.header, h.frame⟩

/-- With accumulators at 0 and a symbol remaining, a recording goes on. -/
theorem SymbolsInv.recording {c : Params} {d : Decoder} (h : SymbolsInv c d) (hw : d.wis = 0) (ha : d.acc = accZero)
    (hr : 0 < d.symRemaining.toNat) : RecordingInv c d where
  marker := h.marker
  incomplete := by have := (profile_bounds d.rxProto).2.2.1; omega
  remaining := ⟨hr, h.remaining⟩
  nibbles := h.nibbles
  header := h.header
  frame := h.frame
  sums g v := by rw [ha, accZero_toNat]; exact Nat.zero_le _

/-- `AppendSymbol` adds one nibble per tone (R252). -/
theorem nibblesHeld_appendSymbol (p : Fin 12) (lo hi : BitVec 4) (d : Decoder) :
    nibblesHeld (appendSymbol (profile p) lo hi d) = nibblesHeld d + (profile p).tones := by
  unfold appendSymbol nibblesHeld
  rcases profile_tones p with h | h
  · rw [if_neg (by omega), h]
    cases hp : d.pend with
    | none => rfl
    | some low =>
      simp only [Option.isSome_some, Option.isSome_none, List.length_append, List.length_singleton, if_true,
        Bool.false_eq_true, if_false]
      omega
  · rw [if_pos h, h]
    simp only [List.length_append, List.length_singleton]; omega

/-- `AppendSymbol` changes the chips and the pending nibble only. -/
theorem appendSymbol_others (q : Profile) (lo hi : BitVec 4) (d : Decoder) :
    ∃ cs p, appendSymbol q lo hi d = { d with chips := cs, pend := p } := by
  unfold appendSymbol
  split
  · exact ⟨_, _, rfl⟩
  · cases d.pend <;> exact ⟨_, _, rfl⟩

/-- `SliceSymbol` changes the chips and the pending nibble, clears the accumulators and counts the symbol (R251). -/
theorem sliceSymbol_others (q : Profile) (d : Decoder) : ∃ cs p, sliceSymbol q d =
    { d with acc := accZero, wis := 0, symRemaining := d.symRemaining - 1, chips := cs, pend := p } :=
  appendSymbol_others ..

/-- Slicing a symbol keeps the account of symbols and nibbles. -/
theorem sliceSymbol_symbolsInv {c : Params} {d : Decoder} (h : SymbolsInv c d) (hr : 0 < d.symRemaining.toNat) :
    SymbolsInv c (sliceSymbol (profile d.rxProto) d) := by
  obtain ⟨cs, p, heq⟩ := sliceSymbol_others (profile d.rxProto) d
  have hnib : nibblesHeld (sliceSymbol (profile d.rxProto) d) = nibblesHeld d + (profile d.rxProto).tones :=
    nibblesHeld_appendSymbol ..
  have hrem : (d.symRemaining - 1).toNat = d.symRemaining.toNat - 1 := by bv_omega
  have hle := h.remaining
  have hrec : symbolsReceived (sliceSymbol (profile d.rxProto) d) = symbolsReceived d + 1 := by
    rw [heq]
    simp only [symbolsReceived, hrem]
    omega
  refine ⟨?_, ?_, ?_, ?_, ?_⟩
  · rw [heq]; exact h.marker
  · rw [heq]; simp only [hrem]; omega
  · rw [hnib, hrec, heq, h.nibbles, Nat.succ_mul]
  · rw [heq]; exact h.header
  · rw [heq]; exact h.frame

/-- In a valid configuration a recording expects the symbols of at most `MAX_FRAME_CHIPS` chips (R166). -/
theorem SymbolsInv.expected {c : Params} {d : Decoder} (h : SymbolsInv c d) (hc : c.valid = true) :
    ∃ m ≤ 603, d.symExpected.toNat = symbolCount (profile d.rxProto) m := by
  cases hh : d.hdrDone with
  | false =>
    have := (chipsPerByte_bounds c).2
    exact ⟨_, by omega, (h.header hh).2⟩
  | true =>
    obtain ⟨n, hn, he⟩ := h.frame hh
    exact ⟨_, (frameChips_le hc hn).2, he⟩

/-- The state right after a symbol was sliced, in a recording (R251). -/
structure JustSliced (s : State) : Prop where
  phase : s.dec.phase = .recording
  symbols : SymbolsInv s.cfg s.dec
  wis : s.dec.wis = 0
  acc : s.dec.acc = accZero

theorem JustSliced.decoderInv {s : State} (h : JustSliced s) (hr : 0 < s.dec.symRemaining.toNat) : DecoderInv s :=
  decoderInv_of_recording h.phase (h.symbols.recording h.wis h.acc hr)

/-- The last window of a symbol slices it. -/
theorem sliceStep_justSliced {s : State} (h : RecordingInv s.cfg s.dec) (hp : s.dec.phase = .recording) (w : List Sample) :
    JustSliced (sliceStep (accumulateWindow w s)) := by
  have hsym : SymbolsInv s.cfg (accumulateWindow w s).dec :=
    ⟨h.marker, h.remaining.2, h.nibbles, h.header, h.frame⟩
  obtain ⟨cs, p, heq⟩ := sliceSymbol_others s.lockedProfile (accumulateWindow w s).dec
  have heq : (sliceStep (accumulateWindow w s)).dec = _ := heq
  exact ⟨by rw [heq]; exact hp, sliceSymbol_symbolsInv hsym h.remaining.1, by rw [heq], by rw [heq]⟩

/-- The header's end makes the symbols of one frame the expected ones (R253). -/
theorem expectBody_symbolsInv {s : State} (hc : s.cfg.valid = true) (h : SymbolsInv s.cfg s.dec)
    (hr : s.dec.symRemaining.toNat = 0) (hh : s.dec.hdrDone = false) {l : Nat} (hl : l ≤ 140) {x : Word}
    (hx : x.toNat = symbolCount s.lockedProfile (frameChips s.cfg l - 3 * chipsPerByte s.cfg)) :
    SymbolsInv s.cfg (expectBody x s).dec := by
  obtain ⟨h0, hexp⟩ := h.header hh
  have hframe : s.dec.symExpected.toNat + x.toNat = symbolCount (profile s.dec.rxProto) (frameChips s.cfg l) := by
    rw [hexp, hx, State.lockedProfile, ← symbolCount_add, Nat.add_sub_cancel' (header_lt_frameChips h0 l).le]
  have hsum : (s.dec.symExpected + x).toNat = s.dec.symExpected.toNat + x.toNat := by
    have hle := (frameChips_le hc hl).2
    have hcount := (symbolCount_bounds s.dec.rxProto (frameChips s.cfg l)).2
    rw [BitVec.toNat_add, Nat.mod_eq_of_lt]
    omega
  have hnib := h.nibbles
  rw [symbolsReceived, hr, Nat.sub_zero] at hnib
  exact {
    marker := h.marker
    remaining := (Nat.le_add_left _ _).trans hsum.ge
    nibbles := by
      show nibblesHeld s.dec = ((s.dec.symExpected + x).toNat - x.toNat) * (profile s.dec.rxProto).tones
      rw [hnib, hsum, Nat.add_sub_cancel]
    header := by simp [expectBody]
    frame := fun _ => ⟨l, hl, hsum.trans hframe⟩ }

theorem headerComplete_decoderInv {s : State} (hc : s.cfg.valid = true) (h : JustSliced s)
    (hr : s.dec.symRemaining.toNat = 0) (hh : s.dec.hdrDone = false) : DecoderInv (headerComplete s) := by
  unfold headerComplete
  split
  · exact decoderInv_publish ..
  next l _ =>
    split
    · exact decoderInv_publish ..
    next hmax =>
      have hl : l ≤ 140 := by
        have : s.lockedProfile.maxPayload = 140 := (profile_bounds s.dec.rxProto).1
        omega
      have hpos := header_lt_frameChips (h.symbols.header hh).1 l
      have hle := (frameChips_le hc hl).2
      have hx := symbolCount_toNat s.dec.rxProto (m := frameChips s.cfg l - 3 * chipsPerByte s.cfg) (by omega)
      have hge := (symbolCount_bounds s.dec.rxProto (frameChips s.cfg l - 3 * chipsPerByte s.cfg)).1
      exact JustSliced.decoderInv ⟨h.phase, expectBody_symbolsInv hc h.symbols hr hh hl hx, h.wis, h.acc⟩
        (lt_of_lt_of_eq (by omega) hx.symm)

theorem demodulate_decoderInv (s : State) : DecoderInv (demodulate s) := by
  unfold demodulate
  split
  · exact decoderInv_publish ..
  · exact decoderInv_publish ..

theorem afterSymbol_decoderInv {s : State} (hc : s.cfg.valid = true) (h : JustSliced s) : DecoderInv (afterSymbol s) := by
  unfold afterSymbol
  split
  next hr => exact h.decoderInv (by simpa [BitVec.lt_def] using hr)
  next hr =>
    split
    · exact demodulate_decoderInv s
    next hh => exact headerComplete_decoderInv hc h (by simpa [BitVec.lt_def] using hr) (by simpa using hh)

theorem recordStep_decoderInv {s : State} (hc : s.cfg.valid = true) (h : DecoderInv s) (hp : s.dec.phase = .recording)
    {w : List Sample} (hw : w.length ≤ 1024) : DecoderInv (recordStep w s) := by
  have k := h.recording hp
  unfold recordStep
  split
  next hwis => exact decoderInv_of_recording hp (accumulateWindow_recordingInv k hw hwis)
  · exact afterSymbol_decoderInv (s := sliceStep (accumulateWindow w s)) hc (sliceStep_justSliced k hp w)

theorem countedStep_decoderInv {s : State} (hc : s.cfg.valid = true) (h : DecoderInv s) (hp : s.dec.phase ≠ .listening)
    {w : List Sample} (hw : w.length ≤ 1024) : DecoderInv (countedStep w s) := by
  unfold countedStep
  split
  · exact decoderInv_publish ..
  · split
    next hs => exact syncStep_decoderInv hc h hs w
    next hs =>
      have hr : s.dec.phase = .recording := by
        cases hph : s.dec.phase with
        | listening => exact absurd hph hp
        | synchronizing => exact absurd hph hs
        | recording => rfl
        | demodulating => exact absurd hph h.settled
      exact recordStep_decoderInv hc h hr hw

theorem windowStep_decoderInv {s : State} (hc : s.cfg.valid = true) (h : DecoderInv s) {w : List Sample}
    (hw : w.length ≤ 1024) : DecoderInv (windowStep w s) := by
  unfold windowStep
  split
  next hp => exact listenStep_decoderInv h hp w
  next hp => exact countedStep_decoderInv (s := countWindow s) hc (countWindow_decoderInv h hp) hp hw

/-- A sample keeps the decoder well formed, the configuration being valid (R245). -/
theorem takeSample_decoderInv {s : State} (hc : s.cfg.valid = true) (h : DecoderInv s) (x : Sample) :
    DecoderInv (takeSample x s) := by
  unfold takeSample
  split
  · exact windowStep_decoderInv (s := storeSample x s) hc (storeSample_decoderInv h x) (by simp)
  · exact storeSample_decoderInv h x

theorem feedLoop_decoderInv {stop : Bool} {xs : List (Option Sample)} {n k : Nat} {s t : State} (hc : s.cfg.valid = true)
    (h : DecoderInv s) (hl : feedLoop stop xs n s = some (k, t)) : DecoderInv t :=
  (feedLoop_keeps (P := fun u => u.cfg.valid = true ∧ DecoderInv u)
    (fun x u hu => ⟨by rw [(takeSample_moved x u).cfg]; exact hu.1, takeSample_decoderInv hu.1 hu.2 x⟩) hl ⟨hc, h⟩).2

/-- A command keeps configuration and decoder well formed. -/
theorem exec_keeps_wellFormed {i : Instr} {s t : State} (hc : ConfigInv s) (hd : DecoderInv s) (h : exec i s = .next t) :
    ConfigInv t ∧ DecoderInv t := by
  rcases exec_cases h with ⟨k, -, -⟩ | ⟨hv, rfl⟩ | rfl | ⟨hcf, rfl⟩ | ⟨hcf, stop, n, u, -, hl, rfl⟩
  · exact ⟨hc.congr k.configured k.cfg k.dec, hd.congr k.cfg k.dec⟩
  · exact ⟨⟨fun _ => hv, fun h => by cases h⟩, decoderInv_of_reset rfl⟩
  · exact ⟨⟨fun h => (by cases h), fun _ => ⟨rfl, rfl, rfl⟩⟩, decoderInv_of_reset rfl⟩
  · exact ⟨⟨fun _ => hc.1 hcf, fun h => by cases hcf.symm.trans h⟩, decoderInv_of_reset rfl⟩
  · have hm := (feedLoop_moved hl).1
    have hu := feedLoop_decoderInv (hc.1 hcf) hd hl
    have hucf : (fedState n u).configured = true := hm.configured.trans hcf
    have hucfg : (fedState n u).cfg = s.cfg := hm.cfg
    exact ⟨⟨fun _ => by rw [hucfg]; exact hc.1 hcf, fun h => by cases hucf.symm.trans h⟩, hu.congr rfl rfl⟩

/-- Settles O58, by the cases of a step: the decoder's invariant is kept sample by sample. -/
theorem stepKeepsTheInstanceWellFormed : Obligations.StepKeepsTheInstanceWellFormed := by
  intro s t hc hd h
  obtain ⟨rest, ⟨k, -, -⟩ | ⟨-, rfl⟩ | ⟨-, ⟨-, rfl⟩ | ⟨-, rfl⟩ | ⟨-, i, -, hi⟩⟩⟩ := step_cases h
  · exact ⟨hc.congr k.configured k.cfg k.dec, hd.congr k.cfg k.dec⟩
  · exact ⟨⟨fun h => (by cases h), fun _ => ⟨rfl, rfl, rfl⟩⟩, decoderInv_of_reset rfl⟩
  · exact ⟨hc.congr rfl rfl rfl, hd.congr rfl rfl⟩
  · exact ⟨hc.congr rfl rfl rfl, hd.congr rfl rfl⟩
  · exact exec_keeps_wellFormed (s := { s with agenda := rest }) (hc.congr rfl rfl rfl) (hd.congr rfl rfl) hi

/-- In a recording of a valid configuration the chips are at most `MAX_FRAME_CHIPS`: two nibbles make one. -/
theorem SymbolsInv.chips_le {c : Params} {d : Decoder} (h : SymbolsInv c d) (hc : c.valid = true) :
    d.chips.length ≤ 603 := by
  obtain ⟨m, hm, hexp⟩ := h.expected hc
  have hnib : 2 * d.chips.length ≤ 2 * m :=
    calc 2 * d.chips.length ≤ nibblesHeld d := Nat.le_add_right _ _
      _ = symbolsReceived d * (profile d.rxProto).tones := h.nibbles
      _ ≤ symbolCount (profile d.rxProto) m * (profile d.rxProto).tones :=
        Nat.mul_le_mul_right _ (hexp ▸ Nat.sub_le _ _)
      _ = 2 * m := symbolCount_mul_tones d.rxProto m
  omega

/-- Settles O60: only a recording holds chips, and there the invariant counts them. -/
theorem chipBufferBound : Obligations.ChipBufferBound := by
  intro s hc hd
  cases hp : s.dec.phase with
  | listening => rw [hd.listening hp]; exact Nat.zero_le _
  | synchronizing => rw [(hd.synchronizing hp).2.2]; exact Nat.zero_le _
  | demodulating => exact absurd hp hd.settled
  | recording =>
    have hv : s.cfg.valid = true := by
      refine hc.1 (Bool.eq_true_of_not_eq_false fun hcf => ?_)
      cases hp.symm.trans (hc.2 hcf).2.1
    exact (hd.recording hp).symbols.chips_le hv

end Sys2Proof.Machine

/-! # The published result and the completion code (R262, R320) -/

namespace Sys2Proof.Machine

/-! ## What a sample can do: changes of the decoder and publications -/

/-- The publications the decoder makes (R247, R253, R254). -/
inductive Publication : RxStatus → Code → List Byte → Prop where
  | success {payload : List Byte} (h : payload.length ≤ 140) : Publication .success .ok payload
  | timeout : Publication .failure .decodeSyncTimeout []
  | fecFailure : Publication .failure .decodeFECFailure []

/-- A property of states that a change of the decoder and a publication keep. -/
structure DecoderClosed (P : State → Prop) : Prop where
  dec : ∀ (s : State) (d : Decoder), P s → P { s with dec := d }
  publish : ∀ {r c payload} (s : State), Publication r c payload → P s → P (publish r c payload s)

section
variable {P : State → Prop} (hP : DecoderClosed P)
include hP

theorem DecoderClosed.listenStep (w : List Sample) {s : State} (h : P s) : P (listenStep w s) := by
  unfold Machine.listenStep
  split
  · exact h
  · exact hP.dec s _ h

theorem DecoderClosed.syncStep (w : List Sample) {s : State} (h : P s) : P (syncStep w s) := by
  unfold Machine.syncStep
  split
  · split
    · exact hP.dec (countMarker s) _ (hP.dec s _ h)
    · exact hP.dec s _ h
  · exact hP.dec s _ h

theorem DecoderClosed.headerComplete {s : State} (h : P s) : P (headerComplete s) := by
  unfold Machine.headerComplete
  split
  · exact hP.publish s .fecFailure h
  · split
    · exact hP.publish s .fecFailure h
    · exact hP.dec s _ h

theorem DecoderClosed.demodulate {s : State} (h : P s) : P (demodulate s) := by
  unfold Machine.demodulate
  split
  · exact hP.publish _ .fecFailure (hP.dec s _ h)
  next payload hr =>
    have hlen := recoverFrame_length hr
    rw [State.lockedProfile, (profile_bounds _).1] at hlen
    exact hP.publish _ (.success hlen) (hP.dec s _ h)

theorem DecoderClosed.afterSymbol {s : State} (h : P s) : P (afterSymbol s) := by
  unfold Machine.afterSymbol
  split
  · exact h
  · split
    · exact hP.demodulate h
    · exact hP.headerComplete h

theorem DecoderClosed.recordStep (w : List Sample) {s : State} (h : P s) : P (recordStep w s) := by
  unfold Machine.recordStep
  split
  · exact hP.dec s _ h
  · exact hP.afterSymbol (hP.dec _ _ (hP.dec s _ h))

theorem DecoderClosed.windowStep (w : List Sample) {s : State} (h : P s) : P (windowStep w s) := by
  unfold Machine.windowStep
  split
  · exact hP.listenStep w h
  · have hcount : P (countWindow s) := hP.dec s _ h
    unfold countedStep
    split
    · exact hP.publish _ .timeout hcount
    · split
      · exact hP.syncStep w hcount
      · exact hP.recordStep w hcount

/-- A sample is changes of the decoder and publications. -/
theorem DecoderClosed.takeSample (x : Sample) {s : State} (h : P s) : P (takeSample x s) := by
  unfold Machine.takeSample
  split
  · exact hP.windowStep _ (hP.dec s _ h)
  · exact hP.dec s _ h

end

/-! ## The published result -/

theorem PublishedInv.congr {s t : State} (h : PublishedInv s) (hrx : t.rx = s.rx) : PublishedInv t := by
  obtain ⟨h1, h2, h3, h4⟩ := h
  constructor <;> simpa only [hrx]

/-- RX_CONSUMED is no part of the result. -/
theorem PublishedInv.ofConsumed {s t : State} {n : Word} (h : PublishedInv s) (hrx : t.rx = { s.rx with consumed := n }) :
    PublishedInv t := by
  obtain ⟨h1, h2, h3, h4⟩ := h
  constructor <;> rw [hrx]
  · exact fun hn => congrArg (fun r : Published => { r with consumed := n }) (h1 hn)
  · exact h2
  · exact h3
  · exact h4

theorem publishedInv_of_reset {s : State} (h : s.rx = Published.reset) : PublishedInv s := by
  constructor <;> rw [h]
  · exact fun _ => rfl
  · exact nofun
  · exact nofun
  · intro k _; simp [Published.reset]

theorem publishedData_zero {payload : List Byte} {k : Fin 144} (h : payload.length ≤ k) :
    (publishedData payload)[k] = 0 := by
  simp [publishedData, h]

/-- A publication of the decoder's leaves a legal result, whatever stood before (R262). -/
theorem publishedInv_publish {r : RxStatus} {c : Code} {payload : List Byte} (h : Publication r c payload) (s : State) :
    PublishedInv (publish r c payload s) := by
  cases h with
  | success hlen =>
    have hl : (BitVec.ofNat 8 payload.length).toNat = payload.length := by
      rw [BitVec.toNat_ofNat, Nat.mod_eq_of_lt (by omega)]
    exact ⟨nofun, fun _ => ⟨rfl, hl.trans_le hlen⟩, nofun, fun k hk => publishedData_zero (hl.symm.trans_le hk)⟩
  | timeout => exact ⟨nofun, nofun, fun _ => ⟨.inl rfl, rfl⟩, fun k _ => publishedData_zero (Nat.zero_le _)⟩
  | fecFailure => exact ⟨nofun, nofun, fun _ => ⟨.inr rfl, rfl⟩, fun k _ => publishedData_zero (Nat.zero_le _)⟩

theorem publishedInv_decoderClosed : DecoderClosed PublishedInv where
  dec _ _ h := h.congr rfl
  publish s hp _ := publishedInv_publish hp s

/-- A command keeps the published result legal. -/
theorem exec_keeps_publishedInv {i : Instr} {s t : State} (hp : PublishedInv s) (h : exec i s = .next t) :
    PublishedInv t := by
  rcases exec_cases h with ⟨k, -, -⟩ | ⟨-, rfl⟩ | rfl | ⟨-, rfl⟩ | ⟨-, stop, n, u, -, hl, rfl⟩
  · exact hp.congr k.rx
  · exact publishedInv_of_reset rfl
  · exact publishedInv_of_reset rfl
  · exact hp.congr rfl
  · exact (feedLoop_keeps (fun x _ hu => publishedInv_decoderClosed.takeSample x hu) hl hp).ofConsumed rfl

theorem feedCode_leavable (p : Phase) : (feedCode p).Leavable := by cases p <;> decide

/-- Every command leaves a legal code (R320). -/
theorem exec_codesInv {i : Instr} {s t : State} (h : exec i s = .next t) : CodesInv t := by
  rcases exec_cases h with ⟨-, hc, -⟩ | ⟨-, rfl⟩ | rfl | ⟨-, rfl⟩ | ⟨-, stop, n, u, -, -, rfl⟩
  · exact hc
  · exact ⟨nofun, nofun⟩
  · exact ⟨nofun, nofun⟩
  · exact ⟨nofun, nofun⟩
  · exact feedCode_leavable u.dec.phase

/-- Settles O59, by the cases of a step: the decoder's publications are legal, and no command leaves another code. -/
theorem stepKeepsTheResultsLegal : Obligations.StepKeepsTheResultsLegal := by
  intro s t hp hc h
  obtain ⟨rest, ⟨k, -, -⟩ | ⟨-, rfl⟩ | ⟨-, ⟨-, rfl⟩ | ⟨-, rfl⟩ | ⟨-, i, -, hi⟩⟩⟩ := step_cases h
  · exact ⟨hp.congr k.rx, by unfold CodesInv; rw [k.err]; exact hc⟩
  · exact ⟨publishedInv_of_reset rfl, nofun, nofun⟩
  · exact ⟨hp.congr rfl, hc⟩
  · exact ⟨hp.congr rfl, nofun, nofun⟩
  · exact ⟨exec_keeps_publishedInv (s := { s with agenda := rest }) (hp.congr rfl) hi, exec_codesInv hi⟩

end Sys2Proof.Machine

/-! # Commands and the host's side of the state (R49, R87) -/

namespace Sys2Proof.Machine

theorem complete_withHostSide (c : Code) (s e : State) :
    complete c (s.withHostSide e) = mapNext (fun t => t.withHostSide e) (complete c s) := rfl

theorem writeOutput_withHostSide (out : List Byte) (s e : State) :
    writeOutput out (s.withHostSide e) = mapNext (fun t => t.withHostSide e) (writeOutput out s) := by
  rw [writeOutput_eq, writeOutput_eq]
  show (if s.plat.allPopulated ⟨s.dst, out.length⟩ = true then _ else _) = _
  split <;> rfl

theorem transfer_withHostSide (n : Nat) (f : List Byte → Except Code (List Byte)) (s e : State) :
    transfer n f (s.withHostSide e) = mapNext (fun t => t.withHostSide e) (transfer n f s) := by
  unfold transfer
  show (if s.inputRange.overlaps s.outputRange = true then _ else match dmaRead s s.src n with
    | none => _
    | some input => _) = _
  split
  · rfl
  · cases dmaRead s s.src n with
    | none => rfl
    | some input =>
      dsimp only
      cases f input with
      | error c => exact complete_withHostSide c s e
      | ok out => exact writeOutput_withHostSide out s e

theorem checkedTransfer_withHostSide (checks : List (Bool × Code)) (n : Nat) (f : List Byte → Except Code (List Byte))
    (s e : State) :
    checkedTransfer checks n f (s.withHostSide e) = mapNext (fun t => t.withHostSide e) (checkedTransfer checks n f s) := by
  unfold checkedTransfer
  split
  · exact complete_withHostSide _ s e
  · exact transfer_withHostSide n f s e

theorem protoCommand_withHostSide (q? : Option Profile) (checks : Profile → List (Bool × Code)) (n : Nat)
    (f : Profile → List Byte → Except Code (List Byte)) (s e : State) :
    protoCommand q? checks n f (s.withHostSide e) = mapNext (fun t => t.withHostSide e) (protoCommand q? checks n f s) := by
  unfold protoCommand
  show (if (!s.configured) = true then _ else _) = _
  split
  · exact complete_withHostSide _ s e
  · cases q? with
    | none => exact complete_withHostSide _ s e
    | some q => exact checkedTransfer_withHostSide (checks q) n (f q) s e

theorem execSpectrum_withHostSide (s e : State) :
    execSpectrum (s.withHostSide e) = mapNext (fun t => t.withHostSide e) (execSpectrum s) := by
  unfold execSpectrum
  show (if (!s.configured) = true then _ else _) = _
  split
  · exact complete_withHostSide _ s e
  · exact checkedTransfer_withHostSide _ (1024 * s.cfg.sampleBytes) _ s e

/-- The decoder's loop leaves the host's side. -/
theorem onto_withHostSide {s u : State} (h : DecoderMoved s u) (e : State) :
    onto u (s.withHostSide e) = u.withHostSide e := by
  rw [h.others]; rfl

theorem feedLoop_withHostSide (stop : Bool) (xs : List (Option Sample)) (n : Nat) (s e : State) :
    feedLoop stop xs n (s.withHostSide e) = (feedLoop stop xs n s).map fun r => (r.1, r.2.withHostSide e) := by
  have h : feedLoop stop xs n (s.withHostSide e) = _ :=
    feedLoop_onto (s := s) (b := s.withHostSide e) ⟨rfl, rfl, rfl⟩ stop xs n
  rw [h]
  cases hl : feedLoop stop xs n s with
  | none => rfl
  | some r => exact congrArg (fun u => some (r.1, u)) (onto_withHostSide (feedLoop_moved hl).1 e)

/-- The check of R322 that applies to FEED, a configuration being held. -/
def feedError (s : State) : Option Code :=
  firstError
    [ (!(aligned s.src s.cfg.sampleBytes && aligned s.srcLen s.cfg.sampleBytes), .addressError),
      (!s.inputRange.inSpace, .addressError) ]

/-- FEED's outcome by what its loop gives. -/
def feedOutcome : Option (Nat × State) → Out
  | none => .fault .busError
  | some (k, u) => .next (fedState k u)

theorem execFeed_eq (stop : Bool) (s : State) : execFeed stop s =
    if s.configured = true then
      (feedError s).elim (feedOutcome (feedLoop stop (inputSamples s) 0 s)) fun c => complete c s
    else complete .notConfigured s := by
  unfold execFeed feedError
  cases s.configured with
  | false => rfl
  | true =>
    dsimp only
    cases firstError _ with
    | some c => rfl
    | none => cases feedLoop stop (inputSamples s) 0 s <;> rfl

theorem execFeed_withHostSide (stop : Bool) (s e : State) :
    execFeed stop (s.withHostSide e) = mapNext (fun t => t.withHostSide e) (execFeed stop s) := by
  rw [execFeed_eq, execFeed_eq, feedLoop_withHostSide]
  show (if s.configured = true then
    (feedError s).elim (feedOutcome ((feedLoop stop (inputSamples s) 0 s).map _)) _ else _) = _
  split
  · cases feedError s with
    | some c => exact complete_withHostSide c s e
    | none => cases feedLoop stop (inputSamples s) 0 s <;> rfl
  · exact complete_withHostSide _ s e

/-- Settles O7, command by command: each is built of parts that commute with the host side. -/
theorem commandsIgnoreTheHostSide : Obligations.CommandsIgnoreTheHostSide := by
  intro i e s
  cases i with
  | nop => rfl
  | config =>
    show execConfig _ = mapNext _ (execConfig s)
    rw [execConfig_eq, execConfig_eq]
    show (if s.latch.par.valid = true then _ else _) = _
    split <;> rfl
  | deconfig => rfl
  | profileQuery p =>
    show execProfileQuery p _ = mapNext _ (execProfileQuery p s)
    rw [execProfileQuery_eq, execProfileQuery_eq]
    split <;> rfl
  | frameBuild p => exact protoCommand_withHostSide (profile? p) _ s.srcLen _ s e
  | frameRecover p => exact protoCommand_withHostSide (profile? p) _ s.srcLen _ s e
  | symbolMap p => exact protoCommand_withHostSide (profile? p) _ s.srcLen _ s e
  | render p v => exact protoCommand_withHostSide (profile? p) _ s.srcLen _ s e
  | encode p v => exact protoCommand_withHostSide (profile? p) _ s.srcLen _ s e
  | spectrum => exact execSpectrum_withHostSide s e
  | feed stop => exact execFeed_withHostSide stop s e
  | decoderReset =>
    show execDecoderReset _ = mapNext _ (execDecoderReset s)
    rw [execDecoderReset_eq, execDecoderReset_eq]
    show (if s.configured = true then _ else _) = _
    split <;> rfl

end Sys2Proof.Machine

/-! # The register map (R24 to R58) -/

namespace Sys2Proof.Machine

/-! ## The window by its registers -/

theorem mem_allRegs (r : Reg) : r ∈ allRegs := by
  cases r with
  | rxData k => exact List.mem_append_right _ (List.mem_map_of_mem (List.mem_finRange k))
  | _ => exact List.mem_append_left _ (by decide)

theorem windowRead_offset (s : State) (r : Reg) : windowRead s r.offset = regRead s r := by
  rw [windowRead, regAt_offset r (mem_allRegs r)]

theorem windowWrite_offset (v : Word) (s : State) (r : Reg) : windowWrite r.offset v s = regWrite v s r := by
  rw [windowWrite, regAt_offset r (mem_allRegs r)]

/-- A state that differs in what register `r` shows only, differs at no other offset. -/
theorem windowRead_congr {s t : State} {r : Reg} (h : ∀ q, q ≠ r → regRead t q = regRead s q) {off : Nat}
    (hoff : off ≠ r.offset) : windowRead t off = windowRead s off := by
  unfold windowRead
  cases hq : regAt off with
  | none => rfl
  | some q => exact h q fun hqr => hoff (hqr ▸ (offset_of_regAt hq).symm)

/-- The access type of a register (R25). -/
def Reg.access : Reg → Access
  | .cmd => .wo
  | .intStatus => .rw1c
  | .intEnable | .paramRateIn | .paramRateOut | .paramFormat | .paramPayloadLen | .paramMode | .rxTimeoutWindows
  | .srcAddr | .srcLen | .dstAddr | .dstCap => .rw
  | _ => .ro

/-- Every row of the map is a register's, with the value the register shows in the reset state. -/
theorem registerMap_row :
    ∀ row ∈ registerMap, ∃ r ∈ allRegs, row = ⟨r.offset, r.access, regRead State.reset r⟩ := by decide +kernel

theorem offset_mem_registerMap : ∀ r ∈ allRegs, r.offset ∈ registerMap.map MapRow.offset := by decide +kernel

/-! ## Writes -/

theorem regWrite_ro {r : Reg} (h : r.access = .ro) (v : Word) (s : State) : regWrite v s r = .next s := by
  cases r with
  | cmd | intStatus | intEnable | paramRateIn | paramRateOut | paramFormat | paramPayloadLen | paramMode | rxTimeoutWindows
  | srcAddr | srcLen | dstAddr | dstCap => cases h
  | _ => rfl

/-- Five bits kept are the value under the mask `0x1F` (R29). -/
theorem truncate_zeroExtend_five (v : Word) : (v.truncate 5).zeroExtend 32 = v &&& 0x1F#32 := by
  apply BitVec.eq_of_toNat_eq
  have hmask : v.toNat &&& 31 = v.toNat % 32 := Nat.and_two_pow_sub_one_eq_mod v.toNat 5
  rw [BitVec.toNat_and, BitVec.toNat_setWidth, BitVec.toNat_setWidth, show (0x1F#32).toNat = 31 from rfl, hmask]
  omega

/-- The bits written 1 are cleared (R28). -/
theorem clearInt_zeroExtend (i : BitVec 5) (v : Word) : (clearInt i v).zeroExtend 32 = i.zeroExtend 32 &&& ~~~v := by
  apply BitVec.eq_of_getLsbD_eq
  intro k hk
  by_cases h5 : k < 5
  · simp [clearInt, h5, hk]
  · simp [clearInt, h5, hk, BitVec.getLsbD_of_ge i k (by omega)]

/-- A write to a read-write register is read back (R29 to R36). -/
theorem regRead_regWrite_rw {r : Reg} (h : r.access = .rw) {v : Word} {s t : State} (hw : regWrite v s r = .next t) :
    regRead t r = writtenValue r.offset v := by
  cases r with
  | intEnable => cases hw; exact truncate_zeroExtend_five v
  | paramRateIn | paramRateOut | paramFormat | paramPayloadLen | paramMode | rxTimeoutWindows
  | srcAddr | srcLen | dstAddr | dstCap => cases hw; rfl
  | _ => cases h

/-- A write to a register other than CMD changes what no other register shows. -/
theorem regRead_regWrite_other {r q : Reg} (hr : r ≠ .cmd) (hq : q ≠ r) {v : Word} {s t : State}
    (hw : regWrite v s r = .next t) : regRead t q = regRead s q := by
  cases r with
  | cmd => exact absurd rfl hr
  | intStatus => cases hw; cases q with | intStatus => exact absurd rfl hq | _ => rfl
  | intEnable => cases hw; cases q with | intEnable => exact absurd rfl hq | _ => rfl
  | paramRateIn => cases hw; cases q with | paramRateIn => exact absurd rfl hq | _ => rfl
  | paramRateOut => cases hw; cases q with | paramRateOut => exact absurd rfl hq | _ => rfl
  | paramFormat => cases hw; cases q with | paramFormat => exact absurd rfl hq | _ => rfl
  | paramPayloadLen => cases hw; cases q with | paramPayloadLen => exact absurd rfl hq | _ => rfl
  | paramMode => cases hw; cases q with | paramMode => exact absurd rfl hq | _ => rfl
  | rxTimeoutWindows => cases hw; cases q with | rxTimeoutWindows => exact absurd rfl hq | _ => rfl
  | srcAddr => cases hw; cases q with | srcAddr => exact absurd rfl hq | _ => rfl
  | srcLen => cases hw; cases q with | srcLen => exact absurd rfl hq | _ => rfl
  | dstAddr => cases hw; cases q with | dstAddr => exact absurd rfl hq | _ => rfl
  | dstCap => cases hw; cases q with | dstCap => exact absurd rfl hq | _ => rfl
  | _ => cases hw; rfl

/-- A write to a register other than CMD goes through. -/
theorem regWrite_next {r : Reg} (hr : r ≠ .cmd) (v : Word) (s : State) : ∃ t, regWrite v s r = .next t := by
  cases r with
  | cmd => exact absurd rfl hr
  | _ => exact ⟨_, rfl⟩

/-! ## Fields -/

theorem statusWord_toNat (s : State) :
    (statusWord s).toNat = s.busy.toNat + 2 * s.configured.toNat + 2 ^ 8 * s.err.value.toNat := by
  unfold statusWord
  cases s.busy <;> cases s.configured <;> cases s.err <;> rfl

theorem rxResultWord_toNat (r : Published) :
    (rxResultWord r).toNat = r.status.value.toNat + 2 ^ 8 * r.code.value.toNat := by
  unfold rxResultWord
  cases r.status <;> cases r.code <;> rfl

theorem rxDataWord_toNat (r : Published) (k : Fin 36) : (rxDataWord r k).toNat =
    r.data[4 * k.val].toNat + 2 ^ 8 * r.data[4 * k.val + 1].toNat + 2 ^ 16 * r.data[4 * k.val + 2].toNat
      + 2 ^ 24 * r.data[4 * k.val + 3].toNat := by
  have h0 := r.data[4 * k.val].isLt
  have h1 := r.data[4 * k.val + 1].isLt
  have h2 := r.data[4 * k.val + 2].isLt
  have h3 := r.data[4 * k.val + 3].isLt
  simp only [rxDataWord, leNat, BitVec.toNat_ofNat]
  omega

/-- The row shows what register `r` shows, as a number. -/
def FieldRow.Shows (row : FieldRow) (r : Reg) : Prop := row.offset = r.offset ∧ ∀ s, (regRead s r).toNat = row.value s

theorem FieldRow.Shows.windowRead {row : FieldRow} {r : Reg} (h : row.Shows r) (s : State) :
    (windowRead s row.offset).toNat = row.value s := by
  rw [h.1, windowRead_offset]; exact h.2 s

theorem hostFieldRows_show : List.Forall₂ FieldRow.Shows hostFieldRows
    [ .id, .version, .cmd, .status, .intStatus, .intEnable, .paramRateIn, .paramRateOut, .paramFormat, .paramPayloadLen,
      .paramMode, .rxTimeoutWindows, .srcAddr, .srcLen, .dstAddr, .dstCap, .resultLen ] := by
  simp [hostFieldRows, FieldRow.Shows, Reg.offset, regRead, statusWord_toNat, BitVec.toNat_setWidth_of_le,
    -BitVec.toNat_setWidth]

theorem instanceFieldRows_show : List.Forall₂ FieldRow.Shows instanceFieldRows
    [ .cfgRateIn, .cfgRateOut, .cfgFormat, .cfgPayloadLen, .cfgMode, .profId, .profBand, .profBaseBin, .profSpacing,
      .profTones, .profWindowsPerSymbol, .profMarkerStartBin, .profMarkerEndBin, .profMaxPayload ] := by
  simp [instanceFieldRows, FieldRow.Shows, Reg.offset, regRead, BitVec.toNat_setWidth_of_le, -BitVec.toNat_setWidth]

theorem rxFieldRows_show : List.Forall₂ FieldRow.Shows rxFieldRows
    ([ .rxPhase, .rxProtocol, .rxSymbolsExpected, .rxSymbolsRemaining, .rxConsumed, .rxResult, .rxLen, .rxSeq, .rxFill ]
      ++ (List.finRange 36).map .rxData) := by
  refine List.rel_append ?_ ?_
  · have hp : ∀ p : Fin 12, (p : Nat) < 4294967296 := fun p => by omega
    have hf : ∀ p : Fin 1024, (p : Nat) < 4294967296 := fun p => by omega
    simp [FieldRow.Shows, Reg.offset, regRead, rxResultWord_toNat, BitVec.toNat_setWidth_of_le,
      -BitVec.toNat_setWidth, hp, hf, Nat.mod_eq_of_lt]
  · rw [List.forall₂_map_left_iff, List.forall₂_map_right_iff, List.forall₂_same]
    exact fun k _ => ⟨rfl, fun s => rxDataWord_toNat s.rx k⟩

theorem exists_right_of_forall₂ {α β : Type} {R : α → β → Prop} {xs : List α} {ys : List β}
    (h : List.Forall₂ R xs ys) : ∀ x ∈ xs, ∃ y, R x y := by
  induction h with
  | nil => simp
  | cons hxy _ ih => exact List.forall_mem_cons.2 ⟨⟨_, hxy⟩, ih⟩

/-- Every row of the three lists names the state its register shows, in every state. -/
theorem windowRead_fieldRow {row : FieldRow} (h : row ∈ hostFieldRows ++ instanceFieldRows ++ rxFieldRows) (s : State) :
    (windowRead s row.offset).toNat = row.value s := by
  obtain ⟨r, hr⟩ := exists_right_of_forall₂
    (List.rel_append (List.rel_append hostFieldRows_show instanceFieldRows_show) rxFieldRows_show) row h
  exact hr.windowRead s

/-- The row writes what a write to register `r` writes. -/
def WriteRow.Writes (row : WriteRow) (r : Reg) : Prop :=
  row.offset = r.offset ∧ ∀ v s, regWrite v s r = .next (row.write v s)

theorem writeRows_write : List.Forall₂ WriteRow.Writes writeRows
    [ .intEnable, .paramRateIn, .paramRateOut, .paramFormat, .paramPayloadLen, .paramMode, .rxTimeoutWindows,
      .srcAddr, .srcLen, .dstAddr, .dstCap ] := by
  simp [writeRows, WriteRow.Writes, Reg.offset, regWrite]

theorem windowWrite_writeRow {row : WriteRow} (h : row ∈ writeRows) (v : Word) (s : State) :
    windowWrite row.offset v s = .next (row.write v s) := by
  obtain ⟨r, hoff, hw⟩ := exists_right_of_forall₂ writeRows_write row h
  rw [hoff, windowWrite_offset, hw]

/-- A write to an RW or RW1C register goes through and changes what no other offset shows. -/
theorem windowWrite_next {r : Reg} (hr : r ≠ .cmd) (v : Word) (s : State) :
    ∃ t, regWrite v s r = .next t ∧ windowWrite r.offset v s = .next t ∧
      ∀ off, off ≠ r.offset → windowRead t off = windowRead s off := by
  obtain ⟨t, ht⟩ := regWrite_next hr v s
  exact ⟨t, ht, (windowWrite_offset v s r).trans ht,
    fun _ => windowRead_congr fun q hq => regRead_regWrite_other hr hq ht⟩

theorem windowWrite_ro {r : Reg} (h : r.access = .ro) (v : Word) (s : State) : windowWrite r.offset v s = .next s :=
  (windowWrite_offset v s r).trans (regWrite_ro h v s)

theorem windowRead_wo {r : Reg} (h : r.access = .wo) (s : State) : windowRead s r.offset = 0 := by
  rw [windowRead_offset]
  cases r with
  | cmd => rfl
  | _ => cases h

theorem windowWrite_rw {r : Reg} (h : r.access = .rw) (v : Word) (s : State) :
    ∃ t, windowWrite r.offset v s = .next t ∧ windowRead t r.offset = writtenValue r.offset v ∧
      ∀ off, off ≠ r.offset → windowRead t off = windowRead s off := by
  obtain ⟨t, ht, hw, hother⟩ := windowWrite_next (r := r) (by rintro rfl; cases h) v s
  exact ⟨t, hw, (windowRead_offset t r).trans (regRead_regWrite_rw h ht), hother⟩

theorem windowWrite_rw1c {r : Reg} (h : r.access = .rw1c) (v : Word) (s : State) :
    ∃ t, windowWrite r.offset v s = .next t ∧ windowRead t r.offset = windowRead s r.offset &&& ~~~v ∧
      ∀ off, off ≠ r.offset → windowRead t off = windowRead s off := by
  obtain ⟨t, ht, hw, hother⟩ := windowWrite_next (r := r) (by rintro rfl; cases h) v s
  refine ⟨t, hw, ?_, hother⟩
  rw [windowRead_offset, windowRead_offset]
  cases r with
  | intStatus => cases ht; exact clearInt_zeroExtend s.intStatus v
  | _ => cases h

/-- Settles O10, register by register: each row is a register's, and the window's reads and writes are the registers'. -/
theorem registerMapAccess : Obligations.RegisterMapAccess := by
  refine ⟨?_, by decide +kernel, fun row hrow s => windowRead_fieldRow hrow s, by decide +kernel,
    fun row hrow v s => windowWrite_writeRow hrow v s, ?_⟩
  · intro row hrow
    obtain ⟨r, -, rfl⟩ := registerMap_row row hrow
    refine ⟨windowRead_offset _ r, ?_⟩
    dsimp only
    cases ha : r.access with
    | ro => exact windowWrite_ro ha
    | wo => exact windowRead_wo ha
    | rw => exact windowWrite_rw ha
    | rw1c => exact windowWrite_rw1c ha
  · intro off hoff v s
    have hreg : regAt off = none := regAt_eq_none fun hmem => by
      obtain ⟨r, hr, rfl⟩ := List.mem_map.1 hmem
      exact hoff (offset_mem_registerMap r hr)
    unfold windowRead windowWrite
    rw [hreg]
    exact ⟨rfl, rfl⟩

/-- Settles O12: the fields are those the registers at these offsets show. -/
theorem statusAndResultFields : Obligations.StatusAndResultFields := by
  intro s
  refine ⟨?_, ?_, ?_, ?_, fun k => ?_⟩
  · exact (congrArg _ (windowRead_offset s .status)).trans (statusWord_toNat s)
  · exact (congrArg _ (windowRead_offset s .rxResult)).trans (rxResultWord_toNat s.rx)
  · exact (congrArg _ (windowRead_offset s .intStatus)).trans (BitVec.toNat_setWidth_of_le (by decide))
  · exact (congrArg _ (windowRead_offset s .rxPhase)).trans (BitVec.toNat_setWidth_of_le (by decide))
  · exact (congrArg _ (windowRead_offset s (.rxData k))).trans (rxDataWord_toNat s.rx k)

end Sys2Proof.Machine

/-! # INT_STATUS and the interrupt output (R28, R29, R335) -/

namespace Sys2Proof.Machine

theorem clearInt_getLsbD (i : BitVec 5) (v : Word) {k : Nat} (hk : k < 5) :
    (clearInt i v).getLsbD k = (i.getLsbD k && !v.getLsbD k) := by simp [clearInt, hk]

/-- A completion sets DONE and ERROR only. -/
theorem completionBits_getLsbD (c : Code) : ∀ k < 5, 2 ≤ k → (completionBits c).getLsbD k = false := by
  cases c <;> decide

theorem intCmdDropped_getLsbD : ∀ k < 5, intCmdDropped.getLsbD k = decide (k = 4) := by decide

/-- The decoder's publications set neither DONE, ERROR nor CMD_DROPPED. -/
theorem decoderBits_getLsbD {x : BitVec 5} (hx : x &&& 0b10011#5 = 0) : x.getLsbD 4 = false := by
  have h4 := congrArg (fun y : BitVec 5 => y.getLsbD 4) hx
  simpa using h4

theorem windowOffset?_eq_some {s : State} {addr width off : Nat} (h : windowOffset? s addr width = some off) :
    width = 4 ∧ addr = s.plat.mmioBase + off := by
  unfold windowOffset? at h
  split at h
  next hc =>
    obtain ⟨hw, hle, -, -⟩ := hc
    simp only [Option.some.injEq] at h
    exact ⟨hw, by omega⟩
  · cases h

/-- What a host write in the window does to INT_STATUS: a write to it clears, a write to CMD while BUSY is 1 sets
CMD_DROPPED, and no other changes it (R28, R330). -/
theorem windowWrite_intStatus {off : Nat} {v : Word} {s t : State} (h : windowWrite off v s = .next t) :
    t.intStatus = s.intStatus ∨ (off = 0x010 ∧ t.intStatus = clearInt s.intStatus v) ∨
      (off = 0x008 ∧ s.busy = true ∧ t.intStatus = s.intStatus ||| intCmdDropped) := by
  unfold windowWrite at h
  split at h
  next r hr =>
    have hoff := offset_of_regAt hr
    cases r with
    | cmd =>
      obtain ⟨hb, rfl⟩ | ⟨-, rfl⟩ := writeCmd_next (v := v) (s := s) h
      · exact .inr (.inr ⟨hoff.symm, hb, rfl⟩)
      · exact .inl rfl
    | intStatus => cases h; exact .inr (.inl ⟨hoff.symm, rfl⟩)
    | _ => cases h; exact .inl rfl
  · cases h; exact .inl rfl

theorem hostReads_intStatus (off : Nat) (s : State) : (hostReads off s).intStatus = s.intStatus := by
  unfold hostReads
  split <;> rfl

/-- What an action of the host or of another block does to INT_STATUS. -/
theorem actionStep_intStatus {a : HostAction} {s t : State} (hs : a ≠ .sequencer) (hr : a ≠ .reset)
    (h : actionStep a s = .next t) :
    t.intStatus = s.intStatus ∨
      (∃ v, a = .mmioWrite (s.plat.mmioBase + 0x010) 4 v ∧ t.intStatus = clearInt s.intStatus v) ∨
      (∃ v, a = .mmioWrite (s.plat.mmioBase + 0x008) 4 v ∧ s.busy = true ∧
        t.intStatus = s.intStatus ||| intCmdDropped) := by
  cases a with
  | mmioWrite addr width v =>
    simp only [actionStep, mmioWrite] at h
    split at h
    next off ho =>
      obtain ⟨rfl, rfl⟩ := windowOffset?_eq_some ho
      obtain hsame | ⟨rfl, hclear⟩ | ⟨rfl, hb, hset⟩ := windowWrite_intStatus h
      · exact .inl hsame
      · exact .inr (.inl ⟨v, rfl, hclear⟩)
      · exact .inr (.inr ⟨v, rfl, hb, hset⟩)
    · cases h
  | mmioRead addr width =>
    simp only [actionStep, mmioRead] at h
    split at h
    · cases h; exact .inl (hostReads_intStatus _ s)
    · cases h
  | memLoad addr len =>
    simp only [actionStep, memLoad] at h
    split at h
    · cases h
    · split at h <;> cases h
      exact .inl rfl
  | memStore addr bs =>
    simp only [actionStep, memStore] at h
    split at h
    · cases h
    · split at h <;> cases h
      exact .inl rfl
  | wait =>
    simp only [actionStep, Host.Outcome.next.injEq] at h
    subst h
    have hread := hostReads_intStatus (Reg.offset .status) s
    unfold waitPoll
    split <;> exact .inl hread
  | sequencer => exact absurd rfl hs
  | reset => exact absurd rfl hr
  | peerIssue b input output =>
    simp only [actionStep, peerIssue] at h
    split at h
    · cases h
    · split at h
      · cases h; exact .inl rfl
      · split at h
        · cases h
        · split at h <;> cases h
          exact .inl rfl
  | peerFinish b bs =>
    simp only [actionStep, peerFinish] at h
    split at h
    · cases h
    · split at h <;> cases h
      exact .inl rfl
  | peerStatus b =>
    simp only [actionStep, peerStatus] at h
    split at h
    · cases h
    · split at h <;> cases h <;> exact .inl rfl

/-- What a command does to INT_STATUS: it sets the completion's bits, and FEED those of its publications. -/
theorem exec_intStatus {i : Instr} {s t : State} (h : exec i s = .next t) :
    ∃ x c, t.intStatus = s.intStatus ||| x ||| completionBits c ∧ x.getLsbD 4 = false ∧
      (x = 0 ∨ ∃ stop, i = .feed stop) := by
  have finished : ∀ c, t.intStatus = s.intStatus ||| completionBits c → ∃ x c,
      t.intStatus = s.intStatus ||| x ||| completionBits c ∧ x.getLsbD 4 = false ∧ (x = 0 ∨ ∃ stop, i = .feed stop) :=
    fun c hc => ⟨0, c, by simpa using hc, rfl, .inl rfl⟩
  rcases exec_cases h with ⟨-, -, hint⟩ | ⟨-, rfl⟩ | rfl | ⟨-, rfl⟩ | ⟨-, stop, n, u, rfl, hl, rfl⟩
  · exact finished _ hint
  · exact finished .ok rfl
  · exact finished .ok rfl
  · exact finished .ok rfl
  · obtain ⟨x, hx, hx0⟩ := (feedLoop_moved hl).1.bits
    exact ⟨x, feedCode u.dec.phase, congrArg (· ||| completionBits (feedCode u.dec.phase)) hx,
      decoderBits_getLsbD hx0, .inr ⟨stop, rfl⟩⟩

/-- A bit such a change gives another value is set, and from bit 2 on it is one of `x`. -/
theorem changed_bit {a b x : BitVec 5} {c : Code} (hb : b = a ||| x ||| completionBits c) (hx : x.getLsbD 4 = false)
    {k : Nat} (hk : k < 5) (hne : b.getLsbD k ≠ a.getLsbD k) :
    b.getLsbD k = true ∧ (2 ≤ k → k < 4 ∧ x.getLsbD k = true) := by
  rw [hb, BitVec.getLsbD_or, BitVec.getLsbD_or] at hne ⊢
  cases hak : a.getLsbD k with
  | true => simp [hak] at hne
  | false =>
    simp only [hak, Bool.false_or, ne_eq, Bool.not_eq_false] at hne ⊢
    refine ⟨hne, fun h2 => ?_⟩
    rw [completionBits_getLsbD c k hk h2, Bool.or_false] at hne
    refine ⟨?_, hne⟩
    by_contra h4
    obtain rfl : k = 4 := by omega
    cases hx.symm.trans hne

/-- A turn of the sequencer clears no bit; a bit it sets is DONE or ERROR of a command that finished, or RX_SUCCESS or
RX_FAILURE of a FEED. -/
theorem sequencerTurn_bit {s t : State} (h : sequencerTurn s = .next t) {k : Nat} (hk : k < 5)
    (hne : t.intStatus.getLsbD k ≠ s.intStatus.getLsbD k) :
    t.intStatus.getLsbD k = true ∧ s.busy = true ∧ t.busy = false ∧
      (2 ≤ k → k < 4 ∧ ∃ stop, decode s.latch.cmd = .ok (.feed stop)) := by
  obtain ⟨-, rfl⟩ | ⟨hb, ⟨i, hi, he⟩ | ⟨-, rfl⟩⟩ := sequencerTurn_next h
  · exact absurd rfl hne
  · obtain ⟨x, c, hint, hx4, hx⟩ := exec_intStatus he
    obtain ⟨hset, hhigh⟩ := changed_bit hint hx4 hk hne
    refine ⟨hset, hb, (exec_hostSide he).2, fun h2 => ⟨(hhigh h2).1, ?_⟩⟩
    obtain rfl | ⟨stop, rfl⟩ := hx
    · exact absurd (hhigh h2).2 (by simp)
    · exact ⟨stop, hi⟩
  · have hint : (finish .illegalCommand s).intStatus = s.intStatus ||| 0 ||| completionBits .illegalCommand := by simp
    obtain ⟨hset, hhigh⟩ := changed_bit hint rfl hk hne
    exact ⟨hset, hb, rfl, fun h2 => by simpa using (hhigh h2).2⟩

/-- An action of the host or of another block clears a bit by a write to INT_STATUS only, and sets CMD_DROPPED only, by a
write to CMD while BUSY is 1. -/
theorem actionStep_bit {a : HostAction} {s t : State} (hs : a ≠ .sequencer) (hr : a ≠ .reset)
    (h : actionStep a s = .next t) {k : Nat} (hk : k < 5) (hne : t.intStatus.getLsbD k ≠ s.intStatus.getLsbD k) :
    (t.intStatus.getLsbD k = false ∧ ∃ v, a = .mmioWrite (s.plat.mmioBase + 0x010) 4 v ∧ v.getLsbD k = true) ∨
      (t.intStatus.getLsbD k = true ∧ k = 4 ∧ s.busy = true ∧ ∃ v, a = .mmioWrite (s.plat.mmioBase + 0x008) 4 v) := by
  obtain hsame | ⟨v, rfl, hclear⟩ | ⟨v, rfl, hb, hset⟩ := actionStep_intStatus hs hr h
  · exact absurd (by rw [hsame]) hne
  · rw [hclear, clearInt_getLsbD _ _ hk] at hne ⊢
    have hv : v.getLsbD k = true := by
      by_contra hv
      simp [hv] at hne
    exact .inl ⟨by simp [hv], v, rfl, hv⟩
  · rw [hset, BitVec.getLsbD_or, intCmdDropped_getLsbD k hk] at hne ⊢
    have h4 : k = 4 := by
      by_contra h4
      simp [h4] at hne
    exact .inr ⟨by simp [h4], h4, hb, v, rfl⟩

/-- Two values share a bit when their conjunction is not 0. -/
theorem and_bne_zero_iff (x y : BitVec 5) :
    ((x &&& y) != 0) = true ↔ ∃ k < 5, x.getLsbD k = true ∧ y.getLsbD k = true := by
  rw [bne_iff_ne]
  constructor
  · intro hne
    by_contra hnone
    refine hne (BitVec.eq_of_getLsbD_eq fun k hk => ?_)
    rw [BitVec.getLsbD_and]
    by_contra hboth
    exact hnone ⟨k, hk, by simpa using hboth⟩
  · rintro ⟨k, -, hx, hy⟩ h0
    have hk := congrArg (fun v : BitVec 5 => v.getLsbD k) h0
    simp [hx, hy] at hk

/-- A step is the sequencer's turn or another action, taken with the agenda advanced. -/
theorem step_turn_or_action {s t : State} (h : step s = .next t) :
    ∃ rest, sequencerTurn { s with agenda := rest } = .next t ∨
      ∃ a, s.agenda.head? = some a ∧ a ≠ .sequencer ∧ actionStep a { s with agenda := rest } = .next t := by
  rcases step_next h with ⟨h0, hturn⟩ | ⟨a, rest, h0, ha⟩
  · exact ⟨[], .inl (by rw [← hturn, ← h0])⟩
  · refine ⟨rest, ?_⟩
    by_cases hq : a = .sequencer
    · subst hq; exact .inl ha
    · exact .inr ⟨a, by simp [h0], hq, ha⟩

/-- Settles O14: a bit that a step changes is the sequencer's turn's or the host's write's. -/
theorem interruptBitsFollowTheirEvents : Obligations.InterruptBitsFollowTheirEvents := by
  refine ⟨fun s t k hk h hreset => ?_, fun s => ⟨and_bne_zero_iff _ _, fun line => by simp [irqLine]⟩⟩
  by_cases hne : t.intStatus.getLsbD k = s.intStatus.getLsbD k
  · rw [hne]
    exact ⟨fun h1 h0 => Bool.noConfusion (h1.symm.trans h0), fun h0 h1 => Bool.noConfusion (h1.symm.trans h0)⟩
  obtain ⟨rest, hturn | ⟨a, hhead, hq, ha⟩⟩ := step_turn_or_action h
  · obtain ⟨hset, hb, htb, hhigh⟩ := sequencerTurn_bit hturn hk hne
    refine ⟨fun _ h0 => Bool.noConfusion (hset.symm.trans h0), fun _ _ => ?_⟩
    split
    · exact ⟨hb, htb⟩
    next h2 =>
      obtain ⟨h4, hfeed⟩ := hhigh (by omega)
      rw [if_pos h4]
      exact ⟨hb, hfeed⟩
  · have hr : a ≠ .reset := fun hr => hreset (hr ▸ hhead)
    obtain ⟨hclear, v, rfl, hv⟩ | ⟨hset, rfl, hb, v, rfl⟩ := actionStep_bit hq hr ha hk hne
    · exact ⟨fun _ _ => ⟨v, hhead, hv⟩, fun _ h1 => Bool.noConfusion (hclear.symm.trans h1)⟩
    · exact ⟨fun _ h0 => Bool.noConfusion (hset.symm.trans h0), fun _ _ => ⟨hb, v, hhead⟩⟩

end Sys2Proof.Machine

/-! # Host memory: what a step can write (R70, R74, R82, R360) -/

namespace Sys2Proof.Machine

theorem DecoderMoved.mem {s t : State} (h : DecoderMoved s t) : t.mem = s.mem := by rw [h.others]

/-- A command without an output buffer leaves host memory as it is (R83). -/
theorem exec_mem {i : Instr} {s t : State} (hi : usesOutput i = false) (h : exec i s = .next t) : t.mem = s.mem := by
  cases i with
  | nop => cases (execNop_eq s).symm.trans h; rfl
  | config =>
    have h' := (execConfig_eq s).symm.trans h
    split at h' <;> cases h' <;> rfl
  | deconfig => cases (execDeconfig_eq s).symm.trans h; rfl
  | profileQuery p =>
    have h' := (execProfileQuery_eq p s).symm.trans h
    split at h' <;> cases h' <;> rfl
  | decoderReset =>
    have h' := (execDecoderReset_eq s).symm.trans h
    split at h' <;> cases h' <;> rfl
  | feed stop =>
    obtain ⟨c, -, rfl⟩ | ⟨k, u, hl, rfl⟩ := execFeed_next (show execFeed stop s = .next t from h)
    · rfl
    · exact (feedLoop_moved hl).1.mem
  | frameBuild p => cases hi
  | frameRecover p => cases hi
  | symbolMap p => cases hi
  | render p v => cases hi
  | encode p v => cases hi
  | spectrum => cases hi

/-- A command keeps the memory's form: what it stores responds to DMA. -/
theorem exec_memoryInv {i : Instr} {s t : State} (hs : MemoryInv s) (h : exec i s = .next t) : MemoryInv t := by
  cases hi : usesOutput i with
  | false => unfold MemoryInv; rw [exec_mem hi h]; exact hs
  | true =>
    obtain ⟨c, -, rfl⟩ | ⟨out, hw, rfl⟩ := exec_output_next hi h
    · exact hs
    · exact store_wf_of_populated hs hw

@[simp] theorem scrambled_length (p : Platform) (n : Nat) (m : Memory) (r : Range) : (scrambled p n m r).length = r.len := by
  simp [scrambled]

/-- A clipped range is empty or ends inside host memory. -/
theorem clip_bound (r : Range) : r.clip.len = 0 ∨ r.clip.base + r.clip.len ≤ Config.addrSpace := by
  have h : r.clip.len ≤ Config.addrSpace - r.base := min_le_right ..
  have hb : r.clip.base = r.base := rfl
  omega

/-- The free bytes a reset leaves in an abandoned output range keep the memory's form (R360). -/
theorem store_scrambled_wf {m : Memory} (hm : m.wf = true) (p : Platform) (n : Nat) (r : Range) :
    (m.store r.clip.base (scrambled p n m r.clip)).wf = true := by
  apply store_wf hm
  rw [scrambled_length, ← List.length_eq_zero_iff, scrambled_length]
  exact clip_bound r

theorem abandonOutput_memoryInv {s : State} (hs : MemoryInv s) : MemoryInv (abandonOutput s) :=
  List.foldlRecOn (motive := MemoryInv) _ _ hs fun u hu r _ => store_scrambled_wf hu u.plat u.freeCount r

/-- Settles O57, by the cases of a step: each store lies in memory that responds, a reset's in the part of the output range
inside host memory. -/
theorem stepKeepsTheMemoryForm : Obligations.StepKeepsTheMemoryForm := by
  intro s t hs h
  obtain ⟨rest, ⟨hmoved, -, -⟩ | ⟨-, rfl⟩ | ⟨-, ⟨-, rfl⟩ | ⟨-, rfl⟩ | ⟨-, i, -, hexec⟩⟩⟩ := step_cases h
  · exact hmoved.mem hs
  · exact abandonOutput_memoryInv (s := { s with agenda := rest }) hs
  · exact hs
  · exact hs
  · exact exec_memoryInv (s := { s with agenda := rest }) hs hexec

end Sys2Proof.Machine

/-! # The register window's accesses (R71, R72, R340) -/

namespace Sys2Proof.Machine

/-- Any access but an aligned 32-bit one in the window names no offset (R71). -/
theorem windowOffset?_eq_none {s : State} {addr width : Nat}
    (h : ¬(width = 4 ∧ ∃ off < 512, off % 4 = 0 ∧ addr = s.plat.mmioBase + off)) : windowOffset? s addr width = none := by
  unfold windowOffset?
  rw [if_neg]
  rintro ⟨hw, hle, hlt, hal⟩
  have hlt : addr < s.plat.mmioBase + 512 := hlt
  exact h ⟨hw, addr - s.plat.mmioBase, by omega, hal, by omega⟩

theorem mmioWrite_aligned (s : State) {off : Nat} (h : off < 512) (h4 : off % 4 = 0) (v : Word) :
    mmioWrite (s.plat.mmioBase + off) 4 v s = windowWrite off v s := by
  rw [mmioWrite, windowOffset?_aligned s h h4]

/-- Settles O11: an aligned access names its offset, and any other names none. -/
theorem mmioAccessRules : Obligations.MmioAccessRules := by
  refine fun s v => ⟨fun off h h4 => ⟨mmioRead_aligned s h h4, mmioWrite_aligned s h h4 v⟩, fun addr width h => ?_⟩
  rw [mmioRead, mmioWrite, windowOffset?_eq_none h]
  exact ⟨rfl, rfl⟩

end Sys2Proof.Machine

/-! # Whose the buffers are (R88 to R91, R96) -/

namespace Sys2Proof.Machine

/-! ## The host's accesses -/

theorem inputOf_ok {v : Word} {i : Instr} (h : decode v = .ok i) (o : Operands) :
    inputOf v o = if usesInput i = true then [⟨o.srcAddr.toNat, o.srcLen.toNat⟩] else [] := by
  rw [inputOf, h]

theorem outputOf_ok {v : Word} {i : Instr} (h : decode v = .ok i) (o : Operands) :
    outputOf v o = if usesOutput i = true then [⟨o.dstAddr.toNat, o.dstCap.toNat⟩] else [] := by
  rw [outputOf, h]

/-- A host write to CMD is `HostWriteCMD` (R330). -/
theorem mmioWrite_cmd (s : State) (v : Word) : mmioWrite (s.plat.mmioBase + 0x008) 4 v s = writeCmd v s :=
  (mmioWrite_aligned s (by decide) (by decide) v).trans (windowWrite_offset v s .cmd)

/-- A host store to an owned byte is refused (R90). -/
theorem memStore_owned {s : State} {a addr : Nat} {bs : List Byte} (hle : addr ≤ a) (hlt : a < addr + bs.length)
    (ho : s.Owned a) : memStore addr bs s = .refused .bufferRace := by
  obtain ⟨h, -⟩ | ⟨hfree, -⟩ := memStore_cases addr bs s
  · exact h
  · exact absurd (by rwa [Nat.add_sub_cancel' hle]) (hfree (a - addr) (by omega))

/-- A host load of an owned output byte is refused (R90). -/
theorem memLoad_owned {s : State} {a addr n : Nat} (hle : addr ≤ a) (hlt : a < addr + n)
    (ho : s.OutputOwned a) : memLoad addr n s = .refused .bufferRace := by
  obtain ⟨h, -⟩ | ⟨hfree, -⟩ := memLoad_cases addr n s
  · exact h
  · exact absurd (by rwa [Nat.add_sub_cancel' hle]) (hfree (a - addr) (by omega))

theorem memStore_free {s : State} {addr : Nat} {bs : List Byte} (hfree : ∀ k < bs.length, ¬s.Owned (addr + k))
    (hp : s.plat.allPopulated ⟨addr, bs.length⟩ = true) :
    memStore addr bs s = .next { s with mem := s.mem.store addr bs } := by
  obtain ⟨-, k, hk, ho⟩ | ⟨-, ⟨hn, -⟩ | ⟨-, h⟩⟩ := memStore_cases addr bs s
  · exact absurd ho (hfree k hk)
  · cases hp.symm.trans hn
  · exact h

theorem memLoad_free {s : State} {addr n : Nat} (hfree : ∀ k < n, ¬s.OutputOwned (addr + k))
    (hp : s.plat.allPopulated ⟨addr, n⟩ = true) : memLoad addr n s = .next { s with
      observed := .bytes ((List.range n).map fun i => hostByte s (addr + i)) :: s.observed
      freeCount := s.freeCount + 1 } := by
  obtain ⟨-, k, hk, ho⟩ | ⟨-, ⟨hn, -⟩ | ⟨-, h⟩⟩ := memLoad_cases addr n s
  · exact absurd ho (hfree k hk)
  · cases hp.symm.trans hn
  · exact h

theorem hostByte_coherent {s : State} {a : Nat} (h : s.plat.isCoherent a = true) : hostByte s a = s.mem.read a := by
  rw [hostByte, if_pos h]

/-- Where memory is coherent a load returns the bytes memory holds (R89). -/
theorem memLoad_coherent {s : State} {addr n : Nat} (hfree : ∀ k < n, ¬s.OutputOwned (addr + k))
    (hp : s.plat.allPopulated ⟨addr, n⟩ = true) (hc : ∀ k < n, s.plat.isCoherent (addr + k) = true) :
    memLoad addr n s = .next { s with
      observed := .bytes (s.mem.load addr n) :: s.observed, freeCount := s.freeCount + 1 } := by
  have hbytes : ((List.range n).map fun i => hostByte s (addr + i)) = s.mem.load addr n :=
    List.map_congr_left fun k hk => hostByte_coherent (hc k (List.mem_range.1 hk))
  rw [memLoad_free hfree hp, hbytes]

/-- A read of STATUS with BUSY = 0 ends this block's claims (R90). -/
theorem hostReads_status_idle {s : State} (hb : s.busy = false) : hostReads 0x00C s =
    { s with observed := .word (windowRead s 0x00C) :: s.observed, heldIn := [], heldOut := [] } := by
  unfold hostReads
  rw [if_pos ⟨regAt_offset .status (mem_allRegs _), hb⟩]

/-- Any other read of a register leaves them. -/
theorem hostReads_other {off : Nat} {s : State} (h : off ≠ 0x00C ∨ s.busy = true) : hostReads off s =
    { s with observed := .word (windowRead s off) :: s.observed } := by
  unfold hostReads
  rw [if_neg]
  rintro ⟨hoff, hb⟩
  rcases h with h | h
  · exact h (offset_of_regAt hoff).symm
  · cases hb.symm.trans h

theorem mmioRead_eq (s : State) {off : Nat} (h : off < 512) (h4 : off % 4 = 0) :
    mmioRead (s.plat.mmioBase + off) 4 s = .next (hostReads off s) := by
  rw [mmioRead, windowOffset?_aligned s h h4]

theorem waitPoll_idle {s : State} (hb : s.busy = false) : waitPoll s = hostReads 0x00C s := by
  unfold waitPoll
  rw [if_neg (by simp [hb])]
  rfl

theorem waitPoll_busy {s : State} (hb : s.busy = true) : waitPoll s = { s with
    observed := .word (windowRead s 0x00C) :: s.observed, agenda := .sequencer :: .wait :: s.agenda } := by
  unfold waitPoll
  rw [if_pos hb, show Reg.offset .status = 0x00C from rfl, hostReads_other (.inr hb)]

/-! ## Other blocks -/

/-- Block `b` runs no command. -/
theorem any_runsOn_eq_false {s : State} {b : Nat} (h : ∀ p ∈ s.peers, p.block = b → p.running = false) :
    s.peers.any (PeerRun.runsOn b) = false := by
  simp only [List.any_eq_false, PeerRun.runsOn, Bool.and_eq_true, beq_iff_eq, not_and]
  exact fun p hp hr hb => Bool.noConfusion (hr.symm.trans (h p hp hb))

theorem isPeer_of_bounds {s : State} {b : Nat} (h1 : 1 ≤ b) (h2 : b < s.plat.gtmCount) : isPeer s b = true := by
  simp [isPeer, h1, h2]

/-- A read of another block's STATUS with BUSY = 0 there ends that block's claims (R90). -/
theorem peerStatus_idle {s : State} {b : Nat} (h1 : 1 ≤ b) (h2 : b < s.plat.gtmCount)
    (h : ∀ p ∈ s.peers, p.block = b → p.running = false) :
    peerStatus b s = .next { s with peers := s.peers.filter fun p => p.block != b } := by
  simp [peerStatus, isPeer_of_bounds h1 h2, any_runsOn_eq_false h]

/-! ## What a step does to the claims -/

/-- This block's claims on buffers go on. -/
def HeldKept (s t : State) : Prop := (∀ r ∈ s.heldIn, r ∈ t.heldIn) ∧ ∀ r ∈ s.heldOut, r ∈ t.heldOut

theorem heldKept_of_eq {s t : State} (hin : t.heldIn = s.heldIn) (hout : t.heldOut = s.heldOut) : HeldKept s t :=
  ⟨fun _ hr => hin ▸ hr, fun _ hr => hout ▸ hr⟩

/-- The other blocks' claims go on, some of their commands perhaps ended. -/
def PeersKept (s t : State) : Prop := ∀ run ∈ s.peers, ∃ b, { run with running := b } ∈ t.peers

theorem peersKept_of_subset {s t : State} (h : ∀ run ∈ s.peers, run ∈ t.peers) : PeersKept s t :=
  fun run hr => ⟨run.running, h run hr⟩

theorem peersKept_of_eq {s t : State} (h : t.peers = s.peers) : PeersKept s t := 
  peersKept_of_subset fun _ hr => h.symm ▸ hr

theorem windowWrite_claims {off : Nat} {v : Word} {s t : State} (h : windowWrite off v s = .next t) :
    HeldKept s t ∧ PeersKept s t := by
  unfold windowWrite at h
  split at h
  next r _ =>
    cases r with
    | cmd =>
      obtain ⟨-, rfl⟩ | ⟨-, rfl⟩ := writeCmd_next (v := v) (s := s) h
      · exact ⟨heldKept_of_eq rfl rfl, peersKept_of_eq rfl⟩
      · exact ⟨⟨fun _ => List.mem_append_left _, fun _ => List.mem_append_left _⟩, peersKept_of_eq rfl⟩
    | _ => cases h; exact ⟨heldKept_of_eq rfl rfl, peersKept_of_eq rfl⟩
  · cases h; exact ⟨heldKept_of_eq rfl rfl, peersKept_of_eq rfl⟩

/-- A register read ends this block's claims only where it is STATUS with BUSY = 0. -/
theorem hostReads_claims (off : Nat) (s : State) :
    (HeldKept s (hostReads off s) ∨ s.busy = false ∧ off = 0x00C) ∧ PeersKept s (hostReads off s) := by
  by_cases h : off ≠ 0x00C ∨ s.busy = true
  · rw [hostReads_other h]
    exact ⟨.inl (heldKept_of_eq rfl rfl), peersKept_of_eq rfl⟩
  · simp only [not_or, ne_eq, not_not, Bool.not_eq_true] at h
    obtain ⟨rfl, hb⟩ := h
    rw [hostReads_status_idle hb]
    exact ⟨.inr ⟨hb, rfl⟩, peersKept_of_eq rfl⟩

theorem waitPoll_claims (s : State) : (HeldKept s (waitPoll s) ∨ s.busy = false) ∧ PeersKept s (waitPoll s) := by
  cases hb : s.busy with
  | false =>
    rw [waitPoll_idle hb]
    exact ⟨.inr rfl, (hostReads_claims 0x00C s).2⟩
  | true =>
    rw [waitPoll_busy hb]
    exact ⟨.inl (heldKept_of_eq rfl rfl), peersKept_of_eq rfl⟩

/-- What another block's end leaves: its command is marked as ended (R96). -/
theorem peerFinish_claims {b : Nat} {bs : List Byte} {s t : State} (h : peerFinish b bs s = .next t) :
    HeldKept s t ∧ PeersKept s t := by
  unfold peerFinish at h
  split at h
  · cases h
  · dsimp only at h
    split at h <;> cases h
    refine ⟨heldKept_of_eq rfl rfl, fun run hr => ?_⟩
    refine ⟨if run.runsOn b then false else run.running, List.mem_map.2 ⟨run, hr, ?_⟩⟩
    split <;> rfl

theorem peerIssue_claims {b : Nat} {input output : Range} {s t : State} (h : peerIssue b input output s = .next t) :
    HeldKept s t ∧ PeersKept s t := by
  unfold peerIssue at h
  split at h
  · cases h
  · split at h
    · cases h; exact ⟨heldKept_of_eq rfl rfl, peersKept_of_eq rfl⟩
    · split at h
      · cases h
      · split at h <;> cases h
        exact ⟨heldKept_of_eq rfl rfl, peersKept_of_subset fun _ => List.mem_append_left _⟩

/-- A read of another block's STATUS takes away that block's claims only, and only ended ones. -/
theorem peerStatus_claims {b : Nat} {s t : State} (h : peerStatus b s = .next t) :
    HeldKept s t ∧ ∀ run ∈ s.peers, run ∈ t.peers ∨ run.running = false ∧ run.block = b := by
  unfold peerStatus at h
  split at h
  · cases h
  · split at h
    · cases h; exact ⟨heldKept_of_eq rfl rfl, fun run hr => .inl hr⟩
    next hany =>
      cases h
      refine ⟨heldKept_of_eq rfl rfl, fun run hr => ?_⟩
      by_cases hb : run.block = b
      · refine .inr ⟨?_, hb⟩
        have hn : run.runsOn b = false := by simpa using List.any_eq_false.1 (by simpa using hany) run hr
        simpa [PeerRun.runsOn, hb] using hn
      · exact .inl (List.mem_filter.2 ⟨hr, by simpa using hb⟩)

theorem abandonOutput_peers (s : State) : (abandonOutput s).peers = s.peers :=
  List.foldlRecOn (motive := fun u : State => u.peers = s.peers) _ _ rfl fun _ hu _ _ => hu

theorem sequencerTurn_claims {s t : State} (h : sequencerTurn s = .next t) : HeldKept s t ∧ PeersKept s t := by
  obtain ⟨-, rfl⟩ | ⟨-, ⟨i, -, he⟩ | ⟨-, rfl⟩⟩ := sequencerTurn_next h
  · exact ⟨heldKept_of_eq rfl rfl, peersKept_of_eq rfl⟩
  · have hside := (exec_hostSide he).1
    exact ⟨heldKept_of_eq hside.heldIn hside.heldOut, peersKept_of_eq hside.peers⟩
  · exact ⟨heldKept_of_eq rfl rfl, peersKept_of_eq rfl⟩

/-- What the action `a?`, none being the sequencer's turn, may do to the claims: this block's end only by the reset line, a read of
STATUS with BUSY = 0 or WAIT; another block's only with an ended command, by a read of that block's STATUS (R90). -/
def ClaimsFollow (a? : Option HostAction) (s t : State) : Prop :=
  (HeldKept s t ∨ a? = some .reset ∨
    s.busy = false ∧ (a? = some .wait ∨ a? = some (.mmioRead (s.plat.mmioBase + 0x00C) 4))) ∧
  ∀ run ∈ s.peers, (∃ b, { run with running := b } ∈ t.peers) ∨ run.running = false ∧ a? = some (.peerStatus run.block)

theorem claimsFollow_of_kept {a? : Option HostAction} {s t : State} (h : HeldKept s t ∧ PeersKept s t) :
    ClaimsFollow a? s t := ⟨.inl h.1, fun run hr => .inl (h.2 run hr)⟩

theorem actionStep_claims {a : HostAction} {s t : State} (h : actionStep a s = .next t) : ClaimsFollow (some a) s t := by
  cases a with
  | mmioRead addr width =>
    simp only [actionStep, mmioRead] at h
    split at h
    next off ho =>
      cases h
      obtain ⟨rfl, rfl⟩ := windowOffset?_eq_some ho
      obtain ⟨hheld | ⟨hb, rfl⟩, hpeers⟩ := hostReads_claims off s
      · exact claimsFollow_of_kept ⟨hheld, hpeers⟩
      · exact ⟨.inr (.inr ⟨hb, .inr rfl⟩), fun run hr => .inl (hpeers run hr)⟩
    · cases h
  | mmioWrite addr width v =>
    simp only [actionStep, mmioWrite] at h
    split at h
    · exact claimsFollow_of_kept (windowWrite_claims h)
    · cases h
  | memLoad addr n =>
    obtain ⟨hn, -⟩ | ⟨-, ⟨-, hn⟩ | ⟨-, hn⟩⟩ := memLoad_cases addr n s <;> cases hn.symm.trans h
    exact claimsFollow_of_kept ⟨heldKept_of_eq rfl rfl, peersKept_of_eq rfl⟩
  | memStore addr bs =>
    obtain ⟨hn, -⟩ | ⟨-, ⟨-, hn⟩ | ⟨-, hn⟩⟩ := memStore_cases addr bs s <;> cases hn.symm.trans h
    exact claimsFollow_of_kept ⟨heldKept_of_eq rfl rfl, peersKept_of_eq rfl⟩
  | wait =>
    cases h
    obtain ⟨hheld | hb, hpeers⟩ := waitPoll_claims s
    · exact claimsFollow_of_kept ⟨hheld, hpeers⟩
    · exact ⟨.inr (.inr ⟨hb, .inl rfl⟩), fun run hr => .inl (hpeers run hr)⟩
  | sequencer => exact claimsFollow_of_kept (sequencerTurn_claims h)
  | reset =>
    cases h
    exact ⟨.inr (.inl rfl), fun run hr => .inl (peersKept_of_eq (abandonOutput_peers s) run hr)⟩
  | peerIssue b input output => exact claimsFollow_of_kept (peerIssue_claims h)
  | peerFinish b bs => exact claimsFollow_of_kept (peerFinish_claims h)
  | peerStatus b =>
    obtain ⟨hheld, hpeers⟩ := peerStatus_claims h
    refine ⟨.inl hheld, fun run hr => ?_⟩
    obtain hin | ⟨hrun, rfl⟩ := hpeers run hr
    · exact .inl ⟨run.running, hin⟩
    · exact .inr ⟨hrun, rfl⟩

theorem step_claims {s t : State} (h : step s = .next t) : ClaimsFollow s.agenda.head? s t := by
  obtain ⟨-, hturn⟩ | ⟨a, rest, h0, ha⟩ := step_next h
  · exact claimsFollow_of_kept (sequencerTurn_claims hturn)
  · rw [h0]
    exact actionStep_claims (s := { s with agenda := rest }) ha

/-- Settles O15, part by part: the CMD write, the host's loads and stores, the reads of STATUS, and the claims a step keeps. -/
theorem buffersBelongToTheBlock : Obligations.BuffersBelongToTheBlock := by
  refine ⟨?_, ?_, ?_, ?_, fun s t h => (step_claims h).1, ?_, ?_, ?_, fun s t run h => (step_claims h).2 run⟩
  · intro s t v i hi hb h
    rw [mmioWrite_cmd] at h
    obtain ⟨hbusy, -⟩ | ⟨-, rfl⟩ := writeCmd_next h
    · cases hb.symm.trans hbusy
    · rw [issue_heldIn, issue_heldOut, inputOf_ok hi, outputOf_ok hi]
      exact ⟨rfl, rfl⟩
  · exact fun s a addr hle => ⟨fun bs hlt ho => memStore_owned hle hlt ho, fun n hlt ho => memLoad_owned hle hlt ho⟩
  · exact fun s addr bs hfree hp => ⟨_, memStore_free hfree hp, rfl, load_store s.mem addr bs,
      fun a ha => read_store_outside s.mem addr bs ha⟩
  · refine fun s addr n hfree hp => ⟨_, memLoad_free hfree hp, by simp, fun k hk hc => ?_⟩
    simp [hk, hostByte_coherent hc]
  · intro s hb
    refine ⟨_, mmioRead_eq s (by decide) (by decide), waitPoll_idle hb, ?_⟩
    rw [hostReads_status_idle hb]
    refine ⟨rfl, rfl, fun addr n hpeers hp hc => ?_⟩
    have hfree : ∀ k < n, ¬State.OutputOwned
        { s with observed := .word (windowRead s 0x00C) :: s.observed, heldIn := [], heldOut := [] } (addr + k) := by
      rintro k hk (⟨r, hr, -⟩ | ⟨p, hmem, hin⟩)
      · cases hr
      · cases (hpeers k hk p hmem).symm.trans hin
    exact memLoad_coherent hfree hp hc
  · refine fun s => ⟨fun hb => ?_, fun off h h4 hoff => ⟨_, mmioRead_eq s h h4, ?_⟩⟩
    · rw [waitPoll_busy hb]; exact ⟨rfl, rfl⟩
    · rw [hostReads_other hoff]; exact ⟨rfl, rfl⟩
  · exact fun s b h1 h2 h => ⟨_, peerStatus_idle h1 h2 h, rfl, fun p => by simp⟩

end Sys2Proof.Machine

/-! # Races between blocks (R91, R96) -/

namespace Sys2Proof.Machine

/-- Two lists of ranges that share an address overlap. -/
theorem anyOverlap_of_shared {xs ys : List Range} {x y : Range} (hx : x ∈ xs) (hy : y ∈ ys) {a : Nat}
    (hxa : x.contains a = true) (hya : y.contains a = true) : anyOverlap xs ys = true :=
  (anyOverlap_iff xs ys).2 ⟨x, hx, y, hy, a, hxa, hya⟩

theorem mem_peerRanges {s : State} {r : Range} :
    r ∈ peerRanges s ↔ ∃ p ∈ s.peers, p.running = true ∧ (r = p.input ∨ r = p.output) := by
  simp [peerRanges, PeerRun.ranges, and_assoc]

/-- Settles O16: the ranges that share an address overlap, and both CMD writes look for that. -/
theorem blockRacesAreRefused : Obligations.BlockRacesAreRefused := by
  refine ⟨fun s b input output a h1 h2 hidle hin hout hap => ?_, fun s a => ⟨?_, ?_⟩⟩
  · have hov : input.overlaps output = true := (overlaps_iff input output).2 ⟨a, hin, hout⟩
    simp [peerIssue, isPeer_of_bounds h1 h2, any_runsOn_eq_false hidle, hap, hov]
  · intro run hrun hrunning hcontains v r hb hr hra
    have hov : anyOverlap (inputOf v s.ops ++ outputOf v s.ops) (peerRanges s) = true := by
      rcases hcontains with hc | hc
      · exact anyOverlap_of_shared hr (mem_peerRanges.2 ⟨run, hrun, hrunning, .inl rfl⟩) hra hc
      · exact anyOverlap_of_shared hr (mem_peerRanges.2 ⟨run, hrun, hrunning, .inr rfl⟩) hra hc
    simp [writeCmd, hb, hov]
  · intro b input output r h1 h2 hidle hcontains hr hra
    have hr : r ∈ runningRanges s ++ peerRanges s := List.mem_append.2 (hr.imp id mem_peerRanges.2)
    have hov : anyOverlap [input, output] (runningRanges s ++ peerRanges s) = true := by
      rcases hcontains with hc | hc
      · exact anyOverlap_of_shared (x := input) (by simp) hr hc hra
      · exact anyOverlap_of_shared (x := output) (by simp) hr hc hra
    simp [peerIssue, isPeer_of_bounds h1 h2, any_runsOn_eq_false hidle, hov]

end Sys2Proof.Machine

/-! # The output of a storing command: its size, its place, and the stops (R83, R86, R91) -/

namespace Sys2Proof.Machine

/-! ## Output sizes -/

theorem outputSize_frameBuild (p : Nat) (s : State) : outputSize (.frameBuild p) s = frameChips s.cfg s.srcLen := rfl

theorem outputSize_spectrum (s : State) : outputSize .spectrum s = 513 * 8 := rfl

theorem outputSize_symbolMap {p : Nat} (hp : p < 12) (s : State) :
    outputSize (.symbolMap p) s = symbolCount (profile ⟨p, hp⟩) s.srcLen := by
  simp [outputSize, profile?, hp, symbolCount]

theorem outputSize_render {p : Nat} (hp : p < 12) (vol : Nat) (s : State) :
    outputSize (.render p vol) s = waveSamples (profile ⟨p, hp⟩) s.srcLen * s.cfg.sampleBytes := by
  simp [outputSize, profile?, hp, waveSamples, Config.markerWindows]

theorem outputSize_encode {p : Nat} (hp : p < 12) (vol : Nat) (s : State) : outputSize (.encode p vol) s =
    waveSamples (profile ⟨p, hp⟩) (symbolCount (profile ⟨p, hp⟩) (frameChips s.cfg s.srcLen)) * s.cfg.sampleBytes := by
  simp [outputSize, profile?, hp, waveSamples, symbolCount, Config.markerWindows]

@[simp] theorem inputBytes_length (s : State) (n : Nat) : (inputBytes s n).length = n := load_length ..

@[simp] theorem spectrumBytes_length (w : List Sample) : (spectrumBytes w).length = 513 * 8 := by
  rw [spectrumBytes, length_flatMap_const (k := 8) _ _ (by simp), List.length_range]

theorem recoverInto_ok {c : Params} {q : Profile} {cap : Nat} {chips out : List Byte}
    (h : recoverInto c q cap chips = .ok out) : out.length ≤ cap := by
  unfold recoverInto at h
  split at h
  · cases h
  · split at h <;> cases h
    omega

/-! ## What a storing command stores -/

/-- The bytes command `i` stores fit its output buffer and are as many as R322 computes, FRAME_RECOVER apart (R83). -/
def OutputFits (i : Instr) (s : State) (out : List Byte) : Prop :=
  out.length ≤ s.dstCap ∧ ((∀ p, i ≠ .frameRecover p) → out.length = outputSize i s)

theorem outputFits_of_length {i : Instr} {s : State} {out : List Byte} (hlen : out.length = outputSize i s)
    (hcap : outputSize i s ≤ s.dstCap) : OutputFits i s out := ⟨hlen.trans_le hcap, fun _ => hlen⟩

/-- A command finished with an error and nothing else changed, or stored bytes with the property `P`. -/
def FailsOrStores (P : List Byte → Prop) (s t : State) : Prop :=
  (∃ c, c ≠ .ok ∧ t = finish c s) ∨ ∃ out, P out ∧ t = storedOutput out s

theorem checkedTransfer_next {P : List Byte → Prop} {checks : List (Bool × Code)} {n : Nat}
    {f : List Byte → Except Code (List Byte)} {s t : State} (hchecks : ∀ x ∈ checks, x.2 ≠ .ok)
    (hf : ∀ bs c, f bs = .error c → c ≠ .ok)
    (hP : (∀ x ∈ checks, x.1 = false) → ∀ out, f (inputBytes s n) = .ok out → P out)
    (h : checkedTransfer checks n f s = .next t) : FailsOrStores P s t := by
  unfold checkedTransfer at h
  split at h
  next c hc => exact .inl ⟨c, hchecks _ (mem_of_firstError hc), eq_finish_of_complete h⟩
  next h0 =>
    obtain ⟨-, -, ⟨c, hc, rfl⟩ | ⟨out, hout, -, rfl⟩⟩ := transfer_next h
    · exact .inl ⟨c, hf _ _ hc, rfl⟩
    · exact .inr ⟨out, hP ((firstError_eq_none_iff _).1 h0) out hout, rfl⟩

theorem protoCommand_next {P : List Byte → Prop} {p : Nat} {checks : Profile → List (Bool × Code)} {n : Nat}
    {f : Profile → List Byte → Except Code (List Byte)} {s t : State} (hchecks : ∀ q, ∀ x ∈ checks q, x.2 ≠ .ok)
    (hf : ∀ q bs c, f q bs = .error c → c ≠ .ok)
    (hP : ∀ hp : p < 12, (∀ x ∈ checks (profile ⟨p, hp⟩), x.1 = false) →
      ∀ out, f (profile ⟨p, hp⟩) (inputBytes s n) = .ok out → P out)
    (h : protoCommand (profile? p) checks n f s = .next t) : FailsOrStores P s t := by
  unfold protoCommand at h
  split at h
  · exact .inl ⟨_, by decide, eq_finish_of_complete h⟩
  · split at h
    · exact .inl ⟨_, by decide, eq_finish_of_complete h⟩
    next q hq =>
      obtain ⟨hp, rfl⟩ := profile?_eq_some.1 hq
      exact checkedTransfer_next (hchecks _) (hf _) (hP hp) h

/-- The capacity check passed (R322). -/
theorem le_of_overflow_check {checks : List (Bool × Code)} {size cap : Nat} (h : ∀ x ∈ checks, x.1 = false)
    (hmem : (decide (cap < size), Code.outputOverflow) ∈ checks) : size ≤ cap := by simpa using h _ hmem

/-- The six storing commands: each fails, or stores an output that fits. -/
theorem exec_output_fits {i : Instr} {s t : State} (hi : usesOutput i = true) (h : exec i s = .next t) :
    FailsOrStores (OutputFits i s) s t := by
  cases i with
  | frameBuild p =>
    refine protoCommand_next (by simp) (fun q bs c => frameBuild_error_ne_ok) (fun hp h0 out hout => ?_)
      (show protoCommand (profile? p) _ s.srcLen _ s = .next t from h)
    refine outputFits_of_length ?_ ((outputSize_frameBuild p s).trans_le (le_of_overflow_check h0 (by simp)))
    rw [frameBuild_length hout, inputBytes_length, outputSize_frameBuild]
  | frameRecover p =>
    exact protoCommand_next (by simp) (fun q bs c => recoverInto_error_ne_ok)
      (fun hp h0 out hout => ⟨recoverInto_ok hout, fun hn => absurd rfl (hn p)⟩)
      (show protoCommand (profile? p) _ s.srcLen _ s = .next t from h)
  | symbolMap p =>
    refine protoCommand_next (by simp) (by simp) (fun hp h0 out hout => ?_)
      (show protoCommand (profile? p) _ s.srcLen _ s = .next t from h)
    refine outputFits_of_length ?_ ((outputSize_symbolMap hp s).trans_le (le_of_overflow_check h0 (by simp)))
    rw [← Except.ok.inj hout, symbolMap_length, inputBytes_length, outputSize_symbolMap hp]
  | render p vol =>
    refine protoCommand_next (by simp) (by simp) (fun hp h0 out hout => ?_)
      (show protoCommand (profile? p) _ s.srcLen _ s = .next t from h)
    refine outputFits_of_length ?_ ((outputSize_render hp vol s).trans_le (le_of_overflow_check h0 (by simp)))
    rw [← Except.ok.inj hout, renderBytes_length, inputBytes_length, outputSize_render hp]
  | encode p vol =>
    refine protoCommand_next (by simp) (fun q bs c => encodeBytes_error_ne_ok) (fun hp h0 out hout => ?_)
      (show protoCommand (profile? p) _ s.srcLen _ s = .next t from h)
    refine outputFits_of_length ?_ ((outputSize_encode hp vol s).trans_le (le_of_overflow_check h0 (by simp)))
    obtain ⟨chips, -, -, hlen⟩ := encodeBytes_eq_ok hout
    rw [hlen, inputBytes_length, outputSize_encode hp]
  | spectrum =>
    have h : execSpectrum s = .next t := h
    unfold execSpectrum at h
    split at h
    · exact .inl ⟨_, by decide, eq_finish_of_complete h⟩
    · refine checkedTransfer_next (n := 1024 * s.cfg.sampleBytes) (by simp) (by simp) (fun h0 out hout => ?_) h
      refine outputFits_of_length ?_ ((outputSize_spectrum s).trans_le (le_of_overflow_check h0 (by simp)))
      rw [← Except.ok.inj hout, spectrumBytes_length, outputSize_spectrum]
  | nop => cases hi
  | config => cases hi
  | deconfig => cases hi
  | profileQuery p => cases hi
  | feed b => cases hi
  | decoderReset => cases hi

theorem dstCap_lt (s : State) : s.dstCap < 2 ^ 32 := s.latch.ops.dstCap.isLt

theorem storedOutput_resultLen {out : List Byte} {s : State} (h : out.length ≤ s.dstCap) :
    (storedOutput out s).resultLen.toNat = out.length :=
  (BitVec.toNat_ofNat ..).trans (Nat.mod_eq_of_lt (h.trans_lt (dstCap_lt s)))

/-- Settles O25: the command failed and touched no memory, or it stored an output that fits. -/
theorem storingCommandFrame : Obligations.StoringCommandFrame := by
  intro i s t hi h
  obtain ⟨c, hc, rfl⟩ | ⟨out, ⟨hcap, hsize⟩, rfl⟩ := exec_output_fits hi h
  · have hlen : (finish c s).resultLen.toNat = 0 := by rw [finish_error_resultLen hc]; rfl
    refine ⟨finish_sameHostSide c s, finish_sameInstance c s, rfl, sameInt_of_or rfl, ?_, fun _ _ => rfl,
      fun _ _ => rfl, fun hok => absurd hok hc⟩
    rw [hlen]; exact Nat.zero_le _
  · rw [storedOutput_resultLen hcap]
    exact ⟨storedOutput_sameHostSide out s, storedOutput_sameInstance out s, rfl, sameInt_of_or (c := .ok) rfl, hcap,
      fun a ha => read_store_outside s.mem s.dst out ha, fun herr => absurd rfl herr, fun _ => hsize⟩

/-! ## Stops -/

/-- A range with a byte that does not respond. -/
theorem allPopulated_eq_false {p : Platform} {r : Range} (h : ∃ a, p.isPopulated a = false ∧ r.contains a = true) :
    p.allPopulated r = false := by
  obtain ⟨a, ha, hr⟩ := h
  rw [contains_iff] at hr
  simp only [Platform.allPopulated, List.all_eq_false, List.mem_range]
  exact ⟨a - r.base, by omega, by simp [Nat.add_sub_cancel' hr.1, ha]⟩

/-- A byte of the input that does not respond is a bus error (R86). -/
theorem transfer_unreadable {n : Nat} {f : List Byte → Except Code (List Byte)} {s : State}
    (hap : s.inputRange.overlaps s.outputRange = false) (hr : s.plat.allPopulated ⟨s.src, n⟩ = false) :
    transfer n f s = .fault .busError := by
  simp [transfer, hap, dmaRead, hr]

/-- So is a byte of the output (R86). -/
theorem transfer_unwritable {n : Nat} {f : List Byte → Except Code (List Byte)} {s : State} {out : List Byte}
    (hap : s.inputRange.overlaps s.outputRange = false) (hf : f (inputBytes s n) = .ok out)
    (hw : s.plat.allPopulated ⟨s.dst, out.length⟩ = false) : transfer n f s = .fault .busError := by
  cases hr : s.plat.allPopulated ⟨s.src, n⟩ with
  | false => exact transfer_unreadable hap hr
  | true =>
    have hd : dmaRead s s.src n = some (inputBytes s n) := dmaRead_eq_some.2 ⟨hr, rfl⟩
    simp [transfer, hap, hd, hf, writeOutput_eq, hw]

theorem encodeBytes_ok {c : Params} {q : Profile} {vol : Nat} {payload : List Byte}
    (h : payloadTooLarge c q payload.length = false) : ∃ out, encodeBytes c q vol payload = .ok out := by
  rw [encodeBytes, frameBuild_eq_ok.2 ⟨h, rfl⟩]
  exact ⟨_, rfl⟩

/-- Where no check of R322 applies, a storing command is a transfer of as many bytes as R322 computes, FRAME_RECOVER apart. -/
theorem exec_eq_transfer {i : Instr} {s : State} (hi : usesOutput i = true) (h : firstFailure i s = none) :
    ∃ f, exec i s = transfer (inputBytesRead i s) f s ∧ ((∀ p, i ≠ .frameRecover p) →
      ∃ out, f (inputBytes s (inputBytesRead i s)) = .ok out ∧ out.length = outputSize i s) := by
  cases i with
  | frameBuild p =>
    obtain ⟨hp, he, hsz⟩ := execFrameBuild_of_none h
    rw [← inputBytes_length s s.srcLen] at hsz
    have hf := frameBuild_eq_ok.2 ⟨hsz, rfl⟩
    exact ⟨_, he, fun _ => ⟨_, hf, by rw [frameBuild_length hf, inputBytes_length, outputSize_frameBuild]⟩⟩
  | frameRecover p =>
    obtain ⟨hp, he, -⟩ := execFrameRecover_of_none h
    exact ⟨_, he, fun hn => absurd rfl (hn p)⟩
  | symbolMap p =>
    obtain ⟨hp, he, -⟩ := execSymbolMap_of_none h
    exact ⟨_, he, fun _ => ⟨_, rfl, by rw [symbolMap_length, inputBytes_length, outputSize_symbolMap hp]; rfl⟩⟩
  | render p vol =>
    obtain ⟨hp, he, -⟩ := execRender_of_none h
    exact ⟨_, he, fun _ => ⟨_, rfl, by rw [renderBytes_length, inputBytes_length, outputSize_render hp]; rfl⟩⟩
  | encode p vol =>
    obtain ⟨hp, he, hsz, -⟩ := execEncode_of_none h
    rw [← inputBytes_length s s.srcLen] at hsz
    obtain ⟨out, hout⟩ := encodeBytes_ok (vol := vol) hsz
    obtain ⟨-, -, -, hlen⟩ := encodeBytes_eq_ok hout
    exact ⟨_, he, fun _ => ⟨out, hout, by rw [hlen, inputBytes_length, outputSize_encode hp]⟩⟩
  | spectrum => exact ⟨_, (execSpectrum_of_none h).1, fun _ => ⟨_, rfl, spectrumBytes_length _⟩⟩
  | nop => cases hi
  | config => cases hi
  | deconfig => cases hi
  | profileQuery p => cases hi
  | feed b => cases hi
  | decoderReset => cases hi

/-- With STOP = 0 the loop reaches every sample, so one that does not respond ends it (R86). -/
theorem feedLoop_absent {xs : List (Option Sample)} (h : none ∈ xs) (n : Nat) (s : State) : feedLoop false xs n s = none := by
  induction xs generalizing n s with
  | nil => cases h
  | cons x xs ih =>
    cases x with
    | none => rfl
    | some x =>
      have h : none ∈ xs := by simpa using h
      simp only [feedLoop, Bool.false_and, Bool.false_eq_true, if_false]
      exact ih h _ _

/-- A byte of FEED's input that does not respond makes its sample absent, the length being whole samples (R81, R86). -/
theorem none_mem_inputSamples {s : State} (hal : s.srcLen % s.cfg.sampleBytes = 0)
    (h : ∃ a, s.plat.isPopulated a = false ∧ (⟨s.src, s.srcLen⟩ : Range).contains a = true) : none ∈ inputSamples s := by
  obtain ⟨a, ha, hin⟩ := h
  simp only [contains_iff] at hin
  have hpos : 0 < s.cfg.sampleBytes := by unfold Params.sampleBytes; split <;> omega
  have hdiv : a - s.src < s.cfg.sampleBytes * (s.srcLen / s.cfg.sampleBytes) := by
    rw [Nat.mul_div_cancel' (Nat.dvd_of_mod_eq_zero hal)]; omega
  have hk := Nat.div_lt_of_lt_mul hdiv
  have hsplit := Nat.div_add_mod (a - s.src) s.cfg.sampleBytes
  have hmod := Nat.mod_lt (a - s.src) hpos
  rw [Nat.mul_comm] at hsplit
  have habsent : s.plat.allPopulated ⟨s.src + (a - s.src) / s.cfg.sampleBytes * s.cfg.sampleBytes, s.cfg.sampleBytes⟩
      = false := allPopulated_eq_false ⟨a, ha, by rw [contains_iff]; dsimp only; omega⟩
  rw [List.mem_iff_getElem]
  refine ⟨(a - s.src) / s.cfg.sampleBytes, by simpa [inputSamples, Memory.loadItems] using hk, ?_⟩
  simp [inputSamples, habsent]

theorem execFeed_absent {s : State} (h : firstFailure (.feed false) s = none)
    (hin : ∃ a, s.plat.isPopulated a = false ∧ (⟨s.src, s.srcLen⟩ : Range).contains a = true) :
    exec (.feed false) s = .fault .busError := by
  obtain ⟨-, -, hal, -, he⟩ := execFeed_of_none h
  rw [he, feedLoop_absent (none_mem_inputSamples hal hin)]

/-- An empty range holds no address. -/
theorem contains_empty {base a : Nat} : (⟨base, 0⟩ : Range).contains a ≠ true := by
  rw [ne_eq, contains_iff]; dsimp only; omega

/-- Settles O24: a storing command is a transfer, which looks at the ranges, then at the input, then at the output; FEED looks
at each sample's bytes. -/
theorem overlapsAndBusErrorsStop : Obligations.OverlapsAndBusErrorsStop := by
  refine ⟨fun p s r h hap _ hr hcap hw => ?_, fun i s h hi => ?_⟩
  · obtain ⟨hp, he, -⟩ := execFrameRecover_of_none h
    have hout : recoverInto s.cfg (profile p) s.dstCap (inputBytes s s.srcLen) = .ok r := by
      rw [recoverInto, hr]; exact if_neg (not_lt.2 hcap)
    exact he.trans (transfer_unwritable hap hout (allPopulated_eq_false hw))
  cases ho : usesOutput i with
  | true =>
    obtain ⟨f, he, hout⟩ := exec_eq_transfer ho h
    rw [he]
    refine ⟨fun _ hov => transfer_overlap hov, fun hap _ => ?_⟩
    refine ⟨fun hr => transfer_unreadable (hap rfl) (allPopulated_eq_false hr), fun hw => ?_⟩
    by_cases hrec : ∀ p, i ≠ .frameRecover p
    · obtain ⟨out, hf, hlen⟩ := hout hrec
      exact transfer_unwritable (hap rfl) hf (hlen ▸ allPopulated_eq_false hw)
    · simp only [ne_eq, not_forall, not_not] at hrec
      obtain ⟨p, rfl⟩ := hrec
      obtain ⟨a, -, ha⟩ := hw
      exact absurd ha contains_empty
  | false =>
    refine ⟨nofun, fun _ hstop => ?_⟩
    cases i with
    | feed stop =>
      obtain rfl : stop = false := by simpa using hstop
      exact ⟨execFeed_absent h, fun ⟨a, _, ha⟩ => absurd ha contains_empty⟩
    | nop => cases hi
    | config => cases hi
    | deconfig => cases hi
    | profileQuery p => cases hi
    | decoderReset => cases hi
    | frameBuild p => cases ho
    | frameRecover p => cases ho
    | symbolMap p => cases ho
    | render p v => cases ho
    | encode p v => cases ho
    | spectrum => cases ho

end Sys2Proof.Machine

/-! # Sample formats: the bytes of a sample, and binary32 (R76 to R78) -/

namespace Sys2Proof.Machine

/-! ## Rounding -/

/-- `roundHalfEven` is within half of the quotient, and even where two integers are equally near (R78). -/
theorem roundHalfEven_spec (num den : Nat) (hden : 0 < den) :
    |2 * ((roundHalfEven num den : ℤ) * den - num)| ≤ den ∧
      (|2 * ((roundHalfEven num den : ℤ) * den - num)| = den → roundHalfEven num den % 2 = 0) := by
  have hdiv : (num : ℤ) = (num / den : ℕ) * den + (num % den : ℕ) := by exact_mod_cast (Nat.div_add_mod' num den).symm
  have hmod := Nat.mod_lt num hden
  unfold roundHalfEven
  dsimp only
  generalize num / den = q at *
  generalize num % den = r at *
  have hdown : (q : ℤ) * den - num = -r := by rw [hdiv]; ring
  have hup : ((q + 1 : ℕ) : ℤ) * den - num = den - r := by rw [hdiv]; push_cast; ring
  split
  · rw [hdown, abs_le, abs_eq (by omega)]; omega
  · split
    · rw [hup, abs_le, abs_eq (by omega)]; omega
    · split
      · rw [hdown, abs_le]; omega
      · rw [hup, abs_le]; omega

/-- The same as rational numbers. -/
theorem roundHalfEven_abs_sub_le (num den : Nat) (hden : 0 < den) :
    |(roundHalfEven num den : ℚ) - num / den| ≤ 1 / 2 ∧
      (|(roundHalfEven num den : ℚ) - num / den| = 1 / 2 → roundHalfEven num den % 2 = 0) := by
  have hd : (0 : ℚ) < den := by exact_mod_cast hden
  obtain ⟨hle, htie⟩ := roundHalfEven_spec num den hden
  have key : |(roundHalfEven num den : ℚ) - num / den| * (2 * den) =
      (|2 * ((roundHalfEven num den : ℤ) * den - num)| : ℤ) := by
    rw [← abs_of_pos (a := (2 * den : ℚ)) (by positivity), ← abs_mul]
    push_cast
    congr 1
    field_simp
  constructor
  · have : ((|2 * ((roundHalfEven num den : ℤ) * den - num)| : ℤ) : ℚ) ≤ den := by exact_mod_cast hle
    rw [← key] at this
    nlinarith
  · intro h
    apply htie
    rw [h] at key
    have : ((|2 * ((roundHalfEven num den : ℤ) * den - num)| : ℤ) : ℚ) = den := by rw [← key]; ring
    exact_mod_cast this

theorem roundHalfEven_le {num den k : Nat} (hden : 0 < den) (h : num ≤ k * den) : roundHalfEven num den ≤ k := by
  have hle := (abs_le.1 (roundHalfEven_spec num den hden).1).2
  by_contra hk
  have : ((k : ℤ) + 1) * den ≤ roundHalfEven num den * den :=
    mul_le_mul_of_nonneg_right (by omega) (by omega)
  have : (num : ℤ) ≤ k * den := by exact_mod_cast h
  nlinarith

/-! ## A binary32 encoding's fields and its value -/

/-- The exponent field of an encoding (R77). -/
def f32Exp (x : Word) : Nat := ((x >>> 23) &&& 0xFF#32).toNat

/-- The fraction field of an encoding (R77). -/
def f32Frac (x : Word) : Nat := (x &&& 0x7FFFFF#32).toNat

/-- The sign of an encoding (R77). -/
def f32Sign (x : Word) : ℤ := if x.msb then -1 else 1

/-- `|x| * 32768 = f32Num x / f32Den x` for the finite value of an encoding (R78). -/
def f32Num (x : Word) : Nat :=
  (if f32Exp x = 0 then f32Frac x else f32Frac x + 2 ^ 23) * 2 ^ ((if f32Exp x = 0 then 1 else f32Exp x) - 135)

/-- The denominator to `f32Num`. -/
def f32Den (x : Word) : Nat := 2 ^ (135 - (if f32Exp x = 0 then 1 else f32Exp x))

theorem f32Den_pos (x : Word) : 0 < f32Den x := Nat.two_pow_pos _

theorem fromF32_eq (x : Word) : fromF32 x =
    if f32Exp x = 255 ∧ f32Frac x ≠ 0 then 0
    else if x.msb then
      if f32Exp x = 255 ∨ 32768 * f32Den x ≤ f32Num x then BitVec.ofInt 16 (-32768)
      else BitVec.ofInt 16 (-(roundHalfEven (f32Num x) (f32Den x) : Int))
    else if f32Exp x = 255 ∨ 32767 * f32Den x ≤ f32Num x then 32767
    else BitVec.ofNat 16 (roundHalfEven (f32Num x) (f32Den x)) := rfl

theorem two_zpow_sub (a b : Nat) : (2 : ℚ) ^ ((a : ℤ) - b) = 2 ^ (a - b) / 2 ^ (b - a) := by
  rw [zpow_sub₀ two_ne_zero, zpow_natCast, zpow_natCast, div_eq_div_iff (by positivity) (by positivity), ← pow_add,
    ← pow_add]
  congr 1
  omega

/-- The scaled value of an encoding as the quotient the conversion rounds. -/
theorem f32Value_mul (x : Word) : f32Value x * 32768 = f32Sign x * ((f32Num x : ℚ) / f32Den x) := by
  have hsign : (if x.getLsbD 31 then (-1 : ℚ) else 1) = f32Sign x := by
    unfold f32Sign
    rw [← BitVec.msb_eq_getLsbD_last]
    split <;> simp
  have hval : f32Value x = (if x.getLsbD 31 then -1 else 1) * (if f32Exp x = 0 then (f32Frac x : ℚ) / 2 ^ 23 * 2 ^ (-126 : ℤ)
      else (1 + (f32Frac x : ℚ) / 2 ^ 23) * 2 ^ ((f32Exp x : ℤ) - 127)) := rfl
  rw [hval, hsign, mul_assoc]
  congr 1
  unfold f32Num f32Den
  split
  · norm_num
    ring
  · have hscale : (2 : ℚ) ^ ((f32Exp x : ℤ) - 127) * 32768 = 2 ^ 23 * 2 ^ ((f32Exp x : ℤ) - (135 : Nat)) := by
      rw [show ((f32Exp x : ℤ) - 127) = ((f32Exp x : ℤ) - (135 : Nat)) + 8 by push_cast; ring, zpow_add₀ two_ne_zero]
      norm_num
      ring
    rw [mul_assoc, hscale, two_zpow_sub]
    push_cast
    ring

/-! ## The conversion -/

theorem toInt_ofInt_sixteen {k : ℤ} (h1 : -32768 ≤ k) (h2 : k ≤ 32767) : (BitVec.ofInt 16 k).toInt = k :=
  BitVec.toInt_ofInt_eq_self (by decide) (by norm_num; omega) (by norm_num; omega)

theorem f32Sign_cases (x : Word) : (x.msb = false ∧ f32Sign x = 1) ∨ (x.msb = true ∧ f32Sign x = -1) := by
  unfold f32Sign
  cases x.msb <;> simp

/-- A scaled value of at least 32767 saturates (R78). -/
theorem fromF32_above {x : Word} (he : f32Exp x ≠ 255) (h : 32767 ≤ f32Value x * 32768) : fromF32 x = 32767 := by
  have hd : (0 : ℚ) < f32Den x := by exact_mod_cast f32Den_pos x
  have hq : (0 : ℚ) ≤ (f32Num x : ℚ) / f32Den x := div_nonneg (Nat.cast_nonneg _) hd.le
  rw [f32Value_mul] at h
  rcases f32Sign_cases x with ⟨hm, hs⟩ | ⟨-, hs⟩ <;> rw [hs] at h <;> push_cast at h
  · rw [one_mul, le_div_iff₀ hd] at h
    have h : 32767 * f32Den x ≤ f32Num x := by exact_mod_cast h
    rw [fromF32_eq]
    simp [he, hm, h]
  · linarith

/-- A scaled value of at most -32768 saturates (R78). -/
theorem fromF32_below {x : Word} (he : f32Exp x ≠ 255) (h : f32Value x * 32768 ≤ -32768) :
    (fromF32 x).toInt = -32768 := by
  have hd : (0 : ℚ) < f32Den x := by exact_mod_cast f32Den_pos x
  have hq : (0 : ℚ) ≤ (f32Num x : ℚ) / f32Den x := div_nonneg (Nat.cast_nonneg _) hd.le
  rw [f32Value_mul] at h
  rcases f32Sign_cases x with ⟨-, hs⟩ | ⟨hm, hs⟩ <;> rw [hs] at h <;> push_cast at h
  · linarith
  · have h : (32768 : ℚ) ≤ (f32Num x : ℚ) / f32Den x := by linarith
    rw [le_div_iff₀ hd] at h
    have h : 32768 * f32Den x ≤ f32Num x := by exact_mod_cast h
    rw [fromF32_eq]
    simp [he, hm, h]

/-- In between the quotient is rounded (R78). -/
theorem fromF32_between {x : Word} (he : f32Exp x ≠ 255) (hlo : -32768 < f32Value x * 32768)
    (hhi : f32Value x * 32768 < 32767) :
    (fromF32 x).toInt = f32Sign x * (roundHalfEven (f32Num x) (f32Den x) : ℤ) := by
  have hd : (0 : ℚ) < f32Den x := by exact_mod_cast f32Den_pos x
  rw [f32Value_mul] at hlo hhi
  rw [fromF32_eq, if_neg (by simp [he])]
  rcases f32Sign_cases x with ⟨hm, hs⟩ | ⟨hm, hs⟩ <;> rw [hs] at hlo hhi ⊢ <;> push_cast at hlo hhi
  · rw [one_mul, div_lt_iff₀ hd] at hhi
    have h : f32Num x < 32767 * f32Den x := by exact_mod_cast hhi
    have hr := roundHalfEven_le (f32Den_pos x) h.le
    rw [if_neg (by simp [hm]), if_neg (by simp [he, h]), ← BitVec.ofInt_natCast, toInt_ofInt_sixteen (by omega) (by omega),
      one_mul]
  · have h : (f32Num x : ℚ) / f32Den x < 32768 := by linarith
    rw [div_lt_iff₀ hd] at h
    have h : f32Num x < 32768 * f32Den x := by exact_mod_cast h
    have hr := roundHalfEven_le (f32Den_pos x) h.le
    rw [if_pos hm, if_neg (by simp [he, h]), toInt_ofInt_sixteen (by omega) (by omega), neg_one_mul]

/-- In between the conversion gives the nearest integer, the even one of two equally near (R78). -/
theorem fromF32_nearest {x : Word} (he : f32Exp x ≠ 255) (hlo : -32768 < f32Value x * 32768)
    (hhi : f32Value x * 32768 < 32767) : |((fromF32 x).toInt : ℚ) - f32Value x * 32768| ≤ 1 / 2 ∧
      (|((fromF32 x).toInt : ℚ) - f32Value x * 32768| = 1 / 2 → (fromF32 x).toInt % 2 = 0) := by
  obtain ⟨hle, heven⟩ := roundHalfEven_abs_sub_le (f32Num x) (f32Den x) (f32Den_pos x)
  have hone : |(f32Sign x : ℚ)| = 1 := by rcases f32Sign_cases x with ⟨-, hs⟩ | ⟨-, hs⟩ <;> simp [hs]
  have hdist : |((fromF32 x).toInt : ℚ) - f32Value x * 32768| =
      |(roundHalfEven (f32Num x) (f32Den x) : ℚ) - f32Num x / f32Den x| := by
    rw [fromF32_between he hlo hhi, f32Value_mul]
    push_cast
    rw [← mul_sub, abs_mul, hone, one_mul]
  rw [hdist]
  refine ⟨hle, fun htie => ?_⟩
  have heven := heven htie
  rw [fromF32_between he hlo hhi]
  rcases f32Sign_cases x with ⟨-, hs⟩ | ⟨-, hs⟩ <;> rw [hs] <;> omega

theorem fromF32_nan {x : Word} (he : f32Exp x = 255) (hf : f32Frac x ≠ 0) : fromF32 x = 0 := by
  rw [fromF32_eq, if_pos ⟨he, hf⟩]

theorem fromF32_infinity {x : Word} (he : f32Exp x = 255) (hf : f32Frac x = 0) :
    (fromF32 x).toInt = if x.msb then -32768 else 32767 := by
  rw [fromF32_eq, if_neg (by simp [hf])]
  cases x.msb <;> simp [he]

/-! ## The encoding of a sample -/

theorem f32Exp_eq (x : Word) : f32Exp x = x.toNat / 2 ^ 23 % 2 ^ 8 := by
  have hmask := Nat.and_two_pow_sub_one_eq_mod (x.toNat / 2 ^ 23) 8
  rw [f32Exp, BitVec.toNat_and, BitVec.toNat_ushiftRight, Nat.shiftRight_eq_div_pow]
  exact hmask

theorem f32Frac_eq (x : Word) : f32Frac x = x.toNat % 2 ^ 23 := by
  have hmask := Nat.and_two_pow_sub_one_eq_mod x.toNat 23
  rw [f32Frac, BitVec.toNat_and]
  exact hmask

/-- Sign, exponent and fraction side by side are a sum. -/
theorem packed32_toNat (b : Bool) {e f : Nat} (he : e < 2 ^ 8) (hf : f < 2 ^ 23) :
    ((if b then 0x80000000#32 else 0#32) ||| BitVec.ofNat 32 e <<< 23 ||| BitVec.ofNat 32 f).toNat
      = 2 ^ 31 * b.toNat + (2 ^ 23 * e + f) := by
  have hb : (if b then 0x80000000#32 else 0#32).toNat = 2 ^ 31 * b.toNat := by cases b <;> rfl
  rw [BitVec.or_assoc, BitVec.toNat_or, BitVec.toNat_or, hb, BitVec.toNat_shiftLeft, BitVec.toNat_ofNat, BitVec.toNat_ofNat,
    Nat.shiftLeft_eq, Nat.mod_eq_of_lt (a := e) (by omega), Nat.mod_eq_of_lt (a := f) (by omega),
    Nat.mod_eq_of_lt (a := e * 2 ^ 23) (by omega), Nat.mul_comm e,
    ← Nat.two_pow_add_eq_or_of_lt hf, ← Nat.two_pow_add_eq_or_of_lt (by omega)]

/-- The absolute value of a sample lies between the powers of its highest bit's place, which is at most 15. -/
theorem natAbs_log2_bounds {y : Sample} (h : y.toInt.natAbs ≠ 0) : y.toInt.natAbs.log2 ≤ 15 ∧
    2 ^ y.toInt.natAbs.log2 ≤ y.toInt.natAbs ∧ y.toInt.natAbs < 2 * 2 ^ y.toInt.natAbs.log2 := by
  have habs : y.toInt.natAbs < 2 ^ 16 := by have := abs_le.1 (sample_abs_le y); omega
  refine ⟨Nat.le_of_lt_succ ((Nat.log2_lt h).2 habs), Nat.log2_self_le h, ?_⟩
  rw [← Nat.pow_succ']
  exact Nat.lt_log2_self

/-- The fields of a sample's encoding (R77). -/
theorem toF32_fields {y : Sample} (h : y.toInt.natAbs ≠ 0) :
    f32Exp (toF32 y) = 112 + y.toInt.natAbs.log2 ∧
      f32Frac (toF32 y) + 2 ^ 23 = y.toInt.natAbs * 2 ^ (23 - y.toInt.natAbs.log2) ∧ (toF32 y).msb = y.msb := by
  obtain ⟨h15, hlo, hhi⟩ := natAbs_log2_bounds h
  have hpow : 2 ^ y.toInt.natAbs.log2 * 2 ^ (23 - y.toInt.natAbs.log2) = 2 ^ 23 := by
    rw [← pow_add]; congr 1; omega
  have hfrac : (y.toInt.natAbs - 2 ^ y.toInt.natAbs.log2) * 2 ^ (23 - y.toInt.natAbs.log2) + 2 ^ 23
      = y.toInt.natAbs * 2 ^ (23 - y.toInt.natAbs.log2) := by
    rw [Nat.sub_mul, hpow, Nat.sub_add_cancel]
    rw [← hpow]; exact Nat.mul_le_mul_right _ hlo
  have hlt : y.toInt.natAbs * 2 ^ (23 - y.toInt.natAbs.log2) < 2 * 2 ^ 23 := by
    rw [← hpow, ← Nat.mul_assoc]; exact Nat.mul_lt_mul_of_pos_right hhi (Nat.two_pow_pos _)
  have hnat := packed32_toNat y.msb (e := 112 + y.toInt.natAbs.log2)
    (f := (y.toInt.natAbs - 2 ^ y.toInt.natAbs.log2) * 2 ^ (23 - y.toInt.natAbs.log2)) (by omega) (by omega)
  have heq : toF32 y = _ := if_neg h
  rw [← heq] at hnat
  rw [f32Exp_eq, f32Frac_eq, BitVec.msb_eq_decide, hnat, ← hfrac]
  generalize (y.toInt.natAbs - 2 ^ y.toInt.natAbs.log2) * 2 ^ (23 - y.toInt.natAbs.log2) = f at *
  cases y.msb
  · simp only [Bool.toNat_false, decide_eq_false_iff_not]; omega
  · simp only [Bool.toNat_true, decide_eq_true_eq]; omega

theorem toF32_zero {y : Sample} (h : y.toInt.natAbs = 0) : toF32 y = 0 := if_pos h

theorem f32Exp_toF32_ne (y : Sample) : f32Exp (toF32 y) ≠ 255 := by
  by_cases h : y.toInt.natAbs = 0
  · rw [toF32_zero h]; decide
  · have := (natAbs_log2_bounds h).1
    rw [(toF32_fields h).1]; omega

/-- The encoding of a sample scales to the sample exactly (R77). -/
theorem f32Value_toF32_mul (y : Sample) : f32Value (toF32 y) * 32768 = y.toInt := by
  rw [f32Value_mul]
  by_cases h : y.toInt.natAbs = 0
  · have hnum : f32Num 0 = 0 := by decide
    rw [toF32_zero h, hnum, Int.natAbs_eq_zero.1 h]
    simp
  · obtain ⟨hexp, hfrac, hmsb⟩ := toF32_fields h
    have h15 := (natAbs_log2_bounds h).1
    have hquot : (f32Num (toF32 y) : ℚ) / f32Den (toF32 y) = y.toInt.natAbs := by
      have hnum : f32Num (toF32 y) = y.toInt.natAbs * f32Den (toF32 y) := by
        rw [f32Num, f32Den, hexp, if_neg (by omega), if_neg (by omega), hfrac, Nat.sub_eq_zero_of_le (by omega : _ ≤ 135)]
        rw [pow_zero, mul_one]; congr 2; omega
      have hd : (f32Den (toF32 y) : ℚ) ≠ 0 := by exact_mod_cast (f32Den_pos _).ne'
      rw [hnum]; push_cast; exact mul_div_cancel_right₀ _ hd
    have hint : f32Sign (toF32 y) * (y.toInt.natAbs : ℤ) = y.toInt := by
      rw [f32Sign, hmsb, BitVec.msb_eq_toInt]
      simp only [decide_eq_true_eq]
      split <;> omega
    rw [hquot, ← Int.cast_natCast, ← Int.cast_mul, hint]

/-- Converting a sample's encoding gives the sample back (R78). -/
theorem fromF32_toF32 (y : Sample) : fromF32 (toF32 y) = y := by
  have he := f32Exp_toF32_ne y
  have hv := f32Value_toF32_mul y
  have hbound := abs_le.1 (sample_abs_le y)
  apply BitVec.eq_of_toInt_eq
  rcases eq_or_ne y.toInt 32767 with hy | htop
  · rw [fromF32_above he (by rw [hv, hy]; norm_num), hy]; rfl
  rcases eq_or_ne y.toInt (-32768) with hy | hbot
  · rw [fromF32_below he (by rw [hv, hy]; norm_num), hy]
  have hmax : y.toInt < 32767 := by have := BitVec.toInt_lt (x := y); norm_num at this; omega
  obtain ⟨hle, -⟩ := fromF32_nearest he (by rw [hv]; exact_mod_cast (by omega : -32768 < y.toInt))
    (by rw [hv]; exact_mod_cast hmax)
  rw [hv, abs_le] at hle
  have h1 : (((fromF32 (toF32 y)).toInt - y.toInt : ℤ) : ℚ) < 1 := by push_cast; linarith
  have h2 : (-1 : ℚ) < (((fromF32 (toF32 y)).toInt - y.toInt : ℤ) : ℚ) := by push_cast; linarith
  have h1 : (fromF32 (toF32 y)).toInt - y.toInt < 1 := by exact_mod_cast h1
  have h2 : -1 < (fromF32 (toF32 y)).toInt - y.toInt := by exact_mod_cast h2
  omega

/-! ## Bytes -/

theorem encodeSample_s16 {c : Params} (hc : c.format = 0) (y : Sample) :
    c.encodeSample y = [BitVec.ofNat 8 y.toNat, BitVec.ofNat 8 (y.toNat / 2 ^ 8)] := by
  rw [Params.encodeSample, if_pos hc]; rfl

theorem decodeSample_s16 {c : Params} (hc : c.format = 0) (b0 b1 : Byte) :
    (c.decodeSample [b0, b1]).toNat = b0.toNat + 2 ^ 8 * b1.toNat := by
  rw [Params.decodeSample, if_pos hc, BitVec.toNat_ofNat]
  simp only [leNat]
  omega

theorem encodeSample_f32 {c : Params} (hc : c.format = 1) (y : Sample) : c.encodeSample y =
    [BitVec.ofNat 8 (toF32 y).toNat, BitVec.ofNat 8 ((toF32 y).toNat / 2 ^ 8), BitVec.ofNat 8 ((toF32 y).toNat / 2 ^ 16),
      BitVec.ofNat 8 ((toF32 y).toNat / 2 ^ 24)] := by
  rw [Params.encodeSample, if_neg (by rw [hc]; decide)]
  simp [leBytes, Nat.div_div_eq_div_mul]

theorem decodeSample_f32 {c : Params} (hc : c.format = 1) (b0 b1 b2 b3 : Byte) : c.decodeSample [b0, b1, b2, b3] =
    fromF32 (BitVec.ofNat 32 (b0.toNat + 2 ^ 8 * b1.toNat + 2 ^ 16 * b2.toNat + 2 ^ 24 * b3.toNat)) := by
  rw [Params.decodeSample, if_neg (by rw [hc]; decide)]
  congr 2
  simp only [leNat]
  ring

/-- Settles O49: the conversion rounds the exact scaled value, and a sample's encoding scales to the sample. -/
theorem floatConversion : Obligations.FloatConversion := by
  refine ⟨fun x he => ⟨fromF32_above he, fromF32_below he, fromF32_nearest he⟩, fun x he => ⟨fun hf => ?_, fun hf => ?_⟩,
    fun y => ⟨f32Exp_toF32_ne y, ?_, fromF32_toF32 y⟩,
    fun c y b0 b1 hc => ⟨encodeSample_s16 hc y, decodeSample_s16 hc b0 b1⟩,
    fun c y b0 b1 b2 b3 hc => ⟨encodeSample_f32 hc y, decodeSample_f32 hc b0 b1 b2 b3⟩⟩
  · exact fromF32_nan he fun h0 => hf (BitVec.eq_of_toNat_eq h0)
  · rw [fromF32_infinity he (congrArg BitVec.toNat hf), BitVec.msb_eq_getLsbD_last]
  · rw [eq_div_iff (by norm_num), f32Value_toF32_mul]

end Sys2Proof.Machine

/-! # Command words: decoding, encoding and the opcode table (R101 to R111) -/

namespace Sys2Proof

/-! ## Fields as numbers -/

theorem opField_eq (w : Word) : opField w = w.toNat % 2 ^ 8 := by
  rw [opField, BitVec.toNat_and]
  exact Nat.and_two_pow_sub_one_eq_mod w.toNat 8

theorem protoField_eq (w : Word) : protoField w = w.toNat / 2 ^ 8 % 2 ^ 8 := by
  rw [protoField, BitVec.toNat_and, BitVec.toNat_ushiftRight, Nat.shiftRight_eq_div_pow]
  exact Nat.and_two_pow_sub_one_eq_mod _ 8

theorem volumeField_eq (w : Word) : volumeField w = w.toNat / 2 ^ 16 % 2 ^ 7 := by
  rw [volumeField, BitVec.toNat_and, BitVec.toNat_ushiftRight, Nat.shiftRight_eq_div_pow]
  exact Nat.and_two_pow_sub_one_eq_mod _ 7

theorem protoFits_protoField (w : Word) : protoFits (protoField w) = true := by
  rw [protoFits, protoField_eq, decide_eq_true_iff]
  exact Nat.mod_lt _ (by decide)

theorem volumeFits_volumeField (w : Word) : volumeFits (volumeField w) = true := by
  rw [volumeFits, volumeField_eq, decide_eq_true_iff]
  exact Nat.mod_lt _ (by decide)

/-! ## Fields put back in their places -/

theorem shiftLeft_field (w m : Word) (n : Nat) : ((w >>> n) &&& m) <<< n = w &&& ((BitVec.allOnes 32 &&& m) <<< n) := by
  rw [BitVec.shiftLeft_and_distrib, BitVec.shiftLeft_ushiftRight, BitVec.and_assoc, BitVec.shiftLeft_and_distrib]

theorem shiftLeft_protoField (w : Word) : BitVec.ofNat 32 (protoField w) <<< 8 = w &&& 0x0000FF00#32 := by
  rw [protoField, BitVec.ofNat_toNat, BitVec.setWidth_eq]
  exact shiftLeft_field w _ 8

theorem shiftLeft_volumeField (w : Word) : BitVec.ofNat 32 (volumeField w) <<< 16 = w &&& 0x007F0000#32 := by
  rw [volumeField, BitVec.ofNat_toNat, BitVec.setWidth_eq]
  exact shiftLeft_field w _ 16

theorem shiftLeft_stopField (w : Word) : (BitVec.ofBool (stopField w)).setWidth 32 <<< 23 = w &&& 0x00800000#32 := by
  have hbit : (BitVec.ofBool (stopField w)).setWidth 32 = (w >>> 23) &&& 1#32 := by
    rw [BitVec.and_one_eq_setWidth_ofBool_getLsbD, BitVec.getLsbD_ushiftRight, stopField]
  rw [hbit]
  exact shiftLeft_field w _ 23

theorem encode_eq_or (i : Instr) : encode i = BitVec.ofNat 32 i.op ||| (BitVec.ofNat 32 i.proto <<< 8 |||
    (BitVec.ofNat 32 i.volume <<< 16 ||| (BitVec.ofBool i.stop).setWidth 32 <<< 23)) := by
  rw [encode, BitVec.or_assoc, BitVec.or_assoc]
  cases i.stop <;> rfl

/-! ## The rows of the table -/

/-- Encoding what a row makes of a word gives the row's pattern with the word's bits outside the mask (R103, R111). -/
theorem encode_build : ∀ r ∈ opcodeRows, ∀ w, encode (r.build w) = r.pattern ||| (w &&& ~~~r.mask) := by
  simp [opcodeRows, encode_eq_or, Instr.op, Instr.proto, Instr.volume, Instr.stop, shiftLeft_protoField,
    shiftLeft_volumeField, shiftLeft_stopField, ← BitVec.and_or_distrib_left]

theorem wellFormed_build : ∀ r ∈ opcodeRows, ∀ w, (r.build w).wellFormed = true := by
  simp [opcodeRows, Instr.wellFormed, protoFits_protoField, volumeFits_volumeField]

/-- A pattern lies under its mask, and every mask covers OP (R110). -/
theorem pattern_mask : ∀ r ∈ opcodeRows, r.pattern &&& r.mask = r.pattern ∧ r.mask &&& 0xFF#32 = 0xFF#32 := by decide

/-- The rows' OP values differ (R110). -/
theorem opField_pattern_nodup : (opcodeRows.map fun r => opField r.pattern).Nodup := by decide

theorem row_eq_of_opField {r q : OpcodeRow} (hr : r ∈ opcodeRows) (hq : q ∈ opcodeRows)
    (h : opField r.pattern = opField q.pattern) : r = q :=
  List.inj_on_of_nodup_map opField_pattern_nodup hr hq h

/-- A word that matches a row has the row's OP. -/
theorem opField_of_matches {r : OpcodeRow} (hr : r ∈ opcodeRows) {w : Word} (h : w &&& r.mask = r.pattern) :
    opField r.pattern = opField w := by
  rw [opField, opField, ← h, BitVec.and_assoc, (pattern_mask r hr).2]

/-- At most one row matches a word (R110). -/
theorem row_unique {r q : OpcodeRow} (hr : r ∈ opcodeRows) (hq : q ∈ opcodeRows) {w : Word} (h : w &&& r.mask = r.pattern)
    (k : w &&& q.mask = q.pattern) : r = q :=
  row_eq_of_opField hr hq ((opField_of_matches hr h).trans (opField_of_matches hq k).symm)

/-! ## Decoding by rows -/

theorem decode_eq_ok_iff {w : Word} {i : Instr} :
    decode w = .ok i ↔ ∃ r ∈ opcodeRows, w &&& r.mask = r.pattern ∧ r.build w = i := by
  unfold decode
  constructor
  · intro h
    split at h
    next r hr =>
      exact ⟨r, List.mem_of_find?_eq_some hr, by simpa [OpcodeRow.selects] using List.find?_some hr, Except.ok.inj h⟩
    next => cases h
  · rintro ⟨r, hr, hm, rfl⟩
    split
    next q hq =>
      rw [row_unique hr (List.mem_of_find?_eq_some hq) hm (by simpa [OpcodeRow.selects] using List.find?_some hq)]
    next hn => exact absurd (by simpa [OpcodeRow.selects] using hm) (List.find?_eq_none.1 hn r hr)

theorem decode_error {w : Word} (h : ∀ r ∈ opcodeRows, w &&& r.mask ≠ r.pattern) : ∃ e, decode w = .error e := by
  cases hd : decode w with
  | error e => exact ⟨e, rfl⟩
  | ok i =>
    obtain ⟨r, hr, hm, -⟩ := decode_eq_ok_iff.1 hd
    exact absurd hm (h r hr)

/-! ## Decoding and encoding -/

/-- The fields of an encoded well-formed command are its opcode and operands, whatever the command. -/
theorem fields_encode (i : Instr) : Laws.FieldsEncoded.Statement i := by
  cases i with
  | nop => exact Laws.FieldsEncoded.nop
  | config => exact Laws.FieldsEncoded.config
  | deconfig => exact Laws.FieldsEncoded.deconfig
  | profileQuery p => exact Laws.FieldsEncoded.profileQuery p
  | frameBuild p => exact Laws.FieldsEncoded.frameBuild p
  | frameRecover p => exact Laws.FieldsEncoded.frameRecover p
  | symbolMap p => exact Laws.FieldsEncoded.symbolMap p
  | render p v => exact Laws.FieldsEncoded.render p v
  | encode p v => exact Laws.FieldsEncoded.encode p v
  | spectrum => exact Laws.FieldsEncoded.spectrum
  | feed b => exact Laws.FieldsEncoded.feed b
  | decoderReset => exact Laws.FieldsEncoded.decoderReset

/-- Some row makes a well-formed command again of its encoding. -/
theorem exists_row_build {i : Instr} (h : i.wellFormed = true) : ∃ r ∈ opcodeRows, r.build (encode i) = i := by
  obtain ⟨-, hp, hv, hs, -⟩ := fields_encode i h
  cases i with
  | nop | config | deconfig | spectrum | decoderReset => simp [opcodeRows]
  | profileQuery p | frameBuild p | frameRecover p | symbolMap p => simpa [opcodeRows, Instr.proto] using hp
  | render p v | encode p v => simpa [opcodeRows] using ⟨hp, hv⟩
  | feed b => simpa [opcodeRows, Instr.stop] using hs

theorem decode_encode {i : Instr} (h : i.wellFormed = true) : decode (encode i) = .ok i := by
  obtain ⟨r, hr, hb⟩ := exists_row_build h
  have henc := encode_build r hr (encode i)
  rw [hb] at henc
  refine decode_eq_ok_iff.2 ⟨r, hr, ?_, hb⟩
  rw [henc, BitVec.and_or_distrib_right, (pattern_mask r hr).1, BitVec.and_assoc, BitVec.and_comm (~~~r.mask),
    BitVec.and_not_self]
  simp

theorem encode_of_decode {w : Word} {i : Instr} (h : decode w = .ok i) : i.wellFormed = true ∧ encode i = w := by
  obtain ⟨r, hr, hm, rfl⟩ := decode_eq_ok_iff.1 h
  refine ⟨wellFormed_build r hr w, ?_⟩
  rw [encode_build r hr w, ← hm, ← BitVec.and_or_distrib_left, BitVec.or_not_self, BitVec.and_allOnes]

/-- Settles O1: encoding what a row makes of a word keeps the word's bits outside the row's mask, so it gives back every word
that the row matches, and a well-formed command's encoding matches the command's row. -/
theorem decodeAndEncodeAgree : Obligations.DecodeAndEncodeAgree :=
  ⟨fun _ => decode_encode, fun _ _ => encode_of_decode⟩

/-- The opcode and the operands of a decoded command are the word's fields. -/
theorem fields_of_decode {w : Word} {i : Instr} (h : decode w = .ok i) :
    opField w = i.op ∧ protoField w = i.proto ∧ volumeField w = i.volume ∧ stopField w = i.stop ∧ rsvField w = 0 := by
  obtain ⟨hwf, henc⟩ := encode_of_decode h
  exact henc ▸ fields_encode i hwf

theorem rows_pairwise_disjoint :
    opcodeRows.Pairwise fun r q => ∀ w : Word, ¬(w &&& r.mask = r.pattern ∧ w &&& q.mask = q.pattern) :=
  (List.pairwise_map.1 opField_pattern_nodup).imp_of_mem fun hr hq hne _ ⟨hmr, hmq⟩ =>
    hne ((opField_of_matches hr hmr).trans (opField_of_matches hq hmq).symm)

/-- Settles O2: the rows' OP values differ and every mask covers OP, and a decoded word is its command's encoding. -/
theorem decodeReadsOneTableRow : Obligations.DecodeReadsOneTableRow := by
  refine ⟨rows_pairwise_disjoint, fun w =>
    ⟨fun r hr hm => decode_eq_ok_iff.2 ⟨r, hr, hm, rfl⟩, fun i hi => ?_, decode_error⟩⟩
  obtain ⟨ho, hp, hv, hs, -⟩ := fields_of_decode hi
  exact ⟨ho ▸ opField_eq w, hp ▸ protoField_eq w, hv ▸ volumeField_eq w, hs.symm⟩

/-- Settles O3: twelve rows and seven words, by evaluation. -/
theorem specWordsDecode : Obligations.SpecWordsDecode := by
  unfold Obligations.SpecWordsDecode
  decide

/-! ## Illegal words -/

/-- Every mask covers RSV, and every pattern has it 0 (R103, R107). -/
theorem reservedBits_rows : ∀ r ∈ opcodeRows, ∀ k < 32, 24 ≤ k →
    r.mask.getLsbD k = true ∧ r.pattern.getLsbD k = false := by decide

/-- Settles O4: under a mask a reserved bit that is set stays set, and no pattern has one. -/
theorem reservedBitsSelectNothing : Obligations.ReservedBitsSelectNothing := by
  intro w k hk hbit
  have hnone : ∀ r ∈ opcodeRows, w &&& r.mask ≠ r.pattern := by
    intro r hr hm
    obtain ⟨hmask, hpattern⟩ := reservedBits_rows r hr k (BitVec.lt_of_getLsbD hbit) hk
    rw [← hm, BitVec.getLsbD_and, hbit, hmask] at hpattern
    cases hpattern
  exact ⟨hnone, decode_error hnone⟩

/-- The OP values of the table (R102). -/
theorem opField_pattern_mem : ∀ r ∈ opcodeRows,
    opField r.pattern ∈ [0x00, 0x01, 0x02, 0x03, 0x10, 0x11, 0x20, 0x21, 0x22, 0x30, 0x31, 0x32] := by decide

theorem decode_error_of_opField {w : Word}
    (h : opField w ∉ [0x00, 0x01, 0x02, 0x03, 0x10, 0x11, 0x20, 0x21, 0x22, 0x30, 0x31, 0x32]) :
    ∃ e, decode w = .error e :=
  decode_error fun r hr hm => h (opField_of_matches hr hm ▸ opField_pattern_mem r hr)

/-- The only row that could match a word is the one of its OP. -/
theorem decode_error_of_row {w : Word} {r : OpcodeRow} (hr : r ∈ opcodeRows) (ho : opField r.pattern = opField w)
    (hm : w &&& r.mask ≠ r.pattern) : ∃ e, decode w = .error e :=
  decode_error fun _ hq hmq => hm (row_eq_of_opField hr hq (ho.trans (opField_of_matches hq hmq).symm) ▸ hmq)

end Sys2Proof

/-! # What an illegal word does (R108) -/

namespace Sys2Proof.Machine

theorem step_of_empty_agenda {s : State} (h : s.agenda = []) : step s = sequencerTurn s := by rw [step, nextStep, h]

theorem step_of_action {s : State} {a : HostAction} {rest : List HostAction} (h : s.agenda = a :: rest) :
    step s = actionStep a { s with agenda := rest } := by rw [step, nextStep, h]

theorem sequencerTurn_busy {s : State} (h : s.busy = true) : sequencerTurn s = sequencerStep s := if_pos h

theorem sequencerStep_ok {s : State} {i : Instr} (h : decode s.latch.cmd = .ok i) : sequencerStep s = exec i s := by
  rw [sequencerStep, h]

theorem sequencerStep_error {s : State} {e : Illegal} (h : decode s.latch.cmd = .error e) :
    sequencerStep s = .next (finish .illegalCommand s) := by rw [sequencerStep, h, complete]

/-- A word without buffers is issued on an idle block, whatever the other blocks run (R330). -/
theorem writeCmd_without_buffers {v : Word} {s : State} (hb : s.busy = false) (hin : inputOf v s.ops = [])
    (hout : outputOf v s.ops = []) : writeCmd v s = .next (issue v s) := by
  rw [writeCmd, hb, hin, hout]
  rfl

/-- Settles O5: such a word matches no row, and `finish` is all the sequencer does with it. -/
theorem illegalWordsChangeNothing : Obligations.IllegalWordsChangeNothing := by
  intro w h
  have herr : ∃ e, decode w = .error e := by
    rw [← opField_eq] at h
    obtain hop | ⟨r, hr, hop, hm⟩ := h
    · exact decode_error_of_opField hop
    · exact decode_error_of_row hr ((opField_eq _).trans hop) hm
  obtain ⟨e, he⟩ := herr
  refine ⟨⟨e, he⟩, fun s hb ha => ⟨writeCmd_without_buffers hb ?_ ?_, ?_⟩⟩
  · rw [inputOf, he]
  · rw [outputOf, he]
  · rw [step_of_empty_agenda (s := issue w s) ha, sequencerTurn_busy rfl, sequencerStep_error he]
    rfl

end Sys2Proof.Machine

/-! # STATUS, WAIT and `createInstance` (R27, R113, R115) -/

namespace Sys2Proof.Machine

/-! ## STATUS -/

theorem windowRead_status (s : State) : windowRead s 0x00C = statusWord s := windowRead_offset s .status

theorem statusWord_busy (s : State) : (statusWord s).getLsbD 0 = s.busy := by
  rw [BitVec.getLsbD, statusWord_toNat, Nat.testBit_zero]
  cases s.busy <;> simp <;> omega

theorem statusWord_code (s : State) : (statusWord s).toNat / 2 ^ 8 = s.err.value.toNat := by
  have hbusy := Bool.toNat_le s.busy
  have hconf := Bool.toNat_le s.configured
  rw [statusWord_toNat]
  omega

theorem statusWord_configured {s : State} (hb : s.busy = false) (hc : s.configured = true) (he : s.err = .ok) :
    statusWord s = 0x00000002 := by
  rw [statusWord, hb, hc, he]
  rfl

theorem codeNamed_value (c : Code) : codeNamed c.value = some c := by cases c <;> rfl

theorem statusCode_statusWord (s : State) : statusCode (statusWord s) = some s.err := by
  have hcode : (statusWord s >>> 8).truncate 8 = s.err.value := by
    apply BitVec.eq_of_toNat_eq
    rw [BitVec.toNat_setWidth, BitVec.toNat_ushiftRight, Nat.shiftRight_eq_div_pow, statusWord_code]
    exact Nat.mod_eq_of_lt s.err.value.isLt
  rw [statusCode, hcode, codeNamed_value]

/-! ## WAIT -/

theorem hostReads_status {s : State} (hb : s.busy = false) : hostReads 0x00C s =
    { s with observed := .word (statusWord s) :: s.observed, heldIn := [], heldOut := [] } := by
  rw [hostReads_status_idle hb, windowRead_status]

/-- WAIT on a block that runs no command is over with one poll (R113). -/
theorem step_wait_idle {s : State} {rest : List HostAction} (ha : s.agenda = .wait :: rest) (hb : s.busy = false) :
    step s = .next { s with
      agenda := rest, observed := .word (statusWord s) :: s.observed, heldIn := [], heldOut := [] } := by
  have hpoll := (waitPoll_idle (s := { s with agenda := rest }) hb).trans (hostReads_status hb)
  exact (step_of_action ha).trans (congrArg Host.Outcome.next hpoll)

/-- The state after a poll in `s`, with `as` to do next (R113). -/
def polled (as : List HostAction) (s : State) : State :=
  { s with agenda := as, observed := .word (statusWord s) :: s.observed }

/-- A poll of a running command gives the sequencer its turn before the next poll (R332). -/
theorem step_wait_busy {s : State} {rest : List HostAction} (ha : s.agenda = .wait :: rest) (hb : s.busy = true) :
    step s = .next (polled (.sequencer :: .wait :: rest) s) := by
  have hpoll := waitPoll_busy (s := { s with agenda := rest }) hb
  rw [windowRead_status] at hpoll
  exact (step_of_action ha).trans (congrArg Host.Outcome.next hpoll)

theorem step_sequencer_busy {s : State} {rest : List HostAction} (ha : s.agenda = .sequencer :: rest) (hb : s.busy = true) :
    step s = sequencerStep { s with agenda := rest } :=
  (step_of_action ha).trans (sequencerTurn_busy hb)

/-- The sequencer's step, like every command, neither reads nor writes the host's side (R49, R87). -/
theorem sequencerStep_withHostSide (s e : State) :
    sequencerStep (s.withHostSide e) = mapNext (fun t => t.withHostSide e) (sequencerStep s) := by
  cases hd : decode s.latch.cmd with
  | ok i => rw [sequencerStep_ok hd, sequencerStep_ok (s := s.withHostSide e) hd, commandsIgnoreTheHostSide i e s]
  | error e' => rw [sequencerStep_error hd, sequencerStep_error (s := s.withHostSide e) hd]; rfl

theorem sequencerStep_hostSide {s t : State} (h : sequencerStep s = .next t) : SameHostSide s t ∧ t.busy = false := by
  cases hd : decode s.latch.cmd with
  | ok i => exact exec_hostSide ((sequencerStep_ok hd).symm.trans h)
  | error e => cases (sequencerStep_error hd).symm.trans h; exact ⟨finish_sameHostSide _ s, rfl⟩

theorem steps_succ {s t : State} (h : step s = .next t) (n : Nat) : steps (n + 1) s = steps n t := by rw [steps, h]

theorem steps_add {m : Nat} {s t : State} (h : steps m s = .next t) (n : Nat) : steps (m + n) s = steps n t := by
  induction m generalizing s with
  | zero => cases h; rw [Nat.zero_add]
  | succ m ih =>
    cases hs : step s with
    | next u =>
      rw [Nat.succ_add, steps_succ hs]
      exact ih ((steps_succ hs m).symm.trans h)
    | fault r => rw [steps, hs] at h; cases h
    | refused r => rw [steps, hs] at h; cases h

/-- The state WAIT ends in, polled first in `s` and last in `t`, `t` being where the sequencer ended the command (R113). -/
def waitEnded (rest : List HostAction) (s t : State) : State :=
  { t.withHostSide s with
    agenda := rest, observed := .word (statusWord t) :: .word (statusWord s) :: s.observed, heldIn := [], heldOut := [] }

/-- WAIT on a running command that finishes: poll, the sequencer's turn, poll (R113, R331). -/
theorem steps_wait_running {s t : State} {rest : List HostAction} (ha : s.agenda = .wait :: rest) (hb : s.busy = true)
    (ht : sequencerStep s = .next t) : steps 3 s = .next (waitEnded rest s t) := by
  let u := t.withHostSide (polled (.wait :: rest) s)
  have hturn : step (polled (.sequencer :: .wait :: rest) s) = .next u := by
    have hseq := sequencerStep_withHostSide s (polled (.wait :: rest) s)
    rw [ht, mapNext] at hseq
    exact (step_sequencer_busy (s := polled (.sequencer :: .wait :: rest) s) rfl hb).trans hseq
  have hidle : u.busy = false := (sequencerStep_hostSide ht).2
  rw [steps_succ (step_wait_busy ha hb), steps_succ hturn, steps_succ (step_wait_idle rfl hidle)]
  rfl

/-- Settles O18: the first poll of an idle block ends WAIT, and a running command that finishes does so at the sequencer's
turn between two polls. -/
theorem waitEndsWithBusyClear : Obligations.WaitEndsWithBusyClear := by
  intro s rest ha
  rw [windowRead_status]
  refine ⟨fun hb => ⟨(statusWord_busy s).trans hb, step_wait_idle ha hb⟩, fun hb ⟨t, ht⟩ => ?_⟩
  have htb := (sequencerStep_hostSide ht).2
  exact ⟨_, statusWord s, statusWord t, steps_wait_running ha hb ht, htb, rfl, rfl, rfl, rfl,
    (statusWord_busy s).trans hb, (statusWord_busy t).trans htb⟩

/-! ## `createInstance` -/

theorem offset_aligned (r : Reg) : r.offset < 512 ∧ r.offset % 4 = 0 :=
  (by decide +kernel : ∀ r ∈ allRegs, r.offset < 512 ∧ r.offset % 4 = 0) r (mem_allRegs r)

theorem step_hostWrite {s : State} {r : Reg} {v : Word} {rest : List HostAction}
    (ha : s.agenda = hostWrite s.plat.mmioBase r v :: rest) : step s = regWrite v { s with agenda := rest } r := by
  obtain ⟨hlt, h4⟩ := offset_aligned r
  rw [step_of_action ha, hostWrite, actionStep, ← windowWrite_offset]
  exact mmioWrite_aligned { s with agenda := rest } hlt h4 v

theorem step_readStatus_idle {s : State} {rest : List HostAction} (ha : s.agenda = hostRead s.plat.mmioBase .status :: rest)
    (hb : s.busy = false) : step s = .next { s with
      agenda := rest, observed := .word (statusWord s) :: s.observed, heldIn := [], heldOut := [] } := by
  have hread := mmioRead_eq { s with agenda := rest } (off := 0x00C) (by decide) (by decide)
  rw [hostReads_status (s := { s with agenda := rest }) hb] at hread
  exact (step_of_action ha).trans hread

theorem steps_hostWrite {s t : State} {r : Reg} {v : Word} {rest : List HostAction}
    (ha : s.agenda = hostWrite s.plat.mmioBase r v :: rest) (hw : regWrite v { s with agenda := rest } r = .next t) (n : Nat) :
    steps (n + 1) s = steps n t :=
  steps_succ ((step_hostWrite ha).trans hw) n

/-- The block after `createInstance` has issued CONFIG, WAIT next (R115). -/
def configIssued (p : Params) (rest : List HostAction) (s : State) : State :=
  issue (encode .config) { s with param := p, agenda := .wait :: hostRead s.plat.mmioBase .status :: rest }

theorem decode_config : decode (encode .config) = .ok .config := decode_encode rfl

theorem writeCmd_config {s : State} (hb : s.busy = false) :
    writeCmd (encode .config) s = .next (issue (encode .config) s) :=
  writeCmd_without_buffers hb (inputOf_ok decode_config _) (outputOf_ok decode_config _)

/-- The five parameter writes and the CMD write of `createInstance` (R115). -/
theorem steps_configIssued {s : State} {p : Params} {rest : List HostAction} (hb : s.busy = false)
    (ha : s.agenda = createInstance s.plat.mmioBase p ++ rest) : steps 6 s = .next (configIssued p rest s) := by
  have hparams : steps 5 s = .next { s with
      param := p, agenda := hostCommand s.plat.mmioBase .config :: .wait :: hostRead s.plat.mmioBase .status :: rest } :=
    (steps_hostWrite ha rfl 4).trans <| (steps_hostWrite rfl rfl 3).trans <| (steps_hostWrite rfl rfl 2).trans <|
      (steps_hostWrite rfl rfl 1).trans <| steps_hostWrite rfl rfl 0
  rw [steps_add hparams 1]
  refine steps_hostWrite (r := .cmd) rfl (writeCmd_config ?_) 0
  exact hb

/-- Where the sequencer ends CONFIG in state `t`, `createInstance` ends with `t`'s instance, its last read being `t`'s STATUS. -/
theorem steps_createInstance {s t : State} {p : Params} {rest : List HostAction} (hb : s.busy = false)
    (ha : s.agenda = createInstance s.plat.mmioBase p ++ rest) (ht : sequencerStep (configIssued p rest s) = .next t) :
    ∃ u, steps 10 s = .next u ∧ u.agenda = rest ∧ u.busy = false ∧ u.configured = t.configured ∧ u.cfg = t.cfg ∧
      u.dec = t.dec ∧ u.observed.head? = some (.word (statusWord t)) := by
  obtain ⟨hside, hidle⟩ := sequencerStep_hostSide ht
  let u := waitEnded (hostRead s.plat.mmioBase .status :: rest) (configIssued p rest s) t
  have hwait : steps 3 (configIssued p rest s) = .next u := steps_wait_running rfl rfl ht
  have hagenda : u.agenda = hostRead u.plat.mmioBase .status :: rest :=
    congrArg (fun q : Platform => hostRead q.mmioBase .status :: rest) hside.plat.symm
  rw [steps_add (steps_configIssued hb ha) 4, steps_add hwait 1, steps_succ (step_readStatus_idle hagenda hidle)]
  exact ⟨_, rfl, rfl, hidle, rfl, rfl, rfl, rfl⟩

theorem createInstanceResult_of_status {s t : State} (h : s.observed.head? = some (.word (statusWord t))) :
    createInstanceResult s = some (if t.err = .ok then .ok () else .error t.err) := by
  obtain ⟨os, ho⟩ := List.head?_eq_some_iff.1 h
  rw [createInstanceResult, ho]
  simp only [statusCode_statusWord, Option.map_some]

/-- No bit of a word but bit 0 is set exactly where the word is at most 1 (R302). -/
theorem and_reserved_eq_zero_iff (x : Word) : x &&& 0xFFFFFFFE#32 = 0 ↔ x.toNat ≤ 1 := by
  rw [show 0xFFFFFFFE#32 = BitVec.allOnes 32 <<< 1 from rfl, ← BitVec.shiftLeft_ushiftRight, ← BitVec.toNat_inj,
    BitVec.toNat_shiftLeft, BitVec.toNat_ushiftRight, Nat.shiftRight_eq_div_pow, Nat.shiftLeft_eq]
  have hx := x.isLt
  show _ = 0 ↔ _
  omega

/-- The validation of R302 in the numbers the registers hold. -/
theorem valid_iff_accepted (p : Params) : p.valid = true ↔ Accepted p := by
  have hformat : (p.format = 0 ∨ p.format = 1) ↔ p.format.toNat = 0 ∨ p.format.toNat = 1 := by
    rw [← BitVec.toNat_inj, ← BitVec.toNat_inj]
    rfl
  simp only [Params.valid, Accepted, Bool.and_eq_true, Bool.or_eq_true, beq_iff_eq, decide_eq_true_eq, hformat,
    and_reserved_eq_zero_iff, and_assoc]

/-- Settles O19: CONFIG's two completions, seen through the reads that follow it. -/
theorem createInstanceSequence : Obligations.CreateInstanceSequence := by
  intro s p rest hb ha
  have hexec : sequencerStep (configIssued p rest s) = execConfig (configIssued p rest s) :=
    sequencerStep_ok (s := configIssued p rest s) decode_config
  rw [execConfig_eq] at hexec
  by_cases hv : p.valid = true
  · rw [if_pos (show (configIssued p rest s).latch.par.valid = true from hv)] at hexec
    obtain ⟨u, hu, hagenda, hbusy, hconf, hcfg, -, hobs⟩ := steps_createInstance hb ha hexec
    refine ⟨u, hu, hagenda, hbusy, fun _ => ⟨hconf, hcfg, hobs.trans ?_, createInstanceResult_of_status hobs⟩,
      fun h => absurd ((valid_iff_accepted p).1 hv) h⟩
    exact congrArg (fun w => some (Observation.word w)) (statusWord_configured rfl rfl rfl)
  · rw [if_neg (show ¬(configIssued p rest s).latch.par.valid = true from hv)] at hexec
    obtain ⟨u, hu, hagenda, hbusy, hconf, hcfg, hdec, hobs⟩ := steps_createInstance hb ha hexec
    refine ⟨u, hu, hagenda, hbusy, fun h => absurd ((valid_iff_accepted p).2 h) hv, fun _ =>
      ⟨hconf, hcfg, hdec, createInstanceResult_of_status hobs, _, hobs, statusWord_code _⟩⟩

end Sys2Proof.Machine

/-! # The profile registry: PROFILE_QUERY and the marker bins (R130, R133, R136) -/

namespace Sys2Proof.Machine

/-! ## PROFILE_QUERY -/

/-- PROFILE_QUERY of an id the ROM holds (R136). -/
theorem exec_profileQuery_of_fin (p : Fin 12) (s : State) : exec (.profileQuery p.val) s = .next { s with
    prof := profRegsOf p.val (profile p), err := .ok, resultLen := 0, intStatus := s.intStatus ||| intDone,
    busy := false } :=
  (execProfileQuery_eq p.val s).trans (dif_pos p.isLt)

/-- PROFILE_QUERY of an id the ROM does not hold (R135, R136). -/
theorem exec_profileQuery_of_ge {p : Nat} (h : 12 ≤ p) (s : State) : exec (.profileQuery p) s = .next { s with
    err := .unsupportedProtocol, resultLen := 0, intStatus := s.intStatus ||| (intDone ||| intError), busy := false } :=
  (execProfileQuery_eq p s).trans (dif_neg (Nat.not_lt.2 h))

/-- Settles O29: each row of R130 is what the registers show of a row of the ROM, and the ROM ends at 12. -/
theorem profileQueryResult : Obligations.ProfileQueryResult := by
  refine ⟨fun row hrow s => ?_, fun p s h => exec_profileQuery_of_ge h s⟩
  have hrom : ∃ p : Fin 12, row = (p.val, profRegsOf p.val (profile p)) := by
    clear s
    revert row
    decide
  obtain ⟨p, rfl⟩ := hrom
  exact exec_profileQuery_of_fin p s

/-! ## Tone bins and marker bins -/

/-- Tones lie one bin apart (R130). -/
theorem profile_spacing (q : Fin 12) : (profile q).spacing = 1 := by
  revert q; decide

/-- A tone is in the 32 bins from its profile's base bin on (R132): there are at most two groups of 16. -/
theorem toneBin_bounds (q : Fin 12) {g v : Nat} (hg : g < (profile q).tones) (hv : v < 16) :
    (profile q).baseBin ≤ toneBin (profile q) g v ∧ toneBin (profile q) g v < (profile q).baseBin + 32 := by
  have htones := profile_tones q
  rw [toneBin, profile_spacing]
  omega

/-- The two base bins, an audible and an ultrasonic one (R130). -/
theorem profile_baseBin (q : Fin 12) : (profile q).baseBin = 48 ∨ (profile q).baseBin = 352 := by
  revert q; decide

/-- Where bins are kept for markers: in the 24 bins below a base bin (R133). -/
def MarkerBin (b : Nat) : Prop := 24 ≤ b ∧ b < 48 ∨ 328 ≤ b ∧ b < 352

theorem markerBin_profile (p : Fin 12) : MarkerBin (profile p).markerStart ∧ MarkerBin (profile p).markerEnd := by
  unfold MarkerBin
  revert p; decide

theorem MarkerBin.inBounds {b : Nat} (h : MarkerBin b) : 1 ≤ b ∧ b ≤ 511 := by
  unfold MarkerBin at h
  omega

/-- Tones start at a base bin and end 32 bins later, so they miss the bins below both (R133). -/
theorem MarkerBin.ne_toneBin {b : Nat} (h : MarkerBin b) (q : Fin 12) {g v : Nat} (hg : g < (profile q).tones)
    (hv : v < 16) : toneBin (profile q) g v ≠ b := by
  have htone := toneBin_bounds q hg hv
  have hbase := profile_baseBin q
  unfold MarkerBin at h
  omega

theorem toneBin_inBounds (q : Fin 12) {g v : Nat} (hg : g < (profile q).tones) (hv : v < 16) :
    1 ≤ toneBin (profile q) g v ∧ toneBin (profile q) g v ≤ 511 := by
  have htone := toneBin_bounds q hg hv
  have hbase := profile_baseBin q
  omega

/-- The marker bins of all twelve rows differ (R133). -/
theorem markerBins_nodup :
    ((List.finRange 12).flatMap fun p => [(profile p).markerStart, (profile p).markerEnd]).Nodup := by decide

/-- Settles O46: markers lie in the 24 bins below a base bin, tones in the 32 from it on. -/
theorem markerBinsAreReserved : Obligations.MarkerBinsAreReserved := by
  refine ⟨markerBins_nodup, fun p q g hg v hv => ?_⟩
  obtain ⟨hstart, hend⟩ := markerBin_profile p
  exact ⟨hstart.ne_toneBin q hg hv, hend.ne_toneBin q hg hv, toneBin_inBounds q hg hv, hstart.inBounds, hend.inBounds⟩

end Sys2Proof.Machine

/-! # The framer's commands: a built frame and a recovered payload stored (R170, R171) -/

namespace Sys2Proof.Machine

/-- CFG_PAYLOAD = 0 is variable-length mode (R38, R158). -/
theorem fixedLen_eq_zero_iff (c : Params) : c.fixedLen = 0 ↔ c.payloadLen = 0 := by
  simp [Params.fixedLen, BitVec.toNat_eq]

/-- Settles O31: the transfer's function is `FrameBuild`, which accepts a payload of the length that was checked. -/
theorem frameBuildResult : Obligations.FrameBuildResult := by
  intro p s h hdma payload data covered frame out
  obtain ⟨hp, hexec, hsize⟩ := execFrameBuild_of_none h
  have hlen : payload.length = s.srcLen := inputBytes_length s _
  have hbuild : frameBuild s.cfg (profile ⟨p, hp⟩) payload = .ok out := by
    refine frameBuild_eq_ok.2 ⟨by rw [hlen]; exact hsize, ?_⟩
    simp only [out, frame, covered, data, frameHeader, frameBody, paddedPayload, fixedLen_eq_zero_iff, hlen]
    rfl
  have hout : out.length = frameChips s.cfg s.srcLen := (frameBuild_length hbuild).trans (by rw [hlen])
  exact ⟨hout, hexec.trans (transfer_ok hdma.apart hdma.readable hbuild (hout ▸ hdma.writable))⟩

/-- Settles O32, by what `RecoverFrame` makes of the input. -/
theorem frameRecoverResult : Obligations.FrameRecoverResult := by
  intro p s h hap hr
  obtain ⟨hp, hexec, -⟩ := execFrameRecover_of_none h
  rw [hexec]
  split
  next hrec => exact transfer_error hap hr (by simp [recoverInto, hrec])
  next r hrec =>
    split
    next hcap => exact transfer_error hap hr (by simp [recoverInto, hrec, hcap])
    next hcap => exact transfer_ok hap hr (by simp [recoverInto, hrec, hcap])

end Sys2Proof.Machine

/-! # Spreading and despreading (R161 to R163) -/

namespace Sys2Proof.Machine

theorem whiten_getD (c : List Byte) (j : Nat) :
    (whiten c).getD j 0 = c.getD j 0 ^^^ (pn c.length).getD j 0 := by
  simp only [whiten, List.getD_eq_getElem?_getD, List.getElem?_zipWith]
  by_cases hj : j < c.length
  · simp [hj]
  · simp [not_lt.1 hj]

theorem triple_cons (b : Byte) (f : List Byte) : triple (b :: f) = b :: b :: b :: triple f := rfl

theorem triple_getD (f : List Byte) (i : Nat) {r : Nat} (hr : r < 3) : (triple f).getD (3 * i + r) 0 = f.getD i 0 := by
  induction f generalizing i with
  | nil => rfl
  | cons b f ih =>
    rw [triple_cons]
    cases i with
    | zero =>
      obtain rfl | rfl | rfl : r = 0 ∨ r = 1 ∨ r = 2 := by omega
      · rfl
      · rfl
      · rfl
    | succ i =>
      rw [show 3 * (i + 1) + r = 3 * i + r + 1 + 1 + 1 by omega]
      exact ih i

/-- The chips of a spread frame (R162). -/
theorem spread_getD (f : List Byte) (i : Nat) {r : Nat} (hr : r < 3) :
    (spread f).getD (3 * i + r) 0 = f.getD i 0 ^^^ (pn (3 * f.length)).getD (3 * i + r) 0 := by
  rw [spread, whiten_getD, triple_length, triple_getD f i hr]

theorem majorities_getD (c : List Byte) {i : Nat} (hi : i < c.length / 3) :
    (majorities c).getD i 0 = maj (c.getD (3 * i) 0) (c.getD (3 * i + 1) 0) (c.getD (3 * i + 2) 0) := by
  induction c using majorities.induct generalizing i with
  | case1 a b c rest ih =>
    cases i with
    | zero => rfl
    | succ i => exact ih (by simp only [List.length_cons] at hi; omega)
  | case2 l h =>
    match l, h with
    | [], _ | [_], _ | [_, _], _ => simp at hi
    | a :: b :: c :: rest, h => exact absurd rfl (h a b c rest)

/-- Copy `r` of frame byte `i`, the PN byte taken off (R163). -/
def dewhitened (c : List Byte) (i r : Nat) : Byte := c.getD (3 * i + r) 0 ^^^ (pn c.length).getD (3 * i + r) 0

theorem despread_getD (c : List Byte) {i : Nat} (hi : i < c.length / 3) :
    (despread c).getD i 0 = maj (dewhitened c i 0) (dewhitened c i 1) (dewhitened c i 2) := by
  rw [despread, majorities_getD _ (by rwa [whiten_length])]
  simp only [whiten_getD, dewhitened, Nat.add_zero]

theorem dewhitened_spread (f : List Byte) (i : Nat) {r : Nat} (hr : r < 3) : dewhitened (spread f) i r = f.getD i 0 := by
  rw [dewhitened, spread_getD f i hr, spread_length, BitVec.xor_assoc, BitVec.xor_self, BitVec.xor_zero]

theorem maj_self (a : Byte) : maj a a a = a := by simp [maj]

theorem despread_spread (f : List Byte) : despread (spread f) = f := by
  refine List.ext_getElem (by simp) fun i _ hi => ?_
  have h := despread_getD (spread f) (i := i) (by rw [spread_length]; omega)
  rw [dewhitened_spread f i (by omega), dewhitened_spread f i (by omega), dewhitened_spread f i (by omega), maj_self] at h
  simpa [hi] using h

/-- A majority bit is what all copies but one agree on (R11). -/
theorem maj_getLsbD_of_two (x : Nat → Byte) (r b : Nat) (v : Bool) (h : ∀ q < 3, q ≠ r → (x q).getLsbD b = v) :
    (maj (x 0) (x 1) (x 2)).getLsbD b = v := by
  have h0 := h 0 (by omega)
  have h1 := h 1 (by omega)
  have h2 := h 2 (by omega)
  simp only [maj, BitVec.getLsbD_or, BitVec.getLsbD_and]
  by_cases hr0 : r = 0
  · rw [h1 (by omega), h2 (by omega)]; cases (x 0).getLsbD b <;> cases v <;> rfl
  · by_cases hr1 : r = 1
    · rw [h0 (by omega), h2 (by omega)]; cases (x 1).getLsbD b <;> cases v <;> rfl
    · rw [h0 (by omega), h1 (by omega)]; cases (x 2).getLsbD b <;> cases v <;> rfl

/-- A bit of which at most copy `r` is wrong is restored (R163). -/
theorem despread_getLsbD_of_two {f c : List Byte} {i b r : Nat} (hlen : c.length = 3 * f.length) (hi : i < f.length)
    (h : ∀ q < 3, q ≠ r → (c.getD (3 * i + q) 0).getLsbD b = ((spread f).getD (3 * i + q) 0).getLsbD b) :
    ((despread c).getD i 0).getLsbD b = (f.getD i 0).getLsbD b := by
  rw [despread_getD c (by omega)]
  refine maj_getLsbD_of_two (dewhitened c i) r b _ fun q hq hne => ?_
  rw [← dewhitened_spread f i hq, dewhitened, dewhitened, BitVec.getLsbD_xor, BitVec.getLsbD_xor, h q hq hne, hlen,
    spread_length]

/-- Settles O42: chip by chip, then the majority of the three copies. -/
theorem despreadRestoresTheFrame : Obligations.DespreadRestoresTheFrame :=
  ⟨fun f => ⟨spread_length f, despread_spread f, fun i _ _ hr => spread_getD f i hr⟩,
    fun c _ => ⟨despread_length c, fun _ hi => despread_getD c hi⟩,
    fun _ _ _ _ _ hlen hi _ h => despread_getLsbD_of_two hlen hi h⟩

end Sys2Proof.Machine

/-! # The length of a frame (R165, R166) -/

namespace Sys2Proof.Machine

/-- An accepted payload is at most 140 bytes long, and so is a fixed length (R130, R164). -/
theorem length_le_of_accepted {c : Params} {p : Fin 12} {n : Nat} (h : payloadTooLarge c (profile p) n = false) :
    n ≤ 140 ∧ c.fixedLen ≤ 140 := by
  rw [payloadTooLarge, (profile_bounds p).1] at h
  split at h
  · simp only [decide_eq_false_iff_not] at h; omega
  · simp only [Bool.or_eq_false_iff, decide_eq_false_iff_not] at h; omega

theorem frameBuild_length_le {c : Params} {p : Fin 12} {payload f : List Byte} (hc : c.valid = true)
    (h : frameBuild c (profile p) payload = .ok f) : f.length ≤ 603 := by
  rw [frameBuild_length h]
  exact (frameChips_le hc (length_le_of_accepted (frameBuild_eq_ok.1 h).1).1).2

/-- Settles O43: a frame has `FrameChips(n)` chips, whose formula is the statement's. -/
theorem frameLength : Obligations.FrameLength := fun _ _ _ _ hc h =>
  ⟨frameBuild_length h, frameBuild_length_le hc h⟩

end Sys2Proof.Machine

/-! # The field GF(2^8) (R151) -/

namespace Sys2Proof.Machine

/-! ## The product as a sum of doublings -/

theorem xor_xor_xor_comm (a b c d : Byte) : (a ^^^ b) ^^^ (c ^^^ d) = (a ^^^ c) ^^^ (b ^^^ d) := by
  rw [BitVec.xor_assoc, ← BitVec.xor_assoc b, BitVec.xor_comm b, BitVec.xor_assoc c, BitVec.xor_assoc]

theorem gfDouble_xor (a b : Byte) : gfDouble (a ^^^ b) = gfDouble a ^^^ gfDouble b := by
  unfold gfDouble
  rw [BitVec.msb_xor, BitVec.shiftLeft_xor_distrib]
  cases a.msb <;> cases b.msb <;>
    simp only [Bool.xor_false, Bool.xor_true, Bool.not_true, Bool.not_false, if_true, if_false, Bool.false_eq_true]
  · rw [BitVec.xor_assoc]
  · rw [BitVec.xor_assoc, BitVec.xor_assoc, BitVec.xor_comm 0x1D#8]
  · rw [xor_xor_xor_comm, BitVec.xor_self, BitVec.xor_zero]

theorem gfDouble_zero : gfDouble 0 = 0 := rfl

theorem gfMulBits_xor_left (n : Nat) (a a' b : Byte) :
    gfMulBits n (a ^^^ a') b = gfMulBits n a b ^^^ gfMulBits n a' b := by
  induction n generalizing a a' b with
  | zero => simp [gfMulBits]
  | succ n ih =>
    rw [gfMulBits, gfMulBits, gfMulBits, gfDouble_xor, ih, xor_xor_xor_comm]
    congr 1
    cases b.getLsbD 0 <;> simp

theorem gfMulBits_xor_right (n : Nat) (a b b' : Byte) :
    gfMulBits n a (b ^^^ b') = gfMulBits n a b ^^^ gfMulBits n a b' := by
  induction n generalizing a b b' with
  | zero => simp [gfMulBits]
  | succ n ih =>
    rw [gfMulBits, gfMulBits, gfMulBits, BitVec.ushiftRight_xor_distrib, ih, BitVec.getLsbD_xor, xor_xor_xor_comm]
    congr 1
    cases b.getLsbD 0 <;> cases b'.getLsbD 0 <;> simp

theorem gfMulBits_zero_left (n : Nat) (b : Byte) : gfMulBits n 0 b = 0 := by
  have h := gfMulBits_xor_left n 0 0 b
  rwa [BitVec.xor_self, BitVec.xor_self] at h

theorem gfMulBits_gfDouble (n : Nat) (a b : Byte) : gfMulBits n (gfDouble a) b = gfDouble (gfMulBits n a b) := by
  induction n generalizing a b with
  | zero => exact gfDouble_zero.symm
  | succ n ih =>
    rw [gfMulBits, gfMulBits, ih, gfDouble_xor]
    congr 1
    cases b.getLsbD 0
    · exact gfDouble_zero.symm
    · rfl

/-- Multiplications are sums of doublings, so they commute with each other. -/
theorem gfMulBits_right_comm (m n : Nat) (a b c : Byte) :
    gfMulBits n (gfMulBits m a b) c = gfMulBits m (gfMulBits n a c) b := by
  induction m generalizing a b with
  | zero => exact gfMulBits_zero_left n c
  | succ m ih =>
    rw [gfMulBits, gfMulBits, gfMulBits_xor_left, ih, gfMulBits_gfDouble]
    congr 1
    cases b.getLsbD 0
    · exact gfMulBits_zero_left n c
    · rfl

theorem gfMul_one_left (b : Byte) : gfMul 1 b = b := by
  revert b; decide +kernel

theorem gfMul_comm (a b : Byte) : gfMul a b = gfMul b a := by
  have h : gfMul (gfMul 1 a) b = gfMul (gfMul 1 b) a := gfMulBits_right_comm ..
  rwa [gfMul_one_left, gfMul_one_left] at h

theorem gfMul_assoc (a b c : Byte) : gfMul (gfMul a b) c = gfMul a (gfMul b c) := by
  calc gfMul (gfMul a b) c = gfMul (gfMul b a) c := by rw [gfMul_comm a b]
    _ = gfMul (gfMul b c) a := gfMulBits_right_comm ..
    _ = gfMul a (gfMul b c) := gfMul_comm ..

theorem gfMul_two (a : Byte) : gfMul a 2 = gfDouble a := by
  simp [gfMul, gfMulBits]

/-! ## The ring -/

/-- A byte as an element of GF(2^8), apart from `Byte` because that type has an arithmetic of its own. -/
structure FieldByte where
  byte : Byte

/-- R151's addition and multiplication make the bytes a commutative ring. -/
@[reducible] def FieldByte.commRing : CommRing FieldByte :=
  letI : Add FieldByte := ⟨fun a b => ⟨a.byte ^^^ b.byte⟩⟩
  letI : Mul FieldByte := ⟨fun a b => ⟨gfMul a.byte b.byte⟩⟩
  letI : Neg FieldByte := ⟨id⟩
  letI : Zero FieldByte := ⟨⟨0⟩⟩
  letI : One FieldByte := ⟨⟨1⟩⟩
  CommRing.ofMinimalAxioms
    (fun _ _ _ => congrArg mk (BitVec.xor_assoc ..))
    (fun _ => congrArg mk BitVec.zero_xor)
    (fun _ => congrArg mk BitVec.xor_self)
    (fun _ _ _ => congrArg mk (gfMul_assoc ..))
    (fun _ _ => congrArg mk (gfMul_comm ..))
    (fun _ => congrArg mk (gfMul_one_left _))
    (fun _ _ _ => congrArg mk (gfMulBits_xor_right ..))

theorem gfExp_eq_pow (i : Nat) : letI := FieldByte.commRing; (⟨gfExp i⟩ : FieldByte) = ⟨2⟩ ^ i := by
  let := FieldByte.commRing
  induction i with
  | zero => rfl
  | succ i ih => rw [pow_succ, ← ih, gfExp, ← gfMul_two]; rfl

/-- The order of `alpha` is 255: `alpha^255 = 1`, and no `alpha^(255 / p)` is 1 for a prime `p` of 255 = 3 · 5 · 17. -/
theorem orderOf_alpha : letI := FieldByte.commRing; orderOf (⟨2⟩ : FieldByte) = 255 := by
  let := FieldByte.commRing
  have hne : ∀ i, gfExp i ≠ 1 → (⟨2⟩ : FieldByte) ^ i ≠ 1 := fun i hi h =>
    hi (congrArg FieldByte.byte ((gfExp_eq_pow i).trans h))
  have hone : (⟨2⟩ : FieldByte) ^ 255 = 1 := by
    rw [← gfExp_eq_pow]; exact congrArg FieldByte.mk (by decide +kernel)
  refine orderOf_eq_of_pow_and_pow_div_prime (by decide) hone fun p hp hdvd => ?_
  have hmem : p ∈ Nat.primeFactors 255 := Nat.mem_primeFactors.2 ⟨hp, hdvd, by decide⟩
  have hfactors : Nat.primeFactors 255 = {3, 5, 17} := by decide +kernel
  rw [hfactors] at hmem
  simp only [Finset.mem_insert, Finset.mem_singleton] at hmem
  obtain rfl | rfl | rfl := hmem
  · exact hne 85 (by decide +kernel)
  · exact hne 51 (by decide +kernel)
  · exact hne 15 (by decide +kernel)

theorem card_byte : Fintype.card Byte = 256 := FinEnum.card_eq_fintypeCard.symm.trans rfl

/-- `alpha` is primitive: its powers are all of the elements but 0. -/
theorem eq_zero_or_alpha_pow (a : FieldByte) : letI := FieldByte.commRing; a = 0 ∨ ∃ i, ⟨2⟩ ^ i = a := by
  classical
  let := FieldByte.commRing
  let e : FieldByte ≃ Byte := ⟨FieldByte.byte, FieldByte.mk, fun _ => rfl, fun _ => rfl⟩
  let := Fintype.ofEquiv Byte e.symm
  have hcard : Fintype.card FieldByte = 256 := (Fintype.card_congr e).trans card_byte
  let powers : Finset FieldByte := (Finset.range 255).image (⟨2⟩ ^ ·)
  have hpowers : powers.card = 255 := by
    rw [Finset.card_image_of_injOn, Finset.card_range]
    rw [← orderOf_alpha, Finset.coe_range]
    exact pow_injOn_Iio_orderOf
  have hzero : (0 : FieldByte) ∉ powers := by
    intro h
    obtain ⟨i, -, hi⟩ := Finset.mem_image.1 h
    have hpow : (⟨2⟩ : FieldByte) ^ 255 = 1 := orderOf_alpha ▸ pow_orderOf_eq_one _
    have : (1 : FieldByte) = 0 := by
      calc (1 : FieldByte) = ((⟨2⟩ : FieldByte) ^ i) ^ 255 := by rw [pow_right_comm, hpow, one_pow]
        _ = 0 := by rw [hi]; exact zero_pow (by decide)
    exact absurd (congrArg FieldByte.byte this) (by decide)
  have hall : insert 0 powers = Finset.univ := by
    rw [← Finset.card_eq_iff_eq_univ, Finset.card_insert_of_notMem hzero, hpowers, hcard]
  have ha : a ∈ insert 0 powers := hall ▸ Finset.mem_univ a
  rcases Finset.mem_insert.1 ha with ha | ha
  · exact .inl ha
  · obtain ⟨i, -, hi⟩ := Finset.mem_image.1 ha
    exact .inr ⟨i, hi⟩

/-! ## Bytes read as elements of a field -/

/-- Under the reading `φ` of bytes as elements of a field `K`, R151's operations are the field's. -/
structure FieldReading {K : Type} [Field K] (φ : Byte → K) : Prop where
  bijective : Function.Bijective φ
  xor : ∀ a b, φ (a ^^^ b) = φ a + φ b
  mul : ∀ a b, φ (gfMul a b) = φ a * φ b

/-- R151's structure is a field. -/
theorem exists_fieldReading : ∃ (K : Type) (_ : Field K) (φ : Byte → K), FieldReading φ := by
  let := FieldByte.commRing
  have hnontrivial : Nontrivial FieldByte := ⟨0, 1, fun h => absurd (congrArg FieldByte.byte h) (by decide)⟩
  have hunit (a : FieldByte) : IsUnit a ∨ a = 0 := by
    obtain h | ⟨i, rfl⟩ := eq_zero_or_alpha_pow a
    · exact .inr h
    · refine .inl (IsUnit.pow i (IsUnit.of_pow_eq_one (n := 255) ?_ (by decide)))
      exact orderOf_alpha ▸ pow_orderOf_eq_one _
  let := Field.ofIsUnitOrEqZero hunit
  exact ⟨FieldByte, this, FieldByte.mk, ⟨fun _ _ => congrArg FieldByte.byte, fun a => ⟨a.byte, rfl⟩⟩,
    fun _ _ => rfl, fun _ _ => rfl⟩

namespace FieldReading

variable {K : Type} [Field K] {φ : Byte → K} (hφ : FieldReading φ)
include hφ

theorem map_zero : φ 0 = 0 := by simpa using hφ.xor 0 0

theorem map_eq_zero_iff {a : Byte} : φ a = 0 ↔ a = 0 :=
  ⟨fun h => hφ.bijective.1 (h.trans hφ.map_zero.symm), fun h => h ▸ hφ.map_zero⟩

theorem map_one : φ 1 = 1 := by
  have hne : φ 1 ≠ 0 := by rw [ne_eq, hφ.map_eq_zero_iff]; decide
  have h := hφ.mul 1 1
  rw [gfMul_one_left] at h
  exact mul_right_cancel₀ hne (by rw [← h, one_mul])

/-- Minus is plus (R151). -/
theorem charP : CharP K 2 := by
  refine CharTwo.of_one_ne_zero_of_two_eq_zero one_ne_zero ?_
  rw [← one_add_one_eq_two, ← hφ.map_one, ← hφ.xor, BitVec.xor_self]
  exact hφ.map_zero

theorem map_gfPow (a : Byte) (k : Nat) : φ (gfPow a k) = φ a ^ k := by
  induction k with
  | zero => exact hφ.map_one.trans (pow_zero _).symm
  | succ k ih => rw [gfPow, hφ.mul, ih, pow_succ']

theorem map_gfExp (i : Nat) : φ (gfExp i) = φ 2 ^ i := by
  induction i with
  | zero => exact hφ.map_one.trans (pow_zero _).symm
  | succ i ih => rw [gfExp, ← gfMul_two, hφ.mul, ih, pow_succ]

theorem pow_255 {x : K} (hx : x ≠ 0) : x ^ 255 = 1 := by
  let := Fintype.ofBijective φ hφ.bijective
  have hcard : Fintype.card K = 256 := (Fintype.card_of_bijective hφ.bijective).symm.trans card_byte
  have h := FiniteField.pow_card_sub_one_eq_one x hx
  rwa [hcard] at h

theorem map_gfDiv (a b : Byte) (hb : b ≠ 0) : φ (gfDiv a b) = φ a / φ b := by
  have hb : φ b ≠ 0 := hφ.map_eq_zero_iff.not.2 hb
  have hinv : φ (gfInv b) * φ b = 1 := by rw [gfInv, hφ.map_gfPow, ← pow_succ, hφ.pow_255 hb]
  rw [gfDiv, hφ.mul, eq_div_iff hb, mul_assoc, hinv, mul_one]

/-- The first 255 powers of `alpha` differ (R151). -/
theorem alpha_pow_injOn : Set.InjOn (φ 2 ^ ·) (Set.Iio 255) := by
  intro i hi j hj h
  simp only [← hφ.map_gfExp] at h
  have h : gfExp i = gfExp j := hφ.bijective.1 h
  let := FieldByte.commRing
  have hpow : (⟨2⟩ : FieldByte) ^ i = ⟨2⟩ ^ j := by rw [← gfExp_eq_pow, ← gfExp_eq_pow, h]
  refine pow_injOn_Iio_orderOf ?_ ?_ hpow
  · rwa [orderOf_alpha]
  · rwa [orderOf_alpha]

end FieldReading

end Sys2Proof.Machine

/-! # Byte lists as polynomials over GF(2^8) (R151 to R154) -/

namespace Sys2Proof.Machine

open Polynomial

/-! ## Polynomials by their coefficients -/

/-- The polynomial with the coefficients `p`, lowest degree first, under a reading of bytes as field elements. -/
noncomputable def lowPoly {K : Type} [Field K] (φ : Byte → K) : List Byte → K[X]
  | [] => 0
  | a :: p => C (φ a) + X * lowPoly φ p

theorem polyEval_concat (p : List Byte) (a x : Byte) : polyEval (p ++ [a]) x = gfMul (polyEval p x) x ^^^ a := by
  simp [polyEval]

theorem lowPoly_append {K : Type} [Field K] (φ : Byte → K) (p q : List Byte) :
    lowPoly φ (p ++ q) = lowPoly φ p + X ^ p.length * lowPoly φ q := by
  induction p with
  | nil => simp [lowPoly]
  | cons a p ih => simp only [List.cons_append, lowPoly, ih, List.length_cons, pow_succ']; ring

theorem degree_lowPoly_lt {K : Type} [Field K] (φ : Byte → K) (p : List Byte) : (lowPoly φ p).degree < p.length := by
  rw [degree_lt_iff_coeff_zero]
  induction p with
  | nil => simp [lowPoly]
  | cons a p ih =>
    intro m hm
    obtain ⟨m, rfl⟩ := Nat.exists_eq_add_of_lt (Nat.lt_of_lt_of_le (Nat.zero_lt_succ p.length) hm)
    simp only [List.length_cons] at hm
    rw [Nat.zero_add, lowPoly, coeff_add, coeff_C_succ, coeff_X_mul, ih m (by omega), add_zero]

theorem lowPoly_map_range {K : Type} [Field K] (φ : Byte → K) (n : Nat) (g : Nat → Byte) :
    lowPoly φ ((List.range n).map g) = ∑ j ∈ Finset.range n, C (φ (g j)) * X ^ j := by
  induction n with
  | zero => simp [lowPoly]
  | succ n ih =>
    rw [List.range_succ, List.map_append, lowPoly_append, ih, Finset.sum_range_succ]
    simp [lowPoly, X_pow_mul]

namespace FieldReading

variable {K : Type} [Field K] {φ : Byte → K} (hφ : FieldReading φ)
include hφ

theorem lowPoly_zipWith_xor {p q : List Byte} (h : p.length = q.length) :
    lowPoly φ (List.zipWith (· ^^^ ·) p q) = lowPoly φ p + lowPoly φ q := by
  induction p generalizing q with
  | nil => obtain rfl := List.eq_nil_of_length_eq_zero h.symm; simp [lowPoly]
  | cons a p ih =>
    obtain ⟨b, q, rfl⟩ := List.exists_cons_of_length_eq_add_one h.symm
    simp only [List.zipWith_cons_cons, lowPoly, ih (Nat.succ.inj h), hφ.xor, C_add]
    ring

theorem lowPoly_map_gfMul (r : Byte) (p : List Byte) : lowPoly φ (p.map (gfMul r)) = C (φ r) * lowPoly φ p := by
  induction p with
  | nil => simp [lowPoly]
  | cons a p ih => simp only [List.map_cons, lowPoly, ih, hφ.mul, C_mul]; ring

/-- Horner's scheme evaluates the polynomial (R154). -/
theorem map_polyEval_reverse (p : List Byte) (x : Byte) : φ (polyEval p.reverse x) = (lowPoly φ p).eval (φ x) := by
  induction p with
  | nil => simpa [lowPoly, polyEval] using hφ.map_zero
  | cons a p ih =>
    rw [List.reverse_cons, polyEval_concat, hφ.xor, hφ.mul, ih]
    simp [lowPoly]; ring

theorem map_polyEval (p : List Byte) (x : Byte) : φ (polyEval p x) = (lowPoly φ p.reverse).eval (φ x) := by
  rw [← hφ.map_polyEval_reverse, List.reverse_reverse]

theorem lowPoly_polyTimesRoot (p : List Byte) (r : Byte) :
    lowPoly φ (polyTimesRoot p r).reverse = lowPoly φ p.reverse * (X - C (φ r)) := by
  have := hφ.charP
  have hrev : (polyTimesRoot p r).reverse =
      List.zipWith (· ^^^ ·) (0 :: p.reverse) (p.reverse.map (gfMul r) ++ [0]) := by
    simp [polyTimesRoot, List.reverse_zipWith]
  rw [hrev, hφ.lowPoly_zipWith_xor (by simp), lowPoly_append, hφ.lowPoly_map_gfMul]
  simp only [lowPoly, hφ.map_zero, CharTwo.sub_eq_add, C_0]
  ring

/-- The generator is the product of `x - alpha^i` (R153). -/
theorem lowPoly_rsGenerator (e : Nat) :
    lowPoly φ (rsGenerator e).reverse = ∏ i ∈ Finset.range e, (X - C (φ (gfExp i))) := by
  induction e with
  | zero => simpa [rsGenerator, lowPoly] using congrArg C hφ.map_one
  | succ e ih => rw [rsGenerator, hφ.lowPoly_polyTimesRoot, ih, Finset.prod_range_succ]

theorem polyEval_rsGenerator {e i : Nat} (hi : i < e) : polyEval (rsGenerator e) (gfExp i) = 0 := by
  rw [← hφ.map_eq_zero_iff, hφ.map_polyEval, hφ.lowPoly_rsGenerator, eval_prod]
  exact Finset.prod_eq_zero (Finset.mem_range.2 hi) (by simp)

/-! ## Values of polynomials -/

theorem map_polyEval_cons (a : Byte) (p : List Byte) (x : Byte) :
    φ (polyEval (a :: p) x) = φ a * φ x ^ p.length + φ (polyEval p x) := by
  rw [hφ.map_polyEval, hφ.map_polyEval, List.reverse_cons, lowPoly_append]
  simp [lowPoly]; ring

theorem map_polyEval_concat (p : List Byte) (a x : Byte) :
    φ (polyEval (p ++ [a]) x) = φ (polyEval p x) * φ x + φ a := by
  rw [polyEval_concat, hφ.xor, hφ.mul]

theorem map_polyEval_append (p q : List Byte) (x : Byte) :
    φ (polyEval (p ++ q) x) = φ (polyEval p x) * φ x ^ q.length + φ (polyEval q x) := by
  rw [hφ.map_polyEval, hφ.map_polyEval, hφ.map_polyEval, List.reverse_append, lowPoly_append]
  simp; ring

theorem map_polyEval_zipWith_xor {p q : List Byte} (h : p.length = q.length) (x : Byte) :
    φ (polyEval (List.zipWith (· ^^^ ·) p q) x) = φ (polyEval p x) + φ (polyEval q x) := by
  rw [hφ.map_polyEval, hφ.map_polyEval, hφ.map_polyEval, List.reverse_zipWith h, hφ.lowPoly_zipWith_xor (by simp [h]),
    eval_add]

theorem map_polyEval_map_gfMul (r : Byte) (p : List Byte) (x : Byte) :
    φ (polyEval (p.map (gfMul r)) x) = φ r * φ (polyEval p x) := by
  rw [hφ.map_polyEval, hφ.map_polyEval, ← List.map_reverse, hφ.lowPoly_map_gfMul, eval_mul, eval_C]

end FieldReading

end Sys2Proof.Machine

/-! # Codewords and their parity (R153 to R155) -/

namespace Sys2Proof.Machine

open Polynomial

/-! ## Power sums over few points -/

/-- Power sums that vanish below `m` make the sums of all polynomials of degree below `m` vanish. -/
theorem sum_mul_eval_eq_zero {K ι : Type} [Field K] {P : Finset ι} {a x : ι → K} {m : Nat}
    (h : ∀ i < m, ∑ j ∈ P, a j * x j ^ i = 0) {f : K[X]} (hf : f.degree < m) : ∑ j ∈ P, a j * f.eval (x j) = 0 := by
  by_cases h0 : f = 0
  · simp [h0]
  have hdeg : f.natDegree < m := (natDegree_lt_iff_degree_lt h0).2 hf
  calc ∑ j ∈ P, a j * f.eval (x j)
      = ∑ j ∈ P, ∑ i ∈ Finset.range m, f.coeff i * (a j * x j ^ i) := by
        refine Finset.sum_congr rfl fun j _ => ?_
        rw [eval_eq_sum_range' hdeg, Finset.mul_sum]
        exact Finset.sum_congr rfl fun i _ => mul_left_comm ..
    _ = ∑ i ∈ Finset.range m, f.coeff i * ∑ j ∈ P, a j * x j ^ i := by
        rw [Finset.sum_comm]
        exact Finset.sum_congr rfl fun i _ => (Finset.mul_sum ..).symm
    _ = 0 := Finset.sum_eq_zero fun i hi => by rw [h i (Finset.mem_range.1 hi), mul_zero]

/-- As many vanishing power sums as there are points make the coefficients vanish. -/
theorem eq_zero_of_powerSums {K ι : Type} [Field K] {P : Finset ι} {a x : ι → K} {m : Nat}
    (h : ∀ i < m, ∑ j ∈ P, a j * x j ^ i = 0) (hx : Set.InjOn x P) (hm : P.card ≤ m) {l : ι} (hl : l ∈ P) : a l = 0 := by
  classical
  have hdeg : (Lagrange.nodal (P.erase l) x).degree < m := by
    rw [Lagrange.degree_nodal, Finset.card_erase_of_mem hl]
    have := Finset.card_pos.2 ⟨l, hl⟩
    exact Nat.cast_lt.2 (by omega)
  have hsum := sum_mul_eval_eq_zero h hdeg
  rw [Finset.sum_eq_single_of_mem l hl fun j hj hne => by
    rw [Lagrange.eval_nodal_at_node (Finset.mem_erase.2 ⟨hne, hj⟩), mul_zero]] at hsum
  refine (mul_eq_zero.1 hsum).resolve_right (Lagrange.eval_nodal_not_at_node fun j hj heq => ?_)
  exact (Finset.mem_erase.1 hj).1 (hx (Finset.mem_of_mem_erase hj) hl heq.symm)

/-! ## Codewords -/

theorem isCodeword_iff {c : List Byte} {e : Nat} : isCodeword c e = true ↔ ∀ i < e, polyEval c (gfExp i) = 0 := by
  simp [isCodeword, syndromes]

namespace FieldReading

variable {K : Type} [Field K] {φ : Byte → K} (hφ : FieldReading φ)
include hφ

/-- A syndrome is a power sum over the positions, with the locators as points (R154, R157). -/
theorem map_polyEval_gfExp (w : List Byte) (i : Nat) :
    φ (polyEval w (gfExp i)) = ∑ j ∈ Finset.range w.length, φ (w.getD j 0) * φ (locatorOf w.length j) ^ i := by
  induction w using List.reverseRecOn with
  | nil => exact hφ.map_zero
  | append_singleton w a ih =>
    have hlast : (w ++ [a]).getD w.length 0 = a := by simp
    have hloc : φ (locatorOf (w.length + 1) w.length) = 1 := by simpa [locatorOf, gfExp] using hφ.map_one
    rw [hφ.map_polyEval_concat, ih, List.length_append, List.length_singleton, Finset.sum_range_succ, hlast, hloc, one_pow,
      mul_one, Finset.sum_mul]
    congr 1
    refine Finset.sum_congr rfl fun j hj => ?_
    have hj : j < w.length := Finset.mem_range.1 hj
    have hsucc : w.length + 1 - 1 - j = w.length - 1 - j + 1 := by omega
    simp only [locatorOf, hφ.map_gfExp, List.getD_append _ _ _ _ hj, hsucc]
    ring

theorem locator_injOn {n : Nat} (hn : n ≤ 255) : Set.InjOn (fun j => φ (locatorOf n j)) (Finset.range n) := by
  intro i hi j hj h
  simp only [Finset.coe_range, Set.mem_Iio] at hi hj
  simp only [locatorOf, hφ.map_gfExp] at h
  have := hφ.alpha_pow_injOn (show n - 1 - i < 255 by omega) (show n - 1 - j < 255 by omega) h
  omega

/-- The difference of two words at each position. -/
theorem map_xor_eq_zero_iff {a b : Byte} : φ (a ^^^ b) = 0 ↔ a = b := by
  rw [hφ.map_eq_zero_iff]; exact BitVec.xor_eq_zero_iff

/-- The syndromes of a word that differs from a codeword are power sums of the differences. -/
theorem map_polyEval_of_isCodeword {w c : List Byte} {e i : Nat} (hlen : c.length = w.length)
    (hc : isCodeword c e = true) (hi : i < e) : φ (polyEval w (gfExp i)) =
      ∑ j ∈ Finset.range w.length, φ (w.getD j 0 ^^^ c.getD j 0) * φ (locatorOf w.length j) ^ i := by
  have hc0 : φ (polyEval c (gfExp i)) = 0 := hφ.map_eq_zero_iff.2 (isCodeword_iff.1 hc i hi)
  rw [hφ.map_polyEval_gfExp, hlen] at hc0
  simp only [hφ.xor, add_mul, Finset.sum_add_distrib, hc0, add_zero, ← hφ.map_polyEval_gfExp]

end FieldReading

/-- Two codewords that differ at no more than `E` positions are one: the code's distance is more than `E` (R155). -/
theorem codeword_unique {c c' : List Byte} {e : Nat} (hlen : c'.length = c.length) (hn : c.length ≤ 255)
    (hc : isCodeword c e = true) (hc' : isCodeword c' e = true) {P : Finset Nat} (hP : P ⊆ Finset.range c.length)
    (hcard : P.card ≤ e) (hout : ∀ j, j ∉ P → c.getD j 0 = c'.getD j 0) : c = c' := by
  obtain ⟨K, _, φ, hφ⟩ := exists_fieldReading
  have hsums (i : Nat) (hi : i < e) : ∑ j ∈ P, φ (c.getD j 0 ^^^ c'.getD j 0) * φ (locatorOf c.length j) ^ i = 0 := by
    rw [Finset.sum_subset hP fun j _ hj => by rw [hφ.map_xor_eq_zero_iff.2 (hout j hj), zero_mul],
      ← hφ.map_polyEval_of_isCodeword hlen hc' hi, hφ.map_eq_zero_iff, isCodeword_iff.1 hc i hi]
  have hzero (j : Nat) : c.getD j 0 = c'.getD j 0 := by
    by_cases hj : j ∈ P
    · exact hφ.map_xor_eq_zero_iff.1
        (eq_zero_of_powerSums hsums ((hφ.locator_injOn hn).mono (by exact_mod_cast hP)) hcard hj)
    · exact hout j hj
  refine List.ext_getElem hlen.symm fun j hj hj' => ?_
  simpa [hj, hj'] using hzero j

/-! ## Parity -/

/-- The generator is monic (R153). -/
theorem rsGenerator_eq_cons (e : Nat) : ∃ g, rsGenerator e = 1 :: g ∧ g.length = e := by
  have hhead : ∃ g, rsGenerator e = 1 :: g := by
    induction e with
    | zero => exact ⟨[], rfl⟩
    | succ e ih => obtain ⟨g, hg⟩ := ih; rw [rsGenerator, hg]; exact ⟨_, rfl⟩
  obtain ⟨g, hg⟩ := hhead
  have := rsGenerator_length e
  exact ⟨g, hg, by simpa [hg] using this⟩

namespace FieldReading

variable {K : Type} [Field K] {φ : Byte → K} (hφ : FieldReading φ)
include hφ

/-- At a root `x` of the generator, shifting a data byte into the register is Horner's step for the data times `x^E`. -/
theorem map_polyEval_rsShift {e i : Nat} (hi : i < e) {rem : List Byte} (hrem : rem.length = e) (d : Byte) :
    φ (polyEval (rsShift (rsGenerator e) rem d) (gfExp i)) =
      φ (polyEval rem (gfExp i)) * φ (gfExp i) + φ d * φ (gfExp i) ^ e := by
  have := hφ.charP
  obtain ⟨g, hg, hglen⟩ := rsGenerator_eq_cons e
  have hroot : φ (gfExp i) ^ e + φ (polyEval g (gfExp i)) = 0 := by
    have h := hφ.map_polyEval_cons 1 g (gfExp i)
    rwa [← hg, polyEval_rsGenerator hφ hi, hφ.map_zero, hφ.map_one, one_mul, hglen, eq_comm] at h
  have hg0 : φ (polyEval g (gfExp i)) = φ (gfExp i) ^ e := (CharTwo.add_eq_zero.1 hroot).symm
  obtain ⟨h, r, rfl⟩ := List.exists_cons_of_length_pos (by omega : 0 < rem.length)
  have hr : r.length + 1 = e := hrem
  have hshift : rsShift (rsGenerator e) (h :: r) d =
      List.zipWith (· ^^^ ·) (r ++ [0]) (g.map (gfMul (d ^^^ h))) := by
    simp [rsShift, hg, List.zipWith_map_right]
  rw [hshift, hφ.map_polyEval_zipWith_xor (by simp [hr, hglen]), hφ.map_polyEval_concat, hφ.map_polyEval_map_gfMul,
    hφ.map_polyEval_cons, hg0, hφ.xor, hφ.map_zero, ← hr, pow_succ]
  ring

theorem map_polyEval_foldl_rsShift {e i : Nat} (hi : i < e) (d : List Byte) {rem : List Byte} (hrem : rem.length = e) :
    φ (polyEval (d.foldl (rsShift (rsGenerator e)) rem) (gfExp i)) =
      φ (polyEval rem (gfExp i)) * φ (gfExp i) ^ d.length + φ (polyEval d (gfExp i)) * φ (gfExp i) ^ e := by
  induction d generalizing rem with
  | nil => simp [polyEval, show φ 0#8 = 0 from hφ.map_zero]
  | cons a d ih =>
    rw [List.foldl_cons, ih (rsShift_length hrem a), hφ.map_polyEval_rsShift hi hrem, hφ.map_polyEval_cons, List.length_cons]
    ring

/-- The parity has the values of the data times `x^E` at the generator's roots (R154). -/
theorem map_polyEval_rsParity {e i : Nat} (hi : i < e) (d : List Byte) :
    φ (polyEval (rsParity d e) (gfExp i)) = φ (polyEval d (gfExp i)) * φ (gfExp i) ^ e := by
  have hzero : φ (polyEval (List.replicate e 0) (gfExp i)) = 0 := by
    rw [hφ.map_polyEval_gfExp]
    exact Finset.sum_eq_zero fun j hj => by simp [show φ 0#8 = 0 from hφ.map_zero]
  rw [rsParity, hφ.map_polyEval_foldl_rsShift hi d (by simp), hzero, zero_mul, zero_add]

end FieldReading

theorem isCodeword_rsEncode (d : List Byte) (e : Nat) : isCodeword (rsEncode d e) e = true := by
  obtain ⟨K, _, φ, hφ⟩ := exists_fieldReading
  have := hφ.charP
  refine isCodeword_iff.2 fun i hi => hφ.map_eq_zero_iff.1 ?_
  rw [rsEncode, hφ.map_polyEval_append, hφ.map_polyEval_rsParity hi, rsParity_length]
  exact CharTwo.add_self_eq_zero _

/-- No other parity makes a codeword: it would differ at the last `E` positions only. -/
theorem rsParity_unique {d x : List Byte} {e : Nat} (hn : d.length + e ≤ 255) (hx : x.length = e)
    (hcode : isCodeword (d ++ x) e = true) : x = rsParity d e := by
  refine List.append_cancel_left (as := d) (codeword_unique (P := Finset.Ico d.length (d.length + e)) ?_ ?_ hcode
    (isCodeword_rsEncode d e) ?_ ?_ fun j hj => ?_)
  · simp [hx]
  · simpa [hx] using hn
  · rw [List.length_append, hx, Finset.range_eq_Ico]
    exact Finset.Ico_subset_Ico_left (Nat.zero_le _)
  · simp
  · rw [Finset.mem_Ico] at hj
    by_cases hd : j < d.length
    · rw [List.getD_append _ _ _ _ hd, List.getD_append _ _ _ _ hd]
    · rw [List.getD_eq_default _ _ (by simp; omega), List.getD_eq_default _ _ (by simp; omega)]

/-- Settles O40: the parity register holds the data times `x^E` at every root of the generator. -/
theorem rsEncodeGivesTheCodeword : Obligations.RsEncodeGivesTheCodeword := fun d e hn =>
  ⟨rsParity d e, rfl, rsParity_length d e, isCodeword_rsEncode d e, fun _ => rsParity_unique hn⟩

end Sys2Proof.Machine

/-! # Bounded-distance decoding (R156, R157) -/

namespace Sys2Proof.Machine

open Polynomial

/-! ## Solving linear equations -/

/-- The polynomials that the vectors of `vs`, read as coefficients, span. -/
noncomputable def vectorSpan {K : Type} [Field K] (φ : Byte → K) (vs : List (List Byte)) : Submodule K K[X] :=
  Submodule.span K (lowPoly φ '' {u | u ∈ vs})

theorem vectorSpan_cons {K : Type} [Field K] (φ : Byte → K) (v : List Byte) (vs : List (List Byte)) :
    vectorSpan φ (v :: vs) = Submodule.span K {lowPoly φ v} ⊔ vectorSpan φ vs := by
  have h : lowPoly φ '' {u | u ∈ v :: vs} = insert (lowPoly φ v) (lowPoly φ '' {u | u ∈ vs}) := by
    ext f
    simp [or_and_right, exists_or, eq_comm]
  rw [vectorSpan, h, Submodule.span_insert]; rfl

/-- Take off a polynomial so much of `v` that the functional `ℓ` vanishes on it. -/
noncomputable def projectOut {K : Type} [Field K] (ℓ : K[X] →ₗ[K] K) (v : K[X]) : K[X] →ₗ[K] K[X] :=
  LinearMap.id - (ℓ.smulRight ((ℓ v)⁻¹ • v))

theorem projectOut_apply {K : Type} [Field K] (ℓ : K[X] →ₗ[K] K) (v f : K[X]) :
    projectOut ℓ v f = f - (ℓ f / ℓ v) • v := by
  simp [projectOut, smul_smul, div_eq_mul_inv]

/-- Projecting the rest of a span along `v` gives what `ℓ` vanishes on. -/
theorem map_projectOut {K : Type} [Field K] {ℓ : K[X] →ₗ[K] K} {v : K[X]} (hv : ℓ v ≠ 0) (S : Submodule K K[X]) :
    S.map (projectOut ℓ v) = (Submodule.span K {v} ⊔ S) ⊓ LinearMap.ker ℓ := by
  have hself : projectOut ℓ v v = 0 := by rw [projectOut_apply, div_self hv, one_smul, sub_self]
  ext g
  simp only [Submodule.mem_map, Submodule.mem_inf, Submodule.mem_sup, Submodule.mem_span_singleton, LinearMap.mem_ker]
  constructor
  · rintro ⟨f, hf, rfl⟩
    refine ⟨⟨-(ℓ f / ℓ v) • v, ⟨_, rfl⟩, f, hf, ?_⟩, ?_⟩
    · rw [projectOut_apply, neg_smul]; abel
    · rw [projectOut_apply, map_sub, map_smul, smul_eq_mul, div_mul_cancel₀ _ hv, sub_self]
  · rintro ⟨⟨_, ⟨a, rfl⟩, f, hf, rfl⟩, hker⟩
    have hfix : projectOut ℓ v (a • v + f) = a • v + f := by
      rw [projectOut_apply, hker, zero_div, zero_smul, sub_zero]
    exact ⟨f, hf, by rw [← hfix, map_add, map_smul, hself, smul_zero, zero_add]⟩

/-- What `cutBy` makes of a vector `u` after a vector `v` that is not orthogonal to `row`. -/
def cutVector (row v u : List Byte) : List Byte :=
  List.zipWith (fun x y => x ^^^ gfMul (gfDiv (gfDot row u) (gfDot row v)) y) u v

theorem cutBy_cons_of_eq {row v : List Byte} (vs : List (List Byte)) (h : gfDot row v = 0) :
    cutBy row (v :: vs) = v :: cutBy row vs := by
  rw [cutBy]; exact if_pos h

theorem cutBy_cons_of_ne {row v : List Byte} (vs : List (List Byte)) (h : gfDot row v ≠ 0) :
    cutBy row (v :: vs) = vs.map (cutVector row v) := by
  rw [cutBy]; exact if_neg h

theorem cutBy_length {row : List Byte} {m : Nat} {vs : List (List Byte)} (h : ∀ u ∈ vs, u.length = m) :
    ∀ u ∈ cutBy row vs, u.length = m := by
  induction vs with
  | nil => exact h
  | cons v vs ih =>
    obtain ⟨hv, hvs⟩ := List.forall_mem_cons.1 h
    by_cases h0 : gfDot row v = 0
    · rw [cutBy_cons_of_eq vs h0]
      exact List.forall_mem_cons.2 ⟨hv, ih hvs⟩
    · rw [cutBy_cons_of_ne vs h0, List.forall_mem_map]
      intro u hu
      rw [cutVector, List.length_zipWith, hvs u hu, hv, min_self]

namespace FieldReading

variable {K : Type} [Field K] {φ : Byte → K} (hφ : FieldReading φ)
include hφ

theorem lowPoly_cutVector {row u v : List Byte} (hlen : u.length = v.length) {ℓ : K[X] →ₗ[K] K}
    (hu : φ (gfDot row u) = ℓ (lowPoly φ u)) (hv : φ (gfDot row v) = ℓ (lowPoly φ v)) (hne : gfDot row v ≠ 0) :
    lowPoly φ (cutVector row v u) = projectOut ℓ (lowPoly φ v) (lowPoly φ u) := by
  have := hφ.charP
  rw [cutVector, ← List.zipWith_map_right (f := gfMul (gfDiv (gfDot row u) (gfDot row v))) (g := (· ^^^ ·)),
    hφ.lowPoly_zipWith_xor (by simpa using hlen), hφ.lowPoly_map_gfMul, hφ.map_gfDiv _ _ hne, projectOut_apply, hu, hv,
    CharTwo.sub_eq_add, smul_eq_C_mul]

/-- `cutBy` keeps of the span what `ℓ` vanishes on. -/
theorem vectorSpan_cutBy {row : List Byte} {m : Nat} {ℓ : K[X] →ₗ[K] K}
    (hℓ : ∀ u : List Byte, u.length = m → φ (gfDot row u) = ℓ (lowPoly φ u)) {vs : List (List Byte)}
    (h : ∀ u ∈ vs, u.length = m) : vectorSpan φ (cutBy row vs) = vectorSpan φ vs ⊓ LinearMap.ker ℓ := by
  induction vs with
  | nil => simp [cutBy, vectorSpan]
  | cons v vs ih =>
    obtain ⟨hv, hvs⟩ := List.forall_mem_cons.1 h
    rw [vectorSpan_cons]
    by_cases h0 : gfDot row v = 0
    · have hker : Submodule.span K {lowPoly φ v} ≤ LinearMap.ker ℓ := by
        rw [Submodule.span_singleton_le_iff_mem, LinearMap.mem_ker, ← hℓ v hv, h0, hφ.map_zero]
      rw [cutBy_cons_of_eq vs h0, vectorSpan_cons, ih hvs, sup_inf_assoc_of_le _ hker]
    · have hne : ℓ (lowPoly φ v) ≠ 0 := by rwa [← hℓ v hv, ne_eq, hφ.map_eq_zero_iff]
      rw [cutBy_cons_of_ne vs h0, ← map_projectOut hne, vectorSpan, vectorSpan, Submodule.map_span, Set.image_image]
      congr 1
      ext f
      simp only [Set.mem_image, Set.mem_ofPred_eq, List.mem_map, exists_exists_and_eq_and]
      refine exists_congr fun u => and_congr_right fun hu => ?_
      rw [hφ.lowPoly_cutVector ((hvs u hu).trans hv.symm) (hℓ u (hvs u hu)) (hℓ v hv) h0]

/-- `cutBy` keeps the degrees of the vectors it keeps, where each vector has a higher degree than those before. -/
theorem degrees_cutBy {row : List Byte} {m : Nat} {ℓ : K[X] →ₗ[K] K}
    (hℓ : ∀ u : List Byte, u.length = m → φ (gfDot row u) = ℓ (lowPoly φ u)) {vs : List (List Byte)}
    (h : ∀ u ∈ vs, u.length = m) (hdeg : (vs.map fun u => (lowPoly φ u).degree).Pairwise (· < ·)) :
    ((cutBy row vs).map fun u => (lowPoly φ u).degree).Sublist (vs.map fun u => (lowPoly φ u).degree) := by
  induction vs with
  | nil => exact List.Sublist.refl _
  | cons v vs ih =>
    obtain ⟨hv, hvs⟩ := List.forall_mem_cons.1 h
    rw [List.map_cons, List.pairwise_cons] at hdeg
    obtain ⟨hlt, hdeg⟩ := hdeg
    rw [List.map_cons]
    by_cases h0 : gfDot row v = 0
    · rw [cutBy_cons_of_eq vs h0]
      exact (ih hvs hdeg).cons_cons _
    · rw [cutBy_cons_of_ne vs h0, List.map_map, List.map_congr_left fun u hu => ?_]
      · exact List.sublist_cons_self ..
      · rw [Function.comp_apply, hφ.lowPoly_cutVector ((hvs u hu).trans hv.symm) (hℓ u (hvs u hu)) (hℓ v hv) h0,
          projectOut_apply]
        exact degree_sub_eq_left_of_degree_lt ((degree_smul_le _ _).trans_lt (hlt _ (List.mem_map_of_mem hu)))

end FieldReading

/-- The vectors of `vs`, of length `m`, span what the functionals `Φ 0 … Φ (k - 1)` vanish on among the polynomials of degree
below `m`; each has a higher degree than those before, so none is 0. -/
structure SolutionBasis {K : Type} [Field K] (φ : Byte → K) (Φ : Nat → K[X] →ₗ[K] K) (m k : Nat)
    (vs : List (List Byte)) : Prop where
  length : ∀ u ∈ vs, u.length = m
  ne_zero : ∀ u ∈ vs, lowPoly φ u ≠ 0
  degrees : (vs.map fun u => (lowPoly φ u).degree).Pairwise (· < ·)
  mem_span : ∀ f : K[X], f ∈ vectorSpan φ vs ↔ f.degree < m ∧ ∀ i < k, Φ i f = 0

theorem mem_vectorSpan {K : Type} [Field K] {φ : Byte → K} {u : List Byte} {vs : List (List Byte)} (h : u ∈ vs) :
    lowPoly φ u ∈ vectorSpan φ vs := Submodule.subset_span ⟨u, h, rfl⟩

/-- Where the equations have a solution that is not 0, the first vector of the basis is one. -/
theorem SolutionBasis.exists_head {K : Type} [Field K] {φ : Byte → K} {Φ : Nat → K[X] →ₗ[K] K} {m k : Nat}
    {vs : List (List Byte)} (h : SolutionBasis φ Φ m k vs) {f : K[X]} (hne : f ≠ 0) (hdeg : f.degree < m)
    (hsol : ∀ i < k, Φ i f = 0) : ∃ sigma, vs.head? = some sigma ∧ lowPoly φ sigma ≠ 0 ∧
      (lowPoly φ sigma).degree < m ∧ ∀ i < k, Φ i (lowPoly φ sigma) = 0 := by
  have hmem := (h.mem_span f).2 ⟨hdeg, hsol⟩
  cases vs with
  | nil => simp [vectorSpan, hne] at hmem
  | cons sigma vs =>
    have hsigma : sigma ∈ sigma :: vs := List.mem_cons_self ..
    exact ⟨sigma, rfl, h.ne_zero _ hsigma, (h.mem_span _).1 (mem_vectorSpan hsigma)⟩

namespace FieldReading

variable {K : Type} [Field K] {φ : Byte → K} (hφ : FieldReading φ)
include hφ

theorem lowPoly_unitVector {i n : Nat} (hi : i < n) :
    lowPoly φ ((List.range n).map fun j => if i = j then 1 else 0) = X ^ i := by
  have hcoeff (j : Nat) : C (φ (if i = j then 1 else 0)) * X ^ j = if i = j then (X : K[X]) ^ j else 0 := by
    split
    · rw [hφ.map_one, C_1, one_mul]
    · rw [hφ.map_zero, C_0, zero_mul]
  simp only [lowPoly_map_range, hcoeff, Finset.sum_ite_eq, Finset.mem_range, hi, if_true]

theorem map_lowPoly_unitVectors (n : Nat) : (unitVectors n).map (lowPoly φ) = (List.range n).map (X ^ ·) := by
  rw [unitVectors, List.map_map]
  exact List.map_congr_left fun i hi => hφ.lowPoly_unitVector (List.mem_range.1 hi)

theorem solutionBasis_unitVectors (Φ : Nat → K[X] →ₗ[K] K) (m : Nat) : SolutionBasis φ Φ m 0 (unitVectors m) where
  length := by simp [unitVectors]
  ne_zero := by
    intro u hu
    have h := List.mem_map_of_mem (f := lowPoly φ) hu
    rw [hφ.map_lowPoly_unitVectors] at h
    obtain ⟨i, -, hi⟩ := List.mem_map.1 h
    exact hi ▸ pow_ne_zero i X_ne_zero
  degrees := by
    have h := congrArg (List.map degree) (hφ.map_lowPoly_unitVectors m)
    rw [List.map_map, List.map_map] at h
    refine (congrArg (List.Pairwise (· < ·)) h).mpr (List.pairwise_map.2 (List.pairwise_lt_range.imp fun hij => ?_))
    simpa using hij
  mem_span f := by
    classical
    have h : lowPoly φ '' {u | u ∈ unitVectors m} = ↑((Finset.range m).image fun i => (X : K[X]) ^ i) := by
      ext g
      have hmem : g ∈ (unitVectors m).map (lowPoly φ) ↔ g ∈ (List.range m).map (X ^ ·) := by
        rw [hφ.map_lowPoly_unitVectors]
      simpa using hmem
    rw [vectorSpan, h, ← degreeLT_eq_span_X_pow, mem_degreeLT]
    simp

/-- Cutting by the next row keeps the solutions of one more equation. -/
theorem solutionBasis_cutBy {Φ : Nat → K[X] →ₗ[K] K} {m k : Nat} {vs : List (List Byte)} {row : List Byte}
    (h : SolutionBasis φ Φ m k vs) (hrow : ∀ u : List Byte, u.length = m → φ (gfDot row u) = Φ k (lowPoly φ u)) :
    SolutionBasis φ Φ m (k + 1) (cutBy row vs) where
  length := cutBy_length h.length
  ne_zero := by
    intro u hu
    have hmem := (hφ.degrees_cutBy hrow h.length h.degrees).mem
      (List.mem_map_of_mem (f := fun u => (lowPoly φ u).degree) hu)
    obtain ⟨v, hv, hdeg⟩ := List.mem_map.1 hmem
    rw [ne_eq, ← degree_eq_bot, ← hdeg, degree_eq_bot]
    exact h.ne_zero v hv
  degrees := h.degrees.sublist (hφ.degrees_cutBy hrow h.length h.degrees)
  mem_span f := by
    rw [hφ.vectorSpan_cutBy hrow h.length, Submodule.mem_inf, h.mem_span, LinearMap.mem_ker, and_assoc,
      ← Nat.forall_lt_succ_right (p := fun i => Φ i f = 0)]

/-- The rows of the locator equations as functionals, one after another (R157). -/
theorem solutionBasis_foldl {Φ : Nat → K[X] →ₗ[K] K} {m k : Nat} {rows : Nat → List Byte}
    (hrows : ∀ i < k, ∀ u : List Byte, u.length = m → φ (gfDot (rows i) u) = Φ i (lowPoly φ u)) :
    SolutionBasis φ Φ m k ((List.range k).foldl (fun vs i => cutBy (rows i) vs) (unitVectors m)) := by
  induction k with
  | zero => exact hφ.solutionBasis_unitVectors Φ m
  | succ k ih =>
    rw [List.range_succ, List.foldl_append]
    exact hφ.solutionBasis_cutBy (ih fun i hi => hrows i (by omega)) (hrows k (by omega))

/-! ## Sums of products -/

theorem map_gfDot (xs ys : List Byte) : φ (gfDot xs ys) = ((List.zipWith gfMul xs ys).map φ).sum := by
  have hfold (l : List Byte) (a : Byte) : φ (l.foldl (· ^^^ ·) a) = φ a + (l.map φ).sum := by
    induction l generalizing a with
    | nil => simp
    | cons b l ih => rw [List.foldl_cons, ih, hφ.xor, List.map_cons, List.sum_cons, add_assoc]
  rw [gfDot, hfold, hφ.map_zero, zero_add]

end FieldReading

theorem gfDot_comm (xs ys : List Byte) : gfDot xs ys = gfDot ys xs := by
  rw [gfDot, List.zipWith_comm_of_comm gfMul_comm]; rfl

/-- `Φ (i + 1)` is `Φ i` after a multiplication by `x`, so `Φ i` of a polynomial is the sum of its coefficients times the numbers
`Φ i 1`, `Φ (i + 1) 1`, …. -/
def ShiftedSums {K : Type} [Field K] (Φ : Nat → K[X] →ₗ[K] K) : Prop := ∀ i f, Φ i (X * f) = Φ (i + 1) f

/-- The sum of products of a row of the numbers `Φ i 1` and a vector. -/
theorem FieldReading.map_gfDot_lowPoly {K : Type} [Field K] {φ : Byte → K} (hφ : FieldReading φ)
    {Φ : Nat → K[X] →ₗ[K] K} (hΦ : ShiftedSums Φ) {r u : List Byte} {i : Nat} (hlen : u.length ≤ r.length)
    (hr : ∀ k < u.length, φ (r.getD k 0) = Φ (i + k) 1) : φ (gfDot r u) = Φ i (lowPoly φ u) := by
  induction u generalizing r i with
  | nil => simp [hφ.map_gfDot, lowPoly]
  | cons a u ih =>
    obtain ⟨b, r, rfl⟩ := List.exists_cons_of_length_pos (Nat.lt_of_lt_of_le (Nat.zero_lt_succ _) hlen)
    have hb : φ b = Φ i 1 := hr 0 (Nat.zero_lt_succ _)
    have hrest : φ (gfDot r u) = Φ (i + 1) (lowPoly φ u) := by
      refine ih (Nat.le_of_succ_le_succ hlen) fun k hk => ?_
      rw [Nat.add_assoc, Nat.add_comm 1 k]
      exact hr (k + 1) (Nat.succ_lt_succ hk)
    have hC : Φ i (C (φ a)) = φ a * Φ i 1 := by rw [← mul_one (C (φ a)), ← smul_eq_C_mul, map_smul, smul_eq_mul]
    rw [hφ.map_gfDot] at hrest ⊢
    rw [List.zipWith_cons_cons, List.map_cons, List.sum_cons, hrest, hφ.mul, hb, lowPoly, map_add, hΦ, hC, mul_comm]

/-! ## The errors of a received word -/

/-- `c` is a codeword within the bound of the received word `w` (R156). -/
structure WithinBound (w c : List Byte) (e : Nat) : Prop where
  length : c.length = w.length
  short : w.length ≤ 255
  codeword : isCodeword c e = true
  close : hamming w c ≤ e / 2

/-- The positions where `w` differs from `c`. -/
def wrongPositions (w c : List Byte) : Finset Nat := (Finset.range w.length).filter fun j => w.getD j 0 ≠ c.getD j 0

/-- The error's value at position `j`. -/
def errorAt (w c : List Byte) (j : Nat) : Byte := w.getD j 0 ^^^ c.getD j 0

theorem hamming_eq_card {w c : List Byte} (h : c.length = w.length) : hamming w c = (wrongPositions w c).card := by
  rw [wrongPositions, Finset.card_filter]
  induction w generalizing c with
  | nil => simp [hamming]
  | cons a w ih =>
    obtain ⟨b, c, rfl⟩ := List.exists_cons_of_length_eq_add_one h
    have htail : hamming w c = _ := ih (Nat.succ.inj h)
    rw [List.length_cons, Finset.sum_range_succ']
    simp only [hamming, List.zipWith_cons_cons, List.sum_cons, List.getD_cons_succ, List.getD_cons_zero, ne_eq, ite_not]
      at htail ⊢
    rw [htail, Nat.add_comm]

theorem WithinBound.card_le {w c : List Byte} {e : Nat} (h : WithinBound w c e) : (wrongPositions w c).card ≤ e / 2 :=
  hamming_eq_card h.length ▸ h.close

theorem errorAt_eq_getElem {w v : List Byte} {j : Nat} (hj : j < w.length) (hj' : j < v.length) :
    errorAt w v j = w[j] ^^^ v[j] := by simp [errorAt, hj, hj']

theorem errorAt_eq_zero_of_notMem {w c : List Byte} {j : Nat} (hj : j < w.length) (h : j ∉ wrongPositions w c) :
    errorAt w c j = 0 := by
  simp only [wrongPositions, Finset.mem_filter, Finset.mem_range, hj, true_and, not_not] at h
  rw [errorAt, h]
  exact BitVec.xor_self

/-- `Φ i f`: the sum over the wrong positions `j` of the error times `X_j^i f(X_j)`. -/
noncomputable def errorSum {K : Type} [Field K] (φ : Byte → K) (w c : List Byte) (i : Nat) : K[X] →ₗ[K] K :=
  ∑ j ∈ wrongPositions w c, (φ (errorAt w c j) * φ (locatorOf w.length j) ^ i) • leval (φ (locatorOf w.length j))

theorem errorSum_apply {K : Type} [Field K] (φ : Byte → K) (w c : List Byte) (i : Nat) (f : K[X]) :
    errorSum φ w c i f = ∑ j ∈ wrongPositions w c,
      φ (errorAt w c j) * φ (locatorOf w.length j) ^ i * f.eval (φ (locatorOf w.length j)) := by
  simp [errorSum]

theorem errorSum_shifted {K : Type} [Field K] (φ : Byte → K) (w c : List Byte) : ShiftedSums (errorSum φ w c) := by
  intro i f
  rw [errorSum_apply, errorSum_apply]
  refine Finset.sum_congr rfl fun j _ => ?_
  rw [eval_mul, eval_X, pow_succ]
  ring

theorem syndromes_getD {w : List Byte} {e i : Nat} (hi : i < e) : (syndromes w e).getD i 0 = polyEval w (gfExp i) := by
  simp [syndromes, hi]

theorem syndromes_length (w : List Byte) (e : Nat) : (syndromes w e).length = e := by simp [syndromes]

/-- The polynomial that vanishes at the wrong positions' locators and nowhere else (R157's `Lambda`). -/
noncomputable def errorLocator {K : Type} [Field K] (φ : Byte → K) (w c : List Byte) : K[X] :=
  Lagrange.nodal (wrongPositions w c) fun j => φ (locatorOf w.length j)

theorem errorSum_errorLocator {K : Type} [Field K] (φ : Byte → K) (w c : List Byte) (i : Nat) :
    errorSum φ w c i (errorLocator φ w c) = 0 := by
  rw [errorSum_apply]
  refine Finset.sum_eq_zero fun j hj => ?_
  have hroot := Lagrange.eval_nodal_at_node (v := fun j => φ (locatorOf w.length j)) hj
  rw [errorLocator, hroot, mul_zero]

namespace WithinBound

variable {K : Type} [Field K] {φ : Byte → K} {w c : List Byte} {e : Nat} (h : WithinBound w c e) (hφ : FieldReading φ)
include h hφ

/-- The syndromes are the errors' power sums. -/
theorem map_syndrome {i : Nat} (hi : i < e) : φ ((syndromes w e).getD i 0) = errorSum φ w c i 1 := by
  rw [syndromes_getD hi, hφ.map_polyEval_of_isCodeword h.length h.codeword hi, errorSum_apply]
  simp only [eval_one, mul_one]
  refine (Finset.sum_subset (Finset.filter_subset _ _) fun j hj hj' => ?_).symm
  have := errorAt_eq_zero_of_notMem (Finset.mem_range.1 hj) hj'
  rw [errorAt] at this
  rw [this, hφ.map_zero, zero_mul]

theorem locator_injOn_wrong : Set.InjOn (fun j => φ (locatorOf w.length j)) (wrongPositions w c) :=
  (hφ.locator_injOn h.short).mono (by exact_mod_cast Finset.filter_subset _ _)

/-- The locator equations have a solution: a polynomial of degree at most `t` that vanishes at the wrong positions (R157). -/
theorem exists_locatorSolution : ∃ sigma, locatorSolution (syndromes w e) e = some sigma ∧ lowPoly φ sigma ≠ 0 ∧
    (lowPoly φ sigma).degree < ↑(e / 2 + 1) ∧
    ∀ j ∈ wrongPositions w c, (lowPoly φ sigma).eval (φ (locatorOf w.length j)) = 0 := by
  have hrows : ∀ i < e - e / 2, ∀ u : List Byte, u.length = e / 2 + 1 →
      φ (gfDot (((syndromes w e).drop i).take (e / 2 + 1)) u) = errorSum φ w c i (lowPoly φ u) := by
    intro i hi u hu
    refine hφ.map_gfDot_lowPoly (errorSum_shifted φ w c) ?_ fun k hk => ?_
    · rw [List.length_take, List.length_drop, syndromes_length]; omega
    · rw [← h.map_syndrome hφ (by omega)]
      simp [List.getD_eq_getElem?_getD, show k < e / 2 + 1 by omega]
  have hbasis := hφ.solutionBasis_foldl hrows
  have hlocator : (errorLocator φ w c).degree < ↑(e / 2 + 1) := by
    rw [errorLocator, Lagrange.degree_nodal]
    exact Nat.cast_lt.2 (Nat.lt_succ_of_le h.card_le)
  obtain ⟨sigma, hhead, hne, hdeg, hsol⟩ :=
    hbasis.exists_head Lagrange.nodal_ne_zero hlocator fun i _ => errorSum_errorLocator φ w c i
  refine ⟨sigma, hhead, hne, hdeg, fun j hj => ?_⟩
  have hsums : ∀ i < e - e / 2, ∑ j ∈ wrongPositions w c, φ (errorAt w c j) *
      (lowPoly φ sigma).eval (φ (locatorOf w.length j)) * φ (locatorOf w.length j) ^ i = 0 := fun i hi => by
    rw [← hsol i hi, errorSum_apply]
    exact Finset.sum_congr rfl fun j _ => mul_right_comm ..
  have hcard : (wrongPositions w c).card ≤ e - e / 2 := by have := h.card_le; omega
  have hzero := eq_zero_of_powerSums hsums (h.locator_injOn_wrong hφ) hcard hj
  exact (mul_eq_zero.1 hzero).resolve_left (hφ.map_xor_eq_zero_iff.not.2 (Finset.mem_filter.1 hj).2)

end WithinBound

/-! ## Positions and values of the errors -/

theorem mem_errorPositions {sigma : List Byte} {n j : Nat} :
    j ∈ errorPositions sigma n ↔ j < n ∧ polyEval sigma.reverse (locatorOf n j) = 0 := by
  simp [errorPositions]

theorem errorPositions_nodup (sigma : List Byte) (n : Nat) : (errorPositions sigma n).Nodup :=
  List.nodup_range.filter _

namespace FieldReading

variable {K : Type} [Field K] {φ : Byte → K} (hφ : FieldReading φ)
include hφ

theorem mem_errorPositions_iff {sigma : List Byte} {n j : Nat} :
    j ∈ errorPositions sigma n ↔ j < n ∧ (lowPoly φ sigma).eval (φ (locatorOf n j)) = 0 := by
  rw [mem_errorPositions, ← hφ.map_eq_zero_iff, hφ.map_polyEval_reverse]

/-- A polynomial has no more roots among the locators than its degree. -/
theorem errorPositions_length_le {sigma : List Byte} {n t : Nat} (hn : n ≤ 255) (hne : lowPoly φ sigma ≠ 0)
    (hdeg : (lowPoly φ sigma).degree < ↑(t + 1)) : (errorPositions sigma n).length ≤ t := by
  by_contra hlen
  have hcard := List.toFinset_card_of_nodup (errorPositions_nodup sigma n)
  have hroot : ∀ j ∈ (errorPositions sigma n).toFinset, j < n ∧ (lowPoly φ sigma).eval (φ (locatorOf n j)) = 0 :=
    fun j hj => hφ.mem_errorPositions_iff.1 (List.mem_toFinset.1 hj)
  have hinj : Set.InjOn (fun j => φ (locatorOf n j)) (errorPositions sigma n).toFinset :=
    (hφ.locator_injOn hn).mono fun j hj => by
      rw [Finset.coe_range]
      exact (hroot j hj).1
  refine hne (eq_zero_of_degree_lt_of_eval_index_eq_zero _ hinj (hdeg.trans_le ?_) fun j hj => (hroot j hj).2)
  exact Nat.cast_le.2 (by omega)

/-- The product of `x - X_k` over a list of positions. -/
theorem eval_foldl_polyTimesRoot (n : Nat) (qs : List Nat) (p : List Byte) (z : K) :
    (lowPoly φ (qs.foldl (fun p k => polyTimesRoot p (locatorOf n k)) p).reverse).eval z =
      (lowPoly φ p.reverse).eval z * (qs.map fun k => z - φ (locatorOf n k)).prod := by
  induction qs generalizing p with
  | nil => simp
  | cons q qs ih =>
    rw [List.foldl_cons, ih, hφ.lowPoly_polyTimesRoot, List.map_cons, List.prod_cons, eval_mul, eval_sub, eval_X, eval_C,
      mul_assoc]

end FieldReading

theorem foldl_polyTimesRoot_length (n : Nat) (qs : List Nat) (p : List Byte) :
    (qs.foldl (fun p k => polyTimesRoot p (locatorOf n k)) p).length = p.length + qs.length := by
  induction qs generalizing p with
  | nil => rfl
  | cons q qs ih => rw [List.foldl_cons, ih, polyTimesRoot_length, List.length_cons]; omega

/-- The product of `x - X_k` over the positions of `ps` but `j`, as `errorValue` computes it. -/
def otherLocators (n : Nat) (ps : List Nat) (j : Nat) : List Byte :=
  (ps.filter (· != j)).foldl (fun p k => polyTimesRoot p (locatorOf n k)) [1]

theorem errorValue_eq (s : List Byte) (n : Nat) (ps : List Nat) (j : Nat) : errorValue s n ps j =
    gfDiv (gfDot (otherLocators n ps j).reverse s) (polyEval (otherLocators n ps j) (locatorOf n j)) := rfl

theorem otherLocators_length_le {n : Nat} {ps : List Nat} {j : Nat} (hj : j ∈ ps) :
    (otherLocators n ps j).length ≤ ps.length := by
  rw [otherLocators, foldl_polyTimesRoot_length, List.length_singleton, Nat.add_comm]
  exact List.length_filter_lt_length_iff_exists.2 ⟨j, hj, by simp⟩

namespace FieldReading

variable {K : Type} [Field K] {φ : Byte → K} (hφ : FieldReading φ)
include hφ

theorem eval_otherLocators (n : Nat) (ps : List Nat) (j : Nat) (z : K) :
    (lowPoly φ (otherLocators n ps j).reverse).eval z =
      ((ps.filter (· != j)).map fun k => z - φ (locatorOf n k)).prod := by
  rw [otherLocators, hφ.eval_foldl_polyTimesRoot]
  simp [lowPoly, show φ 1#8 = 1 from hφ.map_one]

theorem eval_otherLocators_other {n : Nat} {ps : List Nat} {j k : Nat} (hk : k ∈ ps) (hne : k ≠ j) :
    (lowPoly φ (otherLocators n ps j).reverse).eval (φ (locatorOf n k)) = 0 := by
  rw [hφ.eval_otherLocators, List.prod_eq_zero_iff, List.mem_map]
  exact ⟨k, List.mem_filter.2 ⟨hk, by simpa using hne⟩, sub_self _⟩

theorem eval_otherLocators_self {n : Nat} {ps : List Nat} {j : Nat} (hn : n ≤ 255) (hlt : ∀ k ∈ ps, k < n) (hj : j < n) :
    (lowPoly φ (otherLocators n ps j).reverse).eval (φ (locatorOf n j)) ≠ 0 := by
  rw [hφ.eval_otherLocators, ne_eq, List.prod_eq_zero_iff, List.mem_map]
  rintro ⟨k, hk, hzero⟩
  obtain ⟨hk, hne⟩ := List.mem_filter.1 hk
  have hkj : k = j :=
    hφ.locator_injOn hn (by simpa using hlt k hk) (by simpa using hj) (sub_eq_zero.1 hzero).symm
  exact absurd hkj (bne_iff_ne.1 hne)

end FieldReading

namespace WithinBound

variable {w c : List Byte} {e : Nat} (h : WithinBound w c e)
include h

/-- Where the positions `ps` include all wrong ones, the product over the others picks the error at `j` out of the syndromes. -/
theorem map_gfDot_otherLocators {K : Type} [Field K] {φ : Byte → K} (hφ : FieldReading φ) {ps : List Nat}
    (hlen : ps.length ≤ e) (hlt : ∀ k ∈ ps, k < w.length) (hps : ∀ k ∈ wrongPositions w c, k ∈ ps) {j : Nat} (hj : j ∈ ps) :
    φ (gfDot (otherLocators w.length ps j).reverse (syndromes w e)) = φ (errorAt w c j) *
      (lowPoly φ (otherLocators w.length ps j).reverse).eval (φ (locatorOf w.length j)) := by
  have hle : (otherLocators w.length ps j).reverse.length ≤ e := by
    rw [List.length_reverse]
    exact (otherLocators_length_le hj).trans hlen
  have hsyndromes : ∀ k < (otherLocators w.length ps j).reverse.length,
      φ ((syndromes w e).getD k 0) = errorSum φ w c (0 + k) 1 := fun k hk => by
    rw [Nat.zero_add, h.map_syndrome hφ (hk.trans_le hle)]
  rw [gfDot_comm, hφ.map_gfDot_lowPoly (errorSum_shifted φ w c) (by rwa [syndromes_length]) hsyndromes, errorSum_apply]
  simp only [pow_zero, mul_one]
  refine Finset.sum_eq_single j (fun k hk hne => ?_) fun hj' => ?_
  · rw [hφ.eval_otherLocators_other (hps k hk) hne, mul_zero]
  · rw [errorAt_eq_zero_of_notMem (hlt j hj) hj', hφ.map_zero, zero_mul]

/-- The value found at each of such positions is the error's. -/
theorem errorValue_eq_errorAt {ps : List Nat} (hlen : ps.length ≤ e) (hlt : ∀ k ∈ ps, k < w.length)
    (hps : ∀ k ∈ wrongPositions w c, k ∈ ps) {j : Nat} (hj : j ∈ ps) :
    errorValue (syndromes w e) w.length ps j = errorAt w c j := by
  obtain ⟨K, _, φ, hφ⟩ := exists_fieldReading
  have hne := hφ.eval_otherLocators_self h.short hlt (hlt j hj)
  rw [← hφ.map_polyEval] at hne
  refine hφ.bijective.1 ?_
  rw [errorValue_eq, hφ.map_gfDiv _ _ (hφ.map_eq_zero_iff.not.1 hne), h.map_gfDot_otherLocators hφ hlen hlt hps hj,
    ← hφ.map_polyEval, mul_div_cancel_right₀ _ hne]

/-- Taking the errors off at such positions gives the codeword. -/
theorem correctAt_eq {ps : List Nat} (hlen : ps.length ≤ e) (hlt : ∀ k ∈ ps, k < w.length)
    (hps : ∀ k ∈ wrongPositions w c, k ∈ ps) : correctAt w (syndromes w e) ps = c := by
  refine List.ext_getElem (by rw [correctAt_length, h.length]) fun j hj hj' => ?_
  rw [correctAt_length] at hj
  have herr := errorAt_eq_getElem hj hj'
  have hentry : (correctAt w (syndromes w e) ps)[j]'(by rwa [correctAt_length]) =
      if ps.contains j then w[j] ^^^ errorValue (syndromes w e) w.length ps j else w[j] := by simp [correctAt]
  rw [hentry]
  split
  next hmem =>
    rw [h.errorValue_eq_errorAt hlen hlt hps (List.contains_iff_mem.1 hmem), herr, ← BitVec.xor_assoc, BitVec.xor_self,
      BitVec.zero_xor]
  next hmem =>
    have hright := errorAt_eq_zero_of_notMem hj fun hwrong => hmem (List.contains_iff_mem.2 (hps j hwrong))
    exact BitVec.xor_eq_zero_iff.1 (herr ▸ hright)

/-- The candidate the syndromes point to is the codeword. -/
theorem rsCandidate_eq : rsCandidate w e = some c := by
  obtain ⟨K, _, φ, hφ⟩ := exists_fieldReading
  obtain ⟨sigma, hsigma, hne, hdeg, hroots⟩ := h.exists_locatorSolution hφ
  have hlen := hφ.errorPositions_length_le h.short hne hdeg
  rw [rsCandidate, hsigma, Option.map_some, h.correctAt_eq (by omega) (fun k hk => (mem_errorPositions.1 hk).1)]
  exact fun k hk => hφ.mem_errorPositions_iff.2 ⟨Finset.mem_range.1 (Finset.mem_filter.1 hk).1, hroots k hk⟩

theorem rsDecode_eq {k : Nat} (hlen : w.length = k + e) : rsDecode w k e = some c := by
  rw [rsDecode, if_pos hlen, h.rsCandidate_eq]
  simp [h.codeword, h.close]

end WithinBound

/-- Settles O41: an answer passed the final test, and a codeword within the bound is the candidate. -/
theorem rsDecodeIsBoundedDistance : Obligations.RsDecodeIsBoundedDistance := by
  intro w k e hlen hn c
  constructor
  · intro h
    obtain ⟨-, hcode, hclose, -⟩ := rsDecode_eq_some h
    exact ⟨rsDecode_length h, hcode, hclose⟩
  · rintro ⟨hc, hcode, hclose⟩
    exact WithinBound.rsDecode_eq ⟨hc.trans hlen.symm, hlen ▸ hn, hcode, hclose⟩ hlen

end Sys2Proof.Machine

/-! # Recovering a frame (R158 to R160, R164, R168, R169) -/

namespace Sys2Proof.Machine

theorem hamming_self (a : List Byte) : hamming a a = 0 := by
  rw [hamming_eq_card rfl, Finset.card_eq_zero]
  simp [wrongPositions]

theorem ecc_le {k : Nat} (hk : k ≤ 142) : ecc k ≤ 56 := by
  unfold ecc
  split
  · omega
  · exact max_le (by omega) (by omega)

/-- A word within the bound of an encoding decodes to it (R156). -/
theorem rsDecode_rsEncode {w d : List Byte} {e : Nat} (hn : d.length + e ≤ 255) (hlen : w.length = d.length + e)
    (hclose : hamming w (rsEncode d e) ≤ e / 2) : rsDecode w d.length e = some (rsEncode d e) :=
  (rsDecodeIsBoundedDistance w d.length e hlen hn _).2 ⟨rsEncode_length d e, isCodeword_rsEncode d e, hclose⟩

/-! ## The bytes of a frame -/

theorem frameBytes_length (c : Params) (chips : List Byte) :
    (frameBytes c chips).length = chips.length / chipsPerByte c := by
  unfold frameBytes chipsPerByte
  split
  · exact despread_length chips
  · exact (Nat.div_one _).symm

/-- Despreading gives the header and the body of a frame as it was built (R163, R164). -/
theorem frameBytes_of_frameBuild {c : Params} {q : Profile} {payload f : List Byte} (h : frameBuild c q payload = .ok f) :
    frameBytes c f = frameHeader c payload.length ++ frameBody (paddedPayload c payload) := by
  obtain ⟨-, rfl⟩ := frameBuild_eq_ok.1 h
  unfold frameBytes
  split
  · exact despread_spread _
  · rfl

@[simp] theorem frameHeader_length (c : Params) (n : Nat) : (frameHeader c n).length = headerBytes c := by
  unfold frameHeader headerBytes
  split <;> simp

/-- A spread frame is whole triples of chips (R162). -/
theorem frameBuild_dss_length {c : Params} {q : Profile} {payload f : List Byte} (h : frameBuild c q payload = .ok f)
    (hdss : c.dss = true) : f.length % 3 = 0 := by
  rw [frameBuild_length h, frameChips, chipsPerByte, if_pos hdss]
  exact Nat.mul_mod_left ..

/-! ## The length and the body -/

/-- The payload length is recovered where at most 1 byte of the header is wrong (R168, R169). -/
theorem recoverLength_eq {c : Params} {p : Fin 12} {n : Nat} {b : List Byte}
    (hacc : payloadTooLarge c (profile p) n = false) (hb : headerBytes c ≤ b.length)
    (hclose : hamming (b.take (headerBytes c)) (frameHeader c n) ≤ 1) :
    recoverLength c (profile p) b = some (if c.fixedLen = 0 then n else c.fixedLen, headerBytes c) := by
  have hmax := length_le_of_accepted hacc
  unfold recoverLength headerBytes at *
  rw [(profile_bounds p).1]
  split
  next h0 =>
    rw [if_pos h0, frameHeader, if_pos h0] at hclose
    rw [if_pos h0] at hb
    have hdecode : rsDecode (b.take 3) 1 2 = some (rsEncode [BitVec.ofNat 8 n] 2) :=
      rsDecode_rsEncode (d := [BitVec.ofNat 8 n]) (by simp) (by simpa using hb) hclose
    have hhead : ((rsEncode [BitVec.ofNat 8 n] 2).headD 0).toNat = n := by
      simp [rsEncode]; omega
    rw [if_neg (by omega), hdecode]
    dsimp only
    rw [hhead, if_neg (by omega)]
  next h0 => rw [if_neg (by omega)]

/-- The data is recovered where the body is within the bound (R168, R169). -/
theorem recoverBody_eq {b data : List Byte} {off : Nat} (hdata : data.length ≤ 140)
    (hb : b.length = off + (frameBody data).length)
    (hclose : hamming (b.drop off) (frameBody data) ≤ ecc (data.length + 2) / 2) :
    recoverBody b data.length off = some data := by
  have hecc := ecc_le (k := data.length + 2) (by omega)
  rw [frameBody_length] at hb
  have hbody : frameBody data = rsEncode (data ++ crcBytes (crc16 data)) (ecc (data.length + 2)) := by simp [frameBody]
  have hlen : (data ++ crcBytes (crc16 data)).length = data.length + 2 := by simp
  have hdecode : rsDecode (b.drop off) (data.length + 2) (ecc (data.length + 2)) = some (frameBody data) := by
    rw [hbody] at hclose ⊢
    rw [← hlen] at hclose hecc hb ⊢
    refine rsDecode_rsEncode ?_ ?_ hclose
    · rw [hlen] at hecc ⊢; omega
    · rw [List.length_drop]; omega
  have htake : (frameBody data).take data.length = data := by rw [hbody, rsEncode, List.append_assoc, List.take_left]
  have hdrop : ((frameBody data).drop data.length).take 2 = crcBytes (crc16 data) := by
    rw [hbody, rsEncode, List.append_assoc, List.drop_left, List.take_left' (crcBytes_length _)]
  unfold recoverBody
  dsimp only
  rw [if_neg (by omega), hdecode]
  simp [htake, hdrop]

/-- Settles O45: the header gives the length, the body's code the data, and its checksum holds. -/
theorem frameCorrectionBound : Obligations.FrameCorrectionBound := by
  intro c p payload f chips hc hbuild hlen h k hheader hbody
  obtain ⟨hacc, -⟩ := frameBuild_eq_ok.1 hbuild
  have hmax := length_le_of_accepted hacc
  have hpad := paddedPayload_length hacc
  have hframe := frameBytes_of_frameBuild hbuild
  have hb : (frameBytes c chips).length = headerBytes c + (frameBody (paddedPayload c payload)).length := by
    rw [frameBytes_length, hlen, ← frameBytes_length, hframe, List.length_append, frameHeader_length]
  have hdss : (c.dss && chips.length % 3 != 0) = false := by
    cases hd : c.dss
    · rfl
    · simp [hlen, frameBuild_dss_length hbuild hd]
  have hh : h = headerBytes c := rfl
  rw [hh, hframe, List.take_left' (frameHeader_length ..)] at hheader
  rw [hh, hframe, List.drop_left' (frameHeader_length ..)] at hbody
  have hl := recoverLength_eq hacc (by omega) hheader
  rw [← hpad] at hl
  have hdata : (paddedPayload c payload).length ≤ 140 := by rw [hpad]; split <;> omega
  have hk : k = (paddedPayload c payload).length + 2 := by rw [hpad]; rfl
  rw [recoverFrame, if_neg (by have := frameBuild_length_le hc hbuild; simp only [Config.maxFrameChips]; omega),
    if_neg (by simp [hdss])]
  simp only [hl]
  exact recoverBody_eq hdata hb (hk ▸ hbody)

/-- Settles O44: a frame as it was built has no wrong byte. -/
theorem frameRoundTrip : Obligations.FrameRoundTrip := by
  intro c p payload f hc hbuild
  exact frameCorrectionBound c p payload f f hc hbuild rfl (by simp [hamming_self]) (by simp [hamming_self])

end Sys2Proof.Machine

/-! # The synthesizer's commands: symbols and waveforms stored (R202, R203, R209 to R211) -/

namespace Sys2Proof.Machine

/-- The symbols of all chips: two nibbles each, low first, or the chips themselves (R202). -/
theorem symbolMap_eq (q : Profile) (chips : List Byte) :
    symbolMap q chips = if q.tones = 1 then chips.flatMap fun c => [c &&& 0x0F#8, c >>> 4] else chips := by
  unfold symbolMap chipSymbols
  split
  · rfl
  · exact List.flatMap_singleton' chips

/-- Settles O33: the transfer's function is `SymbolMap`, which cannot fail. -/
theorem symbolMapResult : Obligations.SymbolMapResult := by
  intro p s h hdma chips out
  obtain ⟨_, hexec, -⟩ := execSymbolMap_of_none h
  have hmap : symbolMap (profile p) chips = out := symbolMap_eq ..
  have hout : out.length = s.srcLen * 2 / (profile p).tones := by
    rw [← hmap, symbolMap_length, inputBytes_length]; rfl
  exact ⟨hout, hexec.trans
    (transfer_ok hdma.apart hdma.readable (congrArg Except.ok hmap) (hout ▸ hdma.writable))⟩

theorem toNat_lowNibble (x : Byte) : (x &&& 0x0F#8).toNat = x.toNat % 16 := by
  rw [BitVec.toNat_and]; exact Nat.and_two_pow_sub_one_eq_mod x.toNat 4

theorem toNat_highNibble (x : Byte) : (x >>> 4).toNat = x.toNat / 16 := by
  rw [BitVec.toNat_ushiftRight, Nat.shiftRight_eq_div_pow]

/-- The bins of a symbol as numbers: its low nibble's in group 0, and dual-tone its high nibble's in group 1 (R132, R203). -/
theorem symbolBins_eq (q : Profile) (x : Byte) : symbolBins q x =
    if q.tones = 1 then [q.baseBin + q.spacing * (x.toNat % 16)]
    else [q.baseBin + q.spacing * (x.toNat % 16), q.baseBin + q.spacing * (16 + x.toNat / 16)] := by
  simp only [symbolBins, toneBin, toNat_lowNibble, toNat_highNibble, Nat.mul_zero, Nat.zero_add, Nat.mul_one]

/-- Settles O34: the transfer's function renders the schedule, and cannot fail. -/
theorem renderResult : Obligations.RenderResult := by
  intro p vol s h hdma q bins windows out
  obtain ⟨_, hexec, -⟩ := execRender_of_none h
  have hbins : symbolBins q = bins := funext (symbolBins_eq q)
  have hrender : renderBytes s.cfg q vol (inputBytes s s.srcLen) = out := by
    simp only [renderBytes, sampleBuffer, renderSamples, schedule, hbins]; rfl
  have hout : out.length = 1024 * (32 + s.srcLen * q.windows) * s.cfg.sampleBytes := by
    rw [← hrender, renderBytes_length, inputBytes_length]; rfl
  exact ⟨hout, hexec.trans
    (transfer_ok hdma.apart hdma.readable (congrArg Except.ok hrender) (hout ▸ hdma.writable))⟩

/-- Settles O35: a payload of the length that was checked has a frame, whose waveform is the transfer's output. (The name
`encodeResult` is the host call's.) -/
theorem encodeCommandResult : Obligations.EncodeResult := by
  intro p vol s h q n hdma
  obtain ⟨_, hexec, hsize, -⟩ := execEncode_of_none h
  rw [← inputBytes_length s s.srcLen] at hsize
  obtain ⟨out, hencode⟩ := encodeBytes_ok (vol := vol) hsize
  obtain ⟨chips, hbuild, hout, hlen⟩ := encodeBytes_eq_ok hencode
  rw [inputBytes_length] at hlen
  rw [hout] at hencode hlen
  exact ⟨chips, hbuild, hlen, hexec.trans
    (transfer_ok hdma.apart hdma.readable hencode (by rw [hlen]; exact hdma.writable))⟩

end Sys2Proof.Machine

/-! # ENCODE and its three steps (R212) -/

namespace Sys2Proof.Machine

/-! ## What a command that finished with OK has stored -/

/-- `out` was stored at `dstAddr`, and RESULT_LEN is its length (R83). -/
structure StoredAs (out : List Byte) (s t : State) : Prop where
  eq : t = storedOutput out s
  len : t.resultLen.toNat = out.length

namespace StoredAs

variable {out : List Byte} {s t : State} (h : StoredAs out s t)
include h

theorem cfg : t.cfg = s.cfg := by rw [h.eq]; rfl

/-- The host finds the output at `dstAddr` (R83). -/
theorem load : t.mem.load s.dst t.resultLen.toNat = out := by
  rw [h.len, h.eq]; exact load_store ..

/-- A command whose input buffer is the output reads it. -/
theorem reread {o : Operands} (hsrc : o.srcAddr = s.latch.ops.dstAddr) (hlen : o.srcLen = t.resultLen) :
    inputBytes (t.relatch o) (t.relatch o).srcLen = out := by
  show t.mem.load o.srcAddr.toNat o.srcLen.toNat = out
  rw [hsrc, hlen]; exact h.load

end StoredAs

/-- A storing command that finished with OK stored what its function makes of the input. -/
theorem protoCommand_ok {p : Nat} {checks : Profile → List (Bool × Code)} {n : Nat}
    {f : Profile → List Byte → Except Code (List Byte)} {s t : State} (hchecks : ∀ q, ∀ x ∈ checks q, x.2 ≠ .ok)
    (hf : ∀ q bs c, f q bs = .error c → c ≠ .ok) (h : protoCommand (profile? p) checks n f s = .next t)
    (hok : t.err = .ok) :
    ∃ hp : p < 12, ∃ out, f (profile ⟨p, hp⟩) (inputBytes s n) = .ok out ∧ t = storedOutput out s := by
  obtain ⟨c, hc, rfl⟩ | ⟨out, ⟨hp, hout⟩, rfl⟩ := protoCommand_next
    (P := fun out => ∃ hp : p < 12, f (profile ⟨p, hp⟩) (inputBytes s n) = .ok out) hchecks hf
    (fun hp _ out hout => ⟨hp, hout⟩) h
  · exact absurd hok hc
  · exact ⟨hp, out, hout, rfl⟩

/-- RESULT_LEN of a storing command other than FRAME_RECOVER (R83). -/
theorem exec_resultLen {i : Instr} {s t : State} (hi : usesOutput i = true) (hrec : ∀ p, i ≠ .frameRecover p)
    (h : exec i s = .next t) (hok : t.err = .ok) : t.resultLen.toNat = outputSize i s := by
  obtain ⟨-, -, -, -, -, -, -, hsize⟩ := storingCommandFrame i s t hi h
  exact hsize hok hrec

theorem execFrameBuild_ok {p : Nat} {s t : State} (h : exec (.frameBuild p) s = .next t) (hok : t.err = .ok) :
    ∃ hp : p < 12, ∃ chips, frameBuild s.cfg (profile ⟨p, hp⟩) (inputBytes s s.srcLen) = .ok chips ∧
      StoredAs chips s t := by
  have hlen := exec_resultLen rfl (by simp) h hok
  obtain ⟨hp, chips, hbuild, ht⟩ := protoCommand_ok (by simp) (fun q bs c => frameBuild_error_ne_ok)
    (show protoCommand (profile? p) _ s.srcLen _ s = .next t from h) hok
  refine ⟨hp, chips, hbuild, ht, ?_⟩
  rw [hlen, frameBuild_length hbuild, inputBytes_length, outputSize_frameBuild]

theorem execSymbolMap_ok {p : Nat} {s t : State} (h : exec (.symbolMap p) s = .next t) (hok : t.err = .ok) :
    ∃ hp : p < 12, StoredAs (symbolMap (profile ⟨p, hp⟩) (inputBytes s s.srcLen)) s t := by
  have hlen := exec_resultLen rfl (by simp) h hok
  obtain ⟨hp, out, hout, ht⟩ := protoCommand_ok (by simp) (by simp)
    (show protoCommand (profile? p) _ s.srcLen _ s = .next t from h) hok
  obtain rfl := Except.ok.inj hout
  refine ⟨hp, ht, ?_⟩
  rw [hlen, symbolMap_length, inputBytes_length, outputSize_symbolMap hp]

theorem execRender_ok {p vol : Nat} {s t : State} (h : exec (.render p vol) s = .next t) (hok : t.err = .ok) :
    ∃ hp : p < 12, StoredAs (renderBytes s.cfg (profile ⟨p, hp⟩) vol (inputBytes s s.srcLen)) s t := by
  have hlen := exec_resultLen rfl (by simp) h hok
  obtain ⟨hp, out, hout, ht⟩ := protoCommand_ok (by simp) (by simp)
    (show protoCommand (profile? p) _ s.srcLen _ s = .next t from h) hok
  obtain rfl := Except.ok.inj hout
  refine ⟨hp, ht, ?_⟩
  rw [hlen, renderBytes_length, inputBytes_length, outputSize_render hp]

theorem execEncode_ok {p vol : Nat} {s t : State} (h : exec (.encode p vol) s = .next t) (hok : t.err = .ok) :
    ∃ hp : p < 12, ∃ chips, frameBuild s.cfg (profile ⟨p, hp⟩) (inputBytes s s.srcLen) = .ok chips ∧
      StoredAs (renderBytes s.cfg (profile ⟨p, hp⟩) vol (symbolMap (profile ⟨p, hp⟩) chips)) s t := by
  have hlen := exec_resultLen rfl (by simp) h hok
  obtain ⟨hp, out, hout, ht⟩ := protoCommand_ok (by simp) (fun q bs c => encodeBytes_error_ne_ok)
    (show protoCommand (profile? p) _ s.srcLen _ s = .next t from h) hok
  obtain ⟨chips, hbuild, hbytes, hsize⟩ := encodeBytes_eq_ok hout
  refine ⟨hp, chips, hbuild, hbytes ▸ ht, ?_⟩
  rw [hlen, ← hbytes, hsize, inputBytes_length, outputSize_encode hp]

/-- Settles O36: each step reads what the one before stored, so the third stores the waveform of the payload's frame, as ENCODE
does. -/
theorem encodeEqualsItsThreeSteps : Obligations.EncodeEqualsItsThreeSteps := by
  intro p vol s u1 u2 u3 t o1 o2 o3 o h1 ok1 h2 ok2 h3 ok3 h4 ok4 hsrc hlen hsrc2 hlen2 hsrc3 hlen3
  obtain ⟨hp, chips, hbuild, st1⟩ := execFrameBuild_ok h1 ok1
  obtain ⟨_, st2⟩ := execSymbolMap_ok h2 ok2
  obtain ⟨_, st3⟩ := execRender_ok h3 ok3
  obtain ⟨_, chips', hbuild', st4⟩ := execEncode_ok h4 ok4
  have hpayload : inputBytes (s.relatch o) (s.relatch o).srcLen = inputBytes (s.relatch o1) (s.relatch o1).srcLen := by
    show s.mem.load o.srcAddr.toNat o.srcLen.toNat = s.mem.load o1.srcAddr.toNat o1.srcLen.toNat
    rw [hsrc, hlen]
  have hcfg : (u2.relatch o3).cfg = s.cfg := st2.cfg.trans st1.cfg
  obtain rfl : chips = chips' := by
    rw [hpayload] at hbuild'
    exact Except.ok.inj (hbuild.symm.trans hbuild')
  rw [st1.reread hsrc2 hlen2] at st2
  rw [st2.reread hsrc3 hlen3, hcfg] at st3
  exact ⟨BitVec.eq_of_toNat_eq (st4.len.trans st3.len.symm), st4.load.trans st3.load.symm⟩

end Sys2Proof.Machine

/-! # The samples of a waveform (R204) -/

namespace Sys2Proof.Machine

/-- The sum over a window's bins is bounded by the ROM's amplitude times their number. -/
theorem sum_sineAt_natAbs_le (bins : List Nat) (n : Nat) :
    ((bins.map fun b => sineAt (b * n)).sum).natAbs ≤ bins.length * 32767 := by
  induction bins with
  | nil => simp
  | cons b bins ih =>
    have hb := abs_le.1 (sineRom_abs_le (b * n % 1024))
    rw [List.map_cons, List.sum_cons, List.length_cons, sineAt]
    omega

/-- The mean of the bins' entries is no larger than the ROM's amplitude, and is scaled by the volume (R204). -/
theorem sampleInt_natAbs_le (bins : List Nat) (vol n : Nat) : (sampleInt bins vol n).natAbs ≤ vol * 32767 / 100 := by
  rw [sampleInt, Int.natAbs_tdiv, Int.natAbs_mul, Int.natAbs_natCast]
  have hden : ((100 : Int) * bins.length).natAbs = bins.length * 100 := by omega
  have hsum := sum_sineAt_natAbs_le bins n
  generalize ((bins.map fun b => sineAt (b * n)).sum).natAbs = total at hsum ⊢
  have hnum : vol * total ≤ bins.length * (vol * 32767) := by
    calc vol * total ≤ vol * (bins.length * 32767) := Nat.mul_le_mul_left _ hsum
      _ = bins.length * (vol * 32767) := by ring
  calc vol * total / ((100 : Int) * bins.length).natAbs
      _ = vol * total / bins.length / 100 := by rw [hden, Nat.div_div_eq_div_mul]
      _ ≤ vol * 32767 / 100 := Nat.div_le_div_right (Nat.div_le_of_le_mul hnum)

/-- Up to full volume a sample is its own 16-bit value. -/
theorem toInt_ofInt_sampleInt (bins : List Nat) {vol : Nat} (hvol : vol ≤ 100) (n : Nat) :
    (BitVec.ofInt 16 (sampleInt bins vol n)).toInt = sampleInt bins vol n := by
  have h := sampleInt_natAbs_le bins vol n
  rw [BitVec.toInt_ofInt, Int.bmod_eq_of_le] <;> omega

/-- Sample `n` of window `w` stands at `1024 * w + n`: windows are of 1024 samples (R204). -/
theorem renderSamples_getElem? {q : Profile} {sy : List Byte} {w n : Nat} {bins : List Nat} (vol : Nat) (hn : n < 1024)
    (h : (schedule q sy)[w]? = some bins) :
    (renderSamples q vol sy)[1024 * w + n]? = some (BitVec.ofInt 16 (sampleInt bins vol n)) := by
  rw [renderSamples, getElem?_flatMap_const (k := 1024) _ _ (fun bl _ => windowSamples_length vol bl) hn, h]
  simp [windowSamples, hn]

/-- Settles O47: a waveform is windows of 1024 samples, each of them the integer of R204, which 16 bits hold. -/
theorem renderedSampleValues : Obligations.RenderedSampleValues := by
  intro p vol sy hvol
  refine ⟨?_, fun w n hn bl hbl => ⟨_, renderSamples_getElem? vol hn hbl, ?_⟩⟩
  · rw [renderSamples_length, schedule_length]; rfl
  · rw [toInt_ofInt_sampleInt bl hvol n]
    refine ⟨rfl, ?_⟩
    have h := sampleInt_natAbs_le bl vol n
    rw [Int.tdiv_eq_ediv_of_nonneg (by omega), Int.abs_eq_natAbs]
    exact_mod_cast h

end Sys2Proof.Machine

/-! # Powers and SPECTRUM (R241, R242, R244) -/

namespace Sys2Proof.Machine

/-- Settles O48: the sine ROM's amplitude bounds both correlations. -/
theorem powerBound : Obligations.PowerBound := fun _ b hw => power_lt_two_pow_51 hw b

/-- A correlation as a sum over sample numbers (R241). -/
theorem correlate_eq_sum_range (wave : Nat → Int) (b : Nat) (w : List Sample) :
    correlate wave b w = ((List.range w.length).map fun n => (w.getD n 0).toInt * wave (b * n)).sum := by
  rw [correlate]
  congr 1
  refine List.ext_getElem (by simp) fun n _ hn => ?_
  simp only [List.length_map, List.length_range] at hn
  simp [hn]

/-- The power as an integer: both parts are squares (R241). -/
theorem power_eq_sq_add_sq (w : List Sample) (b : Nat) :
    (power w b : Int) = (correlate cosineAt b w / 2 ^ 15) ^ 2 + (-correlate sineAt b w / 2 ^ 15) ^ 2 := by
  have hpow : power w b = (asr15 (correlate cosineAt b w) * asr15 (correlate cosineAt b w)
    + asr15 (-correlate sineAt b w) * asr15 (-correlate sineAt b w)).toNat := rfl
  rw [hpow, Int.toNat_of_nonneg (add_nonneg (mul_self_nonneg _) (mul_self_nonneg _)), pow_two, pow_two]
  rfl

theorem sampleBytes_eq (c : Params) : c.sampleBytes = 2 ∨ c.sampleBytes = 4 := by
  unfold Params.sampleBytes
  split
  · exact .inl rfl
  · exact .inr rfl

/-- The first samples of an input buffer's bytes are the first ones FEED takes (R76, R77, R78). -/
theorem samplesOf_inputBytes {s : State} {n : Nat} (h : n * s.cfg.sampleBytes ≤ s.srcLen) :
    samplesOf s.cfg n (inputBytes s (n * s.cfg.sampleBytes)) = (fedSamples s).take n := by
  have hss := sampleBytes_eq s.cfg
  have hn : n ≤ s.srcLen / s.cfg.sampleBytes := (Nat.le_div_iff_mul_le (by omega)).2 h
  refine List.ext_getElem (by simp [samplesOf, fedSamples, hn]) fun i hi _ => ?_
  simp only [samplesOf, List.length_map, List.length_range] at hi
  simp only [samplesOf, fedSamples, List.getElem_map, List.getElem_range, List.getElem_take]
  congr 1
  refine List.map_congr_left fun j hj => ?_
  have hin : i * s.cfg.sampleBytes + j < n * s.cfg.sampleBytes := by
    have hj := List.mem_range.1 hj
    calc i * s.cfg.sampleBytes + j < (i + 1) * s.cfg.sampleBytes := by rw [Nat.succ_mul]; omega
      _ ≤ n * s.cfg.sampleBytes := Nat.mul_le_mul_right _ hi
  simp [inputBytes, Memory.load, hin, Nat.add_assoc]

/-- Loading inside what was stored gives that part of it. -/
theorem load_store_inside (m : Memory) (a : Nat) {bs : List Byte} {i n : Nat} (h : i + n ≤ bs.length) :
    (m.store a bs).load (a + i) n = (bs.drop i).take n := by
  refine List.ext_getElem (by simp; omega) fun j hj _ => ?_
  rw [load_length] at hj
  rw [getElem_load, Nat.add_assoc, read_store_inside m a bs (by omega), List.getElem_take, List.getElem_drop]

/-- The eight bytes of bin `b` in what SPECTRUM writes (R79). -/
theorem spectrumBytes_slice (w : List Sample) {b : Nat} (hb : b ≤ 512) :
    ((spectrumBytes w).drop (8 * b)).take 8 = leBytes 8 (power w b) := by
  refine List.ext_getElem? fun j => ?_
  by_cases hj : j < 8
  · rw [List.getElem?_take_of_lt hj, List.getElem?_drop, spectrumBytes,
      getElem?_flatMap_const (k := 8) _ _ (fun x _ => leBytes_length 8 _) hj,
      List.getElem?_range (Nat.lt_succ_of_le hb)]
    rfl
  · rw [List.getElem?_eq_none (by simp; omega), List.getElem?_eq_none (by simp; omega)]

/-- Settles O37: the transfer's function is the power at each bin of the first 1024 samples, and 64 bits hold each. -/
theorem spectrumResult : Obligations.SpectrumResult := by
  intro s h hdma
  obtain ⟨hexec, hsize, -⟩ := execSpectrum_of_none h
  have hsamples := samplesOf_inputBytes hsize
  have hwin : ((fedSamples s).take 1024).length = 1024 := by simp [← hsamples, samplesOf]
  have hout := spectrumBytes_length ((fedSamples s).take 1024)
  refine ⟨spectrumBytes ((fedSamples s).take 1024), hout,
    hexec.trans (transfer_ok hdma.apart hdma.readable (congrArg (fun w => Except.ok (spectrumBytes w)) hsamples)
      (hout ▸ hdma.writable)), ?_⟩
  intro b hb w c d stored
  have hstored : stored = power ((fedSamples s).take 1024) b := by
    have hlt := power_lt_two_pow_51 hwin.le b
    show leNat ((s.mem.store s.dst (spectrumBytes _)).load _ 8) = _
    rw [load_store_inside s.mem s.dst (by omega), spectrumBytes_slice _ hb, leNat_leBytes]
    exact Nat.mod_eq_of_lt (hlt.trans (by norm_num))
  have hsum (wave : Nat → Int) : correlate wave b ((fedSamples s).take 1024) =
      ((List.range 1024).map fun n => w n * wave (b * n)).sum := by
    rw [correlate_eq_sum_range, hwin]
    refine congrArg List.sum (List.map_congr_left fun n hn => ?_)
    simp only [w, List.getD_eq_getElem?_getD, List.getElem?_take_of_lt (List.mem_range.1 hn)]
  refine ⟨?_, hstored⟩
  rw [hstored, power_eq_sq_add_sq, hsum, hsum]
  rfl

end Sys2Proof.Machine

/-! # Listening: the strongest start marker (R243, R246) -/

namespace Sys2Proof.Machine

theorem markerOn_iff (w : List Sample) (q : Profile) : markerOn w q = true ↔
    3 * power w q.markerEnd < power w q.markerStart ∧ 2 ^ 24 ≤ power w q.markerStart := by
  simp [markerOn, Config.markerRatio, Config.markerMinPower]

/-- `q`'s marker is on, and no other of `l` that is on is stronger, or as strong with a lower id (R246). -/
structure StrongestMarker (w : List Sample) (l : List (Fin 12)) (q : Fin 12) : Prop where
  mem : q ∈ l
  on : markerOn w (profile q) = true
  best : ∀ r ∈ l, markerOn w (profile r) = true →
    power w (profile r).markerStart ≤ power w (profile q).markerStart ∧
      (power w (profile r).markerStart = power w (profile q).markerStart → q ≤ r)

theorem StrongestMarker.unique {w : List Sample} {l : List (Fin 12)} {q r : Fin 12} (hq : StrongestMarker w l q)
    (hr : StrongestMarker w l r) : q = r := by
  obtain ⟨hle, hid⟩ := hq.best r hr.mem hr.on
  obtain ⟨hge, hid'⟩ := hr.best q hq.mem hq.on
  exact le_antisymm (hid (le_antisymm hle hge)) (hid' (le_antisymm hge hle))

/-- A profile of a higher id that is no stronger does not take over. -/
theorem StrongestMarker.append {w : List Sample} {l : List (Fin 12)} {b q : Fin 12} (h : StrongestMarker w l b)
    (hid : b < q)
    (hq : markerOn w (profile q) = true → power w (profile q).markerStart ≤ power w (profile b).markerStart) :
    StrongestMarker w (l ++ [q]) b :=
  ⟨List.mem_append_left _ h.mem, h.on,
    List.forall_mem_append.2 ⟨h.best, List.forall_mem_singleton.2 fun hon => ⟨hq hon, fun _ => hid.le⟩⟩⟩

/-- A profile stronger than all before it is the strongest. -/
theorem strongestMarker_of_stronger {w : List Sample} {l : List (Fin 12)} {q : Fin 12}
    (hon : markerOn w (profile q) = true)
    (h : ∀ r ∈ l, markerOn w (profile r) = true → power w (profile r).markerStart < power w (profile q).markerStart) :
    StrongestMarker w (l ++ [q]) q :=
  ⟨by simp, hon, List.forall_mem_append.2
    ⟨fun r hr hron => ⟨(h r hr hron).le, fun he => absurd he (h r hr hron).ne⟩,
      List.forall_mem_singleton.2 fun _ => ⟨le_rfl, fun _ => le_rfl⟩⟩⟩

/-- What a candidate says of the profiles tested so far. -/
def BestSoFar (w : List Sample) (l : List (Fin 12)) : Option (Fin 12) → Prop
  | none => ∀ r ∈ l, markerOn w (profile r) = false
  | some q => StrongestMarker w l q

/-- Testing a profile of a higher id keeps the candidate the best. -/
theorem BestSoFar.betterMarker {w : List Sample} {l : List (Fin 12)} {best : Option (Fin 12)} (h : BestSoFar w l best)
    {q : Fin 12} (hq : ∀ r ∈ l, r < q) : BestSoFar w (l ++ [q]) (betterMarker w best q) := by
  unfold Machine.betterMarker
  cases best with
  | none =>
    split
    next hon => exact strongestMarker_of_stronger hon fun r hr hron => by simp [h r hr] at hron
    next hoff => exact List.forall_mem_append.2 ⟨h, List.forall_mem_singleton.2 (by simpa using hoff)⟩
  | some b =>
    dsimp only
    split
    next hon =>
      split
      next hlt => exact strongestMarker_of_stronger hon fun r hr hron => (h.best r hr hron).1.trans_lt hlt
      next hle => exact h.append (hq b h.mem) fun _ => not_lt.1 hle
    next hoff => exact h.append (hq b h.mem) fun hon => absurd hon hoff

/-- Profiles tested in the order of their ids leave the best of them (R246). -/
theorem bestSoFar_foldl (w : List Sample) {l : List (Fin 12)} (hl : l.Pairwise (· < ·)) :
    BestSoFar w l (l.foldl (betterMarker w) none) := by
  induction l using List.reverseRecOn with
  | nil => simp [BestSoFar]
  | append_singleton l q ih =>
    obtain ⟨hl, -, hq⟩ := List.pairwise_append.1 hl
    rw [List.foldl_append]
    exact (ih hl).betterMarker fun r hr => hq r hr q (by simp)

theorem bestMarker_bestSoFar (w : List Sample) : BestSoFar w (List.finRange 12) (bestMarker w) :=
  bestSoFar_foldl w (List.pairwise_lt_finRange 12)

theorem bestMarker_eq_none {w : List Sample} (h : ∀ q : Fin 12, markerOn w (profile q) = false) :
    bestMarker w = none := by
  have hbest := bestMarker_bestSoFar w
  cases hb : bestMarker w with
  | none => rfl
  | some q =>
    rw [hb] at hbest
    exact absurd hbest.on (by simp [h q])

theorem bestMarker_eq_some {w : List Sample} {q : Fin 12} (h : StrongestMarker w (List.finRange 12) q) :
    bestMarker w = some q := by
  have hbest := bestMarker_bestSoFar w
  cases hb : bestMarker w with
  | none =>
    rw [hb] at hbest
    exact absurd h.on (by simp [hbest q h.mem])
  | some r =>
    rw [hb] at hbest
    rw [h.unique hbest]

theorem windowStep_of_listening {s : State} (hp : s.dec.phase = .listening) (w : List Sample) :
    windowStep w s = listenStep w s := if_pos hp

theorem listenStep_of_no_marker {w : List Sample} (h : ∀ q : Fin 12, markerOn w (profile q) = false) (s : State) :
    listenStep w s = s := by rw [listenStep, bestMarker_eq_none h]

/-- Settles O50: the candidate is the best of all profiles, and there is only one best. -/
theorem listenPicksTheStrongestMarker : Obligations.ListenPicksTheStrongestMarker := by
  refine ⟨markerOn_iff, fun w s hp => ⟨fun h => ?_, fun q hon hbest => ?_⟩⟩
  · rw [windowStep_of_listening hp, listenStep_of_no_marker h]
  · rw [windowStep_of_listening hp, listenStep,
      bestMarker_eq_some ⟨List.mem_finRange q, hon, fun r _ => hbest r⟩]

end Sys2Proof.Machine

/-! # Synchronizing and the timeout (R247 to R249) -/

namespace Sys2Proof.Machine

theorem syncStep_of_no_marker {w : List Sample} {s : State} (h : markerOn w s.lockedProfile = false) :
    syncStep w s = { s with dec := s.dec.machineReset } := if_neg (by simp [h])

theorem syncStep_of_marker {w : List Sample} {s : State} (h : markerOn w s.lockedProfile = true) :
    syncStep w s = if s.dec.markerCount + 1 = 16 then beginRecording (countMarker s) else countMarker s := if_pos h

/-- The chips of a header: three frame bytes, 3 chips each when spread (R162, R249). -/
theorem headerChips_eq (c : Params) : 3 * chipsPerByte c = if c.dss = true then 9 else 3 := by
  unfold chipsPerByte; split <;> rfl

/-- Settles O51: the cases of `SyncStep`. -/
theorem synchronizingCountsMarkers : Obligations.SynchronizingCountsMarkers := by
  intro w s
  refine ⟨syncStep_of_no_marker, fun hon hcount => ?_, fun hon hcount => ?_⟩
  · rw [syncStep_of_marker hon, if_neg (by omega)]
    rfl
  · intro n
    have hn : n = symbolCount s.lockedProfile
        (if 0 < s.cfg.fixedLen then frameChips s.cfg s.cfg.fixedLen else 3 * chipsPerByte s.cfg) := by
      rw [headerChips_eq]; rfl
    have h16 : s.dec.markerCount + 1 = 16 := by omega
    rw [syncStep_of_marker hon, if_pos h16, hn, ← h16]
    rfl

/-- The window count saturates (R52). -/
theorem windowsAfter_eq (n : Word) : windowsAfter n = BitVec.ofNat 32 (min (n.toNat + 1) (2 ^ 32 - 1)) := by
  have hlt := n.isLt
  have h1 : (1 : Word).toNat = 1 := rfl
  refine BitVec.eq_of_toNat_eq ?_
  rw [windowsAfter, BitVec.toNat_ofNat]
  split
  · rw [BitVec.toNat_add, h1]; omega
  · omega

theorem publishedData_nil : publishedData [] = Vector.replicate 144 0 := by
  ext k hk
  simp [publishedData]

/-- What a failure publishes (R262). -/
theorem publish_failure (c : Code) (s : State) : publish .failure c [] s = { s with
    rx := { s.rx with status := .failure, code := c, len := 0, data := Vector.replicate 144 0, seq := s.rx.seq + 1 },
    intStatus := s.intStatus ||| 0b01000#5, dec := s.dec.machineReset } := by
  rw [← publishedData_nil]; rfl

/-- The timeout in numbers (R247). -/
theorem timedOut_iff (timeout n : Word) : timedOut timeout n = true ↔ timeout ≠ 0 ∧ timeout.toNat < n.toNat := by
  simp [timedOut, BitVec.lt_def]

/-- Settles O52: a window outside `Listening` is counted, and then the timeout decides. -/
theorem timeoutPublishesAFailure : Obligations.TimeoutPublishesAFailure := by
  intro w s hp n counted
  have hcount : countWindow s = counted := by rw [countWindow, windowsAfter_eq]
  have hn : counted.dec.windowsSince.toNat = n := by
    show (BitVec.ofNat 32 n).toNat = n
    rw [BitVec.toNat_ofNat]; omega
  have hstep : windowStep w s = if timedOut s.latch.ops.timeout counted.dec.windowsSince = true
      then publish .failure .decodeSyncTimeout [] counted
      else if s.dec.phase = .synchronizing then syncStep w counted else recordStep w counted := by
    rw [windowStep, if_neg hp, hcount]; rfl
  rw [hstep]
  refine ⟨fun h0 hlt => ?_, fun h => if_neg ?_⟩
  · rw [if_pos ((timedOut_iff ..).2 ⟨h0, hn.symm ▸ hlt⟩), publish_failure]
    rfl
  · rw [timedOut_iff, hn]
    rintro ⟨h0, hlt⟩
    rcases h with h | h
    · exact h0 h
    · omega

end Sys2Proof.Machine

/-! # Recording: powers, slices, symbols (R250 to R252) -/

namespace Sys2Proof.Machine

/-- A value is as strong as any other of its group. -/
def IsStrongest (a : Vector Acc 16) (v : Fin 16) : Prop := ∀ u : Fin 16, a[u].toNat ≤ a[v].toNat

theorem exists_isStrongest (a : Vector Acc 16) : ∃ v, IsStrongest a v :=
  Finite.exists_max fun v : Fin 16 => a[v].toNat

/-- The slice finds the first strongest value, and there is one (R251). -/
theorem strongest_spec (a : Vector Acc 16) :
    IsStrongest a (strongest a) ∧ ∀ v, IsStrongest a v → strongest a ≤ v := by
  have htest (v : Fin 16) : ((List.finRange 16).all fun u => decide (a[u] ≤ a[v])) = true ↔ IsStrongest a v := by
    simp [IsStrongest, List.all_eq_true, BitVec.le_def]
  obtain ⟨m, hm⟩ := exists_isStrongest a
  unfold strongest
  cases hfind : (List.finRange 16).find? fun v => (List.finRange 16).all fun u => decide (a[u] ≤ a[v]) with
  | none => exact absurd ((htest m).2 hm) (List.find?_eq_none.1 hfind m (List.mem_finRange m))
  | some v =>
    obtain ⟨hv, before, after, hsplit, hbefore⟩ := List.find?_eq_some_iff_append.1 hfind
    refine ⟨(htest v).1 hv, fun u hu => le_of_not_gt fun hlt => ?_⟩
    have hsorted := List.pairwise_lt_finRange 16
    have hmem := List.mem_finRange u
    rw [hsplit] at hsorted hmem
    obtain hin | rfl | hin : u ∈ before ∨ u = v ∨ u ∈ after := by simpa using hmem
    · have := hbefore u hin
      rw [(htest u).2 hu] at this
      cases this
    · exact lt_irrefl _ hlt
    · have hvu := List.rel_of_pairwise_cons (List.pairwise_append.1 hsorted).2.1 hin
      exact lt_asymm hlt hvu

/-- One window's gain of an accumulator (R250). -/
theorem accumulate_getElem (w : List Sample) (q : Profile) (acc : Vector (Vector Acc 16) 2) (g : Fin 2) (v : Fin 16) :
    (accumulate w q acc)[g][v] =
      if g.val < q.tones then acc[g][v] + BitVec.ofNat 64 (power w (toneBin q g v)) else acc[g][v] := by
  simp [accumulate]

theorem nibble_toNat (v : Fin 16) : (nibble v).toNat = v.val := by
  rw [nibble, BitVec.toNat_ofNat]; omega

/-- Two nibbles make a chip, the low one in bits [3:0] (R252). -/
theorem nibble_append (hi lo : BitVec 4) : hi ++ lo = BitVec.ofNat 8 (lo.toNat + 16 * hi.toNat) := by
  have hlo := lo.isLt
  have hhi := hi.isLt
  refine BitVec.eq_of_toNat_eq ?_
  rw [BitVec.toNat_append, BitVec.toNat_ofNat, ← Nat.shiftLeft_add_eq_or_of_lt hlo, Nat.shiftLeft_eq]
  omega

/-- `AppendSymbol` in numbers (R252). -/
theorem sliceSymbol_eq (q : Profile) (d : Decoder) :
    sliceSymbol q d =
      let lo := (strongest d.acc[0]).val
      let hi := (strongest d.acc[1]).val
      let e := { d with acc := accZero, wis := 0, symRemaining := d.symRemaining - 1 }
      if q.tones = 2 then { e with chips := d.chips ++ [BitVec.ofNat 8 (lo + 16 * hi)] }
      else match d.pend with
        | none => { e with pend := some (BitVec.ofNat 4 lo) }
        | some low => { e with chips := d.chips ++ [BitVec.ofNat 8 (low.toNat + 16 * lo)], pend := none } := by
  unfold sliceSymbol appendSymbol
  simp only [nibble_append, nibble_toNat]
  split
  · rfl
  · cases d.pend <;> rfl

/-- Settles O53: the slice is the first strongest value, and its nibbles are numbers below 16. -/
theorem sliceTakesTheLowestStrongestTone : Obligations.SliceTakesTheLowestStrongestTone :=
  ⟨strongest_spec, fun w s => ⟨rfl, accumulate_getElem w s.lockedProfile s.dec.acc⟩,
    fun s => congrArg (fun d => { s with dec := d }) (sliceSymbol_eq s.lockedProfile s.dec), fun _ _ => rfl⟩

end Sys2Proof.Machine

/-! # What a sample's processing does besides the decoder: nothing, or one publication (R245, R262) -/

namespace Sys2Proof.Machine

/-- `s` with another published result and INT_STATUS. -/
def withResult (r : Published) (i : BitVec 5) (s : State) : State := { s with rx := r, intStatus := i }

/-- What step `f` of the decoder does at `s`, whatever RX registers and INT_STATUS hold: it changes the decoder alone,
or it publishes. -/
inductive Effect (f : State → State) (s : State) : Prop where
  | moves (d : Decoder) (eq : ∀ r i, f (withResult r i s) = { withResult r i s with dec := d })
  | publishes (status : RxStatus) (c : Code) (payload : List Byte)
      (eq : ∀ r i, f (withResult r i s) = publish status c payload (withResult r i s))

/-- A step after a change of the decoder that MachineReset undoes. -/
theorem Effect.afterMove {f g : State → State} {s : State} {d : Decoder} (hd : d.machineReset = s.dec.machineReset)
    (hg : ∀ r i, g (withResult r i s) = { withResult r i s with dec := d }) (h : Effect f { s with dec := d }) :
    Effect (fun u => f (g u)) s := by
  cases h with
  | moves e eq => exact .moves e fun r i => (congrArg f (hg r i)).trans (eq r i)
  | publishes status c payload eq =>
    refine .publishes status c payload fun r i => ((congrArg f (hg r i)).trans (eq r i)).trans ?_
    exact congrArg (fun x => { publish status c payload (withResult r i s) with dec := x }) hd

theorem listenStep_effect (w : List Sample) (s : State) : Effect (listenStep w) s := by
  cases h : bestMarker w with
  | none => exact .moves s.dec fun r i => by rw [listenStep, h]; rfl
  | some q =>
    exact .moves { s.dec with phase := .synchronizing, rxProto := q, markerCount := 1, windowsSince := 1 }
      fun r i => by rw [listenStep, h]; rfl

theorem syncStep_effect (w : List Sample) (s : State) : Effect (syncStep w) s := by
  cases hon : markerOn w s.lockedProfile with
  | false => exact .moves s.dec.machineReset fun r i => syncStep_of_no_marker (s := withResult r i s) hon
  | true =>
    have hstep (r : Published) (i : BitVec 5) := syncStep_of_marker (s := withResult r i s) hon
    by_cases hm : s.dec.markerCount + 1 = 16
    · exact .moves (beginRecording (countMarker s)).dec fun r i => (hstep r i).trans (if_pos hm)
    · exact .moves (countMarker s).dec fun r i => (hstep r i).trans (if_neg hm)

theorem demodulate_of_failed {s : State} (h : recoverFrame s.cfg s.lockedProfile s.dec.chips = none) :
    demodulate s = publish .failure .decodeFECFailure [] s := by rw [demodulate, h]; rfl

theorem demodulate_of_recovered {s : State} {payload : List Byte}
    (h : recoverFrame s.cfg s.lockedProfile s.dec.chips = some payload) :
    demodulate s = publish .success .ok payload s := by rw [demodulate, h]; rfl

theorem demodulate_effect (s : State) : Effect demodulate s := by
  cases h : recoverFrame s.cfg s.lockedProfile s.dec.chips with
  | none => exact .publishes _ _ _ fun r i => demodulate_of_failed (s := withResult r i s) h
  | some payload => exact .publishes _ _ _ fun r i => demodulate_of_recovered (s := withResult r i s) h

/-- The header a recording received (R253). -/
def receivedHeader (s : State) : Option Nat := headerDecode s.cfg (s.dec.chips.take (3 * chipsPerByte s.cfg))

/-- The symbols of the body of a frame with an `l`-byte payload (R253). -/
def bodySymbols (s : State) (l : Nat) : Word :=
  BitVec.ofNat 32 (symbolCount s.lockedProfile (frameChips s.cfg l - 3 * chipsPerByte s.cfg))

theorem headerComplete_of_failed {s : State} (h : receivedHeader s = none) :
    headerComplete s = publish .failure .decodeFECFailure [] s := by
  unfold receivedHeader at h
  rw [headerComplete, h]

/-- A header that was decoded gives a length, which may be too large (R253). -/
theorem headerComplete_of_length {s : State} {l : Nat} (h : receivedHeader s = some l) :
    headerComplete s =
      if 140 < l then publish .failure .decodeFECFailure [] s else expectBody (bodySymbols s l) s := by
  unfold receivedHeader at h
  have hmax : s.lockedProfile.maxPayload = 140 := (profile_bounds s.dec.rxProto).1
  rw [headerComplete, h, ← hmax]
  rfl

theorem headerComplete_effect (s : State) : Effect headerComplete s := by
  cases h : receivedHeader s with
  | none => exact .publishes _ _ _ fun r i => headerComplete_of_failed (s := withResult r i s) h
  | some l =>
    have hstep (r : Published) (i : BitVec 5) := headerComplete_of_length (s := withResult r i s) h
    by_cases hl : 140 < l
    · exact .publishes _ _ _ fun r i => (hstep r i).trans (if_pos hl)
    · exact .moves (expectBody (bodySymbols s l) s).dec fun r i => (hstep r i).trans (if_neg hl)

/-- A step that does at `s` what `g` does has `g`'s effect. -/
theorem Effect.congr {f g : State → State} {s : State} (h : Effect g s)
    (hfg : ∀ r i, f (withResult r i s) = g (withResult r i s)) : Effect f s := by
  cases h with
  | moves d eq => exact .moves d fun r i => (hfg r i).trans (eq r i)
  | publishes status c payload eq => exact .publishes status c payload fun r i => (hfg r i).trans (eq r i)

theorem afterSymbol_effect (s : State) : Effect afterSymbol s := by
  by_cases hr : 0 < s.dec.symRemaining
  · exact .moves s.dec fun r i => if_pos hr
  · by_cases hh : s.dec.hdrDone = true
    · exact (demodulate_effect s).congr fun r i => (if_neg hr).trans (if_pos hh)
    · exact (headerComplete_effect s).congr fun r i => (if_neg hr).trans (if_neg hh)

/-- Slicing changes what MachineReset clears only (R251, R256). -/
theorem sliceSymbol_machineReset (q : Profile) (d : Decoder) : (sliceSymbol q d).machineReset = d.machineReset := by
  obtain ⟨chips, pend, heq⟩ := sliceSymbol_others q d
  rw [heq]
  rfl

theorem recordStep_effect (w : List Sample) (s : State) : Effect (recordStep w) s := by
  by_cases hw : s.dec.wis + 1 < s.lockedProfile.windows
  · exact .moves (accumulateWindow w s).dec fun r i => if_pos hw
  · refine Effect.congr (g := fun u => afterSymbol (sliceStep (accumulateWindow w u))) ?_ fun r i => if_neg hw
    exact (afterSymbol_effect _).afterMove (d := (sliceStep (accumulateWindow w s)).dec)
      (sliceSymbol_machineReset s.lockedProfile (accumulateWindow w s).dec) fun r i => rfl

theorem countedStep_effect (w : List Sample) (s : State) : Effect (countedStep w) s := by
  by_cases ht : timedOut s.latch.ops.timeout s.dec.windowsSince = true
  · exact .publishes _ _ _ fun r i => if_pos ht
  · by_cases hp : s.dec.phase = .synchronizing
    · exact (syncStep_effect w s).congr fun r i => (if_neg ht).trans (if_pos hp)
    · exact (recordStep_effect w s).congr fun r i => (if_neg ht).trans (if_neg hp)

theorem windowStep_effect (w : List Sample) (s : State) : Effect (windowStep w) s := by
  by_cases hp : s.dec.phase = .listening
  · exact (listenStep_effect w s).congr fun r i => if_pos hp
  · refine Effect.congr (g := fun u => countedStep w (countWindow u)) ?_ fun r i => if_neg hp
    exact (countedStep_effect w _).afterMove (d := (countWindow s).dec) rfl fun r i => rfl

/-! ## The sample that publishes -/

theorem takeSample_inside {s : State} (h : s.dec.fill ≠ 1023) (x : Sample) : takeSample x s = storeSample x s :=
  if_neg h

theorem takeSample_last {s : State} (h : s.dec.fill = 1023) (x : Sample) :
    takeSample x s = windowStep (storeSample x s).dec.win.toList (storeSample x s) := if_pos h

/-- What taking a sample does, whatever RX registers and INT_STATUS hold: it changes the decoder, or it ends a window
and publishes. -/
theorem takeSample_effect (x : Sample) (s : State) :
    (∃ d, ∀ r i, takeSample x (withResult r i s) = { withResult r i s with dec := d }) ∨
      s.dec.fill = 1023 ∧ ∃ status c payload, ∀ r i,
        takeSample x (withResult r i s) = publish status c payload (storeSample x (withResult r i s)) := by
  by_cases hfill : s.dec.fill = 1023
  · have hlast (r : Published) (i : BitVec 5) := takeSample_last (s := withResult r i s) hfill x
    cases windowStep_effect (storeSample x s).dec.win.toList (storeSample x s) with
    | moves d eq => exact .inl ⟨d, fun r i => (hlast r i).trans (eq r i)⟩
    | publishes status c payload eq =>
      exact .inr ⟨hfill, status, c, payload, fun r i => (hlast r i).trans (eq r i)⟩
  · exact .inl ⟨(storeSample x s).dec, fun r i => takeSample_inside (s := withResult r i s) hfill x⟩

/-- A sample that changes RX_SEQ ended a window, and published (R245, R262). -/
theorem takeSample_publishes {x : Sample} {s : State} (h : (takeSample x s).rx.seq ≠ s.rx.seq) :
    s.dec.fill = 1023 ∧ ∃ status c payload, takeSample x s = publish status c payload (storeSample x s) := by
  obtain ⟨d, eq⟩ | ⟨hfill, status, c, payload, eq⟩ := takeSample_effect x s
  · exact absurd (congrArg (·.rx.seq) (eq s.rx s.intStatus)) h
  · exact ⟨hfill, status, c, payload, eq s.rx s.intStatus⟩

theorem publishedData_getElem (payload : List Byte) (k : Fin 144) :
    (publishedData payload)[k] = payload.getD k 0 := by
  simp [publishedData]

/-- Settles O54: the frame's and the header's end by what they decode, a sample by its effect. -/
theorem publicationEndsAWindow : Obligations.PublicationEndsAWindow := by
  refine ⟨fun s => ?_, fun x s h => ?_⟩
  · intro failed
    have hfailed : publish .failure .decodeFECFailure [] s = failed := publish_failure _ s
    refine ⟨?_, ?_⟩
    · cases hrec : recoverFrame s.cfg (profile s.dec.rxProto) s.dec.chips with
      | none => exact (demodulate_of_failed hrec).trans hfailed
      | some payload =>
        have hlen := recoverFrame_length hrec
        rw [(profile_bounds _).1] at hlen
        exact ⟨publishedData payload, demodulate_of_recovered hrec, hlen, publishedData_getElem payload⟩
    · intro chipsPer header
      have hheader : receivedHeader s = Option.map _ _ := rfl
      cases hdec : rsDecode (if s.cfg.mode.getLsbD 0 = true then despread header else header) 1 2 with
      | none => exact (headerComplete_of_failed (hheader.trans (congrArg _ hdec))).trans hfailed
      | some word =>
        rw [headerComplete_of_length (hheader.trans (congrArg _ hdec)), hfailed]
        rfl
  · obtain ⟨hfill, status, c, payload, hpub⟩ := takeSample_publishes h
    rw [hpub]
    refine ⟨hfill, ?_, rfl, rfl, fun hs => ?_, fun hs => ?_⟩
    · show s.dec.fill + 1 = 0
      rw [hfill]; rfl
    · obtain rfl : status = .success := hs
      rfl
    · obtain rfl : status = .failure := hs
      rfl

end Sys2Proof.Machine

/-! # FEED: the samples it takes, and its split (R245, R258, R261) -/

namespace Sys2Proof.Machine

/-! ## How a FEED ends -/

/-- The state FEED leaves, in R258's words. -/
theorem fedState_eq (k : Nat) (u : State) : fedState k u = { u with
    rx := { u.rx with consumed := BitVec.ofNat 32 k }, resultLen := 0,
    err := if u.dec.phase = .synchronizing ∨ u.dec.phase = .recording then .bufferUnderrun else .ok,
    intStatus := u.intStatus |||
      (if u.dec.phase = .synchronizing ∨ u.dec.phase = .recording then 0b00011#5 else 0b00001#5),
    busy := false } := by
  have hbits : completionBits (feedCode u.dec.phase) =
      if u.dec.phase = .synchronizing ∨ u.dec.phase = .recording then 0b00011#5 else 0b00001#5 := by
    unfold feedCode; split <;> rfl
  have hlen : (fedState k u).resultLen = 0 := by simp [fedState]
  rw [← hbits, ← hlen]
  rfl

/-- FEED, none of R322's checks applying, ends as its loop does. -/
theorem exec_feed_of_loop {stop : Bool} {s u : State} {k : Nat} (h : firstFailure (.feed stop) s = none)
    (hloop : feedLoop stop (inputSamples s) 0 s = some (k, u)) : exec (.feed stop) s = .next (fedState k u) := by
  obtain ⟨-, -, -, -, hexec⟩ := execFeed_of_none h
  rw [hexec, hloop]

theorem succeedsAt_iff (s : State) (j : Nat) : SucceedsAt s j ↔
    publishedSuccess (takeSamples ((fedSamples s).take j) s) (takeSamples ((fedSamples s).take (j + 1)) s) = true :=
  (publishedSuccess_iff _ _).symm

/-- Settles O38: FEED's loop is the fold over the samples it takes. -/
theorem feedResult : Obligations.FeedResult := by
  intro stop s h hr
  have hsamples := inputSamples_eq hr
  cases stop with
  | false =>
    have hloop := feedLoop_all (fedSamples s) 0 s
    rw [← hsamples, Nat.zero_add] at hloop
    refine ⟨(fedSamples s).length, le_rfl, fun _ => rfl, nofun, ?_⟩
    rw [List.take_length, exec_feed_of_loop h hloop, fedState_eq]
  | true =>
    obtain ⟨k, hk, hloop, hbefore, hlast⟩ := feedLoop_stop (fedSamples s) 0 s
    rw [← hsamples, Nat.zero_add] at hloop
    refine ⟨k, hk, nofun, fun _ => ⟨fun j hj => ?_, fun hlt => ?_⟩, ?_⟩
    · rw [succeedsAt_iff, hbefore j hj]; exact Bool.false_ne_true
    · obtain ⟨hpos, hsuccess⟩ := hlast hlt
      exact ⟨hpos, (succeedsAt_iff s (k - 1)).2 (by rwa [Nat.sub_add_cancel hpos])⟩
    · rw [exec_feed_of_loop h hloop, fedState_eq]

/-! ## RX_CONSUMED and a completion's bits do not matter to the decoder -/

/-- `t` is `s` but for RX_CONSUMED and the bits of INT_STATUS a completion sets. -/
def SameButCompletion (s t : State) : Prop :=
  ∃ n i, t = withResult { s.rx with consumed := n } i s ∧ i &&& 0b11100#5 = s.intStatus &&& 0b11100#5

theorem SameButCompletion.takeSample {s t : State} (h : SameButCompletion s t) (x : Sample) :
    SameButCompletion (takeSample x s) (takeSample x t) := by
  obtain ⟨n, i, rfl, hbits⟩ := h
  obtain ⟨d, eq⟩ | ⟨-, status, c, payload, eq⟩ := takeSample_effect x s
  · rw [eq, show Machine.takeSample x s = _ from eq s.rx s.intStatus]
    exact ⟨n, i, rfl, hbits⟩
  · rw [eq, show Machine.takeSample x s = _ from eq s.rx s.intStatus]
    refine ⟨n, i ||| publicationBits status, rfl, ?_⟩
    rw [publish_intStatus, BitVec.and_or_distrib_right, hbits, ← BitVec.and_or_distrib_right]
    rfl

theorem SameButCompletion.takeSamples {s t : State} (h : SameButCompletion s t) (xs : List Sample) :
    SameButCompletion (takeSamples xs s) (takeSamples xs t) := by
  induction xs generalizing s t with
  | nil => exact h
  | cons x xs ih => exact ih (h.takeSample x)

/-! ## The input of two FEEDs as one -/

/-- The sample at an address, if its bytes respond. -/
def sampleAt (s : State) (a : Nat) : Option Sample :=
  if s.plat.allPopulated ⟨a, s.cfg.sampleBytes⟩ = true then some (s.cfg.decodeSample (s.mem.load a s.cfg.sampleBytes))
  else none

theorem inputSamples_eq_map (s : State) : inputSamples s =
    (List.range (s.srcLen / s.cfg.sampleBytes)).map fun i => sampleAt s (s.src + i * s.cfg.sampleBytes) := by
  refine List.ext_getElem (by simp [inputSamples, Memory.loadItems]) fun i _ _ => ?_
  simp [inputSamples, Memory.loadItems, sampleAt]

/-- `t` reads the host memory that `s` reads, in the same format. -/
structure SameInput (s t : State) : Prop where
  cfg : t.cfg = s.cfg
  plat : t.plat = s.plat
  mem : t.mem = s.mem

theorem SameInput.sampleAt {s t : State} (h : SameInput s t) (a : Nat) : sampleAt t a = sampleAt s a := by
  unfold Machine.sampleAt
  rw [h.cfg, h.plat, h.mem]

theorem DecoderMoved.plat {s t : State} (h : DecoderMoved s t) : t.plat = s.plat := by rw [h.others]

/-- Whole samples make whole samples together, also where a 32-bit sum wraps. -/
theorem add_mod_sampleBytes {c : Params} {x y : Word} (hx : x.toNat % c.sampleBytes = 0)
    (hy : y.toNat % c.sampleBytes = 0) : (x + y).toNat % c.sampleBytes = 0 := by
  rw [BitVec.toNat_add]
  obtain h | h := sampleBytes_eq c <;> rw [h] at hx hy ⊢ <;> omega

/-- The input of `s` is that of `t` followed by that of `u`, where their buffers lie one after another. -/
theorem inputSamples_append {s t u : State} (ht : SameInput s t) (hu : SameInput s u) (hsrc : t.src = s.src)
    (hnext : u.srcLen ≠ 0 → u.src = s.src + t.srcLen) (hlen : s.srcLen = t.srcLen + u.srcLen)
    (hwhole : t.srcLen % s.cfg.sampleBytes = 0) : inputSamples s = inputSamples t ++ inputSamples u := by
  have hss := sampleBytes_eq s.cfg
  obtain ⟨n, hn⟩ := Nat.dvd_of_mod_eq_zero hwhole
  have hcount : t.srcLen / s.cfg.sampleBytes = n := by rw [hn, Nat.mul_div_cancel_left _ (by omega)]
  rw [inputSamples_eq_map, inputSamples_eq_map, inputSamples_eq_map, ht.cfg, hu.cfg, hlen, hn,
    Nat.mul_add_div (by omega), ← hn, hcount, List.range_add, List.map_append, List.map_map]
  refine congrArg₂ (· ++ ·) (List.map_congr_left fun i _ => ?_) (List.map_congr_left fun i hi => ?_)
  · rw [ht.sampleAt, hsrc]
  · have hpos : u.srcLen ≠ 0 := by
      intro h0
      rw [h0, Nat.zero_div] at hi
      simp at hi
    rw [hu.sampleAt, hnext hpos, hn, Function.comp_apply]
    congr 1
    ring

/-- None of R322's checks applies to a FEED of whole samples inside host memory. -/
theorem firstFailure_feed {stop : Bool} {s : State} (hcf : s.configured = true) (hsrc : s.src % s.cfg.sampleBytes = 0)
    (hlen : s.srcLen % s.cfg.sampleBytes = 0) (hin : s.src + s.srcLen ≤ 2 ^ 32) :
    firstFailure (.feed stop) s = none := by
  have hout : outOfSpace (.feed stop) s = false := by
    simp only [outOfSpace, usesInput, usesOutput, Bool.true_and, Bool.false_and, Bool.or_false, Bool.and_eq_false_iff,
      decide_eq_false_iff_not]
    omega
  simp [firstFailure, hcf, usesProto, usesVolume, misaligned, hsrc, hlen, hout, inputSizeError, outputSize]

theorem exec_feed_false {s : State} {xs : List Sample} (h : firstFailure (.feed false) s = none)
    (hxs : inputSamples s = xs.map some) : exec (.feed false) s = .next (fedState xs.length (takeSamples xs s)) := by
  refine exec_feed_of_loop h ?_
  rw [hxs, feedLoop_all, Nat.zero_add]

/-- A FEED with STOP = 0 ends only where every sample responds, and has taken them all. -/
theorem exec_feed_false_next {s t : State} (h : firstFailure (.feed false) s = none)
    (hexec : exec (.feed false) s = .next t) :
    ∃ xs, inputSamples s = xs.map some ∧ t = fedState xs.length (takeSamples xs s) := by
  obtain ⟨-, -, -, -, hloop⟩ := execFeed_of_none h
  obtain ⟨xs, hxs⟩ : inputSamples s ∈ Set.range (List.map some) := by
    rw [Set.range_list_map]
    intro x hx
    cases x with
    | some y => exact ⟨y, rfl⟩
    | none =>
      rw [feedLoop_absent hx, hexec] at hloop
      cases hloop
  exact ⟨xs, hxs.symm, Host.Outcome.next.inj (hexec.symm.trans (exec_feed_false h hxs.symm))⟩

theorem completionBits_mask (c : Code) : completionBits c &&& 0b11100#5 = 0 := by cases c <;> rfl

/-- Completing a FEED leaves the bits a publication sets. -/
theorem fedState_mask (k : Nat) (u : State) : (fedState k u).intStatus &&& 0b11100#5 = u.intStatus &&& 0b11100#5 := by
  show (u.intStatus ||| completionBits (feedCode u.dec.phase)) &&& 0b11100#5 = _
  rw [BitVec.and_or_distrib_right, completionBits_mask]
  exact BitVec.or_zero

/-- After a FEED of `xs`, the decoder takes `ys` as it takes them right after `xs`. -/
theorem takeSamples_afterFeed {s b : State} (hb : SameDecoderInputs s b) (xs ys : List Sample) (k : Nat)
    (a n : Word) : SameButCompletion (onto (takeSamples ys ((fedState k (takeSamples xs s)).withSource a n)) b)
      (takeSamples (xs ++ ys) (onto s b)) := by
  have hmoved := (takeSamples_moved xs s).inputs hb
  rw [takeSamples_append, takeSamples_onto hb,
    ← takeSamples_onto (s := (fedState k (takeSamples xs s)).withSource a n)
      ⟨hmoved.payloadLen, hmoved.mode, hmoved.timeout⟩]
  have hstart :
      SameButCompletion (onto ((fedState k (takeSamples xs s)).withSource a n) b) (onto (takeSamples xs s) b) :=
    ⟨(takeSamples xs s).rx.consumed, (takeSamples xs s).intStatus, rfl, (fedState_mask k _).symm⟩
  exact hstart.takeSamples ys

/-- Settles O39: both ways take the same samples, and the second FEED starts with another RX_CONSUMED and a completion's
bits only. -/
theorem feedSplitDoesNotMatter : Obligations.FeedSplitDoesNotMatter := by
  intro s t u a m n hcf ha hm hn hspace hmn ht hu
  have hsum : (m + n).toNat = m.toNat + n.toNat := by rw [BitVec.toNat_add]; omega
  have hnext : (a + m).toNat = (a.toNat + m.toNat) % 2 ^ 32 := BitVec.toNat_add ..
  obtain ⟨xs, hxs, rfl⟩ := exec_feed_false_next
    (firstFailure_feed (s := s.withSource a m) hcf ha hm (show a.toNat + m.toNat ≤ _ by omega)) ht
  have hmoved := takeSamples_moved xs (s.withSource a m)
  have hdecoder (ys : List Sample) := takeSamples_afterFeed (s := s.withSource a m) (b := s.withSource a (m + n))
    ⟨rfl, rfl, rfl⟩ xs ys xs.length (a + m) n
  generalize takeSamples xs (s.withSource a m) = first at hmoved hu hdecoder
  have hcfg : first.cfg = s.cfg := hmoved.cfg
  obtain ⟨ys, hys, rfl⟩ := exec_feed_false_next
    (firstFailure_feed (s := (fedState xs.length first).withSource (a + m) n) (hmoved.configured.trans hcf)
      (show (a + m).toNat % first.cfg.sampleBytes = 0 by rw [hcfg]; exact add_mod_sampleBytes ha hm)
      (show n.toNat % first.cfg.sampleBytes = 0 by rw [hcfg]; exact hn)
      (show (a + m).toNat + n.toNat ≤ _ by omega)) hu
  have hwhole : inputSamples (s.withSource a (m + n)) = (xs ++ ys).map some := by
    rw [List.map_append, ← hxs, ← hys]
    refine inputSamples_append ⟨rfl, rfl, rfl⟩ ⟨hcfg, hmoved.plat, hmoved.mem⟩ rfl ?_ hsum hm
    intro h0
    have h0 : n.toNat ≠ 0 := h0
    show (a + m).toNat = a.toNat + m.toNat
    omega
  have hexec := exec_feed_false (firstFailure_feed (s := s.withSource a (m + n)) (stop := false) hcf ha
    (add_mod_sampleBytes hm hn) (show a.toNat + (m + n).toNat ≤ _ by omega)) hwhole
  obtain ⟨consumed, i, heq, hbits⟩ := hdecoder ys
  have hmem := (takeSamples_moved ys ((fedState xs.length first).withSource (a + m) n)).mem.trans hmoved.mem
  refine ⟨_, hexec, ?_⟩
  rw [show s.withSource a (m + n) = onto (s.withSource a m) (s.withSource a (m + n)) from rfl, heq]
  exact ⟨rfl, rfl, rfl, hmem.symm, (fedState_mask ..).trans (hbits.trans (fedState_mask ys.length _).symm)⟩

end Sys2Proof.Machine

/-! # Silence (R243, R255, R263) -/

namespace Sys2Proof.Machine

/-- A window of zeros has no power at any bin (R241). -/
theorem power_of_zeros {w : List Sample} (h : ∀ x ∈ w, x = 0) (b : Nat) : power w b = 0 := by
  have hcorr (wave : Nat → Int) : correlate wave b w = 0 := by
    rw [correlate_eq_sum_range]
    refine List.sum_eq_zero fun y hy => ?_
    obtain ⟨n, hn, rfl⟩ := List.mem_map.1 hy
    have hn := List.mem_range.1 hn
    rw [List.getD_eq_getElem _ _ hn, h _ (List.getElem_mem hn)]
    exact Int.zero_mul _
  have hpow := power_eq_sq_add_sq w b
  rw [hcorr, hcorr] at hpow
  simpa using hpow

/-- No marker is on in silence: `2^24` is over 0 (R243). -/
theorem markerOn_of_zeros {w : List Sample} (h : ∀ x ∈ w, x = 0) (q : Profile) : markerOn w q = false := by
  rw [← Bool.not_eq_true, markerOn_iff, power_of_zeros h, power_of_zeros h]
  omega

/-- `t` follows `s` after silence in `Listening`: the samples of the window taken so far are 0, and nothing was
published. -/
structure SilentSince (s t : State) : Prop where
  phase : t.dec.phase = .listening
  zeros : ∀ k : Fin 1024, k < t.dec.fill → t.dec.win[k] = 0
  rx : t.rx = s.rx
  intStatus : t.intStatus = s.intStatus

/-- The zero goes where the zeros end. -/
theorem storeSample_zeros {s : State} (h : ∀ k : Fin 1024, k < s.dec.fill → s.dec.win[k] = 0) (k : Fin 1024)
    (hk : k ≤ s.dec.fill) : (storeSample 0 s).dec.win[k] = 0 := by
  show (s.dec.win.set s.dec.fill 0)[k] = 0
  rw [Fin.getElem_fin, Vector.getElem_set]
  split
  · rfl
  next hne => exact h k (lt_of_le_of_ne hk fun he => hne (congrArg Fin.val he.symm))

theorem SilentSince.takeSample {s t : State} (h : SilentSince s t) : SilentSince s (takeSample 0 t) := by
  have hzeros := storeSample_zeros h.zeros
  by_cases hfill : t.dec.fill = 1023
  · have hwin : ∀ x ∈ (storeSample 0 t).dec.win.toList, x = 0 := by
      intro x hx
      obtain ⟨k, hk, rfl⟩ := Vector.mem_iff_getElem.1 (Vector.mem_toList_iff.1 hx)
      exact hzeros ⟨k, hk⟩ (by rw [hfill]; exact Fin.le_last _)
    rw [takeSample_last hfill, windowStep_of_listening (s := storeSample 0 t) h.phase,
      listenStep_of_no_marker fun q => markerOn_of_zeros hwin (profile q)]
    refine ⟨h.phase, fun k hk => ?_, h.rx, h.intStatus⟩
    have hk : k < t.dec.fill + 1 := hk
    rw [hfill] at hk
    exact absurd hk (Fin.not_lt_zero k)
  · rw [takeSample_inside hfill]
    refine ⟨h.phase, fun k hk => hzeros k ?_, h.rx, h.intStatus⟩
    have hnext := Fin.val_add_one_of_lt (Fin.lt_last_iff_ne_last.2 hfill)
    have hk : k.val < (t.dec.fill + 1).val := hk
    rw [hnext] at hk
    exact Nat.lt_succ_iff.1 hk

/-- Settles O55: silence keeps the decoder listening, sample by sample. -/
theorem silencePublishesNothing : Obligations.SilencePublishesNothing := by
  intro n s hp hfill
  have hstart : SilentSince s s := ⟨hp, fun k hk => absurd (hfill ▸ hk) (Fin.not_lt_zero k), rfl, rfl⟩
  have hsilent : ∀ t, SilentSince s t → SilentSince s (takeSamples (List.replicate n 0) t) := by
    induction n with
    | zero => exact fun _ h => h
    | succ n ih => exact fun t h => ih _ h.takeSample
  obtain ⟨hphase, -, hrx, hint⟩ := hsilent s hstart
  exact ⟨hphase, hrx, hint⟩

end Sys2Proof.Machine

/-! # Instance control: CONFIG, DECONFIG, NOP, DECODER_RESET, and whose the parts of the instance are (R300 to R306) -/

namespace Sys2Proof.Machine

/-! ## What each of them does -/

/-- Settles O27: the model's validation is R302's, and CONFIG does one thing or the other by it. -/
theorem configResult : Obligations.ConfigResult := fun s =>
  ⟨fun h => (execConfig_eq s).trans (if_pos ((valid_iff_accepted _).2 h)),
    fun h => (execConfig_eq s).trans (if_neg (mt (valid_iff_accepted _).1 h))⟩

theorem protoCommand_unconfigured {q? : Option Profile} {checks : Profile → List (Bool × Code)} {n : Nat}
    {f : Profile → List Byte → Except Code (List Byte)} {s : State} (h : s.configured = false) :
    protoCommand q? checks n f s = .next (finish .notConfigured s) := by
  unfold protoCommand
  rw [h]
  rfl

theorem execSpectrum_unconfigured {s : State} (h : s.configured = false) :
    execSpectrum s = .next (finish .notConfigured s) := by
  rw [execSpectrum, h]
  rfl

theorem execDecoderReset_unconfigured {s : State} (h : s.configured = false) :
    execDecoderReset s = .next (finish .notConfigured s) := by
  rw [execDecoderReset, h]
  rfl

/-- Without a configuration the commands from OP 0x10 on finish with NotConfigured (R305, R322 step 2). -/
theorem exec_unconfigured {i : Instr} {s : State} (hop : 0x10 ≤ i.op) (h : s.configured = false) :
    exec i s = .next (finish .notConfigured s) := by
  cases i with
  | frameBuild p => exact protoCommand_unconfigured (q? := profile? p) h
  | frameRecover p => exact protoCommand_unconfigured (q? := profile? p) h
  | symbolMap p => exact protoCommand_unconfigured (q? := profile? p) h
  | render p v => exact protoCommand_unconfigured (q? := profile? p) h
  | encode p v => exact protoCommand_unconfigured (q? := profile? p) h
  | spectrum => exact execSpectrum_unconfigured h
  | feed stop => exact execFeed_unconfigured h
  | decoderReset => exact execDecoderReset_unconfigured h
  | nop => simp [Instr.op] at hop
  | config => simp [Instr.op] at hop
  | deconfig => simp [Instr.op] at hop
  | profileQuery p => simp [Instr.op] at hop

/-- Settles O28: DECONFIG has one outcome, and the check for a configuration is the first one of every other command. -/
theorem deconfigResult : Obligations.DeconfigResult :=
  ⟨execDeconfig_eq, fun _ _ hop h => exec_unconfigured hop h⟩

/-- Settles O30: NOP has one outcome, DECODER_RESET one with a configuration and one without. -/
theorem nopAndDecoderResetResults : Obligations.NopAndDecoderResetResults :=
  ⟨execNop_eq, fun s => ⟨fun h => (execDecoderReset_eq s).trans (if_pos h), execDecoderReset_unconfigured⟩⟩

/-! ## The effects of commands -/

/-- What a command that ends with a next state did, by the command: it failed and changed nothing else, it stored an output, or
it had the effect of its own that the rules give it (R136, R258, R259, R300 to R305). -/
inductive CommandEffect (s : State) : Instr → State → Prop where
  | failed {i : Instr} {c : Code} (hc : c ≠ .ok) : CommandEffect s i (finish c s)
  | stored {i : Instr} (hi : usesOutput i = true) (out : List Byte) : CommandEffect s i (storedOutput out s)
  | nop : CommandEffect s .nop (finish .ok { s with resultLen := 0 })
  | config :
    CommandEffect s .config (finish .ok (freshInstance { s with cfg := s.latch.par, configured := true, resultLen := 0 }))
  | deconfig :
    CommandEffect s .deconfig (finish .ok (freshInstance { s with cfg := Params.zero, configured := false, resultLen := 0 }))
  | profileQuery (p : Nat) (r : ProfRegs) : CommandEffect s (.profileQuery p) (finish .ok { s with prof := r, resultLen := 0 })
  | fed {stop : Bool} (k : Nat) {u : State} (hu : DecoderMoved s u) : CommandEffect s (.feed stop) (fedState k u)
  | decoderReset : CommandEffect s .decoderReset (finish .ok { s with dec := s.dec.decoderReset, resultLen := 0 })

theorem CommandEffect.of_storesOrFails {i : Instr} {s t : State} (hi : usesOutput i = true) (h : StoresOrFails s t) :
    CommandEffect s i t := by
  obtain ⟨c, hc, rfl⟩ | ⟨out, -, rfl⟩ := h
  · exact .failed hc
  · exact .stored hi out

/-- Every command's next state is one of its effects. -/
theorem exec_effect {i : Instr} {s t : State} (h : exec i s = .next t) : CommandEffect s i t := by
  cases i with
  | nop => cases (execNop_eq s).symm.trans h; exact .nop
  | config =>
    have h' := (execConfig_eq s).symm.trans h
    split at h' <;> cases h'
    · exact .config
    · exact .failed (by decide)
  | deconfig => cases (execDeconfig_eq s).symm.trans h; exact .deconfig
  | profileQuery p =>
    have h' := (execProfileQuery_eq p s).symm.trans h
    split at h' <;> cases h'
    · exact .profileQuery p _
    · exact .failed (by decide)
  | feed stop =>
    obtain ⟨c, hc, rfl⟩ | ⟨k, u, hl, rfl⟩ := execFeed_next (show execFeed stop s = .next t from h)
    · exact .failed (by rcases hc with rfl | rfl <;> decide)
    · exact .fed k (feedLoop_moved hl).1
  | decoderReset =>
    have h' := (execDecoderReset_eq s).symm.trans h
    split at h' <;> cases h'
    · exact .decoderReset
    · exact .failed (by decide)
  | frameBuild p => exact .of_storesOrFails rfl (execFrameBuild_next h)
  | frameRecover p => exact .of_storesOrFails rfl (execFrameRecover_next h)
  | symbolMap p => exact .of_storesOrFails rfl (execSymbolMap_next h)
  | render p v => exact .of_storesOrFails rfl (execRender_next h)
  | encode p v => exact .of_storesOrFails rfl (execEncode_next h)
  | spectrum => exact .of_storesOrFails rfl (execSpectrum_next h)

namespace CommandEffect

variable {s t : State} {i : Instr}

/-! ### Who changes which part of the instance (R306) -/

theorem configuration (h : CommandEffect s i t) :
    (i = .config ∨ i = .deconfig) ∨ (t.cfg = s.cfg ∧ t.configured = s.configured) := by
  cases h with
  | config => exact .inl (.inl rfl)
  | deconfig => exact .inl (.inr rfl)
  | fed k hu => exact .inr ⟨hu.cfg, hu.configured⟩
  | _ => exact .inr ⟨rfl, rfl⟩

theorem decoder (h : CommandEffect s i t) :
    (i = .config ∨ i = .deconfig ∨ i = .decoderReset ∨ ∃ stop, i = .feed stop) ∨ t.dec = s.dec := by
  cases h with
  | config => exact .inl (.inl rfl)
  | deconfig => exact .inl (.inr (.inl rfl))
  | decoderReset => exact .inl (.inr (.inr (.inl rfl)))
  | fed k hu => exact .inl (.inr (.inr (.inr ⟨_, rfl⟩)))
  | _ => exact .inr rfl

theorem result (h : CommandEffect s i t) : (i = .config ∨ i = .deconfig ∨ ∃ stop, i = .feed stop) ∨ t.rx = s.rx := by
  cases h with
  | config => exact .inl (.inl rfl)
  | deconfig => exact .inl (.inr (.inl rfl))
  | fed k hu => exact .inl (.inr (.inr ⟨_, rfl⟩))
  | _ => exact .inr rfl

theorem profRegs (h : CommandEffect s i t) : (∃ p, i = .profileQuery p) ∨ t.prof = s.prof := by
  cases h with
  | profileQuery p r => exact .inl ⟨p, rfl⟩
  | fed k hu => exact .inr (by rw [fedState, finish_prof, hu.others])
  | _ => exact .inr rfl

theorem rxProto (h : CommandEffect s .decoderReset t) : t.dec.rxProto = s.dec.rxProto := by
  cases h <;> rfl

/-! ### What the commands without an output leave -/

theorem mem (h : CommandEffect s i t) (hi : usesOutput i = false) : t.mem = s.mem := by
  cases h with
  | stored hout out => cases hi.symm.trans hout
  | fed k hu => rw [fedState, finish_mem, hu.others]
  | _ => rfl

theorem resultLen (h : CommandEffect s i t) (hi : usesOutput i = false) : t.resultLen = 0 := by
  cases h with
  | failed hc => exact finish_error_resultLen hc s
  | stored hout out => cases hi.symm.trans hout
  | fed k hu => exact ite_self _
  | _ => rfl

end CommandEffect

/-- A command but FEED sets no other bits of INT_STATUS than its completion's. -/
theorem exec_sameInt {i : Instr} {s t : State} (h : exec i s = .next t) (hi : ∀ stop, i ≠ .feed stop) :
    SameIntOtherThanCompletion s t := by
  obtain ⟨x, c, hint, -, rfl | ⟨stop, rfl⟩⟩ := exec_intStatus h
  · exact sameInt_of_or (c := c) (by simp [hint])
  · exact absurd rfl (hi stop)

/-- Settles O26, part by part of the state: the command is none of those that change the part. -/
theorem otherCommandFrame : Obligations.OtherCommandFrame := by
  intro i s t hi h
  have he := exec_effect h
  refine ⟨(exec_hostSide h).1, he.mem hi, he.resultLen hi, fun hc hd => he.configuration.resolve_left (not_or.2 ⟨hc, hd⟩),
    fun hp => he.profRegs.resolve_left (not_exists.2 hp), ?_, ?_, exec_sameInt h⟩
  · intro hnop
    have hcfg := he.configuration.resolve_left (by rintro (rfl | rfl) <;> simp at hnop)
    exact ⟨hcfg.2, hcfg.1, he.decoder.resolve_left (by rintro (rfl | rfl | rfl | ⟨stop, rfl⟩) <;> simp at hnop),
      he.result.resolve_left (by rintro (rfl | rfl | ⟨stop, rfl⟩) <;> simp at hnop)⟩
  · rintro rfl
    exact ⟨he.result.resolve_left (by simp), he.rxProto⟩

/-- A step other than the reset line's leaves the instance and the PROF registers, or ran the latched command. -/
theorem step_leaves_or_runs {s t : State} (h : step s = .next t) (hr : s.agenda.head? ≠ some .reset) :
    (SameInstance s t ∧ t.prof = s.prof) ∨
      (s.busy = true ∧ ∃ i rest, decode s.latch.cmd = .ok i ∧ CommandEffect { s with agenda := rest } i t) := by
  obtain ⟨rest, ⟨k, -, -⟩ | ⟨hreset, -⟩ | ⟨-, ⟨-, rfl⟩ | ⟨-, rfl⟩ | ⟨hb, i, hi, he⟩⟩⟩ := step_cases h
  · exact .inl ⟨⟨k.configured, k.cfg, k.dec, k.rx⟩, k.prof⟩
  · exact absurd hreset hr
  · exact .inl ⟨⟨rfl, rfl, rfl, rfl⟩, rfl⟩
  · exact .inl ⟨⟨rfl, rfl, rfl, rfl⟩, rfl⟩
  · exact .inr ⟨hb, i, rest, hi, exec_effect he⟩

/-- Settles O9: a step that changed a part of the instance ran a command, one of those that change this part. -/
theorem onlyTheirCommandsWriteTheInstance : Obligations.OnlyTheirCommandsWriteTheInstance := by
  intro s t h hr
  obtain ⟨hsame, hprof⟩ | ⟨hb, i, rest, hi, he⟩ := step_leaves_or_runs h hr
  · exact ⟨fun hne => absurd ⟨hsame.cfg, hsame.configured⟩ (not_and_or.2 hne), fun hne => absurd hsame.dec hne,
      fun hne => absurd hsame.rx hne, fun hne => absurd hprof hne⟩
  · simp only [hi, Except.ok.injEq]
    exact ⟨fun hne => ⟨hb, he.configuration.resolve_right (not_and_or.2 hne)⟩,
      fun hne => ⟨hb, he.decoder.resolve_right hne⟩, fun hne => ⟨hb, he.result.resolve_right hne⟩,
      fun hne => ⟨hb, he.profRegs.resolve_right hne⟩⟩

/-! ## The rates (R303) -/

/-- `s` with these rates configured in place of its own. -/
def State.withRates (a b : Word) (s : State) : State := { s with cfg := { s.cfg with rateIn := a, rateOut := b } }

/-- What `g` changes is beside the storing commands: their completions and transfers do not read it, and leave it. -/
structure Beside (g : State → State) : Prop where
  configured : ∀ s, (g s).configured = s.configured
  latch : ∀ s, (g s).latch = s.latch
  mem : ∀ s, (g s).mem = s.mem
  plat : ∀ s, (g s).plat = s.plat
  finish : ∀ c s, finish c (g s) = g (finish c s)
  stored : ∀ out s, storedOutput out (g s) = g (storedOutput out s)

namespace Beside

variable {g : State → State} (hg : Beside g)
include hg

theorem complete (c : Code) (s : State) : complete c (g s) = mapNext g (complete c s) :=
  congrArg Host.Outcome.next (hg.finish c s)

theorem writeOutput (out : List Byte) (s : State) : writeOutput out (g s) = mapNext g (writeOutput out s) := by
  rw [writeOutput_eq, writeOutput_eq, State.dst, hg.latch, hg.plat, hg.stored]
  show (if s.plat.allPopulated ⟨s.dst, out.length⟩ = true then _ else _) = _
  split <;> rfl

theorem transfer (n : Nat) (f : List Byte → Except Code (List Byte)) (s : State) :
    transfer n f (g s) = mapNext g (transfer n f s) := by
  have hread : dmaRead (g s) (g s).src n = dmaRead s s.src n := by
    rw [dmaRead, State.src, hg.latch, hg.mem, hg.plat]
    rfl
  unfold Machine.transfer
  rw [hread, State.inputRange, State.outputRange, State.src, State.srcLen, State.dst, State.dstCap, hg.latch]
  show (if s.inputRange.overlaps s.outputRange = true then _ else _) = _
  split
  · rfl
  · cases dmaRead s s.src n with
    | none => rfl
    | some input =>
      dsimp only
      cases f input with
      | error c => exact hg.complete c s
      | ok out => exact hg.writeOutput out s

theorem checkedTransfer (checks : List (Bool × Code)) (n : Nat) (f : List Byte → Except Code (List Byte)) (s : State) :
    checkedTransfer checks n f (g s) = mapNext g (checkedTransfer checks n f s) := by
  unfold Machine.checkedTransfer
  split
  · exact hg.complete _ s
  · exact hg.transfer n f s

theorem protoCommand (q? : Option Profile) (checks : Profile → List (Bool × Code)) (n : Nat)
    (f : Profile → List Byte → Except Code (List Byte)) (s : State) :
    protoCommand q? checks n f (g s) = mapNext g (protoCommand q? checks n f s) := by
  unfold Machine.protoCommand
  rw [hg.configured]
  split
  · exact hg.complete _ s
  · split
    · exact hg.complete _ s
    · exact hg.checkedTransfer _ n _ s

end Beside

theorem withRates_beside (a b : Word) : Beside fun s => s.withRates a b := by
  constructor <;> intros <;> rfl

theorem execSpectrum_withRates (a b : Word) (s : State) :
    execSpectrum (s.withRates a b) = mapNext (fun t => t.withRates a b) (execSpectrum s) := by
  unfold execSpectrum
  show (if (!s.configured) = true then _ else _) = _
  split
  · rfl
  · exact (withRates_beside a b).checkedTransfer _ (1024 * s.cfg.sampleBytes) _ s

/-- The decoder reads neither rate. -/
theorem feedLoop_withRates (a b : Word) (stop : Bool) (xs : List (Option Sample)) (n : Nat) (s : State) :
    feedLoop stop xs n (s.withRates a b) = (feedLoop stop xs n s).map fun r => (r.1, r.2.withRates a b) := by
  have h : feedLoop stop xs n (s.withRates a b) = _ :=
    feedLoop_onto (s := s) (b := s.withRates a b) ⟨rfl, rfl, rfl⟩ stop xs n
  rw [h]
  cases hl : feedLoop stop xs n s with
  | none => rfl
  | some r =>
    have hm := (feedLoop_moved hl).1.others
    exact congrArg (fun u => some (r.1, u)) (by rw [hm]; rfl)

theorem execFeed_withRates (a b : Word) (stop : Bool) (s : State) :
    execFeed stop (s.withRates a b) = mapNext (fun t => t.withRates a b) (execFeed stop s) := by
  rw [execFeed_eq, execFeed_eq, feedLoop_withRates]
  show (if s.configured = true then
    (feedError s).elim (feedOutcome ((feedLoop stop (inputSamples s) 0 s).map _)) _ else _) = _
  split
  · cases feedError s with
    | some c => rfl
    | none => cases feedLoop stop (inputSamples s) 0 s <;> rfl
  · rfl

theorem execDecoderReset_withRates (a b : Word) (s : State) :
    execDecoderReset (s.withRates a b) = mapNext (fun t => t.withRates a b) (execDecoderReset s) := by
  rw [execDecoderReset_eq, execDecoderReset_eq]
  show (if s.configured = true then _ else _) = _
  split <;> rfl

/-- A command but CONFIG and DECONFIG does the same whatever rates are configured, and leaves them. -/
theorem exec_withRates {i : Instr} (hc : i ≠ .config) (hd : i ≠ .deconfig) (a b : Word) (s : State) :
    exec i (s.withRates a b) = mapNext (fun t => t.withRates a b) (exec i s) := by
  have hg := withRates_beside a b
  cases i with
  | nop => rfl
  | config => exact absurd rfl hc
  | deconfig => exact absurd rfl hd
  | profileQuery p =>
    show execProfileQuery p _ = mapNext _ (execProfileQuery p s)
    rw [execProfileQuery_eq, execProfileQuery_eq]
    split <;> rfl
  | frameBuild p => exact hg.protoCommand (profile? p) _ s.srcLen _ s
  | frameRecover p => exact hg.protoCommand (profile? p) _ s.srcLen _ s
  | symbolMap p => exact hg.protoCommand (profile? p) _ s.srcLen _ s
  | render p v => exact hg.protoCommand (profile? p) _ s.srcLen _ s
  | encode p v => exact hg.protoCommand (profile? p) _ s.srcLen _ s
  | spectrum => exact execSpectrum_withRates a b s
  | feed stop => exact execFeed_withRates a b stop s
  | decoderReset => exact execDecoderReset_withRates a b s

/-- Settles O8: CONFIG records the latched rates, and each other command is built of parts that read neither. -/
theorem ratesAreOnlyRecorded : Obligations.RatesAreOnlyRecorded := by
  refine ⟨fun s t h hok => ?_, fun i a b s hc hd => exec_withRates hc hd a b s⟩
  cases exec_effect h with
  | config => exact ⟨rfl, rfl⟩
  | failed herr => exact absurd hok herr
  | stored hi => cases hi

end Sys2Proof.Machine

/-! # Completion, errors and stops, and the step that runs a command (R322, R323, R330, R331, R340) -/

namespace Sys2Proof.Machine

/-! ## The check order (R322) -/

/-- Step 2 comes first: a command from OP 0x10 on needs a configuration. -/
theorem firstFailure_unconfigured {i : Instr} {s : State} (hop : 0x10 ≤ i.op) (h : s.configured = false) :
    firstFailure i s = some .notConfigured := if_pos ⟨hop, h⟩

/-- Step 3 comes next: a PROTO of 12 and above names no profile. -/
theorem firstFailure_unknownProfile {i : Instr} {s : State} (hcf : s.configured = true) (hu : usesProto i = true)
    (h : 12 ≤ i.proto) : firstFailure i s = some .unsupportedProtocol := by
  rw [firstFailure, if_neg (by simp [hcf]), if_pos ⟨hu, h⟩]

theorem usesInput_of_usesOutput {i : Instr} (h : usesOutput i = true) : usesInput i = true := by
  cases i with
  | nop | config | deconfig | profileQuery | feed | decoderReset => cases h
  | _ => rfl

theorem op_of_usesInput {i : Instr} (h : usesInput i = true) : 0x10 ≤ i.op := by
  cases i with
  | nop | config | deconfig | profileQuery | decoderReset => cases h
  | _ => simp [Instr.op]

/-- For a command with both buffers the two range checks are one. -/
theorem outOfSpace_eq_rangesBad {i : Instr} (h : usesOutput i = true) (s : State) : outOfSpace i s = rangesBad s := by
  rw [Bool.eq_iff_iff, rangesBad_iff, outOfSpace, usesInput_of_usesOutput h, h]
  simp

/-- Steps 4 to 7 of a command with both buffers as one list, `tooBig` being its input-size check with code `c`. -/
theorem firstFailure_eq_firstError {i : Instr} {s : State} {tooBig : Prop} [Decidable tooBig] {c : Code}
    (ho : usesOutput i = true) (hcf : s.configured = true) (hp : i.proto < 12)
    (hsize : inputSizeError i s = if tooBig then some c else none) :
    firstFailure i s = firstError
      [ (usesVolume i && decide (100 < i.volume), .invalidParameters), (misaligned i s, .addressError),
        (rangesBad s, .addressError), (decide tooBig, c), (decide (s.dstCap < outputSize i s), .outputOverflow) ] := by
  have hconfig : i ≠ .config := by rintro rfl; cases ho
  have hproto : ¬(usesProto i = true ∧ 12 ≤ i.proto) := fun h => absurd hp (not_lt.2 h.2)
  rw [firstFailure, outOfSpace_eq_rangesBad ho, hsize]
  by_cases htoo : tooBig <;> simp [hcf, hconfig, hproto, htoo, firstError]

theorem protoCommand_of_profile {p : Nat} (hp : p < 12) {n : Nat} {checks : Profile → List (Bool × Code)}
    {f : Profile → List Byte → Except Code (List Byte)} {s : State} (hcf : s.configured = true) :
    protoCommand (profile? p) checks n f s =
      checkedTransfer (checks (profile ⟨p, hp⟩)) n (f (profile ⟨p, hp⟩)) s := by
  rw [profile?_eq_some.2 ⟨hp, rfl⟩]
  unfold protoCommand
  rw [hcf]
  rfl

theorem protoCommand_of_unknownProfile {p : Nat} (hp : 12 ≤ p) {n : Nat} {checks : Profile → List (Bool × Code)}
    {f : Profile → List Byte → Except Code (List Byte)} {s : State} (hcf : s.configured = true) :
    protoCommand (profile? p) checks n f s = .next (finish .unsupportedProtocol s) := by
  rw [profile?_eq_none.2 hp]
  unfold protoCommand
  rw [hcf]
  rfl

theorem checkedTransfer_of_failure {checks : List (Bool × Code)} {n : Nat} {f : List Byte → Except Code (List Byte)}
    {s : State} {c : Code} (h : firstError checks = some c) : checkedTransfer checks n f s = .next (finish c s) := by
  unfold checkedTransfer
  rw [h]
  rfl

/-- A command with a profile and both buffers reports the first failure, its own list of checks being that of R322. -/
theorem protoCommand_reports {i : Instr} {p n : Nat} {checks : Profile → List (Bool × Code)}
    {f : Profile → List Byte → Except Code (List Byte)} {s : State} {c : Code} (ho : usesOutput i = true)
    (hu : usesProto i = true) (hp : i.proto = p) (hexec : exec i s = protoCommand (profile? p) checks n f s)
    (hchecks : ∀ h : p < 12, s.configured = true → firstFailure i s = firstError (checks (profile ⟨p, h⟩)))
    (h : firstFailure i s = some c) : exec i s = .next (finish c s) := by
  have hop := op_of_usesInput (usesInput_of_usesOutput ho)
  cases hcf : s.configured with
  | false =>
    cases (firstFailure_unconfigured hop hcf).symm.trans h
    exact exec_unconfigured hop hcf
  | true =>
    by_cases hlt : p < 12
    · rw [hexec, protoCommand_of_profile hlt hcf]
      exact checkedTransfer_of_failure ((hchecks hlt hcf).symm.trans h)
    · have hge : 12 ≤ p := not_lt.1 hlt
      cases (firstFailure_unknownProfile hcf hu (hp.symm ▸ hge)).symm.trans h
      rw [hexec, protoCommand_of_unknownProfile hge hcf]

theorem execSpectrum_reports {s : State} {c : Code} (h : firstFailure .spectrum s = some c) :
    exec .spectrum s = .next (finish c s) := by
  cases hcf : s.configured with
  | false =>
    cases (firstFailure_unconfigured (op_of_usesInput rfl) hcf).symm.trans h
    exact execSpectrum_unconfigured hcf
  | true =>
    rw [firstFailure_eq_firstError rfl hcf (by decide) rfl] at h
    have hmis : misaligned .spectrum s =
        !(aligned s.src s.cfg.sampleBytes && aligned s.srcLen s.cfg.sampleBytes && aligned s.dst 8) := by
      simp [misaligned, aligned, bne]
    rw [hmis] at h
    show execSpectrum s = _
    unfold execSpectrum
    rw [hcf]
    exact checkedTransfer_of_failure (n := 1024 * s.cfg.sampleBytes) h

/-- With a configuration FEED's checks are step 5 of R322, the alignment and then the range. -/
theorem firstFailure_feed_eq (stop : Bool) {s : State} (hcf : s.configured = true) :
    firstFailure (.feed stop) s = feedError s := by
  have hmis : misaligned (.feed stop) s = !(aligned s.src s.cfg.sampleBytes && aligned s.srcLen s.cfg.sampleBytes) := by
    simp [misaligned, aligned, bne]
  have hout : outOfSpace (.feed stop) s = !s.inputRange.inSpace := by
    rw [Bool.eq_iff_iff, Bool.not_eq_true', inSpace_iff]
    simp [outOfSpace, usesInput, usesOutput, State.inputRange]
  simp [firstFailure, hcf, usesProto, usesVolume, inputSizeError, outputSize, feedError, firstError, hmis, hout]

theorem execFeed_reports {stop : Bool} {s : State} {c : Code} (h : firstFailure (.feed stop) s = some c) :
    exec (.feed stop) s = .next (finish c s) := by
  cases hcf : s.configured with
  | false =>
    cases (firstFailure_unconfigured (op_of_usesInput rfl) hcf).symm.trans h
    exact execFeed_unconfigured hcf
  | true =>
    refine (execFeed_eq stop s).trans ?_
    rw [if_pos hcf, ← firstFailure_feed_eq stop hcf, h]
    rfl

/-- The checks of a command without buffers. -/
theorem firstFailure_without_buffers {i : Instr} (hi : usesInput i = false) (s : State) : firstFailure i s =
    if 0x10 ≤ i.op ∧ s.configured = false then some .notConfigured
    else if usesProto i = true ∧ 12 ≤ i.proto then some .unsupportedProtocol
    else if i = .config ∧ s.latch.par.valid = false then some .invalidParameters
    else none := by
  cases i with
  | nop | config | deconfig | profileQuery | decoderReset =>
    simp [firstFailure, usesVolume, misaligned, outOfSpace, usesInput, usesOutput, inputSizeError, outputSize]
  | _ => cases hi

/-- A command without buffers reports its first failure, and where none applies it ends with OK. -/
theorem exec_without_buffers {i : Instr} (hi : usesInput i = false) (s : State) :
    (∃ c, firstFailure i s = some c ∧ exec i s = .next (finish c s)) ∨
      firstFailure i s = none ∧ ∃ t, exec i s = .next t ∧ t.err = .ok := by
  rw [firstFailure_without_buffers hi]
  cases i with
  | nop => exact .inr ⟨rfl, _, rfl, rfl⟩
  | deconfig => exact .inr ⟨rfl, _, rfl, rfl⟩
  | config =>
    rw [show exec .config s = _ from execConfig_eq s]
    cases s.latch.par.valid with
    | false => exact .inl ⟨_, rfl, rfl⟩
    | true => exact .inr ⟨rfl, _, rfl, rfl⟩
  | profileQuery p =>
    rw [show exec (.profileQuery p) s = _ from execProfileQuery_eq p s]
    by_cases hp : p < 12
    · exact .inr ⟨by simp [Instr.op, Instr.proto, hp], _, dif_pos hp, rfl⟩
    · exact .inl ⟨.unsupportedProtocol, by simp [Instr.op, usesProto, Instr.proto, not_lt.1 hp], dif_neg hp⟩
  | decoderReset =>
    rw [show exec .decoderReset s = _ from execDecoderReset_eq s]
    cases s.configured with
    | false => exact .inl ⟨_, rfl, rfl⟩
    | true => exact .inr ⟨rfl, _, rfl, rfl⟩
  | _ => cases hi

/-- A command reports the first of the conditions 2 to 7 of R322 that applies, and changes nothing else. -/
theorem exec_reports {i : Instr} {s : State} {c : Code} (h : firstFailure i s = some c) :
    exec i s = .next (finish c s) := by
  cases hi : usesInput i with
  | false =>
    obtain ⟨d, hd, hexec⟩ | ⟨hnone, -⟩ := exec_without_buffers hi s
    · cases hd.symm.trans h; exact hexec
    · cases hnone.symm.trans h
  | true =>
    cases i with
    | frameBuild p =>
      refine protoCommand_reports (p := p) (n := s.srcLen) rfl rfl rfl rfl (fun hp hcf => ?_) h
      rw [firstFailure_eq_firstError (i := .frameBuild p) rfl hcf hp rfl, Bool.decide_eq_true,
        ← payloadTooLarge_eq s.cfg ⟨p, hp⟩]
      rfl
    | frameRecover p =>
      refine protoCommand_reports (p := p) (n := s.srcLen) rfl rfl rfl rfl (fun hp hcf => ?_) h
      rw [firstFailure_eq_firstError (i := .frameRecover p) rfl hcf hp rfl]
      simp [firstError, outputSize, usesVolume, misaligned]
    | symbolMap p =>
      refine protoCommand_reports (p := p) (n := s.srcLen) rfl rfl rfl rfl (fun hp hcf => ?_) h
      rw [firstFailure_eq_firstError (i := .symbolMap p) rfl hcf hp rfl, outputSize_symbolMap hp]
      rfl
    | render p vol =>
      refine protoCommand_reports (p := p) (n := s.srcLen) rfl rfl rfl rfl (fun hp hcf => ?_) h
      rw [firstFailure_eq_firstError (i := .render p vol) rfl hcf hp rfl, outputSize_render hp]
      rfl
    | encode p vol =>
      refine protoCommand_reports (p := p) (n := s.srcLen) rfl rfl rfl rfl (fun hp hcf => ?_) h
      rw [firstFailure_eq_firstError (i := .encode p vol) rfl hcf hp rfl, Bool.decide_eq_true,
        ← payloadTooLarge_eq s.cfg ⟨p, hp⟩, outputSize_encode hp]
      rfl
    | spectrum => exact execSpectrum_reports h
    | feed stop => exact execFeed_reports h
    | nop | config | deconfig | profileQuery | decoderReset => cases hi

/-! ## What can fail after the checks -/

/-- How FRAME_RECOVER fails after the checks: the frame does not decode, or its payload does not fit (R171). -/
def RecoverFails (c : Params) (q : Profile) (cap : Nat) (chips : List Byte) (e : Code) : Prop :=
  (recoverFrame c q chips = none ∧ e = .decodeFECFailure) ∨
    ∃ r, recoverFrame c q chips = some r ∧ cap < r.length ∧ e = .outputOverflow

theorem recoverFails_of_error {c : Params} {q : Profile} {cap : Nat} {chips : List Byte} {e : Code}
    (h : recoverInto c q cap chips = .error e) : RecoverFails c q cap chips e := by
  unfold recoverInto at h
  split at h
  next hr => exact .inl ⟨hr, (Except.error.inj h).symm⟩
  next r hr =>
    split at h
    next hcap => exact .inr ⟨r, hr, hcap, (Except.error.inj h).symm⟩
    · cases h

/-- No check applying, FRAME_RECOVER is the only storing command that can fail. -/
theorem exec_output_error {i : Instr} {s t : State} (ho : usesOutput i = true) (h : firstFailure i s = none)
    (hexec : exec i s = .next t) (herr : t.err ≠ .ok) :
    ∃ p : Fin 12, i = .frameRecover p ∧ RecoverFails s.cfg (profile p) s.dstCap (inputBytes s s.srcLen) t.err := by
  obtain ⟨p, rfl⟩ | hrec := em (∃ p, i = .frameRecover p)
  · obtain ⟨hp, htransfer, -⟩ := execFrameRecover_of_none h
    obtain ⟨-, -, ⟨c, hc, rfl⟩ | ⟨out, -, -, rfl⟩⟩ := transfer_next (htransfer.symm.trans hexec)
    · exact ⟨⟨p, hp⟩, rfl, recoverFails_of_error hc⟩
    · exact absurd rfl herr
  · obtain ⟨f, htransfer, hf⟩ := exec_eq_transfer ho h
    obtain ⟨out, hout, -⟩ := hf (not_exists.1 hrec)
    obtain ⟨-, -, ⟨c, hc, -⟩ | ⟨out, -, -, rfl⟩⟩ := transfer_next (htransfer.symm.trans hexec)
    · cases hout.symm.trans hc
    · exact absurd rfl herr

theorem feedCode_ne_ok {p : Phase} (h : feedCode p ≠ .ok) :
    feedCode p = .bufferUnderrun ∧ (p = .synchronizing ∨ p = .recording) := by
  unfold feedCode at h ⊢
  split at h
  next hp => exact ⟨if_pos hp, hp⟩
  · exact absurd rfl h

/-- Settles O21: each command's checks are R322's list in R322's order, and behind them only FRAME_RECOVER's decoding and
FEED's end can fail. -/
theorem firstFailureIsReported : Obligations.FirstFailureIsReported := by
  refine ⟨fun s e h => sequencerStep_error h, fun i s c h => exec_reports h, fun i s t h hexec herr => ?_⟩
  cases hi : usesInput i with
  | false =>
    obtain ⟨c, hc, -⟩ | ⟨-, u, hu, hok⟩ := exec_without_buffers hi s
    · cases h.symm.trans hc
    · cases hu.symm.trans hexec
      exact absurd hok herr
  | true =>
    cases ho : usesOutput i with
    | true =>
      obtain ⟨p, rfl, ⟨hr, hcode⟩ | ⟨r, hr, hcap, hcode⟩⟩ := exec_output_error ho h hexec herr
      · exact .inl ⟨p, rfl, by rw [hr]; exact hcode⟩
      · exact .inl ⟨p, rfl, by rw [hr]; exact ⟨hcap, hcode⟩⟩
    | false =>
      cases i with
      | feed stop =>
        obtain ⟨-, -, -, -, hloop⟩ := execFeed_of_none h
        rw [hexec] at hloop
        split at hloop
        · cases hloop
        · cases hloop
          exact .inr ⟨stop, rfl, (feedCode_ne_ok herr).1⟩
      | nop | config | deconfig | profileQuery | decoderReset => cases hi
      | _ => cases ho

/-! ## What an error leaves, and what every completion does (R323, R331) -/

/-- `finish` with an error, register by register (R331). -/
theorem finish_error_eq {c : Code} (h : c ≠ .ok) (s : State) : finish c s =
    { s with err := c, resultLen := 0, intStatus := s.intStatus ||| 0b00011#5, busy := false } := by
  have hlen := finish_error_resultLen h s
  have hbits : completionBits c = 0b00011#5 := if_neg h
  rw [← hlen, ← hbits]
  rfl

/-- After a publication the decoder listens (R256, R262). -/
theorem phase_of_publishedSuccess {x : Sample} {s : State} (h : publishedSuccess s (takeSample x s) = true) :
    (takeSample x s).dec.phase = .listening := by
  obtain ⟨-, status, c, payload, heq⟩ := takeSample_publishes ((publishedSuccess_iff _ _).1 h).1
  rw [heq]
  rfl

/-- A loop that ends outside `Listening` did not stop at a success: it took every sample (R258). -/
theorem feedLoop_took_all {stop : Bool} {xs : List (Option Sample)} {n k : Nat} {s u : State}
    (h : feedLoop stop xs n s = some (k, u)) (hp : u.dec.phase ≠ .listening) :
    ∃ ys, xs = ys.map some ∧ k = n + ys.length ∧ u = takeSamples ys s := by
  induction xs generalizing n s with
  | nil => cases h; exact ⟨[], rfl, rfl, rfl⟩
  | cons x xs ih =>
    cases x with
    | none => cases h
    | some x =>
      simp only [feedLoop] at h
      split at h
      next hstop =>
        cases h
        exact absurd (phase_of_publishedSuccess (Bool.and_eq_true_iff.1 hstop).2) hp
      · obtain ⟨ys, rfl, rfl, rfl⟩ := ih h
        exact ⟨x :: ys, rfl, by rw [List.length_cons]; omega, rfl⟩

/-- Where every sample of the input is there, they are the samples that host memory holds. -/
theorem fedSamples_of_inputSamples {s : State} {ys : List Sample} (h : inputSamples s = ys.map some) :
    fedSamples s = ys := by
  refine List.map_injective_iff.2 (Option.some_injective _) ?_
  rw [← h, inputSamples_eq_map, fedSamples, List.map_map]
  refine List.map_congr_left fun i hi => ?_
  have hmem : sampleAt s (s.src + i * s.cfg.sampleBytes) ∈ ys.map some := by
    rw [← h, inputSamples_eq_map]
    exact List.mem_map_of_mem hi
  obtain ⟨y, -, hy⟩ := List.mem_map.1 hmem
  unfold sampleAt at hy ⊢
  split at hy
  next hpop => rw [if_pos hpop]; rfl
  · cases hy

/-- A FEED that finishes with BufferUnderrun took its whole input (R258, R323). -/
theorem execFeed_underrun {stop : Bool} {s t : State} (h : exec (.feed stop) s = .next t)
    (herr : t.err = .bufferUnderrun) :
    t = fedState (fedSamples s).length (takeSamples (fedSamples s) s) := by
  obtain ⟨c, hc, rfl⟩ | ⟨k, u, hloop, rfl⟩ := execFeed_next h
  · rcases hc with rfl | rfl <;> cases herr
  · have hphase : u.dec.phase ≠ .listening := by
      intro hp
      have herr : feedCode u.dec.phase = .bufferUnderrun := herr
      rw [hp] at herr
      cases herr
    obtain ⟨ys, hys, rfl, rfl⟩ := feedLoop_took_all hloop hphase
    rw [fedSamples_of_inputSamples hys, Nat.zero_add]

/-- Settles O22: a failed command is `finish` and no more, and a FEED that ends inside a transmission took every sample. -/
theorem noPartialEffect : Obligations.NoPartialEffect := by
  refine fun i s t h herr => ⟨fun hno => ?_, ?_⟩
  · cases exec_effect h with
    | failed hc => exact finish_error_eq hc s
    | fed k hu => exact absurd ⟨_, rfl, (feedCode_ne_ok herr).1⟩ hno
    | _ => exact absurd rfl herr
  · rintro ⟨stop, rfl, hunderrun⟩
    have ht := execFeed_underrun h hunderrun
    generalize takeSamples (fedSamples s) s = u at ht ⊢
    subst ht
    obtain ⟨-, hphase⟩ := feedCode_ne_ok herr
    rw [fedState_eq, if_pos hphase, if_pos hphase]

/-- Every effect of a command is a completion, of a state where at most FEED's two bits of INT_STATUS were set (R331). -/
theorem CommandEffect.finished {i : Instr} {s t : State} (h : CommandEffect s i t) : ∃ c u x, t = finish c u ∧
    u.intStatus = s.intStatus ||| x ∧ x &&& 0b10011#5 = 0 ∧ (x = 0 ∨ ∃ stop, i = .feed stop) := by
  cases h with
  | fed k hu =>
    obtain ⟨x, hx, hx0⟩ := hu.bits
    exact ⟨_, _, x, rfl, hx, hx0, .inr ⟨_, rfl⟩⟩
  | _ => exact ⟨_, _, 0, rfl, BitVec.or_zero.symm, rfl, .inl rfl⟩

/-- The bits FEED sets are RX_SUCCESS and RX_FAILURE only, bits 2 and 3. -/
theorem decoderBits_getLsbD_one {x : BitVec 5} (hx : x &&& 0b10011#5 = 0) : x.getLsbD 1 = false := by
  have h1 := congrArg (fun y : BitVec 5 => y.getLsbD 1) hx
  simpa using h1

/-- Settles O20: every effect of a command is a completion, which sets DONE, and ERROR as its code says;
only FEED sets other bits of INT_STATUS. -/
theorem everyCommandFinishes : Obligations.EveryCommandFinishes := by
  intro i s t h
  obtain ⟨hside, hbusy⟩ := exec_hostSide h
  obtain ⟨c, u, x, rfl, hu, hx, hfeed⟩ := (exec_effect h).finished
  have hbits (k : Nat) : (finish c u).intStatus.getLsbD k =
      (s.intStatus.getLsbD k || x.getLsbD k || (completionBits c).getLsbD k) := by
    rw [finish_intStatus, hu, BitVec.getLsbD_or, BitVec.getLsbD_or]
  have hhigh (k : Nat) (hk : k < 5) (h2 : 2 ≤ k) :
      (finish c u).intStatus.getLsbD k = (s.intStatus.getLsbD k || x.getLsbD k) := by
    rw [hbits, completionBits_getLsbD c k hk h2, Bool.or_false]
  refine ⟨hbusy, finish_sets_done c u, fun herr => ⟨finish_sets_error herr u, finish_error_resultLen herr u⟩,
    fun hok => ?_, ?_, fun hi => ?_, hside⟩
  · obtain rfl : c = .ok := hok
    rw [hbits, decoderBits_getLsbD_one hx, Bool.or_false]
    exact Bool.or_false _
  · rw [hhigh 4 (by decide) (by decide), decoderBits_getLsbD hx, Bool.or_false]
  · obtain rfl : x = 0 := hfeed.resolve_right fun ⟨stop, hstop⟩ => hi stop hstop
    exact ⟨(hhigh 2 (by decide) (by decide)).trans (Bool.or_false _),
      (hhigh 3 (by decide) (by decide)).trans (Bool.or_false _)⟩

/-! ## Why a command stops (R86, R91, R340) -/

/-- A range inside host memory that is not all there has a byte that does not respond. -/
theorem exists_absent {p : Platform} {r : Range} (h : p.allPopulated r = false) (hr : r.base + r.len ≤ 2 ^ 32) :
    ∃ a, p.isPopulated a = false ∧ r.contains a = true := by
  simp only [Platform.allPopulated, List.all_eq_false, List.mem_range, Bool.and_eq_true, decide_eq_true_eq, not_and] at h
  obtain ⟨j, hj, habsent⟩ := h
  refine ⟨r.base + j, ?_, (contains_iff ..).2 ⟨by omega, by omega⟩⟩
  by_contra hpop
  exact habsent (by simpa using hpop) (by simp [Config.addrSpace]; omega)

/-- So has a range inside host memory whose first `n` bytes are not all there. -/
theorem exists_absent_within {p : Platform} {r : Range} {n : Nat} (h : p.allPopulated ⟨r.base, n⟩ = false)
    (hn : n ≤ r.len) (hr : r.len = 0 ∨ r.base + r.len ≤ 2 ^ 32) :
    ∃ a, p.isPopulated a = false ∧ r.contains a = true := by
  have hpos : n ≠ 0 := by rintro rfl; cases h
  obtain ⟨a, ha, hin⟩ := exists_absent h (show r.base + n ≤ 2 ^ 32 by omega)
  rw [contains_iff] at hin
  exact ⟨a, ha, (contains_iff ..).2 ⟨hin.1, hin.2.trans_le (Nat.add_le_add_left hn _)⟩⟩

/-- A transfer faults for a byte it reads or a byte it writes, only (R86). -/
theorem transfer_fault {n : Nat} {f : List Byte → Except Code (List Byte)} {s : State} {r : Fault}
    (h : transfer n f s = .fault r) : r = .busError ∧ (s.plat.allPopulated ⟨s.src, n⟩ = false ∨
      ∃ out, f (inputBytes s n) = .ok out ∧ s.plat.allPopulated ⟨s.dst, out.length⟩ = false) := by
  cases hov : s.inputRange.overlaps s.outputRange with
  | true => cases (transfer_overlap hov).symm.trans h
  | false =>
    cases hr : s.plat.allPopulated ⟨s.src, n⟩ with
    | false => cases (transfer_unreadable hov hr).symm.trans h; exact ⟨rfl, .inl rfl⟩
    | true =>
      cases hf : f (inputBytes s n) with
      | error c => cases (transfer_error hov hr hf).symm.trans h
      | ok out =>
        cases hw : s.plat.allPopulated ⟨s.dst, out.length⟩ with
        | false => cases (transfer_unwritable hov hf hw).symm.trans h; exact ⟨rfl, .inr ⟨out, rfl, hw⟩⟩
        | true => cases (transfer_ok hov hr hf hw).symm.trans h

/-- A transfer is refused for overlapping ranges only (R91). -/
theorem transfer_refused {n : Nat} {f : List Byte → Except Code (List Byte)} {s : State} {r : Refusal}
    (h : transfer n f s = .refused r) : r = .bufferOverlap ∧ s.inputRange.overlaps s.outputRange = true := by
  unfold transfer at h
  split at h
  next hov => cases h; exact ⟨rfl, hov⟩
  · split at h
    · cases h
    · split at h
      · cases h
      · rw [writeOutput_eq] at h
        split at h <;> cases h

theorem inputBytesRead_le {i : Instr} {s : State} (h : inputSizeError i s = none) : inputBytesRead i s ≤ s.srcLen := by
  cases i with
  | spectrum => simpa [inputSizeError, inputBytesRead] using h
  | _ => exact le_rfl

/-- No check applying, a storing command is a transfer within its buffers (R82, R83). -/
theorem exec_eq_transfer_within {i : Instr} {s : State} (ho : usesOutput i = true) (h : firstFailure i s = none) :
    ∃ f, exec i s = transfer (inputBytesRead i s) f s ∧
      ∀ out, f (inputBytes s (inputBytesRead i s)) = .ok out → out.length ≤ s.dstCap := by
  obtain ⟨p, rfl⟩ | hrec := em (∃ p, i = .frameRecover p)
  · obtain ⟨hp, hexec, -⟩ := execFrameRecover_of_none h
    exact ⟨_, hexec, fun out hout => recoverInto_ok hout⟩
  · obtain ⟨f, hexec, hf⟩ := exec_eq_transfer ho h
    obtain ⟨out, hout, hlen⟩ := hf (not_exists.1 hrec)
    refine ⟨f, hexec, fun out' hout' => ?_⟩
    cases hout.symm.trans hout'
    exact hlen.trans_le (unchecked_of_none (usesInput_of_usesOutput ho) ho h).fits

/-- A command that stops passed the checks of R322 (log entry 6). -/
theorem firstFailure_of_stop {i : Instr} {s : State} (h : ∀ t, exec i s ≠ .next t) : firstFailure i s = none := by
  cases hf : firstFailure i s with
  | none => rfl
  | some c => exact absurd (exec_reports hf) (h _)

theorem exec_output_fault {i : Instr} {s : State} {r : Fault} (ho : usesOutput i = true) (h : exec i s = .fault r) :
    r = .busError ∧ ∃ a, s.plat.isPopulated a = false ∧
      (s.inputRange.contains a = true ∨ s.outputRange.contains a = true) := by
  have hnone : firstFailure i s = none := firstFailure_of_stop (by simp [h])
  have hu := unchecked_of_none (usesInput_of_usesOutput ho) ho hnone
  obtain ⟨f, hexec, hfits⟩ := exec_eq_transfer_within ho hnone
  obtain ⟨rfl, hread | ⟨out, hout, hwrite⟩⟩ := transfer_fault (hexec.symm.trans h)
  · obtain ⟨a, ha, hin⟩ := exists_absent_within (r := s.inputRange) hread (inputBytesRead_le hu.size) hu.input
    exact ⟨rfl, a, ha, .inl hin⟩
  · obtain ⟨a, ha, hin⟩ := exists_absent_within (r := s.outputRange) hwrite (hfits out hout) hu.output
    exact ⟨rfl, a, ha, .inr hin⟩

/-- A sample of FEED's input that is absent has a byte in the input range that does not respond (R86). -/
theorem absent_of_none_mem_inputSamples {s : State} (h : none ∈ inputSamples s)
    (hspace : s.srcLen = 0 ∨ s.src + s.srcLen ≤ 2 ^ 32) :
    ∃ a, s.plat.isPopulated a = false ∧ s.inputRange.contains a = true := by
  rw [inputSamples_eq_map] at h
  obtain ⟨j, hj, hsample⟩ := List.mem_map.1 h
  have hend : (j + 1) * s.cfg.sampleBytes ≤ s.srcLen :=
    (Nat.mul_le_mul_right _ (List.mem_range.1 hj)).trans (Nat.div_mul_le_self ..)
  rw [Nat.succ_mul] at hend
  have hpos : 0 < s.cfg.sampleBytes := by have := sampleBytes_eq s.cfg; omega
  have habsent : s.plat.allPopulated ⟨s.src + j * s.cfg.sampleBytes, s.cfg.sampleBytes⟩ = false := by
    unfold sampleAt at hsample
    split at hsample
    · cases hsample
    next hpop => exact Bool.eq_false_iff.2 hpop
  have hlast : s.src + j * s.cfg.sampleBytes + s.cfg.sampleBytes ≤ 2 ^ 32 := by omega
  obtain ⟨a, ha, hin⟩ := exists_absent habsent hlast
  rw [contains_iff] at hin
  refine ⟨a, ha, (contains_iff ..).2 ?_⟩
  show s.src ≤ a ∧ a < s.src + s.srcLen
  dsimp only at hin
  omega

/-- FEED's outcomes where it has no next state: a sample of its input is absent. -/
theorem execFeed_stops {stop : Bool} {s : State} (h : ∀ t, exec (.feed stop) s ≠ .next t) :
    exec (.feed stop) s = .fault .busError ∧ ∃ a, s.plat.isPopulated a = false ∧ s.inputRange.contains a = true := by
  obtain ⟨-, -, -, hspace, hexec⟩ := execFeed_of_none (firstFailure_of_stop h)
  by_cases hmem : none ∈ inputSamples s
  · refine ⟨?_, absent_of_none_mem_inputSamples hmem hspace⟩
    split at hexec
    · exact hexec
    · exact absurd hexec (h _)
  · obtain ⟨k, u, hloop⟩ := feedLoop_isSome (stop := stop) hmem 0 s
    rw [hloop] at hexec
    exact absurd hexec (h _)

/-- Settles O23: a storing command stops as its transfer does, FEED at an absent sample, and a command without buffers
never. -/
theorem commandsStopOnlyForTheirReasons : Obligations.CommandsStopOnlyForTheirReasons := by
  intro i s
  cases hi : usesInput i with
  | false =>
    have hnext : ∃ t, exec i s = .next t := by
      obtain ⟨c, -, hexec⟩ | ⟨-, t, hexec, -⟩ := exec_without_buffers hi s
      · exact ⟨_, hexec⟩
      · exact ⟨t, hexec⟩
    obtain ⟨t, hexec⟩ := hnext
    rw [hexec]
    exact ⟨nofun, nofun⟩
  | true =>
    cases ho : usesOutput i with
    | true =>
      refine ⟨fun r h => ?_, fun r h => ?_⟩
      · obtain ⟨hr, a, ha, hin⟩ := exec_output_fault ho h
        exact ⟨hr, a, ha, hin.imp (⟨rfl, ·⟩) (⟨rfl, ·⟩)⟩
      · obtain ⟨f, hexec, -⟩ := exec_eq_transfer_within (s := s) ho (firstFailure_of_stop (by simp [h]))
        obtain ⟨hr, hov⟩ := transfer_refused (hexec.symm.trans h)
        exact ⟨hr, rfl, rfl, hov⟩
    | false =>
      cases i with
      | feed stop =>
        refine ⟨fun r h => ?_, fun r h => ?_⟩
        · obtain ⟨hfault, a, ha, hin⟩ := execFeed_stops (stop := stop) (s := s) (by simp [h])
          cases hfault.symm.trans h
          exact ⟨rfl, a, ha, .inl ⟨rfl, hin⟩⟩
        · cases (execFeed_stops (stop := stop) (s := s) (by simp [h])).1.symm.trans h
      | nop | config | deconfig | profileQuery | decoderReset => cases hi
      | _ => cases ho

/-! ## The step that runs a command, and the write that issues it (R330 to R332) -/

/-- The sequencer's turn in a busy state is the latched command's execution. -/
theorem sequencerTurn_ok {s : State} {i : Instr} (hb : s.busy = true) (h : decode s.latch.cmd = .ok i) :
    sequencerTurn s = exec i s := (sequencerTurn_busy hb).trans (sequencerStep_ok h)

/-- Settles O6: the agenda decides that it is the sequencer's turn, and the turn is the command. -/
theorem stepRunsTheLatchedCommand : Obligations.StepRunsTheLatchedCommand := by
  refine ⟨fun s i hb hi => ⟨fun h => ?_, fun rest h => ?_⟩, fun s nbits w i hi => ?_⟩
  · rw [step_of_empty_agenda h, sequencerTurn_ok hb hi]
  · exact (step_of_action h).trans (sequencerTurn_ok (s := { s with agenda := rest }) hb hi)
  · exact (step_of_action rfl).trans (sequencerTurn_ok (s := issue (BitVec.ofNat 32 (w % 2 ^ nbits)) s) rfl hi)

/-- Settles O13: the window's offset 0x008 is CMD, and the write drops or issues by BUSY. -/
theorem cmdWriteIssuesOrDrops : Obligations.CmdWriteIssuesOrDrops := by
  intro v s
  rw [mmioWrite_cmd]
  refine ⟨fun hb => if_pos hb, fun hb hrace => ⟨issue v s, ?_, rfl, ?_⟩⟩
  · rw [writeCmd, if_neg (by simp [hb]), if_neg (by simp [hrace])]
  · rw [windowRead_status, statusWord_busy, issue_busy]

end Sys2Proof.Machine

/-! # Reset (R360) -/

namespace Sys2Proof.Machine

/-! ## The memory a reset leaves -/

theorem mem_outputOf {v : Word} {o : Operands} {r : Range} (h : r ∈ outputOf v o) :
    ∃ i, decode v = .ok i ∧ usesOutput i = true ∧ r = ⟨o.dstAddr.toNat, o.dstCap.toNat⟩ := by
  cases hd : decode v with
  | error e => simp [outputOf, hd] at h
  | ok i =>
    rw [outputOf_ok hd] at h
    split at h
    next hi => exact ⟨i, rfl, hi, List.mem_singleton.1 h⟩
    next => cases h

/-- The free bytes of an abandoned range leave every byte outside the range. -/
theorem read_store_scrambled_outside {r : Range} {a : Nat} (h : r.contains a = false) (p : Platform) (n : Nat) (m : Memory) :
    (m.store r.clip.base (scrambled p n m r.clip)).read a = m.read a := by
  apply read_store_outside
  have hout : ¬(r.base ≤ a ∧ a < r.base + r.len) := by rw [← contains_iff, h]; exact Bool.false_ne_true
  have hlen : r.clip.len ≤ r.len := min_le_left ..
  have hbase : r.clip.base = r.base := rfl
  rw [scrambled_length]
  omega

/-- A reset leaves every byte of host memory but those of a running command's output range. -/
theorem abandonOutput_read {s : State} {a : Nat} (h : s.busy = true → ∀ i, decode s.latch.cmd = .ok i → usesOutput i = true →
    s.outputRange.contains a = false) : (abandonOutput s).mem.read a = s.mem.read a := by
  refine List.foldlRecOn (motive := fun u : State => u.mem.read a = s.mem.read a) _ _ rfl fun u hu r hr => ?_
  have hout : r.contains a = false := by
    split at hr
    next hb =>
      obtain ⟨i, hd, hi, rfl⟩ := mem_outputOf hr
      exact h hb i hd hi
    next => cases hr
  exact (read_store_scrambled_outside hout u.plat u.freeCount u.mem).trans hu

/-! ## The reset values -/

/-- Settles O17: the block's fields are those of `State.resetBlock`, and the memory is the abandoned command's. -/
theorem platformResetLeavesTheSpecValues : Obligations.PlatformResetLeavesTheSpecValues := by
  refine ⟨fun s rest h => step_of_action h, fun s => ⟨?_, fun a h => abandonOutput_read h⟩⟩
  have hacc (g : Fin 2) (v : Fin 16) : (platformReset s).dec.acc[g][v] = 0 := BitVec.eq_of_toNat_eq (accZero_toNat g v)
  have hdata (k : Fin 144) : (platformReset s).rx.data[k] = 0 :=
    (publishedInv_of_reset (s := platformReset s) rfl).zeros k (Nat.zero_le _)
  exact ⟨rfl, rfl, rfl, rfl, rfl, rfl, rfl, rfl, rfl, rfl, rfl, rfl, rfl, rfl, rfl, rfl, hacc, rfl, rfl, rfl, rfl,
    rfl, rfl, rfl, rfl, rfl, hdata, rfl, rfl⟩

/-- Settles O56: memory lists nothing, no configuration is held, and the decoder and the published result are the reset ones. -/
theorem resetSatisfiesTheInvariants : Obligations.ResetSatisfiesTheInvariants := by
  have hmem : MemoryInv State.reset := (Memory.wf_iff []).2 ⟨.nil, nofun⟩
  have hconfig : ConfigInv State.reset := ⟨nofun, fun _ => ⟨rfl, rfl, rfl⟩⟩
  have hcodes : CodesInv State.reset := ⟨nofun, nofun⟩
  exact ⟨hmem, hconfig, decoderInv_of_reset rfl, publishedInv_of_reset rfl, hcodes⟩

end Sys2Proof.Machine
